-- ==== Sys2Proof/Word.lean ====
section
/-!
DEFINITION. The word types of the E9: bytes, 32-bit g values, 64-bit pairs and addresses, 32-byte sectors.
Spec: spec/00_scope.md R7, spec/04_memory_hierarchy.md R80.
-/
namespace Sys2Proof

/-- One byte of memory (R7). -/
abbrev Byte := BitVec 8
/-- The value of one g register (R80). -/
abbrev Word := BitVec 32
/-- A 64-bit value: a g pair, a system register, an address, a program counter (R92, R175, R194). -/
abbrev Dword := BitVec 64
/-- The 32 data bytes of one sector; byte 0 is bits 7:0 (R7, R79). -/
abbrev Sector := BitVec 256

end Sys2Proof
end

