-- ==== Sys2Proof/Syntax.lean ====
section
/-!
DEFINITION. Chiez as syntax, and the events of the E9: one constructor of Instr per row of spec/opcode_table.json.
A row that Chiez encodes carries the fields of its instruction word (R197), with each operand specifier already
decoded (R199). A row that is a step of another block of the part carries what tells one such step from another,
and what the outside world supplies to it.
-/
namespace Sys2Proof

/-- An operand specifier (R199). Codes 0xEA to 0xFE are reserved and have no constructor. -/
inductive Spec where
  /-- 0x00-0x7F: a g register, or the even register of a pair -/
  | g (n : BitVec 7)
  /-- 0x80-0x9F: a v register -/
  | v (n : BitVec 5)
  /-- 0xA0-0xA7: a predicate -/
  | p (n : BitVec 3)
  /-- 0xA8-0xAF: an accumulator tile of the group -/
  | acc (n : BitVec 3)
  /-- 0xB0-0xBF: a convergence register of the quadrant -/
  | cv (n : BitVec 4)
  /-- 0xC0-0xDF: a special value (R200) -/
  | sv (n : BitVec 5)
  /-- 0xE0-0xE7: a constant window with word offset EXT[16:0] -/
  | k (n : BitVec 3)
  /-- 0xE8: the immediate in EXT -/
  | imm
  /-- 0xE9: zero -/
  | zero
  /-- 0xFF: none -/
  | none
  deriving DecidableEq, Repr

/-- The fields of one instruction word but for OPC, which the constructor of Instr is (R197, R203). MOD is
kept as TYPE [11:8], RM [7:5] and SUB [4:0]. -/
structure Fields where
  /-- GUARD.NEG -/
  gneg : Bool
  /-- GUARD.PRED -/
  gpred : BitVec 3
  d : Spec
  a : Spec
  b : Spec
  c : Spec
  /-- MOD[11:8] -/
  ty : BitVec 4
  /-- MOD[7:5] -/
  rm : BitVec 3
  /-- MOD[4:0] -/
  sub : BitVec 5
  fn : BitVec 8
  ext : BitVec 32
  deriving DecidableEq, Repr

/-- One sector supplied from outside the package: data, side word, poison bit (R97). -/
structure SectorLit where
  data : Sector
  side : BitVec 16
  poison : Bool
  deriving DecidableEq, Repr

/-- Why units are pre-empted, in the order of R420. -/
inductive StopCause where
  | debug | partctl | suspend | slice
  deriving DecidableEq, Repr

/-- What Ibex's background work meets (R157, R467, R469). -/
inductive IbexEvent where
  /-- relocation, wear levelling, garbage collection: no visible change of data -/
  | relocate (page : Nat)
  /-- a program failure with a spare block, programmed elsewhere -/
  | programFailure (die : Nat)
  /-- an erase failure: the block leaves service -/
  | eraseFailure (die : Nat)
  /-- an uncorrectable sector of a published page, found without an access -/
  | uncorrectable (page offset : Nat)
  deriving DecidableEq, Repr

/-- The fabric manager's answer to the request with a key: a tree's identifier, or none is free (R359). -/
structure TreeReply where
  key : Dword
  tree : Option (BitVec 32)
  deriving DecidableEq, Repr

/-- The bytes of one boot slot, header first (R393). -/
abbrev BootSlot := List Byte

/-- One step of the E9: an instruction of Chiez or an event of another block (spec/opcode_table.json). -/
inductive Instr where
  /-- ISSUE_BUNDLE (R35): Each cycle each quadrant forms at most one bundle from ready threads of one context at one PC, led by the oldest or token-holding thread, and issues its instruction. -/
  | issueBundle (core quad : Nat) (left : BitVec 32)
  /-- ADD (R223): Integer addition with optional saturation. -/
  | add (w : Fields)
  /-- SUB (R223): Integer subtraction with optional saturation. -/
  | sub (w : Fields)
  /-- MUL (R223): Low half of an integer product. -/
  | mul (w : Fields)
  /-- MULH (R223): High half of a signed or unsigned integer product. -/
  | mulh (w : Fields)
  /-- MAD (R223): Integer multiply-add, optionally widening 32-bit sources to a 64-bit result. -/
  | mad (w : Fields)
  /-- DIV (R224): Integer division truncating toward zero, returning quotient or remainder, never trapping. -/
  | div (w : Fields)
  /-- MIN (R223): Integer minimum by signedness. -/
  | min (w : Fields)
  /-- MAX (R223): Integer maximum by signedness. -/
  | max (w : Fields)
  /-- ABS (R223): Signed absolute value with optional saturation. -/
  | abs (w : Fields)
  /-- LOP3 (R225): Applies an 8-bit truth table bitwise to three sources. -/
  | lop3 (w : Fields)
  /-- SHL (R223): Left shift giving zero for counts at or above the width. -/
  | shl (w : Fields)
  /-- SHR (R223): Right shift with sign or zero fill. -/
  | shr (w : Fields)
  /-- FSH (R226): Funnel shift of the double-width value formed by two sources, left or right, with modulo or clamped count. -/
  | fsh (w : Fields)
  /-- POPC (R223): Counts the one bits of a source. -/
  | popc (w : Fields)
  /-- CLZ (R223): Counts leading zero bits of a source. -/
  | clz (w : Fields)
  /-- BREV (R223): Reverses the bits of a source. -/
  | brev (w : Fields)
  /-- BFX (R227): Extracts a bit field given by position and length. -/
  | bfx (w : Fields)
  /-- BFI (R227): Inserts a bit field given by position and length. -/
  | bfi (w : Fields)
  /-- SEL (R223): Selects one of two sources by a predicate, carrying only the chosen source's poison. -/
  | sel (w : Fields)
  /-- MOV (R223): Copies a source with extension by type. -/
  | mov (w : Fields)
  /-- MOVI (R223): Writes an immediate, or with HI the upper register of a pair. -/
  | movi (w : Fields)
  /-- ADDR (R223): Computes a pair plus offset as an address without any access. -/
  | addr (w : Fields)
  /-- CMP (R228): Compares two integers and writes a predicate, optionally combined with another predicate. -/
  | cmp (w : Fields)
  /-- PLOP3 (R229): Applies a truth table to three predicates. -/
  | plop3 (w : Fields)
  /-- PMOV (R230): Packs predicates p0-p6 into a g register. -/
  | pmov (w : Fields)
  /-- PMOV_UNPACK (R230): Writes predicates from a g register under a mask. -/
  | pmovUnpack (w : Fields)
  /-- LXCH (R231): Signs a convergence register and exchanges values among the declared lanes by select, rotate, reverse or lead. -/
  | lxch (w : Fields)
  /-- VOTE (R232): Signs a convergence register and gives every signer the some, every, mask or count of a predicate over declared lanes. -/
  | vote (w : Fields)
  /-- TRAP (R233): Traps with cause TRAP and the immediate. -/
  | trap (w : Fields)
  /-- BKPT (R233): Traps with cause BKPT and the immediate. -/
  | bkpt (w : Fields)
  /-- BRA (R235): Branches to a line-relative target checked against the branch-target mask. -/
  | bra (w : Fields)
  /-- BRX (R235): Branches to the 64-bit target held in a pair. -/
  | brx (w : Fields)
  /-- CALL (R235): Branches to a target and writes the next PC into a link pair. -/
  | call (w : Fields)
  /-- RET (R235): Returns to the 64-bit target held in a pair. -/
  | ret (w : Fields)
  /-- EXIT (R236): Ends the thread, clears its convergence bits, re-evaluates barriers and completes its group and unit when last. -/
  | exit (w : Fields)
  /-- SPAWN (R37): Each lane requests a new group on the core, served in lane order, setting the result predicate on success. -/
  | spawn (w : Fields)
  /-- CANCEL (R30): Stops an instance of unit, launch, graph, phase or job at a cancel milestone, zeroing its counter and releasing its edges. -/
  | cancel (w : Fields)
  /-- CNTWAIT (R239): Continues if a counter word is at most the operand, otherwise waits in Counter state. -/
  | cntwait (w : Fields)
  /-- LAUNCH (R240): Copies a launch record into a launch queue slot and advances TAIL as one access, returning a status. -/
  | launch (w : Fields)
  /-- BAR (R241): Arrives at a named barrier, setting its target on first arrival, and waits with sync or continues with arrive. -/
  | bar (w : Fields)
  /-- CVDECL (R41): Declares a convergence register for the group with an effective lane mask. -/
  | cvdecl (w : Fields)
  /-- CVSIGN (R243): Signs a convergence register with an empty operation, acting as a group barrier. -/
  | cvsign (w : Fields)
  /-- ROWPASS (R45): Waits for the token, sets the passed bit and moves the token to the partner when all live threads have passed. -/
  | rowpass (w : Fields)
  /-- ROWWAIT (R45): Waits while the group lacks the right-of-way token or the thread's passed bit is set. -/
  | rowwait (w : Fields)
  /-- SLEEP (R245): Puts the thread in Sleep state for n clocks. -/
  | sleep (w : Fields)
  /-- YIELD (R245): Removes the thread from Ready for one cycle, restarting its age. -/
  | yield (w : Fields)
  /-- SLEEP_EXPIRY (R245): A sleeping thread's count expires and it becomes ready. -/
  | sleepExpiry (tid : Nat)
  /-- LD (R250): Loads an aligned integer or raw value of the type's width into a register or pair. -/
  | ld (w : Fields)
  /-- ST (R250): Stores the low bits of a register or pair to aligned memory. -/
  | st (w : Fields)
  /-- LDV (R251): Loads a sector with its side word and poison into a v register and sets its tag. -/
  | ldv (w : Fields)
  /-- STV (R251): Stores a v register's sector with side word and poison as one access. -/
  | stv (w : Fields)
  /-- LDC (R252): Loads from a constant window at a register-indexed offset. -/
  | ldc (w : Fields)
  /-- PREF (R253): Requests a line be brought to L1 or the LLC without waiting or taking a key. -/
  | pref (w : Fields)
  /-- TLD (R255): Reads one tile sector with side word and poison into a v register. -/
  | tld (w : Fields)
  /-- TST (R255): Writes one v register into a tile sector. -/
  | tst (w : Fields)
  /-- TSET_DEF (R256): Defines BASE and SIZE of an empty tile. -/
  | tsetDef (w : Fields)
  /-- TSET_READY (R256): Moves a defined empty tile to ready. -/
  | tsetReady (w : Fields)
  /-- TSET_EMPTY (R256): Moves a ready tile to empty once no issued instruction accesses it. -/
  | tsetEmpty (w : Fields)
  /-- TQRY (R256): Reads a tile-table entry. -/
  | tqry (w : Fields)
  /-- KVLD (R258): Reads each lane's KV sector through the residency map with a per-lane status, or prefetches it. -/
  | kvld (w : Fields)
  /-- KVAPP (R259): Appends up to 16 tokens to a sequence as a pool operation, allocating frames and trapping KV_SHARED on a shared tail. -/
  | kvapp (w : Fields)
  /-- KVFORK (R118): Makes a free destination sequence live with a copy of the source's page list, raising each frame's REF. -/
  | kvfork (w : Fields)
  /-- KVREL (R118): Releases a sequence, lowering each listed frame's REF. -/
  | kvrel (w : Fields)
  /-- PFXHASH (R261): Computes the chained block hash from a previous hash and 16 token IDs. -/
  | pfxhash (w : Fields)
  /-- PFXFIND (R127): Looks up the prefix table by hash, depth and tokens, returning a handle or 0. -/
  | pfxfind (w : Fields)
  /-- PFXINS (R126): Inserts a full frame into the prefix table, replacing by pair or least age. -/
  | pfxins (w : Fields)
  /-- PIN (R118): Raises a frame's pin count and begins migration of an evicted frame. -/
  | pin (w : Fields)
  /-- UNPIN (R118): Lowers a frame's pin count. -/
  | unpin (w : Fields)
  /-- KVLINK (R118): Appends an existing frame to a sequence at a 16-token boundary, raising its REF. -/
  | kvlink (w : Fields)
  /-- ATOM (R262): Performs an atomic read-modify-write on a word, lanes combined in ascending order. -/
  | atom (w : Fields)
  /-- MXAADD (R265): Adds an MX block into a memory block and requantises it as one access at the LLC slice. -/
  | mxaadd (w : Fields)
  /-- TBEGIN (R266): Begins a transaction after checking its abort target. -/
  | tbegin (w : Fields)
  /-- TEND (R266): Sends the read and write sets for commit and waits for commit or abort. -/
  | tend (w : Fields)
  /-- TABORT (R266): Aborts the running transaction with EXPLICIT and a code. -/
  | tabort (w : Fields)
  /-- TSTAT (R267): Reads the thread's transaction status word. -/
  | tstat (w : Fields)
  /-- TRANSACTION_COMMIT (R143): Commit units lock sectors in address order, validate the read set by value and write the write set at one milestone or abort. -/
  | transactionCommit (tid : Nat)
  /-- FENCE_ENGINE (R138): Waits until earlier accesses are performed so later engine commands issue after them. -/
  | fenceEngine (w : Fields)
  /-- FENCE_FABRIC (R139): Waits until every earlier PUT of the thread is acknowledged. -/
  | fenceFabric (w : Fields)
  /-- FENCE_ALL (R269): Performs both the engine and fabric fences. -/
  | fenceAll (w : Fields)
  /-- CHAPP (R270): Reads a chain entry, links it at the chain tail, assigns its sequence number and delivers it to the bound engine. -/
  | chapp (w : Fields)
  /-- CHWAIT (R271): Continues if a completion sequence word reaches the operand, otherwise waits in Counter state. -/
  | chwait (w : Fields)
  /-- GSUM (R272): Returns an element of the line summed over all replicas of a replicated region. -/
  | gsum (w : Fields)
  /-- FADD (R276): Floating-point addition with one rounding. -/
  | fadd (w : Fields)
  /-- FMUL (R276): Floating-point multiplication with one rounding. -/
  | fmul (w : Fields)
  /-- FFMA (R276): Fused multiply-add with one rounding. -/
  | ffma (w : Fields)
  /-- FMIN (R277): Floating-point minimum returning an operand unchanged. -/
  | fmin (w : Fields)
  /-- FMAX (R277): Floating-point maximum returning an operand unchanged. -/
  | fmax (w : Fields)
  /-- FCMP (R278): Floating-point comparison writing a predicate. -/
  | fcmp (w : Fields)
  /-- FRCP (R279): Correctly rounded reciprocal. -/
  | frcp (w : Fields)
  /-- FRSQ (R279): Correctly rounded reciprocal square root. -/
  | frsq (w : Fields)
  /-- FEXP2 (R280): Writes exp2_e9 of an FP32 operand. -/
  | fexp2 (w : Fields)
  /-- FLOG2 (R279): Correctly rounded base-2 logarithm. -/
  | flog2 (w : Fields)
  /-- FRND (R281): Rounds to an integral value in the same float type. -/
  | frnd (w : Fields)
  /-- CVT (R282): Converts between integer and float types with rounding or saturation. -/
  | cvt (w : Fields)
  /-- VADD (R285): Element-wise sector addition with rounding, wrap, saturation or MX requantisation. -/
  | vadd (w : Fields)
  /-- VMUL (R285): Element-wise sector multiplication. -/
  | vmul (w : Fields)
  /-- VFMA (R285): Element-wise sector fused multiply-add. -/
  | vfma (w : Fields)
  /-- VMIN (R285): Element-wise sector minimum. -/
  | vmin (w : Fields)
  /-- VMAX (R285): Element-wise sector maximum. -/
  | vmax (w : Fields)
  /-- VRED (R286): Reduces a sector's elements by exact sum, minimum or maximum into a g register. -/
  | vred (w : Fields)
  /-- VCVT (R288): Converts a part of a sector between tags. -/
  | vcvt (w : Fields)
  /-- VQUANT (R289): Quantises consecutive v registers into one MX sector with an optional absolute-maximum fold. -/
  | vquant (w : Fields)
  /-- VSPLAT (R291): Writes a g value into every element of a sector. -/
  | vsplat (w : Fields)
  /-- VEXT (R291): Extracts one element of a sector into a g register. -/
  | vext (w : Fields)
  /-- VINS (R291): Inserts a g value into one element of a sector. -/
  | vins (w : Fields)
  /-- VSIDE_GET (R292): Reads a v register's side word into a g register. -/
  | vsideGet (w : Fields)
  /-- VSIDE_SET (R292): Writes a v register copy with a new side word. -/
  | vsideSet (w : Fields)
  /-- VTAG (R292): Copies a v register with a new format tag. -/
  | vtag (w : Fields)
  /-- VDOT (R287): Exact dot product of two sectors plus an accumulator with one rounding. -/
  | vdot (w : Fields)
  /-- MMA (R299): Signs a convergence register and, when the round issues, adds A times B into an accumulator tile on the matrix engine. -/
  | mma (w : Fields)
  /-- MMA_PASS_COMPLETE (R301): At the end of a 64-clock MMA pass the checksums are compared, writing the accumulator, starting a second pass, or failing with MATRIX_CHECK. -/
  | mmaPassComplete (core quad : Nat) (agree : Bool)
  /-- ACLR (R306): Resets the thread's owned accumulator rows. -/
  | aclr (w : Fields)
  /-- ALOAD (R308): Loads owned accumulator rows from a row image in tile or memory. -/
  | aload (w : Fields)
  /-- ADRAIN (R309): Writes owned accumulator rows as a row image in a format, with an optional fold. -/
  | adrain (w : Fields)
  /-- SOFTSTEP (R304): Signs a convergence register and, when issued, applies a streaming softmax step to a score tile, updating O, m, l and writing P. -/
  | softstep (w : Fields)
  /-- SOFTSTEP_COMPLETE (R302): The softmax unit finishes its 64-clock step and frees the busy tiles. -/
  | softstepComplete (core quad : Nat)
  /-- ARESCALE (R310): Raises each owned row's maximum and rescales its sums. -/
  | arescale (w : Fields)
  /-- SMERGE (R311): Merges two softmax row states into the destination. -/
  | smerge (w : Fields)
  /-- ANORM (R312): Divides each owned row by its denominator. -/
  | anorm (w : Fields)
  /-- AROW (R313): Reads an owned row's m and l, or its state and poison. -/
  | arow (w : Fields)
  /-- ASTAT (R314): Reads the group or quadrant matrix check counter. -/
  | astat (w : Fields)
  /-- CSRR (R320): Reads a system register into a pair. -/
  | csrr (w : Fields)
  /-- CSRW (R320): Writes a system register that has no behaviour of its own. -/
  | csrw (w : Fields)
  /-- MCALL (R323): Posts a call record to the kernel's or monitor's ring and waits for a reply. -/
  | mcall (w : Fields)
  /-- MRET (R324): Writes a reply into the waiting caller named by a tag and makes it ready. -/
  | mret (w : Fields)
  /-- ERET (R50): Returns from handler or kernel level to the PC in EXC_EPC. -/
  | eret (w : Fields)
  /-- SAVECTX (R328): Writes the served context's thread image to memory. -/
  | savectx (w : Fields)
  /-- LOADCTX (R329): Loads a thread image into the user context. -/
  | loadctx (w : Fields)
  /-- INVAL_LINE (R330): Writes back and removes lines of a range from every L1, the LLC and instruction paths. -/
  | invalLine (w : Fields)
  /-- INVAL_XLT (R330): Removes cached translations of pages, then acts as the line form under the old translation. -/
  | invalXlt (w : Fields)
  /-- INVAL_FRAME (R330): Returns owner records of frames to free. -/
  | invalFrame (w : Fields)
  /-- HALT (R331): Stops the hardware thread until PEND is set or a partition ring receives a record. -/
  | halt (w : Fields)
  /-- IPI (R331): Sets a target hardware thread's PEND and ends its sleep or halt. -/
  | ipi (w : Fields)
  /-- PARTCTL_CREATE (R355): Creates a partition with its service core. -/
  | partctlCreate (w : Fields)
  /-- PARTCTL_DESTROY (R355): Destroys an idle partition, freeing and zeroing its holdings. -/
  | partctlDestroy (w : Fields)
  /-- PARTCTL_RESET (R475): Resets a partition at the reset milestone, cancelling launches and starting its stop. -/
  | partctlReset (w : Fields)
  /-- PARTCTL_CORES (R355): Assigns fixed or pooled compute cores and general cores. -/
  | partctlCores (w : Fields)
  /-- PARTCTL_CHAN (R355): Assigns HBM4E channels. -/
  | partctlChan (w : Fields)
  /-- PARTCTL_QUEUES (R355): Assigns launch queues. -/
  | partctlQueues (w : Fields)
  /-- PARTCTL_COLOURS (R355): Assigns LLC colours to a partition or the commons. -/
  | partctlColours (w : Fields)
  /-- PARTCTL_CARVE (R462): Changes a partition's carved LLC ways. -/
  | partctlCarve (w : Fields)
  /-- PARTCTL_QUOTA (R355): Sets KV frames, streams, flash pages, LPDDR-6 frames, weight and quantum. -/
  | partctlQuota (w : Fields)
  /-- PARTCTL_START (R356): Writes XLT_ASTAB and starts the service core at the kernel entry. -/
  | partctlStart (w : Fields)
  /-- POOLCTL_COW (R118): Copies a shared tail frame to a new frame for the sequence. -/
  | poolctlCow (w : Fields)
  /-- POOLCTL_SEQNEW (R333): Makes a free sequence descriptor live with a capacity. -/
  | poolctlSeqnew (w : Fields)
  /-- POOLCTL_SEQCAP (R333): Sets the capacity of a free descriptor, reserving its list. -/
  | poolctlSeqcap (w : Fields)
  /-- POOLCTL_RDFRAME (R333): Writes a snapshot of a frame descriptor to memory. -/
  | poolctlRdframe (w : Fields)
  /-- POOLCTL_RDSEQ (R333): Writes a snapshot of a sequence descriptor and page list to memory. -/
  | poolctlRdseq (w : Fields)
  /-- POOLCTL_RDPFX (R333): Writes a snapshot of the 64 prefix entries to memory. -/
  | poolctlRdpfx (w : Fields)
  /-- QUEUE_ENABLE_WRITE (R56): A write of SCHED_QCTL EN enables a queue after the capacity check, clearing ERR, or disables it. -/
  | queueEnableWrite (queue : Nat) (value : Dword)
  /-- QUEUE_TAIL_WRITE (R56): A write of SCHED_QTAIL advances the tail, stopping the queue if it exceeds capacity. -/
  | queueTailWrite (queue : Nat) (value : Dword)
  /-- FAULT_RESOLVE_MAPPED (R110): XLT_FRES mapped walks the page again and makes it present, or posts a new record. -/
  | faultResolveMapped (part space page : Nat)
  /-- FAULT_RESOLVE_DENIED (R110): XLT_FRES denied traps held loads, fails waiting commands and discards side-log entries fatally. -/
  | faultResolveDenied (part space page : Nat)
  /-- RDET_CLEAR (R146): Writing RDET_CTL CLR clears every shadow entry of the partition. -/
  | rdetClear (part : Nat)
  /-- RDET_ENABLE (R463): Writing RDET_CTL EN from 0 to 1 enables the detector and clears the partition's shadow entries. -/
  | rdetEnable (part : Nat)
  /-- FWSTAT_CLEAR (R156): Writing IBX_FWSTAT CLR zeroes the flash-wait count and maximum. -/
  | fwstatClear (part : Nat)
  /-- ERR_CCNT_CLEAR (R410): Writing ERR_CCNT CLR zeroes the corrected error count. -/
  | errCcntClear (part : Nat)
  /-- SLSTAT_CLEAR (R452): Writing XLT_SLSTAT CLR zeroes side-log waits and peak. -/
  | slstatClear (part : Nat)
  /-- STREAM_ENABLE (R159): Writing APP_SCTL EN with 1 enables an append stream if its ring is valid and disjoint. -/
  | streamEnable (part stream : Nat)
  /-- STREAM_DISABLE (R159): Writing APP_SCTL EN with 0 disables a stream with no open group and unbinds its chain. -/
  | streamDisable (part stream : Nat)
  /-- DBG_HALT (R427): DBG_CMD HALT pre-empts every placed unit of a launch with cause debug and builds a directory. -/
  | dbgHalt (part ctx : Nat)
  /-- DBG_RESUME (R428): DBG_CMD RESUME checks and places the halted launch's units again. -/
  | dbgResume (part ctx : Nat)
  /-- DBG_STEP (R429): DBG_CMD STEP restores the launch, lets each ready thread issue one instruction and halts it again. -/
  | dbgStep (part ctx : Nat)
  /-- LAUNCH_VALIDATE (R63): A record reaching HEAD is read and validated, refused with a status, or held for a dependence or a missing page. -/
  | launchValidate (queue : Nat)
  /-- LAUNCH_ACCEPT (R65): An eligible validated launch is accepted, receiving a CID, its counter and status written and HEAD advanced. -/
  | launchAccept (queue : Nat)
  /-- UNIT_DEAL (R67): The scheduler deals the next dealable unit by priority and deficit round robin, to a unit queue or a share-set core. -/
  | unitDeal
  /-- UNIT_PLACE (R68): A core places a unit whole, allocating slots, registers, accumulators, tile store and barriers, saved units first. -/
  | unitPlace (core : Nat)
  /-- BALANCE_EXCHANGE (R71): Every 1,024 clocks cores sample unit-queue depths and move youngest entries to ring successors beyond THRESH. -/
  | balanceExchange (part : Nat)
  /-- LAUNCH_COMPLETION (R66): When LAUNCH_CNT reaches zero or a launch is cancelled, the status word, edges and enclosing counter are written in order. -/
  | launchCompletion (cid : Nat)
  /-- PREEMPTION_STOP (R75): A pre-emption takes effect at a stop milestone and engines stop at their units. -/
  | preemptionStop (part : Nat) (cores : BitVec 32) (cause : StopCause)
  /-- PREEMPTION_COMPLETE (R75): When every engine has acknowledged, contexts are saved and the pre-emption completes. -/
  | preemptionComplete (part : Nat)
  /-- COLLECTOR_TIMEOUT_REPORT (R423): A collector still waiting 1 ms after the stop reports KIND 0x13. -/
  | collectorTimeoutReport (part : Nat)
  /-- COLLECTOR_TIMEOUT_FATAL (R423): At 10 ms the unacknowledged partition becomes fatal to partition and the stop completes for others. -/
  | collectorTimeoutFatal (part : Nat)
  /-- TIME_SLICE_EXPIRY (R78): A pool turn expires or ends early, pre-empting the holder's units and passing the cores to the next partition. -/
  | timeSliceExpiry (pool : BitVec 32)
  /-- STALL_TIMEOUT (R430): A unit stalled for 2^20 clocks makes its launch fatal to context. -/
  | stallTimeout (unit : Nat)
  /-- MILESTONE_SYNC (R132): Every 1,024 clocks each source raises its milestone to at least the largest held at the previous instant. -/
  | milestoneSync
  /-- FAULT_RECORD_POST (R109): The agent posts a fault record for a page, waiting while the ring is full. -/
  | faultRecordPost (index : Nat)
  /-- EVICTION_MARK (R122): The eviction engine marks the oldest unpinned resident frame and copies it to LPDDR-6. -/
  | evictionMark (part : Nat)
  /-- EVICTION_COMMIT (R122): After the copy the frame becomes evicted and its HBM4E frame freed, or returns to resident. -/
  | evictionCommit (part handle : Nat)
  /-- MIGRATION_COMPLETE (R122): A migration's copy finishes and the frame becomes resident. -/
  | migrationComplete (part handle : Nat)
  /-- COMMAND_ISSUE (R336): An engine issues the next command of a chain by round robin, registering its range locks at mi. -/
  | commandIssue (engine : Nat)
  /-- COMMAND_COMPLETE (R341): A command completes with a status, writing its record, ERR and completion sequence and releasing locks. -/
  | commandComplete (cmd : Nat)
  /-- COPY (R339): Copies a local or remote sector range to a destination. -/
  | copy (cmd : Nat)
  /-- GATHER (R339): Gathers listed elements into a packed range. -/
  | gather (cmd : Nat)
  /-- SCATTER (R339): Scatters a packed range to listed addresses. -/
  | scatter (cmd : Nat)
  /-- FILL (R339): Fills a sector range with a pattern and side word. -/
  | fill (cmd : Nat)
  /-- TFILL (R340): Fills a tile from memory rows and makes it ready. -/
  | tfill (cmd : Nat)
  /-- TFILL_KV (R340): Fills a tile from KV positions resolved through the residency map. -/
  | tfillKv (cmd : Nat)
  /-- TDRAIN (R340): Drains a ready tile to memory rows and empties it. -/
  | tdrain (cmd : Nat)
  /-- PUT (R139): Writes a local range into a remote range, completing after acknowledgement. -/
  | put (cmd : Nat)
  /-- APPEND (R162): Places an extent in the stream ring and copies the source into it within an open group. -/
  | append (cmd : Nat) (media : Bool)
  /-- SEAL (R162): Waits for earlier commands, then makes a group durable and published, or discards it. -/
  | seal (cmd : Nat)
  /-- SBAR (R162): Records named streams' chain tails as a durability barrier across streams. -/
  | sbar (cmd : Nat)
  /-- TRIM (R162): Frees published pages of a log-region range at the trim milestone. -/
  | trim (cmd : Nat)
  /-- SEAL_DURABLE (R165): The group's extents and seal record are programmed, reaching the durability point. -/
  | sealDurable (cmd : Nat) (media : Bool)
  /-- PUT_ACKNOWLEDGE (R139): A remote package acknowledges a PUT as performed. -/
  | putAcknowledge (cmd : Nat)
  /-- FABRIC_INGRESS_PUT (R139): A PUT from another package is performed locally at source 170. -/
  | fabricIngressPut (part home frame offset : Nat) (data : List SectorLit)
  /-- REMOTE_READ_SERVE (R349): A remote package's line read is served in this package's order. -/
  | remoteReadServe (part home frame offset : Nat)
  /-- REMOTE_LINE_RETURN (R145): A remote or GSUM line arrives and fills the fabric cache, completing the waiting load. -/
  | remoteLineReturn (request : Nat) (data : List SectorLit)
  /-- REMOTE_REQUEST_TIMEOUT (R471): A remote request unacknowledged for 100 ms fails, poisoning loads or giving REMOTE, and closes the context. -/
  | remoteRequestTimeout (request : Nat)
  /-- TRANSPORT_CLOSE_NOTICE (R472): A peer's close notice closes the transport context and fails its outstanding requests. -/
  | transportCloseNotice (part pkg : Nat)
  /-- TRANSPORT_PROBE (R472): Every 1 s a closed context probes its peer and reopens on answer. -/
  | transportProbe (part pkg : Nat) (answered : Bool)
  /-- PARTITION_RESET_COMPLETE (R475): After the stop, streams, trees, mappings, pool and registers are reset and a record goes to partition 0. -/
  | partitionResetComplete (part : Nat)
  /-- CORE_IDLE_ENTRY (R398): A core without units or commands for 4,096 clocks gates its clock. -/
  | coreIdleEntry (core : Nat)
  /-- CHANNEL_CLEARED (R355): The zeroing of channels and LPDDR-6 frames released by Destroy completes, after which they may be assigned again. -/
  | channelCleared (part : Nat)
  /-- PORT_FAILURE (R471): A failed SerDes lane takes its port out of service and packets are resent on other ports. -/
  | portFailure (lane : Nat)
  /-- CHUNK_FIRE (R345): At a unit's exit the engine reads its result tile, reduces the chunk locally and fires it when the chunk's last unit has exited. -/
  | chunkFire (unit : Nat)
  /-- CHUNK_ARRIVAL (R346): A reduced chunk from the tree is written at the result base and decrements the arrival counter. -/
  | chunkArrival (cid chunk : Nat) (data : List SectorLit)
  /-- TREE_REVOKE (R474): The fabric manager revokes a tree and every bound collective fails. -/
  | treeRevoke (tree : Nat)
  /-- TREE_GRANT_REPLY (R359): The fabric manager answers a tree request with an identifier or NOSLOT and the caller is replied to. -/
  | treeGrantReply (part : Nat) (reply : TreeReply)
  /-- TREEREQ (R359): Ring-1 call forwarding a tree request to the fabric manager. -/
  | treereq (part : Nat)
  /-- TREEREL (R358): Ring-1 call releasing a tree identifier. -/
  | treerel (part : Nat)
  /-- IBXSCAN (R358): Ring-1 call writing a stream's extent records from a SERIAL onwards. -/
  | ibxscan (part : Nat)
  /-- IBXLEN (R358): Ring-1 call returning the number of a stream's extent records. -/
  | ibxlen (part : Nat)
  /-- UNKNOWN_CALL (R358): A ring-1 call with an unlisted CALL is answered UNKNOWN. -/
  | unknownCall (part : Nat)
  /-- FLASH_WAIT_NOTICE (R153): Ibex reports a busy line and waiting threads move to Flash state. -/
  | flashWaitNotice (tag line : Nat)
  /-- FLASH_LINE_ARRIVAL (R152): A flash line arrives in the LLC and waiting threads become ready with results. -/
  | flashLineArrival (tag line : Nat) (damaged : BitVec 4)
  /-- FLASH_PREFETCH_LINE (R152): Another line of the page streams into the LLC as a prefetch. -/
  | flashPrefetchLine (tag line : Nat)
  /-- FLASH_WAIT_REPORT (R466): A flash wait reaching 2 ms is reported once. -/
  | flashWaitReport (tag line die : Nat)
  /-- FLASH_WAIT_TIMEOUT (R466): A line not arrived after 100 ms completes as uncorrectable and waiters become ready. -/
  | flashWaitTimeout (tag line die : Nat)
  /-- IBEX_MAINTENANCE (R157): Ibex relocates, levels wear, collects garbage and remaps failed blocks without visible data change. -/
  | ibexMaintenance (part : Nat) (event : IbexEvent)
  /-- SUSPEND (R396): Mailbox request commanding a suspend with an optional wake timer. -/
  | suspend
  /-- QUOTE (R395): Mailbox request producing a signed quote over a nonce and measurements. -/
  | quote
  /-- RETIRE (R415): Mailbox request retiring a unit at run time and adding it to the sealed list. -/
  | retire
  /-- EXTEND (R394): Mailbox request extending measurement value 4 to 7 with data. -/
  | extend
  /-- MAILBOX_UNKNOWN (R396): A mailbox request with an unknown OP is answered 0xFF. -/
  | mailboxUnknown
  /-- SUSP_N (R399): SUSP_N held low for 10 ms commands a suspend. -/
  | suspN
  /-- MANAGEMENT_SUSPEND (R399): A signed management message commands a suspend. -/
  | managementSuspend
  /-- MANAGEMENT_QUOTE (R395): A management request produces a quote. -/
  | managementQuote (nonce : List Byte)
  /-- SUSPEND_SAVE (R21): After the stop, contexts, carve-out, side logs and chunks are saved, memories enter self-refresh and power is removed into Retention. -/
  | suspendSave (selfRefreshOk : Bool)
  /-- SUSPEND_COLLECTOR_TIMEOUT (R478): At 1.5 s unacknowledged partitions become fatal and the suspend continues. -/
  | suspendCollectorTimeout
  /-- SUSPEND_DEADLINE (R478): Retention not reached at 2.0 s abandons the suspend and returns to running. -/
  | suspendDeadline
  /-- WAKE_N (R399): WAKE_N held low for 10 ms begins a resume. -/
  | wakeN (recordOk : Bool)
  /-- WAKE_TIMER_EXPIRY (R399): The wake timer expires in Retention and a resume begins. -/
  | wakeTimerExpiry (recordOk : Bool)
  /-- RESUME_DEADLINE (R479): Running not reached within 2.5 s posts a record while the resume continues. -/
  | resumeDeadline
  /-- RESUME_PARTICIPANT_TIMEOUT (R479): A tree participant not resumed within 10 s fails the bound collectives. -/
  | resumeParticipantTimeout (tree : Nat)
  /-- COLD_BOOT (R392): RESET_N deasserts and the Chamois ROM self-tests, verifies a slot, powers dies, restores streams and starts the Oryx core. -/
  | coldBoot (lockstepOk : Bool) (recoverN : Bool)
  /-- RESET_N_ASSERT (R400): RESET_N asserted discards the resume record and leads to a cold boot. -/
  | resetNAssert
  /-- RECOVERY_IMAGE (R393): In recovery a signed slot image received over management is written and boot restarts. -/
  | recoveryImage (slot : BootSlot)
  /-- POWER_LOSS (R166): Power is lost, discarding unsealed groups and leading to cold boot. -/
  | powerLoss
  /-- CLOCK_STEP_DOWN (R401): Power over 3,600 W for 1 s or a junction over 100 °C steps the compute clock down one entry. -/
  | clockStepDown
  /-- CLOCK_STEP_UP (R401): After 100 ms below 3,400 W and 95 °C the clock steps up one entry. -/
  | clockStepUp
  /-- THERMAL_TRIP (R402): A die at 115 °C removes power from every die but the Chamois pair, fatal to device. -/
  | thermalTrip (die : Nat)
  /-- THERMAL_ALERT (R402): A junction reaching 95 °C asserts ALERT_N. -/
  | thermalAlert
  /-- LOCKSTEP_MISMATCH (R409): A Chamois lock-step mismatch is fatal to device. -/
  | lockstepMismatch
  /-- ERROR_RECORD_POST (R412): The Chamois pair posts an error record to a partition queue and a summary to partition 0, dropping with OVF when full. -/
  | errorRecordPost
  /-- CORRECTED_SUMMARY (R412): At the end of each 1 s window one class-0 record carries the count of corrected errors per kind and unit. -/
  | correctedSummary (part : Nat)
  /-- PATROL_SCRUB (R465): A scrub visit corrects or poisons a sector found in error. -/
  | patrolScrub (home frame offset : Nat) (correctable : Bool)
  /-- MILESTONE_ADVANCE (R132): Each source's current milestone rises by at least 1 every 16 clocks it runs, so that leases granted on L1 copies lapse. -/
  | milestoneAdvance (source : Nat)
  /-- GSUM_LINE_REQUEST (R348): A GSUM line request arriving from the tree makes this replica contribute its local line of the replicated region as it stands at arrival. -/
  | gsumLineRequest (part tree offset : Nat)
  deriving DecidableEq, Repr

end Sys2Proof
end

