-- ==== Sys2Proof/Machine/Shapes.lean ====
section
/-!
DEFINITION. The static shape of every Chiez instruction: which specifier classes each field accepts, which TYPE,
RM, SUB, FN and EXT values are allocated (R182, R202 to R204 and the tables R222, R234, R249, R254, R257, R262,
R264, R266, R269 to R272, R275, R284, R297, R319). A word that breaks its shape is ILLEGAL_OPCODE (R202, R436).
-/
namespace Sys2Proof

/-- The operand uses EXT (R202). -/
def Spec.usesExt : Spec → Bool
  | .k _ => true
  | .imm => true
  | _ => false

/-- v registers a field reaches, counted from v0. -/
def Spec.vReach : Spec → Nat
  | .v n => n.toNat + 1
  | _ => 0

/-- The v register number a specifier names. -/
def Spec.vNum : Spec → Nat
  | .v n => n.toNat
  | _ => 0

/-- The g register number a specifier names. -/
def Spec.gNum : Spec → Nat
  | .g n => n.toNat
  | _ => 0

/-- The accumulator number a specifier names. -/
def Spec.accNum : Spec → Nat
  | .acc n => n.toNat
  | _ => 0

end Sys2Proof
namespace Sys2Proof.Machine

/-- The specifier classes one field accepts. `pair` accepts an even g register naming a pair (R175), and makes a
constant operand a 64-bit one (R201). -/
structure Rule where
  g : Bool := false
  pair : Bool := false
  v : Bool := false
  p : Bool := false
  acc : Bool := false
  cv : Bool := false
  sv : Bool := false
  k : Bool := false
  imm : Bool := false
  zero : Bool := false
  none : Bool := false
  deriving DecidableEq, Repr

/-- The shape of one instruction word. -/
structure Shape where
  opc : BitVec 8
  d : Rule
  a : Rule
  b : Rule
  c : Rule
  /-- TYPE, RM and SUB hold allocated values -/
  modOk : Bool
  /-- FN holds an allocated value -/
  fnOk : Bool
  /-- the form takes EXT, so no operand may use it (R202, R203) -/
  extTaken : Bool
  /-- EXT bits the form gives a meaning; consulted only where the form takes EXT -/
  extMask : BitVec 32
  /-- the instruction names a convergence register, so GUARD is 0b0111 (R198) -/
  conv : Bool := false
  /-- further static conditions of the instruction's own description -/
  more : Bool := true
  /-- g registers the instruction reaches beyond its fields, from lowG up to needG (R38, R302) -/
  lowG : Nat := 0
  needG : Nat := 0
  /-- v registers the instruction reaches beyond its fields, counted from v0 (R289, R298) -/
  needV : Nat := 0
  deriving DecidableEq, Repr


/-- A field accepts a specifier (R199, R202). -/
def Rule.accepts (r : Rule) (ext : BitVec 32) : Spec → Bool
  | .g n => r.g || (r.pair && !n.getLsbD 0)
  | .v _ => r.v
  | .p _ => r.p
  | .acc _ => r.acc
  | .cv _ => r.cv
  | .sv n => r.sv && decide (n.toNat ≤ 0x19)
  | .k _ => r.k && (!r.pair || !ext.getLsbD 0)
  | .imm => r.imm
  | .zero => r.zero
  | .none => r.none

/-- Registers a field reaches, counted from g0: two for a pair. -/
def Rule.gReach (r : Rule) : Spec → Nat
  | .g n => n.toNat + (if r.g then 1 else 2)
  | _ => 0


-- The rules by name, as the tables write them.
def rNone : Rule := { none := true }
def rG : Rule := { g := true }
def rPair : Rule := { pair := true }
def rPairZ : Rule := { pair := true, zero := true }
def rV : Rule := { v := true }
def rVz : Rule := { v := true, zero := true }
def rP : Rule := { p := true }
def rAcc : Rule := { acc := true }
def rCv : Rule := { cv := true }
def rGz : Rule := { g := true, zero := true }
def rGi : Rule := { g := true, imm := true }
def rGs : Rule := { g := true, sv := true }
def rGsz : Rule := { g := true, sv := true, zero := true }
/-- Any class that carries a 32-bit g value (R222). -/
def rSrc : Rule := { g := true, sv := true, k := true, imm := true, zero := true }
/-- Any class that carries a g value, 64 bits wide when `w64` (R219). -/
def rSrcW (w64 : Bool) : Rule :=
  { g := !w64, pair := w64, sv := true, k := true, imm := true, zero := true }
/-- A g destination, a pair when `w64`. -/
def rDstW (w64 : Bool) : Rule := { g := !w64, pair := w64 }
/-- The same rule, with 0xFF accepted. -/
def Rule.orNone (r : Rule) : Rule := { r with none := true }

/-- Type codes .i64 and .n64 (R204). -/
def is64 (ty : BitVec 4) : Bool := ty == 3 || ty == 7
/-- Types .i32, .n32, .i64, .n64 (R222). -/
def isT4 (ty : BitVec 4) : Bool := ty == 2 || ty == 3 || ty == 6 || ty == 7
/-- The eight integer types (R222). -/
def isT8 (ty : BitVec 4) : Bool := decide (ty.toNat < 8)
/-- Types .f32, .bf16, .f16 (R275). -/
def isF (ty : BitVec 4) : Bool := ty == 8 || ty == 9 || ty == 10
/-- A tag code of R181 that is not reserved. -/
def isTag (t : BitVec 4) : Bool := !(t == 6 || t == 7 || t == 14 || t == 15)
/-- I32 and I8 (R181). -/
def isIntTag (t : BitVec 4) : Bool := t == 4 || t == 5
/-- The six MX tags (R181). -/
def isMxTag (t : BitVec 4) : Bool := decide (8 ≤ t.toNat ∧ t.toNat ≤ 13)
/-- F32, BF16, F16. -/
def isFloatTag (t : BitVec 4) : Bool := decide (1 ≤ t.toNat ∧ t.toNat ≤ 3)
/-- The arithmetic tags of R284. -/
def isArithTag (t : BitVec 4) : Bool := isFloatTag t || isIntTag t || isMxTag t
/-- Elements per sector of a tag (R283). -/
def tagCount (t : BitVec 4) : Nat :=
  match t.toNat with
  | 1 => 8 | 2 => 16 | 3 => 16 | 4 => 8 | 5 => 32 | 12 => 64 | 0 => 8 | _ => 32
/-- Width in bits of a scalar type code (R204, R249). -/
def typeWidth (ty : BitVec 4) : Nat :=
  match ty.toNat with
  | 0 => 8 | 4 => 8 | 1 => 16 | 5 => 16 | 2 => 32 | 6 => 32 | 3 => 64 | 7 => 64
  | 8 => 32 | 9 => 16 | 10 => 16 | 11 => 8 | 12 => 8 | 13 => 6 | 14 => 6 | _ => 4
/-- The five rounding modes (R182). -/
def rmAll (rm : BitVec 3) : Bool := decide (rm.toNat ≤ 4)
/-- SUB uses only the bits of a mask. -/
def subIn (w : Fields) (mask : BitVec 5) : Bool := w.sub &&& ~~~mask == 0
/-- MOD is zero but for SUB bits in a mask (forms B and S, and form A without a type). -/
def modSub (w : Fields) (mask : BitVec 5) : Bool := w.ty == 0 && w.rm == 0 && subIn w mask
/-- MOD[4] may be 1 only where one of the tags named is an integer tag (R204). -/
def signOk (w : Fields) (int : Bool) : Bool := int || !w.sub.getLsbD 4

/-- Form A: EXT belongs to at most one operand. -/
def shA (opc : BitVec 8) (d a b c : Rule) (modOk : Bool) (w : Fields) : Shape :=
  { opc, d, a, b, c, modOk, fnOk := w.fn == 0, extTaken := false, extMask := 0 }
/-- A form that takes EXT, with the bits it gives a meaning. -/
def shE (opc : BitVec 8) (d a b c : Rule) (modOk : Bool) (extMask : BitVec 32) (w : Fields) : Shape :=
  { opc, d, a, b, c, modOk, fnOk := w.fn == 0, extTaken := true, extMask }
/-- A form that takes EXT as an address offset or branch target. -/
def shM (opc : BitVec 8) (d a b c : Rule) (modOk : Bool) (w : Fields) : Shape :=
  shE opc d a b c modOk 0xFFFFFFFF w

/-- Two-source integer instruction with a SUB mask (R222). -/
def shInt2 (opc : BitVec 8) (types : BitVec 4 → Bool) (mask : BitVec 5) (w : Fields) : Shape :=
  shA opc (rDstW (is64 w.ty)) (rSrcW (is64 w.ty)) (rSrcW (is64 w.ty)) rNone
    (types w.ty && w.rm == 0 && subIn w mask) w
/-- One-source integer instruction. -/
def shInt1 (opc : BitVec 8) (types : BitVec 4 → Bool) (mask : BitVec 5) (w : Fields) : Shape :=
  shA opc (rDstW (is64 w.ty)) (rSrcW (is64 w.ty)) rNone rNone (types w.ty && w.rm == 0 && subIn w mask) w
/-- SHL, SHR, BFX: the second source is 32 bits whatever the type (R222). -/
def shCount (opc : BitVec 8) (w : Fields) : Shape :=
  shA opc (rDstW (is64 w.ty)) (rSrcW (is64 w.ty)) rSrc rNone (isT4 w.ty && w.rm == 0 && w.sub == 0) w
/-- The comparison shape of CMP and FCMP: comb with C (R228, R278). -/
def cmpC (w : Fields) : Rule := if (w.sub.toNat / 8) = 0 then rNone else rP
/-- Scalar float, two sources. -/
def shF2 (opc : BitVec 8) (mask : BitVec 5) (rms : BitVec 3 → Bool) (w : Fields) : Shape :=
  shA opc rG rSrc rSrc rNone (isF w.ty && rms w.rm && subIn w mask) w
/-- Scalar float, one source. -/
def shF1 (opc : BitVec 8) (types : BitVec 4 → Bool) (rms : BitVec 3 → Bool) (w : Fields) : Shape :=
  shA opc rG rSrc rNone rNone (types w.ty && rms w.rm && w.sub == 0) w
/-- Element-wise vector arithmetic (R283, R284). SAT is SUB[0]. -/
def shV (opc : BitVec 8) (d a b c : Rule) (mask : BitVec 5) (sat : Bool) (w : Fields) : Shape :=
  { shA opc d a b c
      (isArithTag w.ty && subIn w (mask ||| 0x10) && signOk w (isIntTag w.ty) &&
        (if isIntTag w.ty then w.rm == 0 else rmAll w.rm)) w with
    more := !(sat && w.sub.getLsbD 0) || isIntTag w.ty }
/-- Vector movement: no rounding (R284, R291, R292). -/
def shMove (opc : BitVec 8) (d a b c : Rule) (tags : BitVec 4 → Bool) (w : Fields) : Shape :=
  shA opc d a b c (tags w.ty && w.rm == 0 && subIn w 0x10 && signOk w (isIntTag w.ty)) w
/-- Pool operation without a type (R257). -/
def shKv (opc : BitVec 8) (a b c : Rule) (w : Fields) : Shape :=
  shA opc rG a b c (modSub w 0) w
/-- Row instruction of the matrix family (R297). -/
def shRow (opc : BitVec 8) (d a : Rule) (mask : BitVec 5) (w : Fields) : Shape :=
  shE opc d a rNone rNone (w.ty == 1 && w.rm == 0 && subIn w mask) 0 w
/-- PARTCTL (R319, R332). -/
def shPart (op : BitVec 5) (w : Fields) : Shape :=
  shE 0xA9 rG rG rPair rNone (w.ty == 0 && w.rm == 0 && w.sub == op) 0 w
/-- POOLCTL (R319, R333). -/
def shPool (op : BitVec 5) (a b : Rule) (w : Fields) : Shape :=
  shA 0xAB rG a b rNone (w.ty == 0 && w.rm == 0 && w.sub == op) w
/-- CSRR, CSRW index and partition operands (R319). -/
def rIdx : Rule := { g := true, zero := true, none := true }
/-- VQUANT: registers taken from A (R289). -/
def vquantM (w : Fields) : Nat :=
  (if w.ty == 12 then 64 else 32) / (if (w.sub.toNat / 4) % 4 = 0 then 8 else 16)
/-- The VCVT conditions of R288. -/
def vcvtOk (w : Fields) : Bool :=
  let s := BitVec.ofNat 4 (w.sub.toNat % 16)
  let ns := tagCount s
  let nd := tagCount w.ty
  let r := if nd < ns then ns / nd else if ns < nd then nd / ns else 1
  isArithTag s && isArithTag w.ty && (!isMxTag w.ty || isMxTag s) && decide (w.fn.toNat < r)
/-- The SOFTSTEP position operand: none, an even register, or a multiple of four (R302). -/
def softPos (w : Fields) : Rule := if w.sub == 0 then rNone else rG
/-- Registers the position operand reaches. -/
def softSpan (w : Fields) : Nat := if w.sub == 1 then 2 else if w.sub == 2 then 4 else 0
/-- The B tag of an MMA: EXT[19:16], or TYPE when zero (R297). -/
def mmaBTag (w : Fields) : BitVec 4 :=
  if w.ext.extractLsb' 16 4 == 0 then w.ty else w.ext.extractLsb' 16 4
/-- 8-bit and 6-bit MX tags that may be combined (R298). -/
def mixable (t : BitVec 4) : Bool := isMxTag t && t != 12

/-- The shape of an instruction; `none` for an event, which no word encodes. -/
def shapeOf : Instr → Option Shape
  | .add w => some (shInt2 0x00 isT8 1 w)
  | .sub w => some (shInt2 0x01 isT8 1 w)
  | .mul w => some (shInt2 0x02 isT4 0 w)
  | .mulh w => some (shInt2 0x03 isT4 0 w)
  | .mad w =>
    let wide := w.sub.getLsbD 0
    let w64 := is64 w.ty
    some { shA 0x04 (rDstW (w64 || wide)) (rSrcW w64) (rSrcW w64) (rSrcW (w64 || wide))
      (isT4 w.ty && w.rm == 0 && subIn w 1) w with more := !(wide && w64) }
  | .div w => some (shInt2 0x05 isT4 1 w)
  | .min w => some (shInt2 0x06 isT8 0 w)
  | .max w => some (shInt2 0x07 isT8 0 w)
  | .abs w => some (shInt1 0x08 (fun t => decide (t.toNat < 4)) 1 w)
  | .lop3 w =>
    some { shA 0x09 (rDstW (is64 w.ty)) (rSrcW (is64 w.ty)) (rSrcW (is64 w.ty)) (rSrcW (is64 w.ty))
      (isT4 w.ty && w.rm == 0 && w.sub == 0) w with fnOk := true }
  | .shl w => some (shCount 0x0A w)
  | .shr w => some (shCount 0x0B w)
  | .fsh w =>
    some (shA 0x0C (rDstW (is64 w.ty)) (rSrcW (is64 w.ty)) (rSrcW (is64 w.ty)) rSrc
      (isT4 w.ty && w.rm == 0 && subIn w 3) w)
  | .popc w => some (shInt1 0x0D isT4 0 w)
  | .clz w => some (shInt1 0x0E isT4 0 w)
  | .brev w => some (shInt1 0x0F isT4 0 w)
  | .bfx w => some (shCount 0x10 w)
  | .bfi w =>
    some (shA 0x11 (rDstW (is64 w.ty)) (rSrcW (is64 w.ty)) (rSrcW (is64 w.ty)) rSrc
      (isT4 w.ty && w.rm == 0 && w.sub == 0) w)
  | .sel w =>
    some (shA 0x12 (rDstW (is64 w.ty)) (rSrcW (is64 w.ty)) (rSrcW (is64 w.ty)) rP
      (isT8 w.ty && w.rm == 0 && w.sub == 0) w)
  | .mov w => some (shInt1 0x13 isT8 0 w)
  | .movi w =>
    some { shA 0x14 (rDstW (is64 w.ty)) { imm := true } rNone rNone (isT4 w.ty && w.rm == 0 && subIn w 1) w with
      more := !w.sub.getLsbD 0 || is64 w.ty }
  | .addr w => some (shM 0x15 rPair rPair rNone rNone (modSub w 0) w)
  | .cmp w =>
    some { shA 0x16 rP (rSrcW (is64 w.ty)) (rSrcW (is64 w.ty)) (cmpC w) (isT8 w.ty && w.rm == 0) w with
      more := decide (w.sub.toNat % 8 < 6) }
  | .plop3 w => some { shE 0x20 rP rP rP rP (modSub w 0) 0 w with fnOk := true }
  | .pmov w => some (shA 0x21 rG rNone rNone rNone (modSub w 0) w)
  | .pmovUnpack w =>
    some (shA 0x21 rNone rG { g := true, imm := true, zero := true } rNone (w.ty == 0 && w.rm == 0 && w.sub == 1) w)
  | .lxch w =>
    some { shA 0x22 (rDstW (is64 w.ty)) (rDstW (is64 w.ty)) { g := true, sv := true, imm := true, zero := true } rCv
      (isT4 w.ty && w.rm == 0 && subIn w 3) w with conv := true }
  | .vote w =>
    some { shA 0x23 (if w.sub.toNat < 2 then rP else rG) rP rNone rCv (modSub w 3) w with conv := true }
  | .trap w => some (shM 0x2E rNone rNone rNone rNone (modSub w 0) w)
  | .bkpt w => some (shM 0x2F rNone rNone rNone rNone (modSub w 0) w)
  | .bra w => some (shM 0x30 rNone rNone rNone rNone (modSub w 0) w)
  | .brx w => some (shE 0x31 rNone rPair rNone rNone (modSub w 0) 0 w)
  | .call w => some (shM 0x32 rPair rNone rNone rNone (modSub w 0) w)
  | .ret w => some (shE 0x33 rNone rPair rNone rNone (modSub w 0) 0 w)
  | .exit w => some (shE 0x34 rNone rNone rNone rNone (modSub w 0) 0 w)
  | .spawn w =>
    some { shM 0x35 rP { pair := true } rNone rNone (modSub w 0x1F) w with lowG := w.a.gNum, needG := w.a.gNum + 8 }
  | .cancel w =>
    some { shE 0x36 rG.orNone rPair.orNone rNone rNone (modSub w 7 && decide (w.sub.toNat ≤ 4)) 0 w with
      more := (w.d == .none) == (w.a == .none) }
  | .cntwait w => some (shM 0x37 rNone rPair rPairZ rNone (modSub w 0) w)
  | .launch w => some (shM 0x38 rG rPair rGs rNone (modSub w 0) w)
  | .bar w => some (shE 0x39 rNone rGz rNone rNone (modSub w 1) 0x3F w)
  | .cvdecl w => some { shA 0x3A rNone rGi rNone rCv (modSub w 0) w with conv := true }
  | .cvsign w => some { shA 0x3B rNone rNone rNone rCv (modSub w 0) w with conv := true }
  | .rowpass w => some (shA 0x3C rNone rGi rNone rNone (modSub w 0) w)
  | .rowwait w => some (shA 0x3D rNone rGi rNone rNone (modSub w 0) w)
  | .sleep w => some (shA 0x3E rNone { g := true, imm := true, zero := true } rNone rNone (modSub w 0) w)
  | .yield w => some (shA 0x3F rNone rNone rNone rNone (modSub w 0) w)
  | .ld w =>
    some (shM 0x40 (rDstW (is64 w.ty)) rPair rNone rNone (decide (w.ty.toNat ≤ 12) && w.rm == 0 && subIn w 1) w)
  | .st w =>
    some (shM 0x41 rNone rPair { g := !is64 w.ty, pair := is64 w.ty, sv := true, zero := true } rNone
      (decide (w.ty.toNat ≤ 12) && w.rm == 0 && subIn w 1) w)
  | .ldv w =>
    some (shM 0x42 rV rPair rNone rNone (isTag w.ty && w.rm == 0 && subIn w 0x11 && signOk w (isIntTag w.ty)) w)
  | .stv w => some (shM 0x43 rNone rPair rVz rNone (modSub w 1) w)
  | .ldc w =>
    some (shM 0x44 (rDstW (is64 w.ty)) rPair rNone rNone (decide (w.ty.toNat ≤ 12) && w.rm == 0 && subIn w 7) w)
  | .pref w => some (shM 0x45 rNone rPair rNone rNone (modSub w 1) w)
  | .tld w =>
    some (shE 0x48 rV rGsz rNone rNone
      (isTag w.ty && w.rm == 0 && subIn w 0x11 && signOk w (isIntTag w.ty)) 0xFF w)
  | .tst w => some (shE 0x49 rNone rGsz rVz rNone (modSub w 1) 0xFF w)
  | .tsetDef w => some (shE 0x4A rNone rGsz rGsz rNone (modSub w 0) 0xFF w)
  | .tsetReady w => some (shE 0x4A rNone rNone rNone rNone (w.ty == 0 && w.rm == 0 && w.sub == 1) 0xFF w)
  | .tsetEmpty w => some (shE 0x4A rNone rNone rNone rNone (w.ty == 0 && w.rm == 0 && w.sub == 2) 0xFF w)
  | .tqry w => some (shE 0x4B rG rNone rNone rNone (modSub w 0) 0xFF w)
  | .kvld w =>
    let pf := w.sub.getLsbD 1
    some (shA 0x50 (if pf then rNone else rV) rSrc rSrc (if pf then rNone else rG)
      (w.ty == 0xB && w.rm == 0 && subIn w 3) w)
  | .kvapp w => some (shKv 0x51 rSrc rPair rNone w)
  | .kvfork w => some (shKv 0x52 rSrc rSrc rNone w)
  | .kvrel w => some (shKv 0x53 rSrc rNone rNone w)
  | .pfxhash w => some (shKv 0x54 rSrc rPair rNone w)
  | .pfxfind w => some (shKv 0x55 rSrc rSrc rPair w)
  | .pfxins w => some (shKv 0x56 rSrc rSrc rSrc w)
  | .pin w => some (shKv 0x57 rSrc rNone rNone w)
  | .unpin w => some (shKv 0x58 rSrc rNone rNone w)
  | .kvlink w => some (shKv 0x59 rSrc rSrc rNone w)
  | .atom w =>
    let w64 := is64 w.ty
    let op := w.sub.toNat
    let src : Rule := { g := !w64, pair := w64, zero := true }
    some (shM 0x60 (rDstW w64).orNone rPair src (if op = 7 then src else rNone)
      (w.rm == 0 && decide (op ≤ 7) && (if op = 0 then isT4 w.ty || w.ty == 8 else isT8 w.ty)) w)
  | .mxaadd w =>
    some (shM 0x61 rNone rPair rV rNone
      (decide (0xB ≤ w.ty.toNat) && (w.rm == 0 || w.rm == 4) && subIn w 1) w)
  | .tbegin w => some (shM 0x62 rNone rNone rNone rNone (modSub w 0) w)
  | .tend w => some (shE 0x63 rNone rNone rNone rNone (modSub w 0) 0 w)
  | .tabort w => some (shE 0x64 rNone rNone rNone rNone (modSub w 0) 0xFF w)
  | .tstat w => some (shA 0x65 rG rNone rNone rNone (modSub w 0) w)
  | .fenceEngine w => some (shE 0x66 rNone rNone rNone rNone (w.ty == 0 && w.rm == 0 && w.sub == 1) 0 w)
  | .fenceFabric w => some (shE 0x66 rNone rNone rNone rNone (w.ty == 0 && w.rm == 0 && w.sub == 2) 0 w)
  | .fenceAll w => some (shE 0x66 rNone rNone rNone rNone (w.ty == 0 && w.rm == 0 && w.sub == 3) 0 w)
  | .chapp w => some (shM 0x67 rPair rPair rPair rNone (modSub w 0) w)
  | .chwait w => some (shM 0x68 rNone rPair rPairZ rNone (modSub w 0) w)
  | .gsum w =>
    some (shM 0x69 (rDstW (is64 w.ty)) rPair rNone rNone
      (decide (1 ≤ w.ty.toNat ∧ w.ty.toNat ≤ 10) && w.rm == 0 && w.sub == 0) w)
  | .fadd w => some (shF2 0x70 1 rmAll w)
  | .fmul w => some (shF2 0x71 0 rmAll w)
  | .ffma w => some (shA 0x72 rG rSrc rSrc rSrc (isF w.ty && rmAll w.rm && subIn w 3) w)
  | .fmin w => some (shF2 0x73 0 (· == 0) w)
  | .fmax w => some (shF2 0x74 0 (· == 0) w)
  | .fcmp w => some (shA 0x75 rP rSrc rSrc (cmpC w) (isF w.ty && w.rm == 0) w)
  | .frcp w => some (shF1 0x76 isF rmAll w)
  | .frsq w => some (shF1 0x77 isF rmAll w)
  | .fexp2 w => some (shF1 0x78 (· == 8) (· == 0) w)
  | .flog2 w => some (shF1 0x79 (· == 8) (· == 0) w)
  | .frnd w => some (shF1 0x7A isF (fun r => decide (r.toNat ≤ 3)) w)
  | .cvt w =>
    let st := BitVec.ofNat 4 (w.sub.toNat % 16)
    some (shA 0x7B (rDstW (is64 w.ty)) (rSrcW (is64 st)) rNone rNone
      (subIn w 0xF && (if isT8 w.ty && isT8 st then w.rm == 0 else rmAll w.rm)) w)
  | .vadd w => some (shV 0x80 rV rVz rVz rNone 3 true w)
  | .vmul w => some (shV 0x81 rV rVz rVz rNone 1 true w)
  | .vfma w => some (shV 0x82 rV rVz rVz rVz 7 true w)
  | .vmin w => some (shV 0x83 rV rVz rVz rNone 0 false w)
  | .vmax w => some (shV 0x84 rV rVz rVz rNone 0 false w)
  | .vred w =>
    let s := shV 0x85 rG rVz rNone rNone 3 false w
    some { s with more := decide (w.sub.toNat % 4 ≤ 2) }
  | .vcvt w =>
    let st := BitVec.ofNat 4 (w.sub.toNat % 16)
    let anyInt := isIntTag w.ty || isIntTag st
    some { shA 0x86 rV rVz (if tagCount st < tagCount w.ty then rVz else rNone) rNone
        (signOk w anyInt && (if isIntTag w.ty && isIntTag st then w.rm == 0 else rmAll w.rm)) w with
      fnOk := true, more := vcvtOk w }
  | .vquant w =>
    let amax := w.sub.toNat % 4
    some { shA 0x87 rV rV (if amax = 1 then rGz else if amax = 2 then rPair else rNone)
        (if amax = 1 then rGi else rNone)
        (isMxTag w.ty && rmAll w.rm && subIn w 0xF && decide (amax ≤ 2) && decide (w.sub.toNat / 4 ≤ 2)) w with
      more := decide (w.a.vNum % vquantM w = 0), needV := w.a.vNum + vquantM w }
  | .vsplat w =>
    some (shMove 0x88 rV rSrc rNone rNone (fun t => isFloatTag t || isIntTag t) w)
  | .vext w => some (shMove 0x89 rG rVz rSrc rNone isTag w)
  | .vins w => some (shMove 0x8A rV rVz rSrc rSrc isTag w)
  | .vsideGet w => some (shA 0x8B rG rVz rNone rNone (modSub w 0) w)
  | .vsideSet w => some (shA 0x8B rV rVz rSrc rNone (w.ty == 0 && w.rm == 0 && w.sub == 1) w)
  | .vtag w => some (shA 0x8C rV rVz rNone rNone (isTag w.ty && w.rm == 0 && w.sub == 0) w)
  | .vdot w => some (shV 0x8D rG rVz rVz rSrc 1 true w)
  | .mma w =>
    let bt := mmaBTag w
    some { shE 0x90 rAcc rV rGz rCv
        ((w.ty == 2 || isMxTag w.ty) && w.rm == 0 && subIn w 7) 0xF00FF w with
      conv := true, needV := w.a.vNum + 8,
      more := decide (w.a.vNum % 8 = 0) && (bt == w.ty || (mixable w.ty && mixable bt)) }
  | .aclr w => some (shRow 0x91 rAcc rNone 0 w)
  | .aload w =>
    let mem := w.sub.getLsbD 0
    some (shE 0x92 rAcc (if mem then rPair else rGz) rNone rNone
      ((w.ty == 1 || w.ty == 2) && w.rm == 0 && subIn w 3) (if mem then 0 else 0xFF) w)
  | .adrain w =>
    let mem := w.sub.getLsbD 0
    let amax := w.sub.toNat / 4 % 4
    some { shE 0x93 rNone rAcc (if mem then rPair else rGz)
        (if amax = 1 then rGz else if amax = 2 then rPair else rNone)
        ((isFloatTag w.ty || isMxTag w.ty) && rmAll w.rm && subIn w 0xF)
        ((if mem then 0 else 0xFF) ||| (if amax = 1 then 0xFF00 else 0)) w with more := decide (amax ≤ 2) }
  | .softstep w =>
    some { shE 0x94 rAcc rAcc (softPos w) rCv
        ((w.ty == 2 || w.ty == 8) && (w.rm == 0 || w.rm == 4) && subIn w 3 && decide (w.sub.toNat ≤ 2))
        0xFFFF00FF w with
      conv := true, lowG := w.b.gNum, needG := if w.sub == 0 then 0 else w.b.gNum + softSpan w,
      more := w.d != w.a && (w.sub == 0 || decide (w.b.gNum % softSpan w = 0)) }
  | .arescale w => some (shRow 0x95 rAcc rGs 0 w)
  | .smerge w => some { shRow 0x96 rAcc rAcc 0 w with more := w.d != w.a }
  | .anorm w => some (shRow 0x97 rAcc rNone 0 w)
  | .arow w => some (shRow 0x98 (if w.sub.getLsbD 1 then rG else rPair) rAcc 3 w)
  | .astat w => some (shRow 0x99 rG rNone 1 w)
  | .csrr w => some (shE 0xA0 rPair rIdx rIdx rNone (modSub w 0) 0xFFF w)
  | .csrw w => some (shE 0xA1 rNone rPairZ rIdx rIdx (modSub w 0) 0xFFF w)
  | .mcall w => some (shE 0xA2 rPair rPairZ rPairZ rNone (modSub w 0) 0xFFFF w)
  | .mret w => some (shE 0xA3 rG rPair rPair rNone (modSub w 0) 0 w)
  | .eret w => some (shE 0xA4 rNone rNone rNone rNone (modSub w 0) 0 w)
  | .savectx w => some (shM 0xA5 rNone rPair rNone rNone (modSub w 0) w)
  | .loadctx w => some (shM 0xA6 rG rPair rNone rNone (modSub w 0) w)
  | .invalLine w => some (shM 0xA7 rNone rPair rPair rNone (modSub w 0) w)
  | .invalXlt w => some (shM 0xA7 rNone rPair rPair rG (w.ty == 0 && w.rm == 0 && w.sub == 1) w)
  | .invalFrame w => some (shM 0xA7 rNone rPair rPair rNone (w.ty == 0 && w.rm == 0 && w.sub == 2) w)
  | .halt w => some (shE 0xA8 rNone rNone rNone rNone (modSub w 0) 0 w)
  | .ipi w => some (shE 0xAA rNone rGs rNone rNone (modSub w 0) 0 w)
  | .partctlCreate w => some (shPart 0 w)
  | .partctlDestroy w => some (shPart 1 w)
  | .partctlReset w => some (shPart 2 w)
  | .partctlCores w => some (shPart 3 w)
  | .partctlChan w => some (shPart 4 w)
  | .partctlQueues w => some (shPart 5 w)
  | .partctlColours w => some (shPart 6 w)
  | .partctlCarve w => some (shPart 7 w)
  | .partctlQuota w => some (shPart 8 w)
  | .partctlStart w => some (shPart 9 w)
  | .poolctlCow w => some (shPool 0 rSrc rNone w)
  | .poolctlSeqnew w => some (shPool 1 rSrc rSrc w)
  | .poolctlSeqcap w => some (shPool 2 rSrc rSrc w)
  | .poolctlRdframe w => some (shPool 3 rSrc rPair w)
  | .poolctlRdseq w => some (shPool 4 rSrc rPair w)
  | .poolctlRdpfx w => some (shPool 5 rNone rPair w)
  | _ => none

/-- EXT is used as R202 requires: by the form, by one operand, or not at all. -/
def Shape.extOk (s : Shape) (w : Fields) : Bool :=
  let uses := ([w.d, w.a, w.b, w.c].filter Spec.usesExt).length
  if s.extTaken then uses == 0 && w.ext &&& ~~~s.extMask == 0
  else if uses = 0 then w.ext == 0
  else if uses = 1 then
    [w.d, w.a, w.b, w.c].all fun x => match x with
      | .k _ => decide (w.ext.toNat < 2 ^ 17)
      | _ => true
  else false

/-- The static checks of R202 that the word alone decides, and that of R198 on convergence registers. -/
def Shape.ok (s : Shape) (w : Fields) : Bool :=
  s.d.accepts w.ext w.d && s.a.accepts w.ext w.a && s.b.accepts w.ext w.b && s.c.accepts w.ext w.c &&
  s.modOk && s.fnOk && s.extOk w && s.more && (!s.conv || (!w.gneg && w.gpred == 7))

/-- g registers the word reaches, counted from g0. -/
def Shape.gReach (s : Shape) (w : Fields) : List Nat :=
  [s.d.gReach w.d, s.a.gReach w.a, s.b.gReach w.b, s.c.gReach w.c]

/-- v registers the word reaches, counted from v0. -/
def Shape.vReach (s : Shape) (w : Fields) : Nat :=
  max (max (max w.d.vReach w.a.vReach) (max w.b.vReach w.c.vReach)) s.needV

/-- The fields of an instruction that a word encodes. -/
def fieldsOf : Instr → Option Fields
  | .add w => some w
  | .sub w => some w
  | .mul w => some w
  | .mulh w => some w
  | .mad w => some w
  | .div w => some w
  | .min w => some w
  | .max w => some w
  | .abs w => some w
  | .lop3 w => some w
  | .shl w => some w
  | .shr w => some w
  | .fsh w => some w
  | .popc w => some w
  | .clz w => some w
  | .brev w => some w
  | .bfx w => some w
  | .bfi w => some w
  | .sel w => some w
  | .mov w => some w
  | .movi w => some w
  | .addr w => some w
  | .cmp w => some w
  | .plop3 w => some w
  | .pmov w => some w
  | .pmovUnpack w => some w
  | .lxch w => some w
  | .vote w => some w
  | .trap w => some w
  | .bkpt w => some w
  | .bra w => some w
  | .brx w => some w
  | .call w => some w
  | .ret w => some w
  | .exit w => some w
  | .spawn w => some w
  | .cancel w => some w
  | .cntwait w => some w
  | .launch w => some w
  | .bar w => some w
  | .cvdecl w => some w
  | .cvsign w => some w
  | .rowpass w => some w
  | .rowwait w => some w
  | .sleep w => some w
  | .yield w => some w
  | .ld w => some w
  | .st w => some w
  | .ldv w => some w
  | .stv w => some w
  | .ldc w => some w
  | .pref w => some w
  | .tld w => some w
  | .tst w => some w
  | .tsetDef w => some w
  | .tsetReady w => some w
  | .tsetEmpty w => some w
  | .tqry w => some w
  | .kvld w => some w
  | .kvapp w => some w
  | .kvfork w => some w
  | .kvrel w => some w
  | .pfxhash w => some w
  | .pfxfind w => some w
  | .pfxins w => some w
  | .pin w => some w
  | .unpin w => some w
  | .kvlink w => some w
  | .atom w => some w
  | .mxaadd w => some w
  | .tbegin w => some w
  | .tend w => some w
  | .tabort w => some w
  | .tstat w => some w
  | .fenceEngine w => some w
  | .fenceFabric w => some w
  | .fenceAll w => some w
  | .chapp w => some w
  | .chwait w => some w
  | .gsum w => some w
  | .fadd w => some w
  | .fmul w => some w
  | .ffma w => some w
  | .fmin w => some w
  | .fmax w => some w
  | .fcmp w => some w
  | .frcp w => some w
  | .frsq w => some w
  | .fexp2 w => some w
  | .flog2 w => some w
  | .frnd w => some w
  | .cvt w => some w
  | .vadd w => some w
  | .vmul w => some w
  | .vfma w => some w
  | .vmin w => some w
  | .vmax w => some w
  | .vred w => some w
  | .vcvt w => some w
  | .vquant w => some w
  | .vsplat w => some w
  | .vext w => some w
  | .vins w => some w
  | .vsideGet w => some w
  | .vsideSet w => some w
  | .vtag w => some w
  | .vdot w => some w
  | .mma w => some w
  | .aclr w => some w
  | .aload w => some w
  | .adrain w => some w
  | .softstep w => some w
  | .arescale w => some w
  | .smerge w => some w
  | .anorm w => some w
  | .arow w => some w
  | .astat w => some w
  | .csrr w => some w
  | .csrw w => some w
  | .mcall w => some w
  | .mret w => some w
  | .eret w => some w
  | .savectx w => some w
  | .loadctx w => some w
  | .invalLine w => some w
  | .invalXlt w => some w
  | .invalFrame w => some w
  | .halt w => some w
  | .ipi w => some w
  | .partctlCreate w => some w
  | .partctlDestroy w => some w
  | .partctlReset w => some w
  | .partctlCores w => some w
  | .partctlChan w => some w
  | .partctlQueues w => some w
  | .partctlColours w => some w
  | .partctlCarve w => some w
  | .partctlQuota w => some w
  | .partctlStart w => some w
  | .poolctlCow w => some w
  | .poolctlSeqnew w => some w
  | .poolctlSeqcap w => some w
  | .poolctlRdframe w => some w
  | .poolctlRdseq w => some w
  | .poolctlRdpfx w => some w
  | _ => none

/-- The static well-formedness of an instruction; events carry no word and have none. -/
def staticOk (i : Instr) : Bool :=
  match shapeOf i, fieldsOf i with
  | some s, some w => s.ok w
  | none, none => true
  | _, _ => false

end Sys2Proof.Machine
end

