-- ==== Sys2Proof/Decode.lean ====
section
/-!
DEFINITION. Decoding of the 96-bit instruction word (R197 to R207), total on any bits and rejecting by name; then the
encoder, from the same tables.
-/
namespace Sys2Proof

/-- Why a word is no instruction; each is ILLEGAL_OPCODE (R202). -/
inductive Reject where
  /-- OPC is one of the 133 unallocated values, or its SUB names no instruction (R207) -/
  | unallocated
  /-- an operand field holds one of the reserved codes 0xEA-0xFE (R199) -/
  | reservedOperand
  /-- an operand, modifier, FN or EXT value that the instruction does not allocate (R202) -/
  | illFormed
  deriving DecidableEq, Repr

/-- Decode one operand specifier (R199). -/
def specOf (c : BitVec 8) : Option Spec :=
  if c < 0x80 then some (.g (c.extractLsb' 0 7))
  else if c < 0xA0 then some (.v (c.extractLsb' 0 5))
  else if c < 0xA8 then some (.p (c.extractLsb' 0 3))
  else if c < 0xB0 then some (.acc (c.extractLsb' 0 3))
  else if c < 0xC0 then some (.cv (c.extractLsb' 0 4))
  else if c < 0xE0 then some (.sv (c.extractLsb' 0 5))
  else if c < 0xE8 then some (.k (c.extractLsb' 0 3))
  else if c = 0xE8 then some .imm
  else if c = 0xE9 then some .zero
  else if c = 0xFF then some .none
  else none

/-- The instruction that an opcode and its SUB name (R207 and the tables of chapters 10 to 14). -/
def instrOf (opc : Nat) (w : Fields) : Option Instr :=
  match opc with
  | 0x00 => some (.add w)
  | 0x01 => some (.sub w)
  | 0x02 => some (.mul w)
  | 0x03 => some (.mulh w)
  | 0x04 => some (.mad w)
  | 0x05 => some (.div w)
  | 0x06 => some (.min w)
  | 0x07 => some (.max w)
  | 0x08 => some (.abs w)
  | 0x09 => some (.lop3 w)
  | 0x0A => some (.shl w)
  | 0x0B => some (.shr w)
  | 0x0C => some (.fsh w)
  | 0x0D => some (.popc w)
  | 0x0E => some (.clz w)
  | 0x0F => some (.brev w)
  | 0x10 => some (.bfx w)
  | 0x11 => some (.bfi w)
  | 0x12 => some (.sel w)
  | 0x13 => some (.mov w)
  | 0x14 => some (.movi w)
  | 0x15 => some (.addr w)
  | 0x16 => some (.cmp w)
  | 0x20 => some (.plop3 w)
  | 0x21 =>
    match w.sub.toNat with
    | 0 => some (.pmov w)
    | 1 => some (.pmovUnpack w)
    | _ => none
  | 0x22 => some (.lxch w)
  | 0x23 => some (.vote w)
  | 0x2E => some (.trap w)
  | 0x2F => some (.bkpt w)
  | 0x30 => some (.bra w)
  | 0x31 => some (.brx w)
  | 0x32 => some (.call w)
  | 0x33 => some (.ret w)
  | 0x34 => some (.exit w)
  | 0x35 => some (.spawn w)
  | 0x36 => some (.cancel w)
  | 0x37 => some (.cntwait w)
  | 0x38 => some (.launch w)
  | 0x39 => some (.bar w)
  | 0x3A => some (.cvdecl w)
  | 0x3B => some (.cvsign w)
  | 0x3C => some (.rowpass w)
  | 0x3D => some (.rowwait w)
  | 0x3E => some (.sleep w)
  | 0x3F => some (.yield w)
  | 0x40 => some (.ld w)
  | 0x41 => some (.st w)
  | 0x42 => some (.ldv w)
  | 0x43 => some (.stv w)
  | 0x44 => some (.ldc w)
  | 0x45 => some (.pref w)
  | 0x48 => some (.tld w)
  | 0x49 => some (.tst w)
  | 0x4A =>
    match w.sub.toNat with
    | 0 => some (.tsetDef w)
    | 1 => some (.tsetReady w)
    | 2 => some (.tsetEmpty w)
    | _ => none
  | 0x4B => some (.tqry w)
  | 0x50 => some (.kvld w)
  | 0x51 => some (.kvapp w)
  | 0x52 => some (.kvfork w)
  | 0x53 => some (.kvrel w)
  | 0x54 => some (.pfxhash w)
  | 0x55 => some (.pfxfind w)
  | 0x56 => some (.pfxins w)
  | 0x57 => some (.pin w)
  | 0x58 => some (.unpin w)
  | 0x59 => some (.kvlink w)
  | 0x60 => some (.atom w)
  | 0x61 => some (.mxaadd w)
  | 0x62 => some (.tbegin w)
  | 0x63 => some (.tend w)
  | 0x64 => some (.tabort w)
  | 0x65 => some (.tstat w)
  | 0x66 =>
    match w.sub.toNat with
    | 1 => some (.fenceEngine w)
    | 2 => some (.fenceFabric w)
    | 3 => some (.fenceAll w)
    | _ => none
  | 0x67 => some (.chapp w)
  | 0x68 => some (.chwait w)
  | 0x69 => some (.gsum w)
  | 0x70 => some (.fadd w)
  | 0x71 => some (.fmul w)
  | 0x72 => some (.ffma w)
  | 0x73 => some (.fmin w)
  | 0x74 => some (.fmax w)
  | 0x75 => some (.fcmp w)
  | 0x76 => some (.frcp w)
  | 0x77 => some (.frsq w)
  | 0x78 => some (.fexp2 w)
  | 0x79 => some (.flog2 w)
  | 0x7A => some (.frnd w)
  | 0x7B => some (.cvt w)
  | 0x80 => some (.vadd w)
  | 0x81 => some (.vmul w)
  | 0x82 => some (.vfma w)
  | 0x83 => some (.vmin w)
  | 0x84 => some (.vmax w)
  | 0x85 => some (.vred w)
  | 0x86 => some (.vcvt w)
  | 0x87 => some (.vquant w)
  | 0x88 => some (.vsplat w)
  | 0x89 => some (.vext w)
  | 0x8A => some (.vins w)
  | 0x8B =>
    match w.sub.toNat with
    | 0 => some (.vsideGet w)
    | 1 => some (.vsideSet w)
    | _ => none
  | 0x8C => some (.vtag w)
  | 0x8D => some (.vdot w)
  | 0x90 => some (.mma w)
  | 0x91 => some (.aclr w)
  | 0x92 => some (.aload w)
  | 0x93 => some (.adrain w)
  | 0x94 => some (.softstep w)
  | 0x95 => some (.arescale w)
  | 0x96 => some (.smerge w)
  | 0x97 => some (.anorm w)
  | 0x98 => some (.arow w)
  | 0x99 => some (.astat w)
  | 0xA0 => some (.csrr w)
  | 0xA1 => some (.csrw w)
  | 0xA2 => some (.mcall w)
  | 0xA3 => some (.mret w)
  | 0xA4 => some (.eret w)
  | 0xA5 => some (.savectx w)
  | 0xA6 => some (.loadctx w)
  | 0xA7 =>
    match w.sub.toNat with
    | 0 => some (.invalLine w)
    | 1 => some (.invalXlt w)
    | 2 => some (.invalFrame w)
    | _ => none
  | 0xA8 => some (.halt w)
  | 0xA9 =>
    match w.sub.toNat with
    | 0 => some (.partctlCreate w)
    | 1 => some (.partctlDestroy w)
    | 2 => some (.partctlReset w)
    | 3 => some (.partctlCores w)
    | 4 => some (.partctlChan w)
    | 5 => some (.partctlQueues w)
    | 6 => some (.partctlColours w)
    | 7 => some (.partctlCarve w)
    | 8 => some (.partctlQuota w)
    | 9 => some (.partctlStart w)
    | _ => none
  | 0xAA => some (.ipi w)
  | 0xAB =>
    match w.sub.toNat with
    | 0 => some (.poolctlCow w)
    | 1 => some (.poolctlSeqnew w)
    | 2 => some (.poolctlSeqcap w)
    | 3 => some (.poolctlRdframe w)
    | 4 => some (.poolctlRdseq w)
    | 5 => some (.poolctlRdpfx w)
    | _ => none
  | _ => none

/-- The fields of a word, with its operand specifiers decoded (R197, R199). -/
def splitWord (x : BitVec 96) : Option Fields := do
  let d ← specOf (x.extractLsb' 12 8)
  let a ← specOf (x.extractLsb' 20 8)
  let b ← specOf (x.extractLsb' 28 8)
  let c ← specOf (x.extractLsb' 36 8)
  return {
    gneg := x.getLsbD 11, gpred := x.extractLsb' 8 3, d, a, b, c
    ty := x.extractLsb' 52 4, rm := x.extractLsb' 49 3, sub := x.extractLsb' 44 5
    fn := x.extractLsb' 56 8, ext := x.extractLsb' 64 32 }

/-- Decode one instruction word. -/
def decode (x : BitVec 96) : Except Reject Instr :=
  match splitWord x with
  | none => .error .reservedOperand
  | some w =>
    match instrOf (x.extractLsb' 0 8).toNat w with
    | none => .error .unallocated
    | some i => if Machine.staticOk i then .ok i else .error .illFormed

/-- The instruction in a word given as a number, as the opcode table numbers its bits. -/
def decodeTableWord (nbits w : Nat) : Option Instr :=
  if nbits ≤ 96 then
    match decode (BitVec.ofNat 96 (w % 2 ^ nbits)) with
    | .ok i => some i
    | .error _ => none
  else none

/-! ### The encoder -/

/-- The code of an operand specifier (R199). -/
def Spec.code : Spec → BitVec 8
  | .g n => n.setWidth 8
  | .v n => 0x80 ||| n.setWidth 8
  | .p n => 0xA0 ||| n.setWidth 8
  | .acc n => 0xA8 ||| n.setWidth 8
  | .cv n => 0xB0 ||| n.setWidth 8
  | .sv n => 0xC0 ||| n.setWidth 8
  | .k n => 0xE0 ||| n.setWidth 8
  | .imm => 0xE8
  | .zero => 0xE9
  | .none => 0xFF

/-- Lay out a word (R197). -/
def joinWord (opc : BitVec 8) (w : Fields) : BitVec 96 :=
  w.ext ++ w.fn ++ w.ty ++ w.rm ++ w.sub ++ w.c.code ++ w.b.code ++ w.a.code ++ w.d.code ++
    BitVec.ofBool w.gneg ++ w.gpred ++ opc

/-- The word of an instruction; an event has none. -/
def encode (i : Instr) : Option (BitVec 96) :=
  match Machine.shapeOf i, Machine.fieldsOf i with
  | some s, some w => some (joinWord s.opc w)
  | _, _ => none

/-- Bits 63:0 of an instruction's word, which EXC_VAL holds after ILLEGAL_OPCODE (R49). -/
def lowWord (i : Instr) : Dword := ((encode i).getD 0).extractLsb' 0 64

end Sys2Proof
end

