-- ==== Sys2Proof/Config.lean ====
section
/-!
DEFINITION. What one E9 fixes, and the values the manual leaves open. An opaque constant has no body: nothing
proved about the machine rests on a particular value of it.
-/
namespace Sys2Proof.Config

/-- LEASE of R132, on the E9 as shipped. -/
def lease : Nat := 16
/-- HBM4E channels of the package (R14). -/
def hbmChannels : Nat := 256
/-- 64 KiB frames of one HBM4E channel: 48 GiB per stack over 32 channels (R13, R14). -/
def framesPerChannel : Nat := 24576
/-- 64 KiB frames of the LPDDR-6 packages: 512 GiB (R13). -/
def lpddrFrames : Nat := 8388608
/-- Logical flash pages that all partitions together may hold (R150). -/
def flashPageBound : Nat := 29360128
/-- MLF of R480 when the monitor-holdings record is absent. -/
def mlfDefault : Nat := 32768
/-- Clocks per microsecond at entry 0 of the clock table (R397: 2,700 MHz). -/
def clocksPerUs : Nat := 2700
/-- Femtoseconds of one period of the 3.2 GHz service-die clock (R8). -/
def svcPeriodFs : Nat := 312500

/-- FREE VALUE. A choice the manual leaves open (which of two permitted translations or code lines an access
uses: R99, R105, R106). The argument is a counter of the state, so each use is a fresh choice. -/
opaque freeChoice : Nat → Bool

/-- FREE VALUE. A 64-bit value the manual does not state. The argument is a counter of the state. -/
opaque freeDword : Nat → Dword

/-- FREE VALUE. Word k of the 256 bytes in which a side-log entry stands in a save area: the manual says what they hold and not where
(R326, R450). -/
opaque logWord : List Nat → Nat → Dword
/-- FREE VALUE. The 132-byte ECDSA P-521 signature by the device key over the signed bytes (R394, R395): the key
is derived from the PUF and never leaves the Chamois pair. -/
opaque deviceSignature : List Byte → Nat → Byte

/-- FREE VALUE. The 64-byte SHA-512 digest of the device's public key (R395). -/
opaque deviceKeyDigest : Nat → Byte

/-- FREE VALUE. The ROM's own code, of which the boot measures the digest (R394). -/
opaque romDigest : Nat → Byte

/-- FREE VALUE. Whether a boot slot's signature verifies over a digest against the root public key, of which the ROM holds
the digest (R393): the digest, the signature. -/
opaque slotVerifies : List Byte → List Byte → Bool

/-- FREE VALUE. Whether a configuration record's signature verifies by a key of the key manifest in a slot's image, whose
place in the image the manual does not give (R397): the image, the digest, the signature. -/
opaque recordVerifies : List Byte → List Byte → List Byte → Bool

/-- FREE VALUE. Whether a package takes part in a tree: the fabric manager knows, and the manual gives the package no way
to ask (R344, R359, R474). -/
opaque treeMember : Nat → Nat → Bool

/-- FREE VALUE. The level of the MGMT_PORT[2:0] strap, which the board fixes (R404). -/
opaque mgmtPort : BitVec 3

end Sys2Proof.Config
end

