-- ==== Sys2Proof/Machine/Tbl.lean ====
section
/-!
DEFINITION. Sparse tables keyed by natural numbers, as plain data in one canonical form: keys strictly
rising, and no entry equal to the value an unlisted key reads as. Memory bytes, side words, poison bits,
registers and every other numbered collection of the machine is such a table.
-/
namespace Sys2Proof.Machine

/-- A list of (key, value) pairs. `Tbl (BitVec 8)` is a list of the host's memory cells. -/
abbrev Tbl (α : Type) := List (Nat × α)

variable {α : Type}

/-- The entry listed at a key, if there is one. -/
def Tbl.find? : Tbl α → Nat → Option α
  | [], _ => none
  | (k', v) :: r, k => if k' = k then some v else Tbl.find? r k

/-- The value at a key; `d` is what an unlisted key reads as. -/
def Tbl.get (d : α) (t : Tbl α) (k : Nat) : α := (Tbl.find? t k).getD d

/-- List a value at a key, keeping keys strictly rising. -/
def Tbl.ins : Tbl α → Nat → α → Tbl α
  | [], k, v => [(k, v)]
  | (k', v') :: r, k, v =>
    if k < k' then (k, v) :: (k', v') :: r
    else if k = k' then (k, v) :: r
    else (k', v') :: Tbl.ins r k v

/-- Remove what is listed at a key. -/
def Tbl.del : Tbl α → Nat → Tbl α
  | [], _ => []
  | (k', v') :: r, k => if k' = k then Tbl.del r k else (k', v') :: Tbl.del r k

/-- Write a value at a key in canonical form: writing the default removes the entry. -/
def Tbl.put [DecidableEq α] (d : α) (t : Tbl α) (k : Nat) (v : α) : Tbl α :=
  if v = d then Tbl.del t k else Tbl.ins t k v

/-- Change the value at a key by a function. -/
def Tbl.modify [DecidableEq α] (d : α) (t : Tbl α) (k : Nat) (f : α → α) : Tbl α :=
  Tbl.put d t k (f (Tbl.get d t k))

/-- Change a listed entry, leaving an unlisted key unlisted. -/
def Tbl.adjust : Tbl α → Nat → (α → α) → Tbl α
  | [], _, _ => []
  | (k', v') :: r, k, f => if k' = k then (k', f v') :: r else (k', v') :: Tbl.adjust r k f

/-- The keys listed. -/
def Tbl.keys (t : Tbl α) : List Nat := t.map Prod.fst

/-- The values listed, in key order. -/
def Tbl.vals (t : Tbl α) : List α := t.map Prod.snd

/-- Every listed value changed by a function. -/
def Tbl.mapVals (t : Tbl α) (f : α → α) : Tbl α := t.map fun e => (e.1, f e.2)

/-- The entries that satisfy a test. -/
def Tbl.keep (t : Tbl α) (f : Nat → α → Bool) : Tbl α := t.filter fun e => f e.1 e.2

/-- The keys of a table rise strictly above a bound. -/
def Tbl.sortedAbove : Tbl α → Option Nat → Bool
  | [], _ => true
  | (k, _) :: r, none => Tbl.sortedAbove r (some k)
  | (k, _) :: r, some b => decide (b < k) && Tbl.sortedAbove r (some k)

/-- The canonical form: keys strictly rising, no listed default. -/
def Tbl.wf [DecidableEq α] (d : α) (t : Tbl α) : Bool :=
  Tbl.sortedAbove t none && t.all fun e => decide (e.2 ≠ d)

end Sys2Proof.Machine
end

