-- ==== Sys2Proof/Machine/State.lean ====
section
/-!
DEFINITION. The state of one E9: threads and units on the compute cores, the service-die threads, memory with its
side words and poison, translation, the KV pool, engines and chains, launches and queues, flash and streams, the
fabric, errors, debug, power and boot; and the state after reset (R480). Every field is plain data.
-/
namespace Sys2Proof.Machine

/-- A hardware thread by number. Compute: ((core*4+quad)*32+lane)*8+slot. Service: 32768+core*2+hw, where the
general cores are 0-95 and the Oryx core is 96 (R14, R33, R200). -/
abbrev Tid := Nat

/-- A g register with its poison bit (R80). -/
structure GReg where
  val : Word := 0
  poison : Bool := false
  deriving DecidableEq, Repr

/-- A v register: sector, side word, format tag and poison bit (R80). -/
structure VReg where
  sec : Sector := 0
  side : BitVec 16 := 0
  tag : BitVec 4 := 0
  poison : Bool := false
  deriving DecidableEq, Repr

/-- Why a thread is not ready, refining the rows of R33. -/
inductive Wait where
  /-- the slot holds no thread -/
  | free
  /-- the next instruction may issue -/
  | ready
  /-- Scoreboard: the tile named is not in the state the instruction needs (R83, R84) -/
  | tile (h : Nat)
  /-- Scoreboard: a TSET waits for its tile, which R430 counts as a stall -/
  | tset (h : Nat)
  /-- Scoreboard: a matrix or softmax operation still holds an operand (R296) -/
  | engine
  /-- Scoreboard: a remote line is on its way (R96, R348) -/
  | remote (req : Nat)
  /-- Scoreboard: a flash line is on its way (R152) -/
  | line (key : Nat)
  /-- Scoreboard: a commit waits for the locks of another (R143) -/
  | commit
  /-- Scoreboard: FENCE.fabric waits for acknowledgements (R139) -/
  | fence
  /-- Barrier (R241) -/
  | barrier (b : Nat)
  /-- Counter: CNTWAIT or CHWAIT (R239, R271) -/
  | counter
  /-- Counter: MCALL waits for its reply, D being the pair that receives it (R323, R324) -/
  | call (tag d : Nat)
  /-- Counter: MCALL waits for room in the ring (R323) -/
  | ring
  /-- Signed (R42) -/
  | signed (cv : Nat)
  /-- Token (R45) -/
  | token
  /-- Memory: pages that the access touches are not present (R108, R448) -/
  | page (keys : List Nat)
  /-- Memory: the side log is full (R112) -/
  | logFull
  /-- Memory: a KV frame is to be allocated (R121) -/
  | pool
  /-- Memory: a KV frame is being migrated (R122, R123) -/
  | moving
  /-- Flash wait (R153) -/
  | flash (key : Nat)
  /-- Sleep until a clock (R245) -/
  | sleep (till : Nat)
  /-- HALT of a service thread (R331) -/
  | halted
  /-- a service thread that its core does not run (R356, R408, R475) -/
  | stopped
  /-- has executed EXIT -/
  | exited
  deriving DecidableEq, Repr

/-- The line data that a held access receives when it issues again: a remote line, a GSUM line, or a flash line. -/
structure Reply where
  key : Nat
  data : List SectorLit
  /-- a flash line, whose read began while its page was published (R170) -/
  flash : Bool := false
  deriving DecidableEq, Repr

/-- A sector written inside a transaction: what the log holds of it (R141). -/
structure TxWrite where
  va : Nat
  phys : Nat
  mask : BitVec 32 := 0
  data : Sector := 0
  /-- side word, when STV wrote the sector whole -/
  side : Option (BitVec 16) := none
  /-- the poison the commit sets; a whole-sector write replaces it -/
  poison : Bool := false
  deriving DecidableEq, Repr

/-- A sector of the read set: where it lies and the value recorded (R141). -/
structure TxRead where
  va : Nat
  phys : Nat
  val : SectorLit
  /-- a later read of the sector returned another value: no milestone shows both (R141) -/
  torn : Bool := false
  deriving DecidableEq, Repr

/-- A running transaction (R141). -/
structure Tx where
  /-- begin milestone, source and sequence (R142) -/
  beginMs : Nat
  source : Nat
  seq : Nat
  abortPc : Dword
  reads : Tbl TxRead := []
  writes : Tbl TxWrite := []
  deriving DecidableEq, Repr

/-- One thread (R32-R34, R47, R48, R80). -/
structure Thread where
  wait : Wait := .free
  /-- the cycle at which the thread last entered Ready (R33) -/
  entry : Nat := 0
  pc : Dword := 0
  /-- 0 user, 1 handler or kernel, 2 monitor (R317) -/
  level : Nat := 0
  part : Nat := 0
  cid : Nat := 0
  asid : Nat := 0
  unit : Nat := 0
  group : Nat := 0
  nG : Nat := 128
  nV : Nat := 32
  g : Tbl GReg := []
  v : Tbl VReg := []
  p : BitVec 7 := 0
  /-- handler registers g124-g127, numbered 0-3 (R48) -/
  h : Tbl GReg := []
  epc : Dword := 0
  cause : Word := 0
  val : Dword := 0
  /-- the thread's own EXC_VEC on the service die (R321) -/
  vec : Dword := 0
  /-- SYS_STATUS.PLVL, 3 for none (R322) -/
  plvl : Nat := 0
  /-- SYS_STATUS.PEND -/
  pend : Bool := false
  rnd : BitVec 16 := 1
  passed : Bool := false
  tx : Option Tx := none
  /-- the transaction status word (R267) -/
  tstat : Word := 0
  /-- the milestone of the last FENCE.engine: later commands issue after it (R138) -/
  fenceMs : Nat := 0
  reply : Option Reply := none
  /-- the single instruction of a debug STEP has issued (R429) -/
  stepped : Bool := false
  /-- key of a page whose fault was denied while the thread was held on it (R110) -/
  denied : Option Nat := none
  /-- the word it waited for was poisoned while it waited: CNTWAIT or CHWAIT traps when it issues again (R239, R271) -/
  eaten : Bool := false
  /-- its store has been counted as held by a full side log (R452) -/
  logged : Bool := false
  /-- it stands at a handler's entry, or at ERET's target, whose line could not be read when control went there: the
  next fetch checks the line's mask, a refusal being charged to this cause (R195) -/
  unchecked : Option Nat := none
  deriving DecidableEq, Repr

/-- A group resident on a core (R26). -/
structure Group where
  cgn : Nat
  quad : Nat
  /-- threads at creation: sv.nthreads -/
  n : Nat
  /-- its threads in lane order -/
  tids : List Tid
  /-- physical accumulator tiles of the quadrant, acc0 first (R68) -/
  acc : List Nat
  /-- synchronisation interval (R147) -/
  interval : BitVec 8 := 0
  /-- operand latch: the tag and 256 sectors (row*4+s), when held (R300) -/
  latch : Option (BitVec 4 × Tbl SectorLit) := none
  /-- check counter (R314) -/
  check : Nat := 0
  deriving DecidableEq, Repr

/-- A named barrier (R241): the target that the first arrival of its generation set, and whether that is the number of live
threads, which an EXIT counts afresh. -/
structure Barrier where
  target : Nat := 0
  live : Bool := false
  count : Nat := 0
  gen : Nat := 0
  deriving DecidableEq, Repr

/-- The resources of a unit, RES of its launch record (R58). -/
structure Res where
  threads : Nat := 0
  groups : Nat := 0
  gregs : Nat := 0
  vregs : Nat := 0
  tile4k : Nat := 0
  bars : Nat := 0
  acc : Nat := 0
  raw : Dword := 0
  deriving DecidableEq, Repr

/-- A unit resident on a core (R25-R28, R58, R68, R82). -/
structure UnitRec where
  core : Nat
  part : Nat
  cid : Nat
  asid : Nat
  linear : Nat
  x : Nat := 0
  y : Nat := 0
  z : Nat := 0
  res : Res
  /-- first 4 KiB unit of its region in the core's tile store -/
  tileBase : Nat
  /-- first barrier of the core -/
  barBase : Nat
  windows : List Dword
  groups : Tbl Group
  /-- tile table (R82) -/
  tiles : Tbl Word := []
  /-- milestone of the last change of each tile (R83, R134) -/
  tileMs : Tbl Nat := []
  /-- barriers, b0 first -/
  bars : Tbl Barrier := []
  interval : BitVec 8 := 0
  /-- holds carve-out bytes (R461) -/
  carve : Bool := false
  /-- a stop milestone has passed (R75) -/
  stopping : Option StopCause := none
  /-- single-stepping under debug (R429) -/
  stepping : Bool := false
  /-- the reduce unit of a collective (R61) -/
  reduce : Bool := false
  /-- compute clock from which the unit's stall is counted (R430); in a saved unit, the clocks counted so far -/
  stall : Option Nat := none
  deriving DecidableEq, Repr

/-- A convergence register (R40) with the PC and the instruction of its round's first signature (R42) and the owning
unit. -/
structure CvReg where
  decl : BitVec 32 := 0
  signed : BitVec 32 := 0
  cgn : BitVec 10 := 0
  op : BitVec 3 := 0
  declared : Bool := false
  unit : Nat := 0
  pc : Dword := 0
  instr : Option Instr := none
  /-- when its round's first signature was accepted: the tile is busy from then on (R296) -/
  claim : Nat := 0
  /-- its complete round's place among those that wait to issue (R296) -/
  turn : Nat := 0
  /-- the pages that its complete round waits for (R315) -/
  held : List Nat := []
  deriving DecidableEq, Repr

/-- A pair record: two groups of one unit in one quadrant, and the holder (R44). -/
structure Pair where
  core : Nat
  quad : Nat
  unit : Nat
  a : Nat
  b : Nat
  holder : Nat
  deriving DecidableEq, Repr

/-- One row of an accumulator tile (R294): 128 F32 codes, m, l, the row state and the poison bit. -/
structure AccRow where
  o : Tbl Word := []
  m : Word := 0xFF800000
  l : Word := 0
  st : BitVec 2 := 0
  poison : Bool := false
  deriving DecidableEq, Repr

/-- An accumulator tile: rows 0-63, unlisted rows being fresh (R294). -/
abbrev AccTile := Tbl AccRow

/-- An operation of the matrix engine or softmax unit, with the accumulator it writes when it completes (R296, R301). -/
structure EngineRun where
  unit : Nat
  group : Nat
  /-- accumulator written, physical number in the quadrant -/
  acc : Nat
  tile : AccTile
  /-- accumulator read besides it -/
  accB : Nat
  /-- tile handle whose bytes the operation reads or writes -/
  handle : Nat
  /-- the clock at which it began -/
  startAt : Nat
  /-- the second pass of an MMA, after a checksum disagreement (R301) -/
  second : Bool := false
  /-- partition and containment identifier charged with its errors -/
  part : Nat := 0
  cid : Nat := 0
  deriving DecidableEq, Repr

/-- The matrix engine, softmax unit and counters of one quadrant. -/
structure Quad where
  lastIssue : Nat := 0
  /-- an issue has taken place -/
  issued : Bool := false
  mma : Option EngineRun := none
  soft : Option EngineRun := none
  /-- check counter of the quadrant (R314) -/
  check : Nat := 0
  deriving DecidableEq, Repr

/-- A cached translation of one page (R103, R106). -/
structure Xlate where
  /-- 0 HBM4E, 1 LPDDR-6, 2 HBF, 3 remote -/
  home : Nat
  frame : Nat
  swm : Bool
  svc : Bool
  x : Bool
  w : Bool
  rd : Bool
  /-- following pages that the entry declares contiguous (R105) -/
  run : Nat
  /-- the entry's address, for its A and D bits -/
  entryAt : Nat
  /-- the milestone of the walk that cached it: no access through it comes before (R101, R111) -/
  since : Nat := 0
  deriving DecidableEq, Repr

/-- A line kept in the LLC: its way of its set (R87), dirty, the copy of a flash line, and the CID it carries: that of the
access that brought it (R406). -/
structure Line where
  way : Nat := 0
  dirty : Bool := false
  copy : List SectorLit := []
  cid : Nat := 0
  deriving DecidableEq, Repr

/-- Write milestone and lease end of a line of memory (R132). -/
structure Lease where
  lw : Nat := 0
  le : Nat := 0
  deriving DecidableEq, Repr

/-- A line of an L1: the lease it was granted and its data (R86, R132). -/
structure L1Line where
  lw : Nat
  le : Nat
  data : List SectorLit
  cid : Nat := 0
  deriving DecidableEq, Repr

/-- A line of an instruction path or of the fabric cache, with the CID it carries (R96, R99, R406). -/
structure Kept where
  data : List SectorLit
  cid : Nat := 0
  deriving DecidableEq, Repr

/-- An owner record (R107). -/
inductive Owner where
  | shared
  | owned (asid page : Nat)
  deriving DecidableEq, Repr

/-- An outstanding fault record (R109). -/
structure FaultRec where
  /-- 65536 + page for the commons, else ASID -/
  tag : Nat
  page : Nat
  va : Nat
  asid : Nat
  /-- kind of the first access; and of the record, 7 for a reserved bit -/
  access : Nat
  kind : Nat
  core : Nat
  cid : Nat
  part : Nat
  /-- written into the fault queue -/
  posted : Bool
  deriving DecidableEq, Repr

/-- What a side-log entry performs (R450). -/
inductive LogOp where
  | store
  /-- ATOM without return: operation, type, address, operands b and c, and whether either is poisoned -/
  | atom (op ty va : Nat) (b c : Dword) (poison : Bool)
  /-- MXAADD: memory format, rounding mode, address, operand block code and elements, random words, poison -/
  | mxadd (fmt rm va : Nat) (src : VReg) (hi : Bool) (draws : List Nat) (poison : Bool)
  /-- a maximum fold of VQUANT or ADRAIN into a 32-bit word -/
  | fold (va : Nat) (v : Word) (poison : Bool)
  deriving DecidableEq, Repr

/-- Bytes written within one sector: the first byte's address, how many, their value, and the side word and poison bit
to set, where the write sets them (R248, R251). -/
structure SecWrite where
  va : Nat
  n : Nat
  val : Nat
  side : Option (BitVec 16) := none
  poison : Option Bool := none
  deriving DecidableEq, Repr

/-- A side-log entry: one lane's bytes of one line of an absent page (R111, R450), with its retirement key. -/
structure LogEntry where
  core : Nat
  tag : Nat
  /-- first byte of the line -/
  va : Nat
  writes : List SecWrite
  op : LogOp := .store
  ms : Nat
  source : Nat
  seq : Nat
  cid : Nat
  part : Nat
  asid : Nat
  priv : Bool
  deriving DecidableEq, Repr

/-- A ring that a block writes for a partition: BASE and SIZE word, HEAD, TAIL. -/
structure Ring where
  base : Dword := 6
  head : Word := 0
  tail : Word := 0
  deriving DecidableEq, Repr

/-- A KV frame descriptor (R115). -/
structure Frame where
  ref : Nat := 0
  pin : Nat := 0
  owner : Nat := 0
  fill : Nat := 0
  psn : Bool := false
  /-- 1 resident, 2 marked, 3 evicted, 4 migrating -/
  st : Nat := 1
  /-- the data lies in LPDDR-6 -/
  spilled : Bool := false
  frame : Nat := 0
  age : Nat := 0
  tokens : List Word := []
  /-- destination of a copy in progress: frame number (R122) -/
  dest : Option Nat := none
  /-- evicted, and its migration waits for a resident frame (R121, R122) -/
  wanted : Bool := false
  /-- written by KVAPP or cow since it was marked -/
  written : Bool := false
  deriving DecidableEq, Repr

/-- A sequence descriptor with its page list (R116). -/
structure Seq where
  len : Nat := 0
  cap : Nat := 0
  live : Bool := false
  owner : Nat := 0
  list : Nat := 0
  pages : List Nat := []
  deriving DecidableEq, Repr

/-- A prefix-table entry (R124). -/
structure Pfx where
  hash : Nat
  depth : Nat
  age : Nat
  handle : Nat
  deriving DecidableEq, Repr

/-- The KV pool of a partition (R114-R128). RES and SPILL stand with the partition's holdings. -/
structure KvPool where
  lowat : Nat := 0
  frames : Tbl Frame := []
  seqs : Tbl Seq := []
  pfx : Tbl Pfx := []
  /-- frame lines in the LLC, by handle and line of the frame: no VA tag hits them (R113, R258) -/
  cached : List Nat := []
  deriving DecidableEq, Repr

/-- An extent of a group (R161, R172). -/
structure Extent where
  stream : Nat
  tag : Nat
  va : Nat
  lpage : Nat
  length : Nat
  serial : Nat := 0
  deriving DecidableEq, Repr

/-- An open group of a stream (R163). -/
structure OpenGroup where
  tag : Nat
  extents : List Extent
  failed : Bool := false
  /-- past its durability point: the group survives a power loss (R165, R166) -/
  durable : Bool := false
  /-- WPTR when the durability point was reached (R171) -/
  wptr : Nat := 0
  deriving DecidableEq, Repr

/-- An append stream (R158), and the chain descriptor bound to it (R335). -/
structure Stream where
  base : Dword := 0
  lpbase : Nat := 0
  npages : Nat := 0
  wptr : Nat := 0
  en : Bool := false
  serial : Dword := 0
  groups : List OpenGroup := []
  /-- (ASID, VA) of the chain descriptor bound to the stream -/
  chain : Option (Nat × Nat) := none
  /-- WPTR at the last surviving SEAL (R171) -/
  sealWptr : Nat := 0
  /-- tails recorded by an SBAR and still awaited: chain descriptor (tag, address) and sequence (R162) -/
  barrier : List (Nat × Nat × Nat) := []
  deriving DecidableEq, Repr

/-- A tree grant (R344). -/
structure Tree where
  id : Word
  space : Nat
  rb : Nat
  gb : Nat
  gs : Nat
  deriving DecidableEq, Repr

/-- A TREEREQ that the fabric manager has yet to answer (R359): the call's tag, the key by which it is matched, the grant
asked for, and whether the partition has been reset since (R361). -/
structure TreeReq where
  tag : Dword
  key : Dword
  tree : Tree
  dead : Bool := false
  deriving DecidableEq, Repr

/-- One corrected-error count of the current window (R412). -/
structure CorrCount where
  kind : Nat
  ukind : Nat
  unit : Nat
  count : Nat
  deriving DecidableEq, Repr

/-- A partition: its holdings (R352), registers and services. -/
structure Part where
  present : Bool := false
  /-- physical compute cores, fixed or the pool's set -/
  cores : BitVec 32 := 0
  pooled : Bool := false
  gcores : BitVec 96 := 0
  chans : BitVec 256 := 0
  queues : BitVec 256 := 0
  colours : BitVec 1024 := 0
  /-- 24 way bits per die, die 0 lowest -/
  carve : BitVec 96 := 0
  res : Nat := 0
  spill : Nat := 0
  nstr : Nat := 0
  lpages : Nat := 0
  lframes : Nat := 0
  /-- first physical LPDDR-6 frame of each frame of its allocation: runs (first, count) -/
  lruns : List (Nat × Nat) := []
  svc : Option Nat := none
  weight : Nat := 1
  quant : Nat := 0x400
  bal : Nat := 8
  astab : Dword := 0
  excVec : Dword := 0
  ctxSave : Dword := 0
  fq : Ring := {}
  eq : Ring := {}
  eqOvf : Bool := false
  eqSeq : Nat := 0
  lq : Ring := {}
  mc0 : Ring := {}
  mc1 : Ring := {}
  rdetOvf : Bool := false
  rdetScope : BitVec 2 := 3
  rdetMode : BitVec 2 := 0
  rdetEn : Bool := false
  fwCount : Nat := 0
  fwMax : Nat := 0
  slWaits : Nat := 0
  slPeak : Nat := 0
  ccnt : Nat := 0
  dbgCtx : Nat := 0
  dbgState : BitVec 2 := 0
  dbgResult : BitVec 8 := 0
  dbgCount : Nat := 0
  dbgDir : Nat := 0
  pool : KvPool := {}
  streams : Tbl Stream := []
  /-- logical flash pages that are published, each with its publication milestone (R168) -/
  published : Tbl Nat := []
  extents : List Extent := []
  trees : List Tree := []
  /-- remote packages whose transport context is closed, with whether the peer has answered a probe since (R472) -/
  closed : Tbl Bool := []
  corr : List CorrCount := []
  /-- synchronisation interval of the partition (R147) -/
  interval : BitVec 8 := 0
  /-- deal position: the core after the one last dealt to (R70) -/
  dealPos : Nat := 0
  /-- next ring-1 record that Nuhan, respectively Ibex, takes up -/
  nuhanNext : Word := 0
  ibexNext : Word := 0
  /-- TREEREQs forwarded to the fabric manager, oldest first -/
  treeReqs : List TreeReq := []
  /-- compute cores, and whether as a pool's, that the partition holds from the end of its running turn (R361) -/
  leaving : Option (BitVec 32 × Bool) := none
  /-- ring-1 calls held on a page of their argument block that is not present: the server, the page's key, and whether the
  kernel has resolved it as denied (R110, R358) -/
  argHeld : List (Nat × Nat × Bool) := []
  /-- stopped by a fault (R408 class 3) -/
  fatal : Bool := false
  /-- a reset is in progress (R475) -/
  resetting : Bool := false
  deriving DecidableEq, Repr

/-- A launch record, field by field (R57). -/
structure LaunchRec where
  entry : Dword := 0
  gx : Nat := 0
  gy : Nat := 0
  gz : Nat := 0
  res : Res := {}
  windows : List Dword := []
  param : Dword := 0
  coll : Bool := false
  nvar : Nat := 0
  phased : Bool := false
  prio : Nat := 0
  graph : Nat := 0
  phase : Nat := 0
  job : Nat := 0
  launchCnt : Dword := 0
  graphCnt : Dword := 0
  phaseCnt : Dword := 0
  jobCnt : Dword := 0
  dep : Dword := 0
  thresh : Dword := 0
  /-- (FIRST, SHARE) of each variant -/
  vars : List (Nat × Nat) := []
  tree : Word := 0
  collop : BitVec 16 := 0
  restile : Nat := 0
  shift : Nat := 0
  nchunk : Nat := 0
  reducePc : Dword := 0
  status : Dword := 0
  edge0 : Dword := 0
  edge1 : Dword := 0
  deriving DecidableEq, Repr

/-- A launch queue's registers and hold (R54-R56, R100). -/
structure Queue where
  err : Nat := 0
  size : Nat := 4
  owner : Nat := 0
  en : Bool := false
  base : Dword := 0
  head : Word := 0
  tail : Word := 0
  space : Nat := 0
  /-- the record at HEAD has been validated and waits to be eligible (R64) -/
  valid : Bool := false
  /-- the record read at HEAD, while `valid` -/
  head_ : LaunchRec := {}
  /-- milestones of the last advance of TAIL and of HEAD (R240, R246) -/
  tailMs : Nat := 0
  headMs : Nat := 0
  /-- held until a page is resolved (R56, R63) -/
  hold : Option Nat := none
  /-- key of a page whose fault was denied while the queue was held on it (R110) -/
  denied : Option Nat := none
  deriving DecidableEq, Repr

/-- A contribution of a unit to a chunk of a collective (R345). -/
structure Contribution where
  linear : Nat
  failed : Bool
  data : List SectorLit
  deriving DecidableEq, Repr

/-- An accepted launch (R65, R66). -/
structure Launch where
  part : Nat
  asid : Nat
  r : LaunchRec
  /-- order of acceptance -/
  order : Nat
  acceptMs : Nat
  /-- units dealt so far, in ascending linear index -/
  dealt : Nat := 0
  /-- undealt units that were cancelled (R30) -/
  skip : List Nat := []
  /-- units (the reduce unit among them) whose completion decrement has been performed -/
  done : Nat := 0
  variant : Nat := 0
  cancelled : Bool := false
  collfail : Bool := false
  /-- arrival counter (R345) -/
  arrivals : Nat := 0
  /-- bytes of a chunk, from the first result tile read (R345) -/
  chunkBytes : Nat := 0
  contributions : List Contribution := []
  /-- chunks fired, with what was sent -/
  fired : Tbl (List SectorLit) := []
  arrived : Tbl Unit := []
  /-- chunks that have come from the tree and wait for their page -/
  inbox : Tbl (List SectorLit) := []
  /-- the reduce unit has been dispatched -/
  reduced : Bool := false
  /-- LAUNCH_CNT has reached zero, or the launch was cancelled: R66 is due -/
  complete : Bool := false
  /-- an enclosing instance was cancelled: the completion is not counted (R31) -/
  uncounted : Bool := false
  /-- the cancelled graph, phase or job instance that ends with its members, by level and serial: its enclosing level counts
  one after the last member's completion accesses (R30) -/
  closing : Option (Nat × Nat) := none
  halted : Bool := false
  deriving DecidableEq, Repr

/-- An entry of a core's unit queue (R70). -/
structure QEntry where
  cid : Nat
  linear : Nat
  prio : Nat
  order : Nat
  deriving DecidableEq, Repr

/-- A selector entry (R72). -/
structure Selector where
  part : Nat
  phase : Nat
  /-- last measured time under each variant -/
  times : Tbl Nat := []
  /-- the variant chosen for the current instance -/
  chosen : Nat := 0
  /-- last use -/
  used : Nat := 0
  deriving DecidableEq, Repr

/-- An instance of a phase that runs: the acceptance clock of its first launch, later by the clocks in which its partition
did not run, and the largest NVAR of its launches so far (R72). -/
structure PhaseRun where
  part : Nat
  phase : Nat
  start : Nat
  nvar : Nat
  deriving DecidableEq, Repr

/-- A thread or engine that a memory write releases: CNTWAIT (at most) or CHWAIT (at least) (R29, R136). -/
structure Waiter where
  tid : Tid
  phys : Nat
  /-- address of the word, in the thread's address space -/
  va : Nat := 0
  bound : Dword
  atLeast : Bool
  deriving DecidableEq, Repr

/-- A saved unit: its bookkeeping, its threads and quadrant state, and where its image lies (R75, R327). -/
structure SavedUnit where
  uid : Nat
  unit : UnitRec
  threads : Tbl Thread
  cvs : Tbl CvReg
  pairs : List Pair
  accs : Tbl AccTile
  /-- byte offset of the image in the save area, and its length -/
  offset : Nat
  size : Nat
  cause : StopCause
  /-- milestone of its accesses so far, and of what its threads have been answered: they go on after it (R129) -/
  ms : Nat := 0
  deriving DecidableEq, Repr

/-- A finding of the race detector that is still to be posted: its partition, the key of its second access, the address of its
sector, and its record (R149, R463). -/
structure Finding where
  part : Nat
  ms : Nat
  source : Nat
  va : Nat
  val : Nat
  deriving DecidableEq, Repr

/-- A pre-emption in progress (R75): the requests that it serves, each with its cause and the cores that it names (R77,
R420), and the units that it stopped. -/
structure StopRec where
  part : Nat
  reqs : List (StopCause × BitVec 32)
  units : List Nat
  /-- real time of the stop milestone, in femtoseconds -/
  startAt : Nat
  reported : Bool := false
  deriving DecidableEq, Repr

/-- A turn of a time-sliced pool (R78). -/
structure PoolTurn where
  cores : BitVec 32
  holder : Nat
  /-- compute clock at which the turn ends; 0 while the holder has no work and no turn runs -/
  till : Nat
  deriving DecidableEq, Repr

/-- A range locked by a command (R137, R84): the tag of its addresses (70000+core for the core's tile store), first
byte and end, and whether fully locked. -/
structure Lock where
  tag : Nat
  lo : Nat
  hi : Nat
  full : Bool
  deriving DecidableEq, Repr

/-- The life of an engine command. -/
inductive CmdPhase where
  /-- delivered, not yet issued -/
  | queued
  /-- issued at mi with its locks held (R136, R137) -/
  | issued
  /-- its effects are performed, its sequence word not yet written -/
  | effected
  deriving DecidableEq, Repr

/-- A command captured by CHAPP (R338). -/
structure Cmd where
  /-- chain descriptor -/
  asid : Nat
  chain : Nat
  seqWord : Dword
  seq : Nat
  /-- engine by source number (R130) -/
  engine : Nat
  stream : Nat
  op : BitVec 8
  flags : BitVec 8
  tag : BitVec 16
  resv : BitVec 32
  src : Dword
  dst : Dword
  len : Dword
  aux : Dword
  aux2 : Dword
  record : Dword
  /-- a sector of the entry was poisoned (R414) -/
  poison : Bool
  cid : Nat
  part : Nat
  unit : Option Nat
  tid : Tid
  /-- issues only after this milestone (R138) -/
  after : Nat
  phase : CmdPhase := .queued
  mi : Nat := 0
  locks : List Lock := []
  status : Nat := 0
  /-- bytes of a range command moved so far: it stops between pieces of 64 KiB (R74, R76) -/
  progress : Nat := 0
  /-- destination bytes written, or pages placed (R342, R164) -/
  bytes : Nat := 0
  kvCounts : List Nat := []
  kvFirst : Nat := 0xFFFFFFFF
  /-- first VA and logical page of an extent -/
  va : Nat := 0
  lpage : Nat := 0
  serial : Dword := 0
  /-- waits on a page, a lock or a flash line -/
  waiting : Option Nat := none
  /-- PUT sent and not yet acknowledged, when (real time), and the packages it reaches -/
  unacked : Bool := false
  sentAt : Nat := 0
  pkgs : List Nat := []
  /-- a tile transition taken by the command, handle and state (R83) -/
  tileTaken : Bool := false
  /-- the tile of an issued TFILL or TDRAIN: core, first byte in its store, bytes (R340) -/
  region : Option (Nat × Nat × Nat) := none
  /-- the tile's sectors as its unit was saved, which serve the command when that unit is never restored (R340) -/
  kept : List SectorLit := []
  /-- remote lines received for the command, by their key; flash lines, whose pages may have been trimmed since their reads
  began, by `2^80` and their key (R170) -/
  lines : Tbl (List SectorLit) := []
  /-- extent placed by an APPEND -/
  extent : Option Extent := none
  deriving DecidableEq, Repr

/-- The engine's record of a chain: completions so far, and whether it is broken (R334, R341). -/
structure ChainRec where
  asid : Nat
  desc : Nat
  /-- the largest n with commands 1 to n all complete -/
  upTo : Nat := 0
  /-- commands completed out of order -/
  ahead : List Nat := []
  broken : Bool := false
  /-- engine it is bound to -/
  engine : Nat
  deriving DecidableEq, Repr

/-- A remote line request: a load, or a GSUM (R348, R349). -/
structure RemoteReq where
  part : Nat
  pkg : Nat
  frame : Nat
  offset : Nat
  gsum : Bool
  tree : Word := 0
  /-- the engine command that reads the line, which takes no cached one -/
  cmd : Option Nat := none
  tids : List Tid := []
  /-- real time at which it was sent -/
  sentAt : Nat := 0
  /-- CID of the access or command that sent it (R406) -/
  cid : Nat := 0
  deriving DecidableEq, Repr

/-- What the package has sent over the fabric for other packages to take up (R350): the sectors of a PUT for a remote
frame, the acknowledgement of a PUT performed here, a line read here for another package, this replica's line for a
GSUM, a chunk or a failed contribution fired into a tree, and a tree request forwarded to the fabric manager. Each carries its
CID (R406): that of the command or launch, and context 0 for what the package does for another; a chunk carries its format. -/
inductive Sent where
  | put (part cid frame offset : Nat) (data : List SectorLit)
  | ack (part cid home frame offset : Nat)
  | line (part cid home frame offset : Nat) (data : List SectorLit)
  | gsum (part cid tree offset : Nat) (data : List SectorLit)
  | chunk (part cid chunk : Nat) (tree : Word) (format : Nat) (failed : Bool) (data : List SectorLit)
  | treeReq (part npkg : Nat) (key : Dword)
  deriving DecidableEq, Repr

/-- A flash read in progress: key of the line, the logical page it lies in, whether its side words are stored, and when
it was reported waiting (R153, R466). -/
structure FlashRead where
  key : Nat
  part : Nat
  page : Nat
  swm : Bool
  /-- the publication of the page that it reads, and the line as it then stood (R168, R170) -/
  pub : Nat := 0
  data : List SectorLit := []
  /-- engine commands that it serves -/
  cmds : List Nat := []
  /-- real time of the first wait notice -/
  notice : Option Nat := none
  reported : Bool := false
  /-- prefetch only -/
  pref : Bool := false
  /-- threads in Flash state, with the real time at which each entered it -/
  waits : List (Tid × Nat) := []
  deriving DecidableEq, Repr

/-- A scheduler access that waits for its page (R54): a store, or the decrement of a counter of a level (0 launch,
1 graph, 2 phase, 3 job, 4 edge). -/
structure Due where
  part : Nat
  asid : Nat
  va : Dword
  val : Option Dword
  cid : Nat
  level : Nat
  /-- the status word of a refused record: where it cannot be written, that is reported (R63) -/
  refusal : Bool := false
  deriving DecidableEq, Repr

/-- A shadow entry: the last writer and four intervals (R147). -/
structure Shadow where
  core : Nat
  cgn : Nat
  lane : Nat
  unit : Nat
  part : Nat
  gi : BitVec 8
  ui : BitVec 8
  ci : BitVec 8
  pi : BitVec 8
  deriving DecidableEq, Repr

/-- An error record to be posted (R411). -/
structure ErrRec where
  part : Nat
  ms : Nat
  cls : Nat
  kind : Nat
  cid : Nat
  ukind : Nat := 0
  unit : Nat := 0
  addr : Dword := 0
  count : Nat := 1
  flags : Nat := 0
  cause : Nat := 0
  /-- PART of the record: the partition charged -/
  charged : Nat
  deriving DecidableEq, Repr

/-- Power states of the package (R398). -/
inductive Power where
  | running | suspending | retention | resuming | recovery | off
  deriving DecidableEq, Repr

/-- The record that the Chamois pair keeps in Retention (R399). -/
structure Resume where
  /-- largest milestone of any source -/
  ms : Nat
  clock : Nat
  marked : List Nat
  side : List LogEntry
  deriving DecidableEq, Repr

/-- Boot, power, identity and the mailbox (R392-R405). -/
structure Boot where
  power : Power := .running
  /-- contents of the boot slots A and B of the HBF boot region; empty when erased -/
  slotA : BootSlot := []
  slotB : BootSlot := []
  version : Nat := 0
  minVersion : Nat := 0
  /-- measurement values 0-7, 64 bytes each (R394) -/
  measures : List (List Byte) := List.replicate 8 (List.replicate 64 0)
  /-- units retired by map, list or run-time request: kind -> bit set (R415) -/
  retCores : BitVec 32 := 0
  retChans : BitVec 256 := 0
  retLanes : BitVec 32 := 0
  retDies : BitVec 64 := 0
  retGcores : BitVec 96 := 0
  /-- the sealed retirement list: (kind, number) (R396) -/
  retList : List (Nat × Nat) := []
  /-- lanes in service (R471): a bit set is a failed lane -/
  laneDown : BitVec 32 := 0
  /-- the MGMT_PORT[2:0] strap: the port that carries management traffic during boot and recovery (R393, R404) -/
  mgmtPort : BitVec 3 := 0
  /-- ports that are up: in recovery the management port alone (R393) -/
  ports : BitVec 8 := 0xFF
  /-- clock and voltage table, and the entry in use (R397, R401) -/
  clocks : List Nat := [2700]
  volts : List Nat := [0]
  clockAt : Nat := 0
  mlf : Nat := Config.mlfDefault
  mboxBase : Dword := 0
  /-- SIZE of the mailbox record, 4 to 10; 0 while no record has been accepted (R397) -/
  mboxSize : Nat := 0
  /-- the poison of HEAD or TAIL has been reported (R414) -/
  mboxEaten : Bool := false
  /-- wake timer in seconds and when it runs out (real time) -/
  wakeAt : Option Nat := none
  /-- the wake timer of the suspend in progress -/
  wakeSecs : Nat := 0
  /-- mailbox records that command the suspend in progress, and wait for their reply -/
  mboxReply : List Nat := []
  /-- real time of the suspend or resume command -/
  cmdAt : Nat := 0
  resume : Option Resume := none
  /-- real time at which the transport reopened after a resume: a participant has 10 s from it (R479) -/
  resumedAt : Option Nat := none
  /-- the resume in progress is late, and that has been reported (R479) -/
  late : Bool := false
  /-- WAKE_N was held low during a suspend: the resume begins on reaching Retention (R399) -/
  wakePending : Bool := false
  /-- ALERT_N asserted -/
  alert : Bool := false
  /-- the record of a fatal-to-device condition, kept for the next boot -/
  kept : List ErrRec := []
  /-- cores in Idle (R398) -/
  idle : BitVec 32 := 0
  /-- MGMT quote replies, newest first (R395) -/
  mgmtOut : List (List Byte) := []
  /-- slot refused at the last boot: A, B -/
  refusedA : Bool := false
  refusedB : Bool := false
  deriving DecidableEq, Repr

/-- One thread's turn in a bundle that is being issued (R35): the thread, the PC, and the word there. -/
structure Item where
  tid : Tid
  pc : Dword
  word : BitVec 96
  /-- the marked pair breaks R196: the item traps ILLEGAL_OPCODE -/
  badPair : Bool := false
  deriving DecidableEq, Repr

/-- Where a line's data is reached: its key, its physical address (0 for a remote line), its home (4 for the
carve-out), whether its side words are stored, and its data when they do not lie in `mem` (flash, remote). -/
structure Place where
  key : Nat
  phys : Nat
  home : Nat
  swm : Bool
  copy : Option (List SectorLit) := none
  deriving DecidableEq, Repr

/-- The memories: bytes, side words and poison bits of every sector, by physical address (R97). -/
structure Mem where
  bytes : Tbl Byte := []
  /-- side word of each sector, by address / 32 -/
  sides : Tbl (BitVec 16) := []
  /-- poison bit of each sector, by address / 32 -/
  poison : Tbl Bool := []
  /-- HBM4E channels retired at run time: their sectors read poisoned, and writes to them are discarded (R415) -/
  dead : BitVec 256 := 0
  deriving DecidableEq, Repr

/-- A server's deficit round robin over partitions (R360, R477): deficits, slots waited, and the partition visited. -/
structure Drr where
  d : Tbl Nat := []
  waited : Tbl Nat := []
  visit : Option Nat := none
  deriving DecidableEq, Repr

/-- Everything a compute core holds beside its threads. -/
structure CoreRec where
  queue : List QEntry := []
  /-- the partition's work on the core: interval, by partition (R147) -/
  intervals : Tbl (BitVec 8) := []
  /-- clocks without placed unit or command (R398) -/
  idleSince : Nat := 0
  deriving DecidableEq, Repr

/-- The whole machine. -/
structure State where
  threads : Tbl Thread := []
  units : Tbl UnitRec := []
  nextUnit : Nat := 1
  cores : Tbl CoreRec := []
  /-- by core*4+quad -/
  quads : Tbl Quad := []
  /-- by (core*4+quad)*16+n -/
  cvs : Tbl CvReg := []
  pairs : List Pair := []
  /-- by (core*4+quad)*8+n -/
  accs : Tbl AccTile := []
  /-- tile-store regions kept for a command past the unit's completion: core, first, count, command -/
  regions : List (Nat × Nat × Nat × Nat) := []
  mem : Mem := {}
  /-- cached translations, by tag*2^44+page -/
  tlb : Tbl Xlate := []
  /-- owner records, by home*2^36 + physical frame; unlisted is free -/
  owners : Tbl Owner := []
  /-- LLC lines, by tag*2^53+line -/
  lines : Tbl Line := []
  /-- write milestones and lease ends, by physical line -/
  leases : Tbl Lease := []
  /-- L1 lines of each core, by core, then as `lines` -/
  l1 : Tbl (Tbl L1Line) := []
  /-- instruction-path lines of each core: code bytes by core, then as `lines` (R99) -/
  ipath : Tbl (Tbl Kept) := []
  faults : List FaultRec := []
  log : List LogEntry := []
  /-- milestone and sequence of each source (R129) -/
  ms : Tbl Nat := []
  seqs : Tbl Nat := []
  /-- milestone each source held at the last synchronisation (R132) -/
  msSync : Nat := 0
  waiters : List Waiter := []
  /-- scheduler accesses that wait for a page -/
  due : List Due := []
  shadow : Tbl Shadow := []
  parts : Tbl Part := []
  croot : Dword := 0
  cmask : BitVec 1024 := 0
  queues : Tbl Queue := []
  launches : Tbl Launch := []
  nextOrder : Nat := 0
  deficits : Tbl Nat := []
  /-- the partition being visited by dealing, by priority (R67) -/
  visits : Tbl Nat := []
  selectors : List Selector := []
  phaseRuns : List PhaseRun := []
  saved : List SavedUnit := []
  /-- findings of the race detector still to be posted (R463) -/
  findings : List Finding := []
  /-- tree requests of destroyed partitions that a reset had discarded, by partition and key: their grants are released when
  they come (R361) -/
  lateTrees : List (Nat × Dword) := []
  stops : List StopRec := []
  pools : List PoolTurn := []
  cmds : Tbl Cmd := []
  nextCmd : Nat := 1
  chains : List ChainRec := []
  /-- service slots of Nuhan (0), Ibex (1) and the append engine (2) (R360, R477) -/
  drrs : Tbl Drr := []
  /-- channels and LPDDR-6 runs of destroyed partitions that are still being cleared, by partition (R355) -/
  clearing : List (Nat × BitVec 256 × List (Nat × Nat)) := []
  /-- chain last served by each engine, counted from 1 (R336) -/
  turns : Tbl Nat := []
  /-- fabric cache lines, by (part*256+pkg)*2^37 + frame*512 + line; a GSUM line by 2^60 + ... (R96, R348) -/
  fcache : Tbl Kept := []
  reqs : Tbl RemoteReq := []
  /-- what has been sent over the fabric, oldest first -/
  outbox : List Sent := []
  nextReq : Nat := 1
  flash : List FlashRead := []
  errs : List ErrRec := []
  boot : Boot := {}
  nextCall : Nat := 1
  /-- places given to rounds so far (R296) -/
  nextTurn : Nat := 0
  /-- compute clocks since cold boot (sv.clock of the full profile) -/
  now : Nat := 0
  /-- real time since cold boot, in femtoseconds; it stands still in Retention -/
  rt : Nat := 0
  /-- the thread whose instruction is being performed -/
  cur : Tid := 0
  /-- the bundle being issued: its lanes, and the items left -/
  bundle : BitVec 32 := 1
  latch : List Item := []
  /-- ATOM lanes of that bundle that are combined and not yet performed: the places of their lines, all at the milestone of
  the first lane (R131, R263) -/
  combined : Tbl (List (Nat × Option Place)) := []
  /-- what the outside world does next -/
  inputs : List Instr := []
  /-- MODEL'S OWN: uses of free values so far -/
  free : Nat := 0
  deriving DecidableEq, Repr

/-- Why a step cannot be taken. -/
inductive Fault where
  /-- Raised by step while the package is Off and no input is pending: nothing is powered (R398). Safe. -/
  | off
  deriving DecidableEq, Repr

/-- An instruction without a meaning in this model. -/
inductive Refusal where
  /-- Raised by Dispatch for an instruction not yet given its meaning. Safe: nothing can be proved of a run past it. -/
  | notModelled (mnemonic : String)
  deriving DecidableEq, Repr

/-- Thread number of hardware thread 0 of the Oryx core. -/
def oryx : Tid := 32768 + 192

/-- The Oryx thread when the monitor starts: monitor level, ASID 0 (R392 step 6, R480). ENTRY and EXC_VEC come from
the booted image; at reset, with no image, the model names zero. -/
def Thread.oryxReset : Thread :=
  { wait := .ready, level := 2, plvl := 0 }

/-- Partition 0 when the Oryx core starts (R480). -/
def Part.zeroReset : Part :=
  { present := true, lframes := Config.mlfDefault, lruns := [(0, Config.mlfDefault)] }

/-- The machine when the Oryx core starts (R480), with no boot image placed. -/
def State.reset : State :=
  { threads := [(oryx, Thread.oryxReset)]
    parts := [(0, Part.zeroReset)]
    cmask := BitVec.allOnes 64 ++ (0 : BitVec 960)
    cur := oryx }

end Sys2Proof.Machine
end

