-- ==== Sys2Proof/Machine/Access.lean ====
section
/-!
DEFINITION. How a meaning runs: the instruction monad, the current thread, its registers, milestones and sequences,
address regions, the location hash, and the numbering of partition frames (R33, R87, R92, R93, R104, R129, R130).
-/
namespace Sys2Proof.Machine

/-- The outcome of a step of this machine. -/
abbrev Out := Host.Outcome State Fault Refusal

/-- Why an instruction is not performed now. -/
inductive Stop where
  /-- it traps: code, operand field concerned, EXC_VAL (R49) -/
  | trap (code opnd : Nat) (val : Dword)
  /-- the thread waits, or its path has been settled by the operation itself -/
  | keep
  deriving DecidableEq, Repr

/-- The monad of meanings: the state, and an early stop. A stop keeps the state reached; meanings perform their own
effects only after every check, so that what it keeps is what translation agents have done (R47, R107). -/
abbrev M := EStateM Stop State

def trap {α : Type} (code opnd : Nat) (val : Dword := 0) : M α := throw (.trap code opnd val)
/-- Change the state. -/
def upd (f : State → State) : M Unit := modify f
/-- Hold the thread in a wait; the instruction issues again when the wait ends. -/
def unless' (c : Bool) (m : M Unit) : M Unit := if c then pure () else m

-- Trap codes of R49.
def cILLEGAL := 0x01
def cBRANCH := 0x02
def cPRIVILEGE := 0x03
def cTAG := 0x04
def cMXALIGN := 0x05
def cMISALIGNED := 0x06
def cPAGE := 0x07
def cLOCKED := 0x08
def cPOISON := 0x09
def cKVSHARED := 0x0A
def cCONVERGENCE := 0x0B
def cPARTNER := 0x0C
def cRACE := 0x0D
def cTRAP := 0x10
def cBKPT := 0x11

/-! ### Threads -/

/-- The thread of a number; an unlisted one is free. -/
def State.thr (s : State) (t : Tid) : Thread := s.threads.get {} t
/-- The thread whose instruction is being performed. -/
def State.me (s : State) : Thread := s.thr s.cur
/-- Change a thread. -/
def State.modThr (s : State) (t : Tid) (f : Thread → Thread) : State :=
  { s with threads := Tbl.modify {} s.threads t f }
/-- Change the current thread. -/
def State.modMe (s : State) (f : Thread → Thread) : State := s.modThr s.cur f
/-- A thread of the service die (scalar profile). -/
def isService (t : Tid) : Bool := decide (32768 ≤ t)
/-- The Oryx core's threads. -/
def isOryx (t : Tid) : Bool := decide (32768 + 192 ≤ t)
/-- Physical core: compute core 0-31, general core 0-95, Oryx 96 (R200). -/
def tidCore (t : Tid) : Nat := if t < 32768 then t / 1024 else (t - 32768) / 2
def tidQuad (t : Tid) : Nat := t / 256 % 4
def tidLane (t : Tid) : Nat := t / 8 % 32
def tidSlot (t : Tid) : Nat := t % 8
def tidHw (t : Tid) : Nat := (t - 32768) % 2
/-- core*4+quad. -/
def tidCq (t : Tid) : Nat := t / 256
def mkTid (core quad lane slot : Nat) : Tid := ((core * 4 + quad) * 32 + lane) * 8 + slot
/-- Source number of a thread (R130). -/
def tidSource (t : Tid) : Nat := if t < 32768 then t / 1024 else 64 + (t - 32768) / 2
/-- A thread that exists and has not exited. -/
def Thread.live (th : Thread) : Bool := th.wait != .free && th.wait != .exited

def State.part (s : State) (p : Nat) : Part := s.parts.get {} p
def State.modPart (s : State) (p : Nat) (f : Part → Part) : State :=
  { s with parts := Tbl.modify {} s.parts p f }
def State.queue (s : State) (q : Nat) : Queue := s.queues.get {} q
def State.modQueue (s : State) (q : Nat) (f : Queue → Queue) : State :=
  { s with queues := Tbl.modify {} s.queues q f }
def State.quadOf (s : State) (cq : Nat) : Quad := s.quads.get {} cq
def State.modQuad (s : State) (cq : Nat) (f : Quad → Quad) : State :=
  { s with quads := Tbl.modify {} s.quads cq f }
def State.coreRec (s : State) (c : Nat) : CoreRec := s.cores.get {} c
def State.modCore (s : State) (c : Nat) (f : CoreRec → CoreRec) : State :=
  { s with cores := Tbl.modify {} s.cores c f }
/-- Change a unit that exists. -/
def State.modUnit (s : State) (u : Nat) (f : UnitRec → UnitRec) : State :=
  { s with units := Tbl.adjust s.units u f }
def State.modLaunch (s : State) (c : Nat) (f : Launch → Launch) : State :=
  { s with launches := Tbl.adjust s.launches c f }
def State.modCmd (s : State) (c : Nat) (f : Cmd → Cmd) : State :=
  { s with cmds := Tbl.adjust s.cmds c f }
/-- The unit of the current thread; a service thread has none. -/
def State.myUnit (s : State) : Option UnitRec :=
  if isService s.cur then none else s.units.find? s.me.unit
/-- The group of a unit. -/
def UnitRec.group (u : UnitRec) (g : Nat) : Option Group := u.groups.find? g
def UnitRec.modGroup (u : UnitRec) (g : Nat) (f : Group → Group) : UnitRec :=
  { u with groups := Tbl.adjust u.groups g f }
/-- The live threads of a group. -/
def State.liveTids (s : State) (g : Group) : List Tid := g.tids.filter fun t => (s.thr t).live

/-- The PC of the slot after a PC (R194). -/
def nextPc (pc : Dword) : Dword :=
  if pc.toNat % 8 < 4 then pc + 1 else (pc &&& ~~~(63 : Dword)) + 64

/-- Make a thread ready from the next cycle on (R33). -/
def Thread.wake (now : Nat) (th : Thread) : Thread := { th with wait := .ready, entry := now + 1 }
/-- Make a thread ready at its next instruction. -/
def Thread.wakeNext (now : Nat) (th : Thread) : Thread := { th.wake now with pc := nextPc th.pc }
/-- Put a thread into a wait. One that waits for a flash line that Ibex has reported busy is in Flash state, and its wait is
counted (R153, R156). -/
def State.enterWait (s : State) (t : Tid) (w : Wait) : State :=
  let busy := match w with
    | .line key => s.flash.any fun f => f.key == key && f.notice.isSome
    | _ => false
  if !busy then s.modThr t fun th => { th with wait := w }
  else match w with
  | .line key =>
    let join (f : FlashRead) : FlashRead :=
      if f.key = key then { f with waits := (f.waits.filter fun x => x.1 != t) ++ [(t, s.rt)] } else f
    let s := { s with flash := s.flash.map join }
    let s := s.modThr t fun th => { th with wait := .flash key }
    s.modPart (s.thr t).part fun p => { p with fwCount := min (p.fwCount + 1) 0xFFFFFF }
  | _ => s
/-- Put the current thread into a wait; the instruction has not been performed. -/
def hold {α : Type} (w : Wait) : M α := do
  upd fun s => s.enterWait s.cur w
  throw .keep
/-- Wake, to issue again, every thread whose wait a test accepts. -/
def State.wakeIf (s : State) (f : Tid → Thread → Bool) : State :=
  { s with threads := s.threads.map fun e => if f e.1 e.2 then (e.1, e.2.wake s.now) else e }
/-- The thread waits for a page. -/
def Wait.onPage (w : Wait) (key : Nat) : Bool :=
  match w with
  | .page keys => keys.contains key
  | _ => false
/-- Side logs keep the entries that a test accepts. Where one goes, the stores that a full log holds look again (R112). -/
def State.keepLog (s : State) (keep : LogEntry → Bool) : State :=
  if s.log.all keep then s
  else ({ s with log := s.log.filter keep } : State).wakeIf fun _ th => th.wait == .logFull

/-! ### Milestones and order keys (R129-R132) -/

/-- The current milestone of a source. -/
def State.msOf (s : State) (src : Nat) : Nat := s.ms.get 0 src
/-- Raise a source's milestone. -/
def State.setMs (s : State) (src m : Nat) : State := { s with ms := Tbl.put 0 s.ms src m }
/-- A source's milestone is at least another's from here on. -/
def State.atLeastMs (s : State) (src m : Nat) : State := s.setMs src (max (s.msOf src) m)
/-- A source's accesses follow one of another source at a milestone, whichever number is the lower (R129). -/
def State.afterMs (s : State) (src m : Nat) : State := s.atLeastMs src (m + 1)
/-- Take the next sequence number within a source. -/
def State.nextSeq (s : State) (src : Nat) : Nat × State :=
  let n := s.seqs.get 0 src
  (n, { s with seqs := Tbl.put 0 s.seqs src (n + 1) })
/-- The lease of a physical line. -/
def State.lease (s : State) (l : Nat) : Lease := s.leases.get {} l
/-- A load of physical lines by a source: the milestone of R132, with leases renewed. -/
def State.leaseLoad (s : State) (src : Nat) (ls : List Nat) : State :=
  let m := ls.foldl (fun m l => max m (s.lease l).lw) (s.msOf src)
  let leases := ls.foldl (fun (t : Tbl Lease) l =>
    let x := t.get {} l
    if x.le < m then Tbl.ins t l { x with le := m + Config.lease } else t) s.leases
  { s.setMs src m with leases }
/-- A source goes past every lease granted on physical lines (R132). -/
def State.pastLeases (s : State) (src : Nat) (ls : List Nat) : State :=
  s.setMs src (ls.foldl (fun m l => max m ((s.lease l).le + 1)) (s.msOf src))
/-- A write to physical lines by a source that has gone past their leases: its milestone is theirs (R132). -/
def State.leaseHere (s : State) (src : Nat) (ls : List Nat) : State :=
  { s with leases := ls.foldl (fun (t : Tbl Lease) l => Tbl.ins t l { lw := s.msOf src, le := s.msOf src }) s.leases }
/-- A write to physical lines by a source: past every lease granted on them (R132). -/
def State.leaseStore (s : State) (src : Nat) (ls : List Nat) : State := (s.pastLeases src ls).leaseHere src ls
/-- A write to physical lines at a key taken earlier, which no lease was granted past: a deferred store (R135). -/
def State.leaseAt (s : State) (m : Nat) (ls : List Nat) : State :=
  { s with leases := ls.foldl (fun (t : Tbl Lease) l =>
      let x := t.get {} l
      Tbl.ins t l { lw := max x.lw m, le := max x.le m }) s.leases }
/-- Femtoseconds of one compute clock at the entry of the clock table in use (R397). -/
def State.clockFs (s : State) : Nat := 10 ^ 9 / max 1 (s.boot.clocks.getD s.boot.clockAt 2700)
/-- Time passes up to a compute clock; real time passes with it. -/
def State.passTo (s : State) (c : Nat) : State :=
  if c ≤ s.now then s else { s with now := c, rt := s.rt + (c - s.now) * s.clockFs }
/-- Source of the current thread. -/
def State.src (s : State) : Nat := tidSource s.cur
/-- Something goes out over the fabric. -/
def State.send (s : State) (x : Sent) : State := { s with outbox := s.outbox ++ [x] }
/-- A fresh free choice. -/
def State.choose (s : State) : Bool × State := (Config.freeChoice s.free, { s with free := s.free + 1 })

/-! ### Error records (R408-R412) -/

/-- An event takes place at a source, and the Chamois pair learns of it: the milestone that a record then gives is the
event's, no earlier than that of any record before it, and posting comes after it (R411, R412). -/
def State.meet (s : State) (src : Nat) : State :=
  let m := max (s.msOf src) (s.msOf 169)
  (s.setMs src m).setMs 169 m

/-- Record an error for posting, at the milestone that the Chamois pair has (`meet`): the partition's own record and, for
classes 1 to 4, the summary (R412). -/
def State.report (s : State) (part cls kind cid : Nat) (ukind unit : Nat) (addr : Dword) (flags cause : Nat) : State :=
  let r : ErrRec := { part, ms := s.msOf 169, cls, kind, cid, ukind, unit, addr, flags, cause, charged := part }
  let sum : List ErrRec :=
    if 1 ≤ cls ∧ part ≠ 0 then
      [{ r with part := 0, addr := 0, flags := (flags &&& 0xF9) ||| 1 }]
    else []
  { s with errs := s.errs ++ r :: sum }

/-! ### Addresses -/

/-- The region of an address (R92). -/
inductive Region where
  | priv | carve | commons
  deriving DecidableEq, Repr

def regionOf (va : Nat) : Region :=
  if 2 ^ 59 ≤ va then .commons else if va / 2 ^ 48 = 0x07FF then .carve else .priv

/-- The tag of an address: ASID, commons flag, or the carve-out of a partition (R92). -/
def tagOf (va asid part : Nat) : Nat :=
  match regionOf va with
  | .priv => asid
  | .commons => 65536
  | .carve => 65537 + part
/-- Key of a line in caches and lease tables. -/
def lineKey (tag va : Nat) : Nat := tag * 2 ^ 53 + va / 128
/-- Key of a page among cached translations. -/
def pageKey (tag va : Nat) : Nat := tag * 2 ^ 44 + va / 65536
/-- Key of a sector in the shadow table. -/
def sectorKey (tag va : Nat) : Nat := tag * 2 ^ 55 + va / 32

/-- The location hash's slice number s of R87, and its colour c. -/
def hashSlice (va : Nat) : Nat :=
  (va / 2 ^ 7 % 256) ^^^ (va / 2 ^ 40 % 256) ^^^ (va / 2 ^ 48 % 256)
def hashColour (va asid : Nat) : Nat :=
  (va / 2 ^ 16 % 1024) ^^^ (va / 2 ^ 26 % 1024) ^^^ (va / 2 ^ 36 % 1024) ^^^ (va / 2 ^ 46 % 1024) ^^^
    (asid % 1024) ^^^ (asid / 1024 % 64)
/-- Compute die of the slice: s[7:6]. -/
def hashDie (va : Nat) : Nat := hashSlice va / 64
/-- Slice within the die: s[5:0]. -/
def hashSliceIn (va : Nat) : Nat := hashSlice va % 64
/-- Set within the slice. -/
def hashSet (va asid : Nat) : Nat := 2 * hashColour va asid + va / 2 ^ 15 % 2
/-- Sets of a slice. -/
def sliceSets : Nat := 2048
/-- Ways of a slice (R90). -/
def sliceWays : Nat := 24
/-- A set of the LLC: die, slice and set of the line of a key; commons lines hash as address space 0 (R87). -/
def llcSlot (key : Nat) : Nat × Nat × Nat :=
  let va := key % 2 ^ 53 * 128
  (hashDie va, hashSliceIn va, hashSet va (if key / 2 ^ 53 < 65536 then key / 2 ^ 53 else 0))

/-- The colours a line may use (R88). -/
def State.colourOk (s : State) (va asid part : Nat) : Bool :=
  match regionOf va with
  | .carve => true
  | .commons => s.cmask.getLsbD (hashColour va 0)
  | .priv =>
    let c := hashColour va asid
    (s.part part).colours.getLsbD c || (part == 0 && s.cmask.getLsbD c)

/-! ### Frames (R104) and physical addresses (the model's own map) -/

/-- Bits set in a vector, ascending. -/
def bitsOf {n : Nat} (b : BitVec n) : List Nat := (List.range n).filter b.getLsbD
/-- Bits set, counted. -/
def popc {n : Nat} (b : BitVec n) : Nat := (bitsOf b).length

/-- Frames of a partition in HBM4E. -/
def Part.hbmFrames (p : Part) : Nat := popc p.chans * Config.framesPerChannel
/-- Physical frame of partition HBM4E frame i: ascending physical order over its channels, frame f on channel
f mod 256 (R104). -/
def Part.hbmPhys (p : Part) (i : Nat) : Option Nat :=
  let ch := bitsOf p.chans
  let n := ch.length
  if i < n * Config.framesPerChannel then
    (ch[i % n]?).map fun c => (i / n) * 256 + c
  else none
/-- Physical LPDDR-6 frame of partition frame i. -/
def lpPhys : List (Nat × Nat) → Nat → Option Nat
  | [], _ => none
  | (f, n) :: r, i => if i < n then some (f + i) else lpPhys r (i - n)

/-- Physical address bases of the homes. -/
def lpBase : Nat := 2 ^ 40
def carveBase : Nat := 2 ^ 44
def tileStoreBase : Nat := 2 ^ 45
def hbfBase : Nat := 2 ^ 48
/-- Physical address of the first byte of a partition frame; `none` beyond its holdings (R104). Home 2 numbers
logical flash pages. -/
def State.frameAddr (s : State) (part home frame : Nat) : Option Nat :=
  let p := s.part part
  match home with
  | 0 => (p.hbmPhys frame).map (· * 65536)
  | 1 => if frame < p.lframes then (lpPhys p.lruns frame).map fun f => lpBase + f * 65536 else none
  | 2 => if frame < p.lpages then some (hbfBase + (part * 2 ^ 25 + frame) * 65536) else none
  | _ => none
/-- The frame belongs to the KV pool, and no entry may name it (R104, R114). -/
def State.kvFrame (s : State) (part home frame : Nat) : Bool :=
  let p := s.part part
  (home == 0 && decide (frame < p.res)) || (home == 1 && decide (frame < p.spill))
/-- Carved ways of a partition in window order: (die, way) (R90). -/
def Part.ways (p : Part) : List (Nat × Nat) := (bitsOf p.carve).map fun i => (i / 24, i % 24)
/-- Slice and set in which byte b of a carved way lies (R90). -/
def wayPlace (b : Nat) : Nat × Nat := (b / 128 % 64, b / 128 / 64 % sliceSets)
/-- Physical address of a byte of a carved way: its die, way, slice, set and place in the line. -/
def wayAddr (die way b : Nat) : Nat :=
  carveBase + (((die * sliceWays + way) * 64 + (wayPlace b).1) * sliceSets + (wayPlace b).2) * 128 + b % 128
/-- Physical address of a carve-out window offset (R90, R91). -/
def State.carveAddr (s : State) (part off : Nat) : Option Nat :=
  ((s.part part).ways[off / 2 ^ 24]?).map fun dw => wayAddr dw.1 dw.2 (off % 2 ^ 24)
/-- A way of a die that is carved for some partition caches no line (R90). -/
def State.carvedWay (s : State) (die way : Nat) : Bool := s.parts.any fun e => e.2.carve.getLsbD (die * sliceWays + way)
/-- Physical address of a byte of a core's tile store. -/
def tileAddr (core off : Nat) : Nat := tileStoreBase + core * 2 ^ 23 + off

end Sys2Proof.Machine
end

