-- ==== Sys2Proof/Machine/Phys.lean ====
section
/-!
DEFINITION. The memories by physical address: bytes in little-endian order (R7), sectors with side word and poison bit
(R79, R97). An unlisted byte reads as zero, an unlisted side word as zero and an unlisted poison bit as clear.
-/
namespace Sys2Proof.Machine

/-- The address lies on an HBM4E channel retired at run time: frame f is on channel f mod 256 (R104, R415). -/
def Mem.isDead (m : Mem) (a : Nat) : Bool := decide (a < lpBase) && m.dead.getLsbD (a / 65536 % 256)
/-- One byte. -/
def Mem.byte (m : Mem) (a : Nat) : Byte := m.bytes.get 0 a
/-- n bytes from a, as a little-endian number. -/
def Mem.readN (m : Mem) : Nat → Nat → Nat
  | _, 0 => 0
  | a, n + 1 => (m.byte a).toNat + 256 * m.readN (a + 1) n
/-- Write the n low bytes of a number from a. -/
def Mem.writeN (m : Mem) : Nat → Nat → Nat → Mem
  | _, 0, _ => m
  | a, n + 1, x => Mem.writeN (if m.isDead a then m else { m with bytes := Tbl.put 0 m.bytes a (BitVec.ofNat 8 x) }) (a + 1) n (x / 256)
/-- Side word of the sector that holds an address. -/
def Mem.side (m : Mem) (a : Nat) : BitVec 16 := m.sides.get 0 (a / 32)
def Mem.setSide (m : Mem) (a : Nat) (v : BitVec 16) : Mem :=
  if m.isDead a then m else { m with sides := Tbl.put 0 m.sides (a / 32) v }
/-- Poison bit of the sector that holds an address. -/
def Mem.pois (m : Mem) (a : Nat) : Bool := m.isDead a || m.poison.get false (a / 32)
def Mem.setPois (m : Mem) (a : Nat) (v : Bool) : Mem :=
  if m.isDead a then m else { m with poison := Tbl.put false m.poison (a / 32) v }
/-- A whole sector; `a` is 32-byte aligned. -/
def Mem.sector (m : Mem) (a : Nat) : SectorLit :=
  { data := BitVec.ofNat 256 (m.readN a 32), side := m.side a, poison := m.pois a }
/-- Write a whole sector with its side word and poison bit. -/
def Mem.setSector (m : Mem) (a : Nat) (v : SectorLit) : Mem :=
  ((m.writeN a 32 v.data.toNat).setSide a v.side).setPois a v.poison
/-- The sectors of a line. -/
def Mem.line (m : Mem) (a : Nat) : List SectorLit := (List.range 4).map fun i => m.sector (a + 32 * i)
/-- Some sector of n bytes from a is poisoned. -/
def Mem.anyPois (m : Mem) (a n : Nat) : Bool :=
  (List.range ((a % 32 + n + 31) / 32)).any fun i => m.pois (a / 32 * 32 + 32 * i)
/-- Bytes of the masked positions of a sector. -/
def mergeSector (old new : Sector) (mask : BitVec 32) : Sector :=
  (List.range 32).foldl (fun acc i =>
    if mask.getLsbD i then (acc &&& ~~~(0xFF#256 <<< (8 * i))) ||| (new &&& (0xFF#256 <<< (8 * i))) else acc) old

/-- Zero a run of sectors of one frame. -/
def Mem.zeroRange (m : Mem) (lo hi : Nat) : Mem :=
  if m.isDead lo then m
  else { m with
    bytes := m.bytes.filter fun e => decide (e.1 < lo) || decide (hi ≤ e.1)
    sides := m.sides.filter fun e => decide (e.1 * 32 < lo) || decide (hi ≤ e.1 * 32)
    poison := m.poison.filter fun e => decide (e.1 * 32 < lo) || decide (hi ≤ e.1 * 32) }

/-! ### Threads that wait for a word -/

/-- The word of a waiter satisfies it. -/
def Waiter.met (w : Waiter) (m : Mem) : Bool :=
  let x := BitVec.ofNat 64 (m.readN w.phys 8)
  if w.atLeast then decide (w.bound ≤ x) else decide (x ≤ w.bound)

/-- Threads that are stopped wait for no word. -/
def State.dropWaits (s : State) (gone : Tid → Bool) : State :=
  { s with waiters := s.waiters.filter fun w => !gone w.tid }

/-- A thread's CNTWAIT or CHWAIT completes after a write at a milestone: it goes on past the key of the write, and the
partition's interval advances (R29, R136, R147). -/
def State.waitDone (s : State) (t : Tid) (ms : Nat) : State :=
  let s := (s.modThr t fun th => th.wakeNext s.now).afterMs (tidSource t) ms
  s.modPart (s.thr t).part fun p => { p with interval := p.interval + 1 }

/-- What becomes of one waiter when words may have been written, the last at a milestone: it completes, or is to trap
on poison, or goes on waiting (R29, R136, R239). -/
def State.lookAt (s : State) (ms : Nat) (w : Waiter) : State :=
  if (s.thr w.tid).wait ≠ .counter then s
  else if s.mem.pois w.phys then
    (s.modThr w.tid fun th => { th.wake s.now with eaten := true }).afterMs (tidSource w.tid) ms
  else if w.met s.mem then s.waitDone w.tid ms
  else { s with waiters := s.waiters ++ [w] }

/-- Look at every thread that waits for a counter or sequence word. -/
def State.wakeWaiters (s : State) (ms : Nat) : State :=
  s.waiters.foldl (fun s w => s.lookAt ms w) { s with waiters := [] }

/-- The canonical form of the three tables. -/
def Mem.wf (m : Mem) : Bool := Tbl.wf 0 m.bytes && Tbl.wf 0 m.sides && Tbl.wf false m.poison

end Sys2Proof.Machine
end

