-- ==== Sys2Proof/Machine/Sha.lean ====
section
/-!
DEFINITION. SHA-512, as boot measurements and quotes use it (R394, R395). PRESUMED: the manual names the function and does
not define it; this is FIPS 180-4, with its constants computed from their definition.
-/
namespace Sys2Proof.Machine

/-- The largest r below r0 + 2^b with r^k at most n. -/
def rootFrom (k n : Nat) : Nat → Nat → Nat
  | 0, r => r
  | b + 1, r => rootFrom k n b (if (r + 2 ^ b) ^ k ≤ n then r + 2 ^ b else r)
/-- First 64 bits of the fraction of the k-th root of a number below 2^9. -/
def rootFraction (k p : Nat) : Dword := BitVec.ofNat 64 (rootFrom k (p * 2 ^ (64 * k)) 70 0)
/-- Primes below 410: the first 80. -/
def shaPrimes : List Nat :=
  (List.range 410).filter fun p => decide (2 ≤ p) && (List.range p).all fun d => decide (d < 2) || p % d != 0
def shaK : List Dword := shaPrimes.map (rootFraction 3)
def shaInit : List Dword := (shaPrimes.take 8).map (rootFraction 2)

def shaRot (x : Dword) (a b c : Nat) : Dword := x.rotateRight a ^^^ x.rotateRight b ^^^ x.rotateRight c
def shaMix (x : Dword) (a b c : Nat) : Dword := x.rotateRight a ^^^ x.rotateRight b ^^^ (x >>> c)

/-- A big-endian number of bytes. -/
def bigEndian (l : List Byte) : Nat := l.foldl (fun x b => x * 256 + b.toNat) 0
/-- n bytes of a number, big-endian. -/
def bytesBE (n x : Nat) : List Byte := (List.range n).map fun i => BitVec.ofNat 8 (x / 256 ^ (n - 1 - i))
/-- n bytes of a number, little-endian. -/
def bytesLE (n x : Nat) : List Byte := (List.range n).map fun i => BitVec.ofNat 8 (x / 256 ^ i)

/-- The message with its padding. -/
def shaPad (m : List Byte) : List Byte :=
  let z := (239 - m.length % 128) % 128
  m ++ [0x80] ++ List.replicate z 0 ++ bytesBE 16 (m.length * 8)

/-- The message schedule, newest word first. -/
def shaWords : Nat → List Dword → List Dword
  | 0, w => w
  | n + 1, w =>
    shaWords n ((shaMix (w.getD 1 0) 19 61 6 + w.getD 6 0 + shaMix (w.getD 14 0) 1 8 7 + w.getD 15 0) :: w)

/-- One round on the eight working words. -/
def shaRound (h : List Dword) (k w : Dword) : List Dword :=
  match h with
  | [a, b, c, d, e, f, g, h] =>
    let t1 := h + shaRot e 14 18 41 + ((e &&& f) ^^^ (~~~e &&& g)) + k + w
    let t2 := shaRot a 28 34 39 + ((a &&& b) ^^^ (a &&& c) ^^^ (b &&& c))
    [t1 + t2, a, b, c, d + t1, e, f, g]
  | _ => h

def shaBlock (h : List Dword) (block : List Byte) : List Dword :=
  let first := (List.range 16).map fun i => BitVec.ofNat 64 (bigEndian ((block.drop (8 * i)).take 8))
  let w := (shaWords 64 first.reverse).reverse
  List.zipWith (· + ·) h ((shaK.zip w).foldl (fun h e => shaRound h e.1 e.2) h)

def shaBlocks : Nat → List Byte → List Dword → List Dword
  | 0, _, h => h
  | n + 1, m, h => shaBlocks n (m.drop 128) (shaBlock h (m.take 128))

/-- SHA-512, 64 bytes. -/
def sha512 (m : List Byte) : List Byte :=
  let p := shaPad m
  (shaBlocks (p.length / 128) p shaInit).flatMap fun x => bytesBE 8 x.toNat

end Sys2Proof.Machine
end

