-- ==== Sys2Proof/Machine/BootMap.lean ====
section
/-!
DEFINITION. The image of partition 0 in LPDDR-6 and the tables that map it (R100 to R103, R480). The order of the tables in
the frames that follow the image is the model's.
-/
namespace Sys2Proof.Machine

/-- Indices of the level-k tables that n pages from a page need. -/
def tableLo (page k : Nat) : Nat := page / 2048 ^ (k + 1)
def tableCount (page n k : Nat) : Nat := (page + n - 1) / 2048 ^ (k + 1) + 1 - tableLo page k
/-- The first of the level-k tables, after the address-space table and those of the levels above. -/
def tableFirst (page n : Nat) : Nat → Nat
  | 0 => 2 + tableCount page n 2 + tableCount page n 1
  | 1 => 2 + tableCount page n 2
  | 2 => 2
  | _ => 1
/-- Tables in all: four to a frame. -/
def tablesFor (page n : Nat) : Nat := tableFirst page n 0 + tableCount page n 0

/-- Physical address of a table, where frame N is the first after the image. -/
def tableAddr (N t : Nat) : Nat := lpBase + (N + t / 4) * 65536 + t % 4 * 16384
/-- An entry that names a table (R101). -/
def tableRef (N t : Nat) : Nat := 2 ^ 63 + 2 ^ 61 + (N + t / 4) * 2 ^ 25 + t % 4 * 2 ^ 23
/-- An entry that maps a page to a frame of LPDDR-6: side-word mode 1, executable, writable, readable (R103, R480). -/
def imagePte (frame : Nat) : Nat := 2 ^ 63 + 2 ^ 61 + frame * 2 ^ 25 + 2 ^ 15 + 2 ^ 13 + 2 ^ 12 + 2 ^ 11

/-- Entries of the tables that n tables or pages of one level below take. -/
def refsAt (page n N k : Nat) : List (Nat × Nat) :=
  (List.range (tableCount page n k)).map fun i =>
    let x := tableLo page k + i
    (tableAddr N (tableFirst page n (k + 1) + (x / 2048 - tableLo page (k + 1))) + 8 * (x % 2048),
      tableRef N (tableFirst page n k + i))

/-- Every entry: physical address and value. -/
def bootEntries (page n N : Nat) : List (Nat × Nat) :=
  (tableAddr N 0, tableRef N 1) :: (refsAt page n N 2 ++ refsAt page n N 1 ++ refsAt page n N 0 ++
    (List.range n).map fun i =>
      (tableAddr N (tableFirst page n 0 + ((page + i) / 2048 - tableLo page 0)) + 8 * ((page + i) % 2048), imagePte i))

/-- Write the tables that map n frames from frame 0 at a page. -/
def Mem.mapImage (m : Mem) (page n N : Nat) : Mem :=
  (bootEntries page n N).foldl (fun m e => m.writeN e.1 8 e.2) m

/-- XLT_ASTAB that locates the address-space table (R100). -/
def bootAstab (N : Nat) : Dword := BitVec.ofNat 64 (1 + N * 8 + 2 ^ 39)

/-- Write bytes from an address. -/
def Mem.writeBytes (m : Mem) : Nat → List Byte → Mem
  | _, [] => m
  | a, b :: r => Mem.writeBytes (m.writeN a 1 b.toNat) (a + 1) r

end Sys2Proof.Machine
end

