-- ==== Sys2Proof/Machine/Xlate.lean ====
section
/-!
DEFINITION. Translation: walks, cached translations, the rule of one writer per frame, outstanding faults, and the
place of a line (R88, R95, R96, R100 to R109, R151, R454).
-/
namespace Sys2Proof.Machine

/-- Who makes an access: its source, the partition and address space it acts in, whether it may reach service pages,
and its containment identifier. -/
structure Who where
  source : Nat
  part : Nat
  asid : Nat
  priv : Bool
  cid : Nat
  /-- first byte of the access, where it lies beyond the start of a line being translated -/
  first : Nat := 0
  deriving DecidableEq, Repr

/-- The current thread as the maker of an access. -/
def State.who (s : State) : Who :=
  { source := s.src, part := s.me.part, asid := s.me.asid, priv := decide (1 ≤ s.me.level), cid := s.me.cid }
/-- A block that writes a ring or record of a partition, in its address space 0 (R100). -/
def blockWho (source part : Nat) : Who := { source, part, asid := part * 2048, priv := true, cid := part * 2048 }

/-- Who owns the frames that an address's tables name: partition 0 for the commons (R104). -/
def ownerPart (va part : Nat) : Nat := if regionOf va = .commons then 0 else part

/-- What a walk of the tables finds (R101 to R105, R454). -/
inductive Walk where
  /-- the space does not exist, or an entry names a frame beyond holdings -/
  | denied
  /-- V clear; or a reserved bit set (KIND 7); or an entry in a poisoned sector -/
  | absent (reserved poisoned : Bool)
  /-- the level-0 entry, and its physical address -/
  | leaf (pte : Dword) (at_ : Nat)
  deriving DecidableEq, Repr

/-- Physical address of the table in a quarter of a frame (R101, R102). -/
def State.tableAt (s : State) (part home frame sub : Nat) : Option Nat :=
  if s.kvFrame part home frame then none
  else if home < 2 then (s.frameAddr part home frame).map (· + sub * 16384)
  else none

/-- Walk the levels below a table; `n` is the level of its entries (R101). The physical addresses of the entries read
come with the answer. -/
def State.walkFrom (s : State) (part va : Nat) : Nat → Nat → Walk × List Nat
  | n, tbl =>
    let at_ := tbl + 8 * (va / 2 ^ (16 + 11 * n) % 2048)
    if s.mem.pois at_ then (.absent false true, [at_])
    else
      let e := BitVec.ofNat 64 (s.mem.readN at_ 8)
      let reserved := if n = 0 then e.extractLsb' 0 9 != 0 else e.extractLsb' 0 23 != 0 || e.getLsbD 62
      if reserved then (.absent true false, [at_])
      else if !e.getLsbD 63 then (.absent false false, [at_])
      else match n with
      | 0 => (.leaf e at_, [at_])
      | m + 1 =>
        match s.tableAt part (e.extractLsb' 61 2).toNat (e.extractLsb' 25 36).toNat (e.extractLsb' 23 2).toNat with
        | none => (.denied, [at_])
        | some t =>
          let r := s.walkFrom part va m t
          (r.1, at_ :: r.2)

/-- Walk the tables of an address (R100, R101), with the physical addresses of the entries read. DESIGN CHOICE (log 13): the
address-space entry is judged for V before its reserved bits. -/
def State.walkTables (s : State) (asid part va : Nat) : Walk × List Nat :=
  let p := ownerPart va part
  let root := if regionOf va = .commons then s.croot else (s.part part).astab
  if !root.getLsbD 0 then (.denied, [])
  else match s.tableAt p (root.extractLsb' 39 2).toNat (root.extractLsb' 3 36).toNat (root.extractLsb' 1 2).toNat with
  | none => (.denied, [])
  | some t =>
    if regionOf va = .commons then s.walkFrom 0 va 3 t
    else
      let at_ := t + 8 * (asid % 2048)
      if s.mem.pois at_ then (.absent false true, [at_])
      else
        let e := BitVec.ofNat 64 (s.mem.readN at_ 8)
        if !e.getLsbD 63 then (.denied, [at_])
        else if e.extractLsb' 0 23 ≠ 0 ∨ e.getLsbD 62 then (.absent true false, [at_])
        else match s.tableAt p (e.extractLsb' 61 2).toNat (e.extractLsb' 25 36).toNat (e.extractLsb' 23 2).toNat with
          | none => (.denied, [at_])
          | some t3 =>
            let r := s.walkFrom p va 3 t3
            (r.1, at_ :: r.2)
/-- What a walk of the tables of an address finds. -/
def State.walk (s : State) (asid part va : Nat) : Walk := (s.walkTables asid part va).1

/-- A page-table entry as a translation (R103). -/
def xlateOf (pte : Dword) (at_ : Nat) : Xlate :=
  let home := (pte.extractLsb' 61 2).toNat
  { home, frame := (pte.extractLsb' 25 36).toNat, run := (pte.extractLsb' 17 8).toNat, swm := pte.getLsbD 15,
    svc := pte.getLsbD 14, x := pte.getLsbD 13, w := pte.getLsbD 12 && decide (home < 2), rd := pte.getLsbD 11,
    entryAt := at_ }

/-- The same page under both, whatever declared it. -/
def Xlate.same (x y : Xlate) : Bool :=
  { x with run := 0, entryAt := 0, since := 0 } == { y with run := 0, entryAt := 0, since := 0 }

/-- The cached translation that covers a page: its own, or one whose run reaches it (R105). DESIGN CHOICE (log 116): its entry, of
which D is set (`writeBack`), is the one that declared the run. -/
def State.cached (s : State) (key : Nat) : Option Xlate :=
  match s.tlb.find? key with
  | some x => some x
  | none =>
    (List.find? (fun (e : Nat × Xlate) => decide (e.1 < key ∧ key - e.1 ≤ e.2.run ∧ e.1 / 2048 = key / 2048)) s.tlb).map fun e =>
      { e.2 with frame := e.2.frame + (key - e.1), run := e.2.run - (key - e.1) }

/-- Record a fault on a page, by an access of some kind or by a reserved bit, or join the outstanding one (R109). -/
def State.postFault (s : State) (w : Who) (va access : Nat) (reserved : Bool) : State :=
  let tag := tagOf va w.asid w.part
  let page := va / 65536
  if s.faults.any fun f => f.tag == tag && f.page == page then s
  else
    let part := ownerPart va w.part
    { s with faults := s.faults ++
        [{ tag, page, va, asid := w.asid, access, kind := if reserved then 7 else access, core := w.source, cid := w.cid, part, posted := false }] }

/-- Translation agent beside the home of a line: source 165 + compute die (R130). -/
def agentOf (va : Nat) : Nat := 165 + hashDie va

/-- The entries of a walk are read as ordinary loads of the agent, at the walk's milestone: one after the accesses of
the source that it serves, whose access follows it (R101, R107). -/
def State.walked (s : State) (source va : Nat) (ats : List Nat) : State :=
  let a := agentOf va
  let s := (s.atLeastMs a (s.msOf source)).leaseLoad a (ats.map (· / 128))
  s.atLeastMs source (s.msOf a)

/-- Set a bit of a page-table entry, by an atomic OR of the agent (R103). -/
def State.orEntry (s : State) (va at_ bit : Nat) : State :=
  let s := s.leaseStore (agentOf va) [at_ / 128]
  ({ s with mem := s.mem.writeN at_ 8 (s.mem.readN at_ 8 ||| 2 ^ bit) }).wakeWaiters (s.msOf (agentOf va))

/-- A dirty line goes to its home: the first write-back of a page sets the D bit of its entry (R94, R103). The memory
holds its data already. -/
def State.writeBack (s : State) (k : Nat) : State :=
  let va := k % 2 ^ 53 * 128
  match s.cached (k / 2 ^ 53 * 2 ^ 44 + va / 65536) with
  | some x => if s.mem.readN x.entryAt 8 / 2 ^ 9 % 2 = 1 then s else s.orEntry va x.entryAt 9
  | none => s

/-- A line leaves the LLC: written back when dirty, and its sectors' shadow entries are lost (R94, R147). -/
def State.evictLine (s : State) (key : Nat) : State :=
  match s.lines.find? key with
  | none => s
  | some l =>
    let s := if l.dirty then s.writeBack key else s
    { s with lines := Tbl.del s.lines key, shadow := s.shadow.filter fun x => x.1 / 4 != key }

/-- A line enters the LLC: in a way of its set that caches and holds none, else in place of a line, which one being
open (R87, R90, R94). -/
def State.allocLine (s : State) (key : Nat) (l : Line) : State :=
  let slot := llcSlot key
  let mates := s.lines.filter fun e => llcSlot e.1 == slot
  let ways := (List.range sliceWays).filter fun w => !s.carvedWay slot.1 w
  match ways.find? fun w => !mates.any fun e => e.2.way == w with
  | some w => { s with lines := Tbl.ins s.lines key { l with way := w } }
  | none =>
    let w := ways.getD ((Config.freeDword s.free).toNat % ways.length) 0
    let s := { s with free := s.free + 1 }
    let s := match mates.find? fun e => e.2.way == w with
      | some v => s.evictLine v.1
      | none => s
    { s with lines := Tbl.ins s.lines key { l with way := w } }

/-- Key of an owner record. -/
def ownerKey (home phys : Nat) : Nat := home * 2 ^ 48 + phys / 65536

/-- The table of R107: the record after a walk, or `none` when the walk is denied. -/
def ownerStep (o : Option Owner) (asid page : Nat) (w : Bool) : Option Owner :=
  match o with
  | none => some (if w then .owned asid page else .shared)
  | some (.owned a p) => if a = asid ∧ p = page then some (.owned a p) else none
  | some .shared => if w then none else some .shared

/-- What translation answers. -/
inductive Tr where
  | ok (x : Xlate)
  | denied
  | absent (reserved : Bool)
  deriving DecidableEq, Repr

/-- The frame of a translation lies within the partition's holdings and outside its KV pool (R104, R349). -/
def State.frameOk (s : State) (part : Nat) (x : Xlate) : Bool :=
  if x.home = 3 then decide (x.frame / 2 ^ 28 ≤ 143)
  else !s.kvFrame part x.home x.frame && (s.frameAddr part x.home x.frame).isSome

/-- Use a translation that a walk found: frame check, owner record, and the cache (R104, R106, R107). -/
def State.enter (s : State) (w : Who) (va : Nat) (x : Xlate) : Tr × State :=
  let x := { x with since := s.msOf (agentOf va) }
  let p := ownerPart va w.part
  if !s.frameOk p x then (.denied, s)
  else
    let s' := { s with tlb := Tbl.ins s.tlb (pageKey (tagOf va w.asid w.part) va) x }
    if regionOf va = .commons ∨ 2 ≤ x.home then (.ok x, s')
    else match s.frameAddr p x.home x.frame with
      | none => (.denied, s)
      | some phys =>
        let k := ownerKey x.home phys
        match ownerStep (s.owners.find? k) w.asid (va / 65536) x.w with
        | none => (.denied, s)
        | some o => (.ok x, { s' with owners := Tbl.ins s'.owners k o })

/-- A walk of an agent for an access: the entries are read, A is set, the owner record entered and the translation cached
(R101 to R107); an entry in a poisoned sector is reported (R454). -/
def State.walkPage (s : State) (w : Who) (va : Nat) : Tr × State :=
  let (wk, read) := s.walkTables w.asid w.part va
  let s := s.walked w.source va read
  match wk with
  | .denied => (.denied, s)
  | .absent r p =>
    (.absent r, if p then
      (s.meet (agentOf va)).report (ownerPart va w.part) 1 0x08 (ownerPart va w.part * 2048) 0 0 (BitVec.ofNat 64 (max va w.first)) 2 0 else s)
  | .leaf pte at_ => (s.orEntry va at_ 10).enter w va (xlateOf pte at_)

/-- A walk finds what a cached translation says, or what leaves it in use: an entry in a poisoned sector (R105, R454). -/
def Walk.keeps (wk : Walk) (x : Xlate) : Bool :=
  match wk with
  | .leaf pte at_ => x.same (xlateOf pte at_)
  | .absent _ p => p
  | .denied => false

/-- Translate a page: the cached translation, or a walk; where they differ, either (R105, R106). A page whose fault
record is outstanding is not yet present (R111). DESIGN CHOICE (log 114): an agent gives up a cached translation only to
INVAL, a purge or a suspend. -/
def State.translate (s : State) (w : Who) (va : Nat) : Tr × State :=
  let tag := tagOf va w.asid w.part
  if s.faults.any fun f => f.tag == tag && f.page == va / 65536 then (.absent false, s)
  else
    match s.cached (pageKey tag va) with
    | none => s.walkPage w va
    | some x =>
      let use (s : State) : Tr × State := if (s.tlb.find? (pageKey tag va)).isSome then (.ok x, s) else s.enter w va x
      if (s.walk w.asid w.part va).keeps x then use s
      else
        let (c, s) := s.choose
        if c then use s
        else
          let (r, s') := s.walkPage w va
          -- the old translation stays cached until INVAL covers the page
          (r, { s' with tlb := s.tlb })

/-- The purpose of an access. -/
inductive Use where
  | load | store | fetch
  deriving DecidableEq, Repr

/-- The physical line whose lease a line in memory has. -/
def Place.leaseLine (p : Place) : Nat := p.phys / 128

/-- What the place of a line turns out to be. -/
inductive Found where
  | ok (p : Place)
  | denied
  | absent (reserved : Bool)
  | wait (w : Wait)
  deriving DecidableEq, Repr

/-- The permission that a use needs (R95, R96, R103). -/
def Xlate.permits (x : Xlate) (u : Use) (priv : Bool) : Bool :=
  (priv || !x.svc) &&
  match u with
  | .load => x.rd
  | .store => x.w
  | .fetch => x.x

/-- Key of a remote line in the fabric cache: partition, package and frame, line (R96, R349). -/
def remoteKey (part frame va : Nat) : Nat := (part * 2 ^ 36 + frame) * 512 + va % 65536 / 128

/-- Key by which a queue or command knows that it waits for a remote request. -/
def reqKey (q : Nat) : Nat := 2 ^ 90 + q
/-- Begin, or join, the read of a remote line (R96, R472). -/
def State.askRemote (s : State) (part frame va : Nat) (gsum : Bool) (tree : Word) (cid : Nat) (cmd : Option Nat := none) :
    Nat × State :=
  let r : RemoteReq := { part, pkg := frame / 2 ^ 28, frame, offset := va % 65536 / 128 * 128, gsum, tree, cmd,
                         tids := [], sentAt := s.rt, cid }
  let bare (x : RemoteReq) : RemoteReq := { x with tids := [], sentAt := 0, cid := 0 }
  match List.find? (fun (e : Nat × RemoteReq) => bare e.2 == bare r) s.reqs with
  | some e => (e.1, s)
  | none => (s.nextReq, { s with reqs := Tbl.ins s.reqs s.nextReq r, nextReq := s.nextReq + 1 })

/-- Key of a reply that no line has: with it a remote line is read afresh (R145). -/
def noReply : Nat := 2 ^ 200

/-- The line of a failed remote request: every sector poisoned (R471). -/
def lostLine : List SectorLit := List.replicate 4 { data := 0, side := 0, poison := true }

/-- Report a failure, a closure or a reopening of a transport context; which port carried the request last is free (R471,
R472). -/
def State.reportLink (s : State) (source part cid cls : Nat) : State :=
  ({ s.meet source with free := s.free + 1 }).report part cls 0x0A cid 6 ((Config.freeDword s.free).toNat % 8) 0 0 0
/-- A context reopens at the first request after its peer has answered (R472). -/
def State.reopen (s : State) (source part pkg cid : Nat) : State :=
  (s.modPart part fun p => { p with closed := Tbl.del p.closed pkg }).reportLink source part cid 0

/-- Lines of the fabric cache: 128 MiB (R13, R17). -/
def fabricLines : Nat := 2 ^ 20
/-- A remote line enters the fabric cache; when it is full it replaces another, which one being open (R96). -/
def State.keepRemote (s : State) (key : Nat) (line : Kept) : State :=
  if s.fcache.length < fabricLines ∨ (s.fcache.find? key).isSome then { s with fcache := Tbl.ins s.fcache key line }
  else
    let victim := (s.fcache.map Prod.fst).getD ((Config.freeDword s.free).toNat % s.fcache.length) 0
    { s with fcache := Tbl.ins (Tbl.del s.fcache victim) key line, free := s.free + 1 }
/-- A line held in the fabric cache: what it serves, unless it has been replaced, which the manual leaves open. -/
def State.heldRemote (s : State) (key : Nat) : Option (List SectorLit) × State :=
  match s.fcache.find? key with
  | none => (none, s)
  | some d =>
    let (kept, s) := s.choose
    if kept then (some d.data, s) else (none, { s with fcache := Tbl.del s.fcache key })

/-- An access to a channel retired at run time is reported, with the sector of its first byte (R411, R415). -/
def State.reportDead (s : State) (w : Who) (va phys : Nat) : State :=
  if s.mem.isDead phys then
    (s.meet w.source).report w.part 1 0x02 w.cid 2 (phys / 65536 % 256) (BitVec.ofNat 64 (max va w.first / 32 * 32)) 2 0
  else s

/-- A read of a flash page that is free: it stands between the page's trim and its next publication, so the append engine's
next publication comes after it (R151, R168). -/
def State.readFree (s : State) (source : Nat) : State :=
  let s := s.atLeastMs source (s.msOf 161 + 1)
  s.atLeastMs 161 (s.msOf source)

/-- A line that the LLC does not hold: its colour is checked, flash is read, and any other line enters the LLC (R88,
R95, R152). -/
def State.missLine (s : State) (w : Who) (va key : Nat) (x : Xlate) (phys : Nat) (published : Option Nat) : Found × State :=
  if !s.colourOk va w.asid w.part then (.denied, s)
  else if x.home = 2 then
    match published with
    | none => (.denied, s.readFree w.source)
    | some pub => (.wait (.line key),
      if s.flash.any (·.key == key) then s
      else { s with flash := s.flash ++
        [{ key, part := ownerPart va w.part, page := x.frame, swm := x.swm, pub, data := s.mem.line phys }] })
  else (.ok { key, phys, home := x.home, swm := x.swm }, (s.reportDead w va phys).allocLine key { cid := w.cid })

/-- The place of the line that holds `va`, for one use. LLC hits need no walk; a miss is translated and, for flash,
fetched (R88, R94 to R96, R104, R151, R152). `reply` is the line a held access was waiting for. -/
def State.place (s : State) (w : Who) (va : Nat) (u : Use) (reply : Option Reply) : Found × State :=
  let tag := tagOf va w.asid w.part
  let key := lineKey tag va
  match regionOf va with
  | .carve =>
    if u = .fetch then (.denied, s)
    else match s.carveAddr w.part (va % 2 ^ 48 / 128 * 128) with
      | none => (.denied, s)
      | some phys => (.ok { key, phys, home := 4, swm := true }, s)
  | _ =>
    let p := ownerPart va w.part
    match s.translate w va with
    | (.denied, s) => (.denied, s)
    | (.absent r, s) => (.absent r, s)
    | (.ok x, s) =>
      let s := s.atLeastMs w.source x.since
      if !x.permits u w.priv then (.denied, s)
      else if x.home = 3 then
        let rk := remoteKey w.part x.frame va
        let got (d : List SectorLit) (s : State) : Found × State :=
          (.ok { key, phys := 0, home := 3, swm := x.swm, copy := some d }, s)
        let ask (s : State) : Found × State :=
          match Tbl.find? (s.part w.part).closed (x.frame / 2 ^ 28) with
          | some false => got lostLine (s.reportLink w.source w.part w.cid 1)
          | c =>
            let s := if c.isSome then s.reopen w.source w.part (x.frame / 2 ^ 28) w.cid else s
            let (q, s) := s.askRemote w.part x.frame va false 0 w.cid
            (.wait (.remote q), s)
        let look : Found × State :=
          match s.heldRemote rk with
          | (some d, s) => got d s
          | (none, s) => ask s
        match reply with
        | some r => if r.key = rk ∧ !r.flash then got r.data s else if r.key = noReply then ask s else look
        | none => look
      else
        match s.frameAddr p x.home x.frame with
        | none => (.denied, s)
        | some f =>
          let phys := f + va % 65536 / 128 * 128
          -- no load of a flash page comes before its publication (R168); one whose read began while an earlier publication
          -- stood ends with that line (R170)
          let published := if x.home = 2 then (s.part p).published.find? x.frame else none
          let after := s.atLeastMs w.source (published.getD 0)
          let flashed (d : List SectorLit) (s : State) : Found × State :=
            (.ok { key, phys, home := x.home, swm := x.swm, copy := some d }, s)
          match reply, s.lines.find? key with
          | _, some l =>
            (.ok { key, phys, home := x.home, swm := x.swm, copy := if l.copy = [] then none else some l.copy },
              after.reportDead w va phys)
          | some r, none =>
            if r.flash ∧ r.key = key ∧ x.home = 2 then flashed r.data s
            else after.missLine w va key x phys published
          | none, none => after.missLine w va key x phys published

end Sys2Proof.Machine
end

