-- ==== Sys2Proof/Machine/LoadStore.lean ====
section
/-!
DEFINITION. Loads and stores: leases and milestones (R132), the effect of a write, rings that blocks write, the order
of checks on a thread's access (R433 steps 9 to 14), transactions' read and write sets (R141, R142), the race detector
(R147 to R149) and retirement into the side log (R111, R450).
-/
namespace Sys2Proof.Machine

/-! ### Leases and the effect of reads and writes -/

/-- A sector of a line, as its place holds it; side words read as zero in mode 0 (R97). -/
def State.sectorAt (s : State) (p : Place) (i : Nat) : SectorLit :=
  let v := match p.copy with
    | some d => d.getD i { data := 0, side := 0, poison := false }
    | none => s.mem.sector (p.phys + 32 * i)
  if p.swm then v else { v with side := 0 }

/-- The whole line as its place holds it, side words kept. -/
def State.lineAt (s : State) (p : Place) : List SectorLit :=
  match p.copy with
  | some d => d
  | none => s.mem.line p.phys

/-- Apply one sector write at a place. -/
def Mem.apply (m : Mem) (p : Place) (w : SecWrite) : Mem :=
  let a := p.phys + w.va % 128
  let m := m.writeN a w.n w.val
  let m := match w.side with
    | some x => if p.swm then m.setSide a x else m
    | none => m
  match w.poison with
  | some b => m.setPois a b
  | none => m

/-- Bring a core's own L1 copy of a line up to date after its write (R86). -/
def State.refreshL1 (s : State) (src : Nat) (ps : List (Nat × Place)) : State :=
  match s.l1.find? src with
  | none => s
  | some t =>
    let t := ps.foldl (fun (t : Tbl L1Line) e =>
      if (t.find? e.2.key).isSome then
        let l := s.lease e.2.leaseLine
        Tbl.ins t e.2.key { t.get { lw := 0, le := 0, data := [] } e.2.key with lw := l.lw, le := l.le, data := s.lineAt e.2 }
      else t) t
    { s with l1 := Tbl.ins s.l1 src t }

/-- The place of the line that holds an address, among places found. -/
def placeOf (ps : List (Nat × Place)) (va : Nat) : Option Place :=
  (ps.find? fun e => e.1 == va / 128 * 128).map Prod.snd

/-- The physical lines of places; a remote line has none. -/
def leaseLines (ps : List (Nat × Place)) : List Nat :=
  (ps.filter fun e => e.2.home != 3).map fun e => e.2.leaseLine
/-- Written lines are dirty (R94). -/
def State.markDirty (s : State) (ps : List (Nat × Place)) : State :=
  { s with lines := ps.foldl (fun t e => Tbl.adjust t e.2.key fun l => { l with dirty := true }) s.lines }

/-- Sources of engines: transfer engines, append engine, collective engine and fabric ingress (R130). -/
def engineSource (src : Nat) : Bool := (decide (32 ≤ src) && decide (src < 64)) || src == 161 || src == 162 || src == 170
/-- A write of an engine empties the shadow entries of its sectors (R148). -/
def State.unshadow (s : State) (src : Nat) (ps : List (Nat × Place)) (ws : List SecWrite) : State :=
  if engineSource src && !s.shadow.isEmpty then
    let gone (t : Tbl Shadow) (w : SecWrite) : Tbl Shadow :=
      match placeOf ps w.va with
      | some p => Tbl.del t (p.key * 4 + w.va % 128 / 32)
      | none => t
    { s with shadow := ws.foldl gone s.shadow }
  else s

/-- Perform writes at their places, at the milestone of a source that has gone past the leases of their lines. -/
def State.performHere (s : State) (src : Nat) (ps : List (Nat × Place)) (ws : List SecWrite) : State :=
  let s := ((s.leaseHere src (leaseLines ps)).markDirty ps).unshadow src ps ws
  let put (m : Mem) (w : SecWrite) : Mem :=
    match placeOf ps w.va with
    | some p => m.apply p w
    | none => m
  let s := { s with mem := ws.foldl put s.mem }
  (s.refreshL1 src ps).wakeWaiters (s.msOf src)
/-- Perform writes at their places, at one key of the source, past every lease granted on their lines (R132). -/
def State.performWrites (s : State) (src : Nat) (ps : List (Nat × Place)) (ws : List SecWrite) : State :=
  (s.pastLeases src (leaseLines ps)).performHere src ps ws

/-- The lines that n bytes from va touch. -/
def linesOf (va n : Nat) : List Nat :=
  (List.range ((va % 128 + n + 127) / 128)).map fun i => va / 128 * 128 + 128 * i
/-- The sectors that n bytes from va touch. -/
def sectorsOf (va n : Nat) : List Nat :=
  (List.range ((va % 32 + n + 31) / 32)).map fun i => va / 32 * 32 + 32 * i

/-- Find the places of lines, one after another. -/
def State.places (s : State) (w : Who) (u : Use) (reply : Option Reply) : List Nat → List (Nat × Found) × State
  | [] => ([], s)
  | va :: r =>
    let (f, s) := s.place w va u reply
    let (fs, s) := s.places w u reply r
    ((va, f) :: fs, s)

/-- The whole answer of an access by a block (not a thread). -/
inductive BlockRes where
  | ok (ps : List (Nat × Place))
  | denied
  | absent (va : Nat) (reserved : Bool)
  | wait (w : Wait)
  deriving DecidableEq, Repr

/-- Sum up the places found: denial first, then absence, then a wait (R448). -/
def sumUp (fs : List (Nat × Found)) : BlockRes :=
  if fs.any (fun e => e.2 == .denied) then .denied
  else match fs.find? (fun e => match e.2 with | .absent _ => true | _ => false) with
  | some (va, .absent r) => .absent va r
  | _ =>
    match fs.findSome? (fun e => match e.2 with | .wait w => some w | _ => none) with
    | some w => .wait w
    | none => .ok (fs.filterMap fun e => match e.2 with | .ok p => some (e.1, p) | _ => none)

/-- The place of a block's access of n bytes; an address outside the 60-bit space is denied (R92). -/
def State.blockPlaces (s : State) (w : Who) (u : Use) (va n : Nat) : BlockRes × State :=
  if 2 ^ 60 < va + n ∨ regionOf va ≠ regionOf (va + n - 1) then (.denied, s)
  else
    let (fs, s) := s.places { w with first := va } u none (linesOf va n)
    match sumUp fs with
    | .absent a r => (.absent (max va a) r, s)
    | x => (x, s)

/-- Split n bytes into writes within sectors. -/
def splitBytes : Nat → Nat → Nat → Nat → List SecWrite
  | 0, _, _, _ => []
  | fuel + 1, va, n, val =>
    if n = 0 then []
    else
      let k := min n (32 - va % 32)
      { va, n := k, val := val % 256 ^ k } :: splitBytes fuel (va + k) (n - k) (val / 256 ^ k)

/-- Write n bytes as a block, in its address space; answers what became of it. A page that is absent has its fault
posted under the kind given. -/
def State.blockWrite (s : State) (w : Who) (va n val kind : Nat) : BlockRes × State :=
  match s.blockPlaces w .store va n with
  | (.ok ps, s) => (.ok ps, s.performWrites w.source ps (splitBytes (n + 1) va n val))
  | (.absent a r, s) => (.absent a r, s.postFault w a kind r)
  | (x, s) => (x, s)

/-- Read n bytes as a block: the places, the value and whether a sector of them is poisoned. -/
def State.blockRead (s : State) (w : Who) (va n kind : Nat) : BlockRes × Nat × Bool × State :=
  match s.blockPlaces w .load va n with
  | (.ok ps, s) =>
    let s := s.leaseLoad w.source (leaseLines ps)
    let secs := (sectorsOf va n).map fun a => match placeOf ps a with
      | some p => s.sectorAt p (a % 128 / 32)
      | none => { data := 0, side := 0, poison := false }
    let big := secs.foldr (fun x acc => x.data.toNat + 2 ^ 256 * acc) 0
    (.ok ps, big / 256 ^ (va % 32) % 256 ^ n, secs.any SectorLit.poison, s)
  | (.absent a r, s) => (.absent a r, 0, false, s.postFault w a kind r)
  | (x, s) => (x, 0, false, s)

/-! ### Rings (R54, R109, R149, R323, R357, R410) -/

def Ring.size (r : Ring) : Nat := (r.base.extractLsb' 0 5).toNat
def Ring.addr (r : Ring) (recBytes : Nat) : Nat :=
  (r.base.extractLsb' 8 52).toNat * 256 + recBytes * (r.tail.toNat % 2 ^ r.size)
def Ring.full (r : Ring) : Bool := decide (2 ^ r.size ≤ (r.tail - r.head).toNat)

/-- A record posted to a ring of the partition ends the HALT of its service threads (R331). -/
def State.wakeHalted (s : State) (part : Nat) : State :=
  { s with threads := s.threads.map fun e =>
      if e.2.wait = .halted && e.2.part == part && isService e.1 then (e.1, e.2.wake s.now) else e }

/-- What became of a record. -/
inductive Posted where
  | done | full | failed | later
  deriving DecidableEq, Repr

/-- Write a record at the tail of a ring of a partition, in its address space 0 (R100), and advance TAIL. A page that is
not present, not writable or poisoned fails it (R456). -/
def State.postRing (s : State) (source part : Nat) (ring : Part → Ring) (setRing : Part → Ring → Part)
    (recBytes val : Nat) : Posted × State :=
  let r := ring (s.part part)
  let va := r.addr recBytes
  if r.full then (.full, s)
  else match s.blockPlaces (blockWho source part) .store va recBytes with
  | (.ok ps, s) =>
    if ps.any fun e => s.mem.anyPois (e.2.phys + va % 128) recBytes then (.failed, s)
    else
      let s := s.performWrites source ps (splitBytes (recBytes + 1) va recBytes val)
      (.done, (s.modPart part fun p => setRing p { ring p with tail := (ring p).tail + 1 }).wakeHalted part)
  | (.wait _, s) => (.later, s)
  | (_, s) => (.failed, s)

/-! ### Transactions -/

-- Causes of R267.
def txCONFLICT := 1
def txVALIDATE := 2
def txCAPACITY := 3
def txEXPLICIT := 4
def txFAULT := 5
def txLOCKED := 6
def txUNSUPPORTED := 7
def txNESTED := 8
def txPREEMPT := 9
def txTRAP := 10

/-- Abort a thread's transaction: log discarded, TSTAT written, PC at the abort target (R144, R267). -/
def State.abortTx (s : State) (t : Tid) (cause : Nat) (ucode tcode : Nat := 0) : State :=
  s.modThr t fun th => match th.tx with
    | none => th
    | some x => { th.wake s.now with
        tx := none, pc := x.abortPc, tstat := BitVec.ofNat 32 (cause + ucode * 256 + tcode * 65536) }

/-- Abort the current thread's transaction, ending the instruction. -/
def txAbort {α : Type} (cause : Nat) (ucode tcode : Nat := 0) : M α := do
  upd fun s => s.abortTx s.cur cause ucode tcode
  throw .keep

def inTx : M Bool := do return (← get).me.tx.isSome

/-- Inside a transaction the instruction aborts UNSUPPORTED before any effect (R144, R268). -/
def unsupportedInTx : M Unit := do if ← inTx then txAbort txUNSUPPORTED

/-- The smaller key of begin milestone, source and sequence (R142). -/
def Tx.before (a b : Tx) : Bool :=
  decide (a.beginMs < b.beginMs) || (a.beginMs == b.beginMs && (decide (a.source < b.source) ||
    (a.source == b.source && decide (a.seq < b.seq))))

/-- The other threads of a core that run a transaction using one of the sectors (keys), in a way that conflicts. -/
def State.conflicting (s : State) (core : Nat) (me : Tid) (keys : List Nat) (write : Bool) : List (Tid × Tx) :=
  s.threads.filterMap fun e =>
    if e.1 = me ∨ tidSource e.1 ≠ core then none
    else match e.2.tx with
    | none => none
    | some x =>
      if keys.any fun k => (x.writes.find? k).isSome || (write && (x.reads.find? k).isSome) then some (e.1, x)
      else none

/-- Resolve conflicts of the current thread's access with running transactions of its core (R142): without one of its
own, every such transaction aborts; with one, the larger key aborts. -/
def resolveConflicts (keys : List Nat) (write : Bool) : M Unit := do
  let s ← get
  let others := s.conflicting s.src s.cur keys write
  match s.me.tx with
  | none =>
    if write then upd fun s => others.foldl (fun s o => s.abortTx o.1 txCONFLICT) s
  | some x =>
    if others.any fun o => o.2.before x then txAbort txCONFLICT
    upd fun s => others.foldl (fun s o => s.abortTx o.1 txCONFLICT) s

/-! ### The race detector -/

/-- The current thread as a shadow entry would record it. -/
def State.shadowMe (s : State) : Option Shadow :=
  match s.myUnit with
  | none => none
  | some u =>
    let th := s.me
    match u.group th.group with
    | none => none
    | some g =>
      some { core := tidCore s.cur, cgn := g.cgn, lane := tidLane s.cur, unit := th.unit, part := th.part,
             gi := g.interval, ui := u.interval,
             ci := (s.coreRec (tidCore s.cur)).intervals.get 0 th.part, pi := (s.part th.part).interval }

/-- The smallest scope that holds both threads: 0 group, 1 unit, 2 core, 3 package; none for the same thread or for
threads of two partitions (R148, R463). -/
def scopeOf (a b : Shadow) : Option Nat :=
  if a.part ≠ b.part then none
  else if a.unit = b.unit then
    if a.cgn = b.cgn then (if a.lane = b.lane then none else some 0) else some 1
  else if a.core = b.core then some 2 else some 3

/-- The interval of a scope in a shadow entry. -/
def Shadow.interval (a : Shadow) (scope : Nat) : BitVec 8 :=
  match scope with
  | 0 => a.gi
  | 1 => a.ui
  | 2 => a.ci
  | _ => a.pi

/-- Core, core group number and lane, as a log record gives them (R149). -/
def Shadow.code (a : Shadow) : Nat := a.core + a.cgn * 32 + a.lane * 2 ^ 15

/-- A finding of the current thread at a milestone of its source, to be posted to the detector's log (R149). -/
def State.logRace (s : State) (va ms : Nat) (write : Bool) (scope : Nat) (me first : Shadow) : State :=
  let val := va / 32 * 32 + s.me.asid * 2 ^ 64 + ((if write then 1 else 0) + scope * 2) * 2 ^ 80 +
    me.code * 2 ^ 96 + first.code * 2 ^ 128 + s.me.cid * 2 ^ 160
  { s with findings := s.findings ++ [{ part := me.part, ms, source := s.src, va, val }] }
/-- The finding of a partition that is posted next: that of least key, once no core's later access can have a lesser one
(R129, R463). -/
def State.nextFinding (s : State) (part : Nat) : Option Finding :=
  let before (a b : Finding) : Bool := decide (a.ms < b.ms) || (a.ms == b.ms && decide (a.source < b.source))
  let least := (s.findings.filter fun f => f.part == part).foldl (fun b f => match b with
    | none => some f
    | some x => if before f x then some f else some x) none
  least.filter fun f => (List.range 32).all fun c => decide (f.ms < s.msOf c) || (f.ms == s.msOf c && decide (f.source ≤ c))
/-- Post the next finding of a partition, or drop it and set OVF (R149, R456). -/
def State.postFinding (s : State) (part : Nat) : State :=
  match s.nextFinding part with
  | none => s
  | some f =>
    match { s with findings := s.findings.erase f }.postRing (agentOf f.va) part Part.lq (fun p r => { p with lq := r }) 32 f.val with
    | (.done, s) => s
    | (_, s) => s.modPart part fun p => { p with rdetOvf := true }

/-- The findings of an access of the current thread to sectors: sector, scope and recorded writer (R148). -/
def State.races (s : State) (tag : Nat) (secs : List Nat) : List (Nat × Nat × Shadow) :=
  let p := s.part s.me.part
  match s.shadowMe with
  | none => []
  | some me =>
    if !p.rdetEn then []
    else secs.filterMap fun va =>
      match s.shadow.find? (sectorKey tag va) with
      | none => none
      | some f => match scopeOf me f with
        | none => none
        | some sc => if sc ≤ p.rdetScope.toNat ∧ me.interval sc = f.interval sc then some (va, sc, f) else none

/-- Step 13 of R433: in trap mode a finding traps RACE before the access has any effect (R148). -/
def raceTrap (tag : Nat) (secs : List Nat) : M Unit := do
  let s ← get
  match s.races tag secs with
  | (va, _) :: _ => if (s.part s.me.part).rdetMode = 1 then trap cRACE 0 (BitVec.ofNat 64 va)
  | [] => pure ()

/-- The current thread becomes the recorded writer of sectors; a thread that no entry can name empties them (R147). -/
def raceRecord (tag : Nat) (secs : List Nat) : M Unit := do
  let s ← get
  if (s.part s.me.part).rdetEn then
    match s.shadowMe with
    | none => set { s with shadow := secs.foldl (fun t a => Tbl.del t (sectorKey tag a)) s.shadow }
    | some me => set { s with shadow := secs.foldl (fun t a => Tbl.ins t (sectorKey tag a) me) s.shadow }

/-- What the detector does with an access that is performed: its findings are logged, at the key that the leases of its lines
give it (R132), and a store is recorded. -/
def raceNote (tag : Nat) (secs : List Nat) (write : Bool) (lines : List Nat) : M Unit := do
  let s ← get
  let ms := (if write then s.pastLeases s.src lines else s.leaseLoad s.src lines).msOf s.src
  match s.shadowMe with
  | none => pure ()
  | some me => set ((s.races tag secs).foldl (fun s x => s.logRace x.1 ms write x.2.1 me x.2.2) s)
  if write then raceRecord tag secs

/-- Check one access of the current thread to sectors against their shadow entries, and record a store (R148). -/
def raceCheck (tag : Nat) (secs : List Nat) (write : Bool) (lines : List Nat) : M Unit := do
  raceTrap tag secs
  raceNote tag secs write lines

/-! ### Accesses of a thread -/

/-- The range-lock table holds a range that the access may not touch (R137). -/
def State.lockedBy (s : State) (tag lo hi : Nat) (store : Bool) : Bool :=
  s.cmds.any fun c => c.2.locks.any fun l =>
    l.tag == tag && decide (l.lo < hi) && decide (lo < l.hi) && (l.full || store)

/-- Boundary of the region that holds an address: the first byte of the next (R92). -/
def regionEnd (va : Nat) : Nat :=
  if va < 0x07FF * 2 ^ 48 then 0x07FF * 2 ^ 48 else if va < 2 ^ 59 then 2 ^ 59 else 2 ^ 60

/-- First byte of the carve-out window. -/
def carveWindow : Nat := 0x07FF * 2 ^ 48

/-- Step 10 of R433: the 60-bit space, one region, the partition's carved ways (R91, R92, R449). -/
def checkRange (opnd va n : Nat) : M Unit := do
  if 2 ^ 60 ≤ va then trap cPAGE opnd (BitVec.ofNat 64 va)
  if regionEnd va < va + n then trap cPAGE opnd (BitVec.ofNat 64 (regionEnd va))
  if regionOf va = .carve then
    let top := carveWindow + popc ((← get).part (← get).me.part).carve * 2 ^ 24
    if top < va + n then trap cPAGE opnd (BitVec.ofNat 64 (max va top))

/-- Step 11 of R433, in an address space. -/
def checkLocksAs (w : Who) (opnd va n : Nat) (store : Bool) : M Unit := do
  let s ← get
  let tag := tagOf va w.asid w.part
  if s.lockedBy tag (va / 32 * 32) ((va + n + 31) / 32 * 32) store then trap cLOCKED opnd (BitVec.ofNat 64 va)

/-- Step 11 of R433 for the current thread. -/
def checkLocks (opnd va n : Nat) (store : Bool) : M Unit := do checkLocksAs (← get).who opnd va n store

/-- Step 12 of R433: the places of the lines that n bytes touch, `none` for a line on an absent page when the access
may retire into the side log (`defer`). Denial comes first, then absence, then a wait (R448). -/
def locateAs (w : Who) (opnd va n : Nat) (u : Use) (defer : Bool) : M (List (Nat × Option Place)) := do
  let s ← get
  let tx := s.me.tx.isSome
  -- the fault that held this thread was denied (R110)
  match (linesOf va n).find? fun l => s.me.denied == some (pageKey (tagOf l w.asid w.part) l) with
  | some l => trap cPAGE opnd (BitVec.ofNat 64 (max va (l / 65536 * 65536)))
  | none => pure ()
  let before := s
  let (fs, s) := s.places { w with first := va } u s.me.reply (linesOf va n)
  set s
  match fs.find? fun e => e.2 == .denied with
  | some (a, _) => trap cPAGE opnd (BitVec.ofNat 64 (max va (a / 65536 * 65536)))
  | none => pure ()
  let absents := fs.filterMap fun e => match e.2 with | .absent r => some (e.1, r) | _ => none
  let kind := if tx then 4 else if u == .fetch then 2 else if u == .store then 1 else 0
  upd fun s => absents.foldl (fun s e => s.postFault w (max va e.1) kind e.2) s
  if !absents.isEmpty then
    if tx then txAbort txFAULT
    unless' defer (hold (.page (absents.map fun e => pageKey (tagOf e.1 w.asid w.part) e.1).eraseDups))
  -- a remote page aborts a transaction before any effect: nothing is asked for (R268)
  let remote (f : Found) : Bool := match f with
    | .wait (.remote _) => true
    | .ok p => p.home == 3
    | _ => false
  if tx && fs.any fun e => remote e.2 then
    set before
    txAbort txUNSUPPORTED
  match fs.findSome? (fun e => match e.2 with | .wait x => some x | _ => none) with
  | some x =>
    match x with
    | .remote q =>
      upd fun s => { s with reqs := Tbl.adjust s.reqs q fun r => { r with tids := r.tids ++ [s.cur] } }
      hold x
    | _ => hold x
  | none => pure ()
  let out := fs.map fun e => match e.2 with | .ok p => (e.1, some p) | _ => (e.1, none)
  upd fun s => s.modMe fun th => { th with reply := none }
  -- from its first access to the window a unit holds carve-out bytes (R461)
  if regionOf va = .carve ∧ !isService s.cur then
    upd fun s => s.modUnit s.me.unit fun u => { u with carve := true }
  return out

/-- The same for the current thread in its own address space. -/
def locate (opnd va n : Nat) (u : Use) (defer : Bool) : M (List (Nat × Option Place)) := do
  locateAs (← get).who opnd va n u defer

/-- The places found, when none is absent. -/
def foundOf (ps : List (Nat × Option Place)) : List (Nat × Place) :=
  ps.filterMap fun e => e.2.map fun p => (e.1, p)

/-- Sectors that a place's data comes from, after the current thread's own transaction log (R141). -/
def State.txSector (s : State) (key : Nat) (v : SectorLit) : SectorLit :=
  match s.me.tx with
  | none => v
  | some x => match x.writes.find? key with
    | none => v
    | some w => { data := mergeSector v.data w.data w.mask, side := w.side.getD v.side,
                  poison := if w.side.isSome then w.poison else v.poison || w.poison }

/-- Enter sectors into the read set (R141): those the transaction has not written before. A later read of a sector that
returns another value is remembered, since no milestone shows both. -/
def recordReads (tag : Nat) (rs : List (Nat × Nat × SectorLit)) : M Unit := do
  match (← get).me.tx with
  | none => return
  | some x =>
    let reads := rs.foldl (fun (t : Tbl TxRead) r =>
      let k := sectorKey tag r.1
      if (x.writes.find? k).isSome then t
      else match t.find? k with
        | some old => if old.val = r.2.2 then t else Tbl.ins t k { old with torn := true }
        | none => Tbl.ins t k { va := r.1, phys := r.2.1, val := r.2.2 }) x.reads
    if 64 < reads.length then txAbort txCAPACITY
    upd fun s => s.modMe fun th => { th with tx := some { x with reads } }

/-- A line enters a core's L1, with the lease it holds and the CID of the access; in a full set of 8 ways it replaces a line,
which one being open. A remote line never does (R86, R96, R406). -/
def State.fillL1 (s : State) (core : Nat) (p : Place) : State :=
  if p.home = 3 then s
  else
    let t := s.l1.get [] core
    let l := s.lease p.leaseLine
    let new : L1Line := { lw := l.lw, le := l.le, data := s.lineAt p, cid := s.me.cid }
    let mates := (t.filter fun e => e.1 % 512 == p.key % 512 && e.1 != p.key).map Prod.fst
    if mates.length < 8 then { s with l1 := Tbl.ins s.l1 core (Tbl.ins t p.key new) }
    else
      let victim := mates.getD ((Config.freeDword s.free).toNat % mates.length) 0
      { s with l1 := Tbl.ins s.l1 core (Tbl.ins (Tbl.del t victim) p.key new), free := s.free + 1 }

/-- The sectors that n bytes touch, as their places hold them. -/
def State.sectorsAt (s : State) (ps : List (Nat × Place)) (va n : Nat) : List SectorLit :=
  (sectorsOf va n).map fun a => match placeOf ps a with
    | some p => s.sectorAt p (a % 128 / 32)
    | none => { data := 0, side := 0, poison := false }
/-- The sectors of a load that the slice serves. -/
def readSlice (ps : List (Nat × Place)) (va n : Nat) : M (List SectorLit) := do
  upd fun s => s.leaseLoad s.src (leaseLines ps)
  return (← get).sectorsAt ps va n

/-- The sectors of a load: an L1 copy that its lease still covers may serve a compute core (R86, R132); otherwise the
slice does, and the core keeps a copy. -/
def readSectors (ps : List (Nat × Place)) (va n : Nat) : M (List SectorLit) := do
  let s ← get
  let src := s.src
  let copied (d : List SectorLit) : List SectorLit :=
    (sectorsOf va n).map fun a =>
      let v := d.getD (a % 128 / 32) { data := 0, side := 0, poison := false }
      if (placeOf ps a).any Place.swm then v else { v with side := 0 }
  let slice : M (List SectorLit) := do
    let vs ← readSlice ps va n
    match ps with
    | [(_, p)] => upd fun s => if src < 32 then s.fillL1 src p else s
    | _ => pure ()
    return vs
  match ps with
  | [(_, p)] =>
    match Tbl.find? (s.l1.get [] src) p.key with
    | some c =>
      if src < 32 ∧ s.msOf src ≤ c.le ∧ !s.mem.isDead p.phys then
        -- which lines an L1 keeps is not specified (R86)
        let (kept, s) := s.choose
        set s
        if kept then
          upd fun s => s.atLeastMs src c.lw
          return copied c.data
        else slice
      else slice
    | none => slice
  | _ => slice

/-- The checks of a load of n bytes by the current thread, after alignment (R433 steps 10 to 13), and its places. -/
def loadPlaces (opnd va n : Nat) : M (List (Nat × Place)) := do
  checkRange opnd va n
  checkLocks opnd va n false
  let ps := foundOf (← locate opnd va n .load false)
  let s ← get
  let tag := tagOf va s.me.asid s.me.part
  let secs := sectorsOf va n
  resolveConflicts (secs.map (sectorKey tag)) false
  -- the reads of a transaction are checked at its commit (R148)
  if s.me.tx.isNone && ps.all (fun e => e.2.home != 2 && e.2.home != 3) then raceCheck tag secs false (leaseLines ps)
  return ps

/-- A load of n bytes as part of an access that also writes (CHAPP, LAUNCH): the slice serves it, and the access ends by
holding the lines it read at the key it has then (`holdLines`), so that all of it has one key (R129, R240, R270). -/
def loadWithin (opnd va n : Nat) : M (List (Nat × Place) × List SectorLit) := do
  let ps ← loadPlaces opnd va n
  let vs ← readSlice ps va n
  return (ps, vs)
/-- The lines read by an access that also wrote are read at the key of its writes. -/
def holdLines (ps : List (Nat × Place)) : M Unit := upd fun s => s.leaseLoad s.src (leaseLines ps)

/-- A load of n bytes by the current thread, after alignment (R433 steps 10 to 14): the sectors it covers. -/
def loadSectors (opnd va n : Nat) : M (List SectorLit) := do
  let ps ← loadPlaces opnd va n
  let s ← get
  let tag := tagOf va s.me.asid s.me.part
  let secs := sectorsOf va n
  let vs ← readSectors ps va n
  let phys := secs.map fun a => match placeOf ps a with
    | some p => p.phys + a % 128
    | none => 0
  recordReads tag ((secs.zip phys).zip vs |>.map fun e => (e.1.1, e.1.2, e.2))
  let s ← get
  return (secs.zip vs).map fun e => s.txSector (sectorKey tag e.1) e.2

/-- The n bytes at va of the sectors that cover them. -/
def bytesOf (secs : List SectorLit) (va n : Nat) : Nat :=
  secs.foldr (fun x acc => x.data.toNat + 2 ^ 256 * acc) 0 / 256 ^ (va % 32) % 256 ^ n

/-- A load of n bytes: the value, and the OR of the poison bits read (R248). -/
def loadBytes (opnd va n : Nat) : M (Nat × Bool) := do
  let secs ← loadSectors opnd va n
  return (bytesOf secs va n, secs.any SectorLit.poison)

/-- Entries of a core's side log: all, or those of one partition. -/
def State.logCount (s : State) (core : Nat) : Nat := (s.log.filter fun e => e.core == core).length
def State.logHeld (s : State) (core part : Nat) : Nat :=
  (s.log.filter fun e => e.core == core && e.part == part).length
/-- Members of the pool that a core belongs to; 1 for a core of fixed assignment. -/
def State.poolSize (s : State) (core : Nat) : Nat :=
  max 1 (s.parts.filter fun e => e.2.present && e.2.pooled && e.2.cores.getLsbD core).length
/-- The partition's share of a core's side log (R451). -/
def State.logShare (s : State) (core : Nat) : Nat := 1024 / s.poolSize core

/-- The entries that a lane needs are free at once, or the thread is held (R112, R450 to R452). -/
def roomFor (n : Nat) : M Unit := do
  let s ← get
  let core := tidCore s.cur
  let room := min (1024 - s.logCount core) (s.logShare core - s.logHeld core s.me.part)
  if room < n then
    if !s.me.logged then
      upd fun s => (s.modMe fun th => { th with logged := true }).modPart s.me.part fun p =>
        { p with slWaits := min (p.slWaits + 1) 0xFFFFFFFF }
    hold .logFull

/-- Retire entries into the side log at the thread's current milestone, or hold the thread (R112, R450 to R452). -/
def retire (es : List (Nat × List SecWrite × LogOp)) : M Unit := do
  roomFor es.length
  let s ← get
  let core := tidCore s.cur
  let th := s.me
  let (q, s) := s.nextSeq s.src
  let entry (e : Nat × List SecWrite × LogOp) : LogEntry :=
    { core, tag := tagOf e.1 th.asid th.part, va := e.1, writes := e.2.1, op := e.2.2, ms := s.msOf s.src,
      source := s.src, seq := q, cid := th.cid, part := th.part, asid := th.asid, priv := decide (1 ≤ th.level) }
  let s := { s with log := s.log ++ es.map entry }
  set (s.modPart th.part fun p => { p with slPeak := max p.slPeak (s.logHeld core th.part) })

/-- Writes of a transaction go to its log only (R141); a side word written to a page of mode 0 is discarded (R98). -/
def logTx (ps : List (Nat × Place)) (tag : Nat) (ws : List SecWrite) : M Unit := do
  match (← get).me.tx with
  | none => return
  | some x =>
    let writes := ws.foldl (fun (t : Tbl TxWrite) w =>
      let a := w.va / 32 * 32
      let old := t.get { va := a, phys := match placeOf ps a with | some p => p.phys + a % 128 | none => 0 } (sectorKey tag a)
      let sh := 8 * (w.va % 32)
      let m : BitVec 32 := BitVec.ofNat 32 ((2 ^ w.n - 1) * 2 ^ (w.va % 32))
      Tbl.ins t (sectorKey tag a)
        { old with
          mask := old.mask ||| m
          data := mergeSector old.data (BitVec.ofNat 256 (w.val * 2 ^ sh)) m
          side := match w.side with
            | some x => some (if (placeOf ps a).any Place.swm then x else 0)
            | none => old.side
          poison := match w.poison with
            | some b => if w.side.isSome then b else old.poison || b
            | none => old.poison }) x.writes
    if 32 < writes.length then txAbort txCAPACITY
    upd fun s => s.modMe fun th => { th with tx := some { x with writes } }

/-- Sectors of an access whose line is present. -/
def presentSecs (ps : List (Nat × Option Place)) (va n : Nat) : List Nat :=
  (sectorsOf va n).filter fun a => ps.any fun e => e.1 == a / 128 * 128 && e.2.isSome

/-- The checks of R433 steps 10 to 13 on a write-type access of n bytes at va, and its places: nothing of the access has
taken effect. `judge` is the check of side-word mode that some accesses add to step 12. -/
def storeChecks (w : Who) (opnd va n : Nat) (defer race : Bool)
    (judge : List (Nat × Option Place) → M Unit := fun _ => pure ()) : M (List (Nat × Option Place)) := do
  checkRange opnd va n
  checkLocksAs w opnd va n true
  let ps ← locateAs w opnd va n .store (defer && !isService (← get).cur)
  judge ps
  unless' (ps.all fun e => e.2.isSome) (roomFor (ps.filter fun e => e.2.isNone).length)
  if race && (← get).me.tx.isNone then raceTrap (tagOf va w.asid w.part) (presentSecs ps va n)
  return ps

/-- What an access that is about to write does to others: transactions of its core that use its sectors (R142), and the
race detector (R148). -/
def storeClaim (w : Who) (va n : Nat) (race : Bool) (ps : List (Nat × Option Place)) : M Unit := do
  let tag := tagOf va w.asid w.part
  resolveConflicts ((sectorsOf va n).map (sectorKey tag)) true
  if race && (← get).me.tx.isNone then raceNote tag (presentSecs ps va n) true (leaseLines (foundOf ps))

/-- A write-type access of n bytes at va by the current thread: its checks, its claim, and its places. -/
def storePlacesIf (opnd va n : Nat) (defer race : Bool) (judge : List (Nat × Option Place) → M Unit) :
    M (List (Nat × Option Place)) := do
  let w := (← get).who
  let ps ← storeChecks w opnd va n defer race judge
  storeClaim w va n race ps
  return ps
def storePlaces (opnd va n : Nat) (defer race : Bool) : M (List (Nat × Option Place)) :=
  storePlacesIf opnd va n defer race fun _ => pure ()

/-- A page of side-word mode 0 traps MX_ALIGN (R98, R264, R328). -/
def needSides (opnd va : Nat) (ps : List (Nat × Option Place)) : M Unit := do
  match (foundOf ps).find? fun e => !e.2.swm with
  | some (l, _) => trap cMXALIGN opnd (BitVec.ofNat 64 (max va l))
  | none => pure ()

/-- Perform sector writes that one lane makes as one access at one key, past the leases of its present lines (R448): into the
log inside a transaction, into the side log for absent pages, at their places otherwise. -/
def storeAll (ps : List (Nat × Option Place)) (ws : List SecWrite) : M Unit := do
  if ← inTx then
    let s ← get
    let va := (ws.headD { va := 0, n := 0, val := 0 }).va
    logTx (foundOf ps) (tagOf va s.me.asid s.me.part) ws
  else
    let gone := (ps.filter fun e => e.2.isNone).map Prod.fst
    let here := foundOf ps
    upd fun s => s.pastLeases s.src (leaseLines here)
    unless' gone.isEmpty
      (retire (gone.map fun l => (l, ws.filter (fun w => w.va / 128 * 128 == l), .store)))
    unless' here.isEmpty (upd fun s => s.performHere s.src here ws)

/-- A store of n bytes (within one sector) with its poison rule (R248). -/
def storeBytes (opnd va n val : Nat) (poison : Bool) (defer : Bool := true) : M Unit := do
  let ps ← storePlaces opnd va n defer true
  storeAll ps [{ va, n, val := val % 256 ^ n, poison := if poison then some true else none }]

/-- A store of whole sectors from va, with side words and poison bits, as one access. -/
def storeSectors (opnd va : Nat) (vs : List SectorLit) (defer : Bool) : M Unit := do
  let ps ← storePlaces opnd va (32 * vs.length) defer true
  storeAll ps ((List.range vs.length).zip vs |>.map fun e =>
    { va := va + 32 * e.1, n := 32, val := e.2.data.toNat, side := some e.2.side, poison := some e.2.poison })

end Sys2Proof.Machine
end

