-- ==== Sys2Proof/Machine/Release.lean ====
section
/-!
DEFINITION. Completion and stopping: counters and their decrements (R27 to R29), phase boundaries (R72), the removal of
units, CANCEL (R30, R31), and errors that are fatal to a context, a partition or the device (R408).
-/
namespace Sys2Proof.Machine

/-- The scheduler, acting in the address space of a launch (R54). -/
def schedWho (part asid : Nat) (cid : Nat := 0) : Who := { source := 163, part, asid, priv := true, cid }

/-- Units of a launch's grid, with the reduce unit when it binds a collective (R61, R65). -/
def LaunchRec.gridUnits (r : LaunchRec) : Nat := r.gx * r.gy * r.gz
def LaunchRec.total (r : LaunchRec) : Nat := r.gridUnits + (if r.coll then 1 else 0)

/-- NCHUNK does not fit the grid, so that no chunk fires (R345). -/
def LaunchRec.mismatch (r : LaunchRec) : Bool := r.nchunk != (r.gridUnits + 2 ^ r.shift - 1) / 2 ^ r.shift

/-- The counter a level names: its address, or zero when the level is not named (R27, R57). -/
def LaunchRec.counter (r : LaunchRec) : Nat → Dword
  | 0 => r.launchCnt
  | 1 => if r.graph ≠ 0 then r.graphCnt else 0
  | 2 => if r.phase ≠ 0 then r.phaseCnt else 0
  | 3 => if r.job ≠ 0 then r.jobCnt else 0
  | _ => 0

/-- The format code of a collective operation, which its chunks carry (R345, R350). -/
def collFormat (collop : BitVec 16) : Nat := (collop.extractLsb' 4 4).toNat

/-- The nearest enclosing level above a level that the record names (R27). -/
def LaunchRec.enclosing (r : LaunchRec) (above : Nat) : Option Nat :=
  ([1, 2, 3].filter fun l => decide (above < l) && r.counter l != 0).head?

/-- Put the instance of a phase that has ended into the selector, and choose the next variant (R72). Only an instance
whose counter a decrement brought to zero has a measured time. -/
def Selector.close (e : Selector) (run : PhaseRun) (now : Nat) (measured : Bool) : Selector :=
  let times := if measured then Tbl.ins e.times e.chosen (now - run.start) else e.times
  let vs := List.range run.nvar
  let chosen := match vs.find? fun v => (Tbl.find? times v).isNone with
    | some v => v
    | none => vs.foldl (fun best v => if times.get 0 v < times.get 0 best then v else best) 0
  { e with times, chosen, used := now }

/-- What threads of a partition hold or await of remote lines is dropped: they ask again, so that what they read is no
older than now (R96, R145). A command reads its lines afresh in any case. -/
def State.dropRemote (s : State) (part : Nat) : State :=
  let stale := (s.reqs.filter fun e => e.2.part == part && e.2.cmd.isNone).map Prod.fst
  let forget (e : Tid × Thread) : Tid × Thread :=
    let th := if e.2.part == part && e.2.reply.any (fun r => !r.flash) then { e.2 with reply := none } else e.2
    match th.wait with
    | .remote q => (e.1, if stale.contains q then th.wake s.now else th)
    | _ => (e.1, th)
  let free (q : Queue) : Queue := match q.hold with
    | some k => if stale.any fun r => reqKey r == k then { q with hold := none } else q
    | none => q
  { s with
    fcache := s.fcache.filter fun e => e.1 / 2 ^ 45 % 128 != part
    reqs := s.reqs.filter fun e => !stale.contains e.1
    threads := s.threads.map forget, queues := s.queues.mapVals free }

/-- A phase boundary of a partition: the selector measures and chooses, and the fabric cache is invalidated (R72, R96).
A cancelled instance ends there too, unmeasured. -/
def State.phaseBoundary (s : State) (part phase : Nat) (measured : Bool := true) : State :=
  let ended := s.phaseRuns.find? fun r => r.part == part && r.phase == phase
  let close (e : Selector) : Selector :=
    if e.part == part && e.phase == phase then
      match ended with
      | some r => e.close r s.now measured
      | none => e
    else e
  { s with selectors := s.selectors.map close, phaseRuns := s.phaseRuns.filter fun r => !(r.part == part && r.phase == phase) }.dropRemote part

/-- The status word of a refused record cannot be written (R63). -/
def State.reportRefusal (s : State) (part cid : Nat) : State := (s.meet 163).report part 0 0x0E cid 0 0 0 0 0
/-- A launch that ends is halting, halted or resuming no longer (R426, R427). -/
def State.dbgGone (s : State) (part cid : Nat) : State :=
  if (s.part part).dbgState ≠ 0 ∧ cid = part * 2048 + (s.part part).dbgCtx then
    s.modPart part fun p => { p with dbgState := 0, dbgCount := 0 }
  else s
/-- Write a 64-bit word for the scheduler; a page that is not present leaves the store due. One that cannot be written is
reported where it is the status of a refusal. -/
def State.schedStore (s : State) (part asid cid : Nat) (va val : Dword) (refusal : Bool := false) : State :=
  match s.blockWrite (schedWho part asid cid) va.toNat 8 val.toNat 1 with
  | (.ok _, s) => s
  | (.denied, s) => if refusal then s.reportRefusal part cid else s
  | (_, s) => { s with due := s.due ++ [{ part, asid, va, val := some val, cid, level := 0, refusal }] }

/-- Subtract 1 from a counter word, atomically (R27). `none` when the page has to be waited for; otherwise whether the
subtraction produced zero. A counter already at zero stays and is reported (R29). -/
def State.subtract (s : State) (part asid cid : Nat) (va : Dword) : Option Bool × State :=
  match s.blockPlaces (schedWho part asid cid) .store va.toNat 8 with
  | (.ok ps, s) =>
    let v := match placeOf ps va.toNat with
      | some p => s.mem.readN (p.phys + va.toNat % 128) 8
      | none => 0
    if v = 0 then (some false, (s.meet 163).report part 0 0x0D cid 0 0 va 2 0)
    else
      let s := s.performWrites 163 ps [{ va := va.toNat, n := 8, val := v - 1 }]
      let s := s.modPart part fun p => { p with interval := p.interval + 1 }
      (some (v == 1), s)
  | (.denied, s) => (some false, s)
  | (.absent a r, s) => (none, s.postFault (schedWho part asid cid) a 1 r)
  | (.wait _, s) => (none, s)

/-- Count one completed instance into a level's counter; a level that completes counts into the level above it (R27).
`fuel` bounds the levels. -/
def State.countDown (s : State) (l : Launch) (cid : Nat) : Nat → Nat → State
  | 0, _ => s
  | fuel + 1, level =>
    let va := l.r.counter level
    match s.subtract l.part l.asid cid va with
    | (none, s) => { s with due := s.due ++ [{ part := l.part, asid := l.asid, va, val := none, cid, level }] }
    | (some false, s) => s
    | (some true, s) =>
      match level with
      | 0 => (s.modLaunch cid fun x => { x with complete := true }).dbgGone l.part cid
      | _ =>
        let s := if level = 2 then s.phaseBoundary l.part l.r.phase else s
        match l.r.enclosing level with
        | some e => s.countDown l cid fuel e
        | none => s

/-- Count a completed unit into its launch (R27). Where no chunk fires, the last unit of the grid counts for the reduce
unit too, and the launch fails (R345). -/
def State.countUnit (s : State) (cid : Nat) : State :=
  match s.launches.find? cid with
  | none => s
  | some l =>
    let s := (s.modLaunch cid fun x => { x with done := x.done + 1 }).countDown l cid 4 0
    if l.r.coll && l.r.mismatch && !l.collfail && l.done + 1 == l.r.gridUnits then
      (s.modLaunch cid fun x => { x with done := x.done + 1, collfail := true }).countDown l cid 4 0
    else s

/-! ### Removing units -/

/-- Tile commands of a unit that have issued keep its tile-store region (R340). -/
def State.keepRegions (s : State) (u : Nat) (r : UnitRec) : State :=
  let held := s.cmds.filter fun c => c.2.unit == some u && c.2.phase != .queued && c.2.region.isSome
  { s with regions := s.regions ++ held.map fun c => (r.core, r.tileBase, r.res.tile4k, c.1) }

/-- Remove a unit from its core: threads, convergence registers, pairs, waits. An operation in flight for it completes
on its engine, and is then written nowhere (R30). -/
def State.dropUnit (s : State) (u : Nat) : State :=
  match s.units.find? u with
  | none => s
  | some r =>
    let s := s.keepRegions u r
    let mine := fun (t : Tid) (th : Thread) => !isService t && tidCore t == r.core && th.unit == u
    let gone : List Tid := s.threads.filterMap fun e => if mine e.1 e.2 then some e.1 else none
    { s with
      threads := s.threads.filter fun e => !mine e.1 e.2
      cvs := s.cvs.filter fun e => !(e.1 / 64 == r.core && e.2.unit == u)
      pairs := s.pairs.filter fun p => !(p.core == r.core && p.unit == u)
      waiters := s.waiters.filter fun w => !gone.contains w.tid
      reqs := s.reqs.map fun e => (e.1, { e.2 with tids := e.2.tids.filter fun t => !gone.contains t })
      latch := s.latch.filter fun i => !gone.contains i.tid
      units := s.units.filter fun e => e.1 != u }

/-- The bound collective of a launch ends in failure (R474): no further chunk fires or arrives, no reduce unit runs, and
LAUNCH_CNT goes down by 1 in its place, unless the reduce unit was cancelled and counted before. -/
def State.collFail (s : State) (cid : Nat) : State :=
  match s.launches.find? cid with
  | none => s
  | some l =>
    if !l.r.coll || l.complete || l.collfail || l.reduced then s
    else
      let read := s.units.filterMap fun e => if e.2.cid == cid && e.2.groups.isEmpty then some e.1 else none
      let s := read.foldl State.dropUnit s
      let s := s.modLaunch cid fun x => { x with collfail := true, arrivals := 0, contributions := [], inbox := [] }
      let s := ((s.setMs 162 (s.msOf 162 + 1)).meet 162).report l.part 1 0x0A cid 0 0 0 0 0
      if l.skip.contains l.r.gridUnits then s else s.countUnit cid

/-- Units of a launch that are placed. -/
def State.unitsOf (s : State) (cid : Nat) : List Nat :=
  s.units.filterMap fun e => if e.2.cid == cid then some e.1 else none

/-- The scheduler's accesses follow those of a placed unit (R27). -/
def State.afterUnit (s : State) (u : Nat) : State :=
  match s.units.find? u with
  | none => s
  | some r => s.atLeastMs 163 (s.msOf r.core)

/-- Stop one unit of a launch and count it (CANCEL of a unit, R30). -/
def State.cancelUnit (s : State) (u : Nat) : State :=
  match s.units.find? u with
  | none => s
  -- the unit's chunk can no longer fire whole
  | some r => (((s.afterUnit u).dropUnit u).countUnit r.cid).collFail r.cid

/-- The chunks of a launch that have not fired are fired as failed contributions (R347). -/
def State.failChunks (s : State) (cid : Nat) : State :=
  match s.launches.find? cid with
  | none => s
  | some l =>
    if !l.r.coll || l.r.mismatch || l.collfail then s
    else
      let rest := (List.range l.r.nchunk).filter fun c => (Tbl.find? l.fired c).isNone
      let s := rest.foldl (fun (s : State) c => s.send (.chunk l.part cid c l.r.tree (collFormat l.r.collop) true [])) s
      s.modLaunch cid fun x => { x with fired := rest.foldl (fun t c => Tbl.ins t c []) x.fired, contributions := [] }

/-- Every unit of a launch stops where it stands, placed, saved or queued; the scheduler's accesses follow theirs (R30). -/
def State.removeUnits (s : State) (cid : Nat) : State :=
  let s := (s.unitsOf cid).foldl (fun s u => (s.afterUnit u).dropUnit u) s
  let s := (s.saved.filter fun x => x.unit.cid == cid).foldl (fun s x => s.atLeastMs 163 x.ms) s
  let unqueue (e : Nat × CoreRec) : Nat × CoreRec := (e.1, { e.2 with queue := e.2.queue.filter fun q => q.cid != cid })
  { s with saved := s.saved.filter (fun x => x.unit.cid != cid), cores := s.cores.map unqueue }

/-- Stop a launch at one milestone: members never start or stop, its counter is written to zero, and R66 is due with
CANCELLED (R30). `counted` is false when an enclosing instance is cancelled with it (R31). -/
def State.cancelLaunch (s : State) (cid : Nat) (counted : Bool := true) : State :=
  match s.launches.find? cid with
  | none => s
  | some l =>
    if l.complete then s
    else
      let s := s.removeUnits cid
      let s := (s.schedStore l.part l.asid cid l.r.launchCnt 0).failChunks cid
      let s := s.modLaunch cid fun x =>
        { x with complete := true, cancelled := true, uncounted := !counted, dealt := x.r.total, arrivals := 0, inbox := [] }
      s.dbgGone l.part cid

/-! ### Fatal errors (R408) -/

/-- Remove power from every die but the Chamois pair's, assert ALERT_N and keep the record (R408 class 4). -/
def State.fatalDevice (s : State) (kind cid ukind unit cause : Nat) : State :=
  { s with boot := { s.boot with
      power := .off, alert := true
      kept := s.boot.kept ++ [{ part := 0, ms := s.msOf 169, cls := 4, kind, cid, ukind, unit, cause, charged := 0 }] } }

/-- Service-die threads of a partition: its service core's, and those of its general cores. -/
def Part.ownsCore (p : Part) (core : Nat) : Bool := p.svc == some core || p.gcores.getLsbD core

/-- Steps 1 and 2 of R475: every launch of the partition is cancelled, and its service and general cores stop. -/
def State.stopPartition (s : State) (part : Nat) : State :=
  let s := (s.launches.filter fun e => e.2.part == part).foldl (fun s e => s.cancelLaunch e.1) s
  let p := s.part part
  let stop (e : Tid × Thread) : Tid × Thread :=
    if isService e.1 && !isOryx e.1 && p.ownsCore (tidCore e.1) then (e.1, { e.2 with wait := .stopped }) else e
  let s := ({ s with threads := s.threads.map stop } : State).dropWaits fun t => isService t && !isOryx t && p.ownsCore (tidCore t)
  s.modPart part fun p => { p with
    mc0 := { p.mc0 with head := p.mc0.tail }, mc1 := { p.mc1 with head := p.mc1.tail }
    nuhanNext := p.mc1.tail, ibexNext := p.mc1.tail, argHeld := [] }

/-- A fault that is fatal to a partition; for partition 0, which the monitor is, to the device (R408, R409). -/
def State.fatalPartition (s : State) (part kind cid ukind unit cause : Nat) : State :=
  if part = 0 then s.fatalDevice kind cid ukind unit cause
  else
    let s := s.report part 3 kind cid ukind unit 0 0 cause
    (s.stopPartition part).modPart part fun p => { p with fatal := true }

/-- A fault that is fatal to a context: its launch stops as under CANCEL. Context 0 is the partition's own (R406,
R408). -/
def State.fatalContext (s : State) (part kind cid cause : Nat) : State :=
  if cid % 2048 = 0 then s.fatalPartition part kind cid 0 0 cause
  else (s.report part 2 kind cid 0 0 0 0 cause).cancelLaunch cid

/-! ### Side-log entries that are discarded -/

/-- Retirement keys, in order (R129). -/
def LogEntry.before (a b : LogEntry) : Bool :=
  decide (a.ms < b.ms) || (a.ms == b.ms && (decide (a.source < b.source) || (a.source == b.source && decide (a.seq < b.seq))))
/-- Entries in ascending retirement key. -/
def sortLog (l : List LogEntry) : List LogEntry :=
  l.foldl (fun acc e => (acc.filter fun x => !e.before x) ++ e :: acc.filter fun x => e.before x) []
/-- Entries that cannot be applied are discarded: their contexts are fatal, each reported once (R110, R112). -/
def State.discardEntries (s : State) (es : List LogEntry) : State :=
  let agent (x : Nat × Nat) : Nat := ((es.find? fun e => (e.part, e.cid) == x).map fun e => agentOf e.va).getD 165
  (es.map fun e => (e.part, e.cid)).eraseDups.foldl (fun s x => (s.meet (agent x)).fatalContext x.1 0x0F x.2 0) s

/-- The current thread's context is fatal: the instruction ends. -/
def dieContext {α : Type} (kind cause : Nat) : M α := do
  upd fun s => (s.meet s.src).fatalContext s.me.part kind s.me.cid cause
  throw .keep

end Sys2Proof.Machine
end

