-- ==== Sys2Proof/Machine/Ops.lean ====
section
/-!
DEFINITION. Fetching a line (R99, R192 to R196), registers (R80), TAKING A TRAP as one shared operation (R47 to R50,
R318, R144) with the return beside it (R50, R325), and the frame in which every meaning runs: static checks, profile,
allocation and guard (R198, R202, R208, R433 steps 2 and 3).
-/
namespace Sys2Proof.Machine

/-! ### Fetch -/

/-- The five slots and line word of a fetch line, from its two sectors. -/
def lineBits (secs : List SectorLit) : Nat :=
  secs.foldr (fun x acc => x.data.toNat + 2 ^ 256 * acc) 0
def slotWord (secs : List SectorLit) (k : Nat) : BitVec 96 := BitVec.ofNat 96 (lineBits secs / 2 ^ (96 * k))
def lineWord (secs : List SectorLit) : BitVec 32 := BitVec.ofNat 32 (lineBits secs / 2 ^ 480)
/-- PAR equals the XOR of bytes 0 to 59 (R193). -/
def parityOk (secs : List SectorLit) : Bool :=
  let b := lineBits secs
  (List.range 60).foldl (fun x i => x ^^^ (b / 2 ^ (8 * i) % 256)) 0 == ((lineWord secs).extractLsb' 24 8).toNat
/-- The branch-target mask lets a transfer enter a slot (R194, R195). -/
def btmOk (lw : BitVec 32) (slot : Nat) : Bool := decide (slot < 5) && lw.getLsbD (19 + slot)
/-- Line address of a PC. -/
def lineOf (pc : Dword) : Nat := pc.toNat / 64 * 64
/-- Bits 5:3 and 63:60 of a PC are zero, and its slot is 0 to 4 (R194). -/
def pcFormOk (pc : Dword) : Bool :=
  pc.extractLsb' 3 3 == 0 && pc.extractLsb' 60 4 == 0 && decide (pc.toNat % 8 < 5)

/-- What a fetch answers. -/
inductive Fetched where
  | line (secs : List SectorLit)
  | denied
  | wait (w : Wait)
  deriving DecidableEq, Repr

/-- Fetch a code line for a thread through its core's instruction path: a line kept there may be used although memory
has changed (R99). DESIGN CHOICE (log 115): the fault of a fetch has KIND 2, inside a transaction too. -/
def State.fetch (s : State) (t : Tid) (va : Nat) : Fetched × State :=
  let th := s.thr t
  let src := tidSource t
  let w : Who := { source := src, part := th.part, asid := th.asid, priv := decide (1 ≤ th.level), cid := th.cid }
  let tag := tagOf va th.asid th.part
  if th.denied = some (pageKey tag va) then (.denied, s)
  else match s.place w va .fetch th.reply with
  | (.denied, s) => (.denied, s)
  | (.absent r, s) => (.wait (.page [pageKey tag va]), s.postFault w va 2 r)
  | (.wait (.remote q), s) =>
    (.wait (.remote q), { s with reqs := Tbl.adjust s.reqs q fun r => { r with tids := r.tids ++ [t] } })
  | (.wait x, s) => (.wait x, s)
  | (.ok p, s) =>
    let fresh := ((s.lineAt p).drop (va % 128 / 32)).take 2
    let key := tag * 2 ^ 54 + va / 64
    let keep (s : State) : State :=
      { s with ipath := Tbl.ins s.ipath src (Tbl.ins (s.ipath.get [] src) key { data := fresh, cid := th.cid }) }
    match Tbl.find? (s.ipath.get [] src) key with
    | some old =>
      if old.data = fresh then (.line fresh, s)
      else
        let (c, s) := s.choose
        if c then (.line old.data, s) else (.line fresh, keep s)
    | none => (.line fresh, keep s)

/-- The line word at a PC, if the thread can fetch it now, without any effect. -/
def State.peekLine (s : State) (t : Tid) (pc : Dword) : Option (BitVec 32) :=
  match (s.fetch t (lineOf pc)).1 with
  | .line secs => some (lineWord secs)
  | _ => none

/-- A transfer to a PC is refused: its form, or a slot outside the mask of a line that can be read (R194, R195). -/
def State.refusesPc (s : State) (t : Tid) (pc : Dword) : Bool :=
  !pcFormOk pc || (match s.peekLine t pc with
    | some lw => !btmOk lw (pc.toNat % 8)
    | none => false)

/-- Control of a thread has gone to its PC by a trap or an ERET: where the line cannot be read yet, its mask is checked
when it is fetched (R195). -/
def State.owesCheck (s : State) (t : Tid) (cause : Nat) : State :=
  if (s.peekLine t (s.thr t).pc).isNone then s.modThr t fun th => { th with unchecked := some cause } else s

/-! ### Registers -/

/-- The handler registers stand for g124-g127 (R48). -/
def State.handlerReg (s : State) (t : Tid) (n : Nat) : Bool :=
  decide (124 ≤ n) && !isService t && decide (1 ≤ (s.thr t).level)
/-- Read a g register of the current thread. -/
def State.gReg (s : State) (n : Nat) : GReg :=
  if s.handlerReg s.cur n then s.me.h.get {} (n - 124) else s.me.g.get {} n
/-- Write a g register of a thread. -/
def State.setGOf (s : State) (t : Tid) (n : Nat) (v : GReg) : State :=
  if s.handlerReg t n then s.modThr t fun th => { th with h := Tbl.put {} th.h (n - 124) v }
  else s.modThr t fun th => { th with g := Tbl.put {} th.g n v }
def State.setG (s : State) (n : Nat) (v : GReg) : State := s.setGOf s.cur n v
def State.vReg (s : State) (n : Nat) : VReg := s.me.v.get {} n
def State.setV (s : State) (n : Nat) (v : VReg) : State :=
  s.modMe fun th => { th with v := Tbl.put {} th.v n v }
/-- p7 reads as true (R80). -/
def Thread.pred (th : Thread) (n : Nat) : Bool := if n = 7 then true else th.p.getLsbD n
def State.pReg (s : State) (n : Nat) : Bool := s.me.pred n
/-- Set a bit of a vector. -/
def setBit {w : Nat} (x : BitVec w) (n : Nat) (b : Bool) : BitVec w :=
  if b then x ||| BitVec.ofNat w (2 ^ n) else x &&& ~~~(BitVec.ofNat w (2 ^ n))
/-- Write a predicate; a write to p7 is discarded (R199). -/
def Thread.setPred (th : Thread) (n : Nat) (b : Bool) : Thread :=
  if n = 7 then th else { th with p := setBit th.p n b }
def State.setP (s : State) (n : Nat) (b : Bool) : State := s.modMe fun th => th.setPred n b

/-! ### Taking a trap, and returning -/

/-- What a trap inside a transaction aborts it with (R144): FAULT for a denied access, LOCKED for a locked range, TRAP
otherwise, the trap's code being kept. -/
def txCauseOf (code : Nat) : Nat × Nat :=
  if code = cPAGE then (txFAULT, 0) else if code = cLOCKED then (txLOCKED, 0) else (txTRAP, code)

/-- The handler entry of the current thread (R48, R318, R321). -/
def State.vector (s : State) : Dword :=
  if isService s.cur then s.me.vec else (s.part s.me.part).excVec

/-- Trap entry (R47): the three exception registers, the level, the PC, and on the service die PLVL (R318). -/
def Thread.enterTrap (th : Thread) (service oryxT : Bool) (code opnd : Nat) (val vec : Dword) (now : Nat) : Thread :=
  { th with
    epc := th.pc, cause := BitVec.ofNat 32 (code + opnd * 256), val
    plvl := if service then th.level else th.plvl
    level := if oryxT then 2 else 1
    pc := vec, wait := .ready, entry := now + 1, reply := none, denied := none, eaten := false, logged := false }

/-- The current thread at its handler's first instruction, the trap entered. -/
def State.entered (s : State) (code opnd : Nat) (val : Dword) : State :=
  (s.modMe fun th => th.enterTrap (isService s.cur) (isOryx s.cur) code opnd val s.vector s.now).owesCheck s.cur code

/-- Poison that the current thread consumes is reported (R414). -/
def State.noted (s : State) (code : Nat) : State :=
  if code = cPOISON then (s.meet s.src).report s.me.part 1 0x08 s.me.cid 0 0 0 0 9 else s

/-- A trap of the current thread. Inside a transaction it aborts it (R144); on a compute core at handler level, or with
a vector outside its mask, it is fatal to the context (R50, R195); on the service die it is fatal to the partition
while PLVL holds a level, or when it reaches EXC_VEC 0 of a service core (R318, R356). Consumed poison is reported
(R414). -/
def State.takeTrap (s : State) (code opnd : Nat) (val : Dword) : State :=
  let th := s.me
  let s := s.noted code
  if th.tx.isSome then s.abortTx s.cur (txCauseOf code).1 0 (txCauseOf code).2
  else
    let svc := isService s.cur
    let enter := s.entered code opnd val
    if svc then
      if th.plvl ≠ 3 ∨ (th.vec = 0 ∧ !isOryx s.cur) ∨ enter.refusesPc s.cur s.vector then
        (s.meet s.src).fatalPartition th.part 0x07 th.cid 0 0 code
      else enter
    else if 1 ≤ th.level ∨ enter.refusesPc s.cur s.vector then (s.meet s.src).fatalContext th.part 0x07 th.cid code
    else enter

/-- ERET's return (R50, R325): on a compute core to user level at EXC_EPC; on the service die to PLVL at EXC_EPC, with
PLVL then none. -/
def Thread.leaveTrap (th : Thread) (service : Bool) (now : Nat) : Thread :=
  { th with
    pc := th.epc
    level := if service then th.plvl else 0
    plvl := if service then 3 else th.plvl
    wait := .ready, entry := now + 1 }

/-! ### Running an instruction -/

/-- Where control goes after an instruction is performed. -/
inductive Flow where
  /-- the next slot -/
  | seq
  /-- a target -/
  | goto (pc : Dword)
  /-- the operation has placed the thread itself -/
  | done
  deriving DecidableEq, Repr

/-- Advance the current thread past its instruction. -/
def State.advance (s : State) : State :=
  s.modMe fun th => { th with pc := nextPc th.pc, wait := .ready, entry := s.now + 1, denied := none, eaten := false, logged := false }
def State.jump (s : State) (pc : Dword) : State :=
  s.modMe fun th => { th with pc, wait := .ready, entry := s.now + 1, denied := none, eaten := false, logged := false }
def State.finish (s : State) : Flow → State
  | .seq => s.advance
  | .goto pc => s.jump pc
  | .done => s

/-- The executing profile lacks the opcode (R208). -/
def absentIn (service : Bool) (opc : Nat) : Bool :=
  if service then
    [0x22, 0x23, 0x35, 0x39, 0x3A, 0x3B, 0x3C, 0x3D, 0x48, 0x49, 0x4A, 0x4B].contains opc ||
      (decide (0x50 ≤ opc) && decide (opc ≤ 0x59)) || (decide (0x90 ≤ opc) && decide (opc ≤ 0x99))
  else [0xA3, 0xA8, 0xA9, 0xAA].contains opc

/-- A g register a field names, and how many it reaches, lies in the thread's allocation, or is a handler register at
handler level (R80, R202). -/
def gInside (th : Thread) (reach : Nat) (x : Spec) : Bool :=
  decide (reach ≤ th.nG) || (match x with
    | .g n => decide (124 ≤ n.toNat) && decide (1 ≤ th.level)
    | _ => false)
/-- Registers that the operands of a word reach beyond its fields lie in the allocation: from `low`, up to and without
`need`. At handler level those from g124 on are the handler registers, up to g127 (R38, R48, R80). -/
def reachInside (th : Thread) (low need : Nat) : Bool :=
  decide (need ≤ th.nG) || (decide (124 ≤ max low th.nG) && decide (need ≤ 128) && decide (1 ≤ th.level))
/-- The registers of a word lie in the thread's allocation (R80, R202). -/
def allocated (sh : Shape) (w : Fields) (th : Thread) : Bool :=
  gInside th (sh.d.gReach w.d) w.d && gInside th (sh.a.gReach w.a) w.a && gInside th (sh.b.gReach w.b) w.b &&
    gInside th (sh.c.gReach w.c) w.c && reachInside th sh.lowG sh.needG &&
    decide (sh.vReach w ≤ th.nV)

/-- The guard of a word (R198). -/
def guardTrue (w : Fields) (th : Thread) : Bool := (th.pred w.gpred.toNat) != w.gneg

/-- Operand forms that depend on the profile: CANCEL names its instance only in the scalar profile (R238). -/
def profileForm (i : Instr) (service : Bool) : Bool :=
  match i with
  | .cancel w => (w.a == .none) == !service
  | _ => true

/-- The checks of R433 step 2 that an instruction passes before anything else, in a thread. -/
def staticPass (i : Instr) (s : State) : Bool :=
  match shapeOf i, fieldsOf i with
  | some sh, some w =>
    sh.ok w && !absentIn (isService s.cur) sh.opc.toNat && profileForm i (isService s.cur) && allocated sh w s.me
  | _, _ => false

/-- The state an instruction leaves: its body's effect, or the trap it takes. EXC_VAL of ILLEGAL_OPCODE is the
instruction's bits 63:0 (R49). -/
def settle (low : Dword) (r : EStateM.Result Stop State Flow) : State :=
  match r with
  | .ok f s => s.finish f
  | .error (.trap c o v) s => s.takeTrap c o (if c = cILLEGAL then low else v)
  | .error .keep s => s

/-- Run an instruction of the current thread: static checks, guard, then its body (R433). -/
def runInstr (i : Instr) (w : Fields) (body : M Flow) (s : State) : Out :=
  if !staticPass i s then .next (s.takeTrap cILLEGAL 0 (lowWord i))
  else if !guardTrue w s.me then .next s.advance
  else .next (settle (lowWord i) (body.run s))

/-- The instruction turns out illegal at run time (R433 step 8). -/
def illegal {α : Type} : M α := trap cILLEGAL 0 0

/-- A body that goes on to the next instruction. -/
def seqBody (m : M Unit) : M Flow := do m; return .seq

/-- Power is on outside the Chamois pair: running, or on the way into or out of Retention (R398). -/
def State.powered (s : State) : Bool :=
  s.boot.power == .running || s.boot.power == .suspending || s.boot.power == .resuming
/-- An event: a change of the state that needs no thread. Without power none takes place. -/
def event (f : State → State) (s : State) : Out := .next (if s.powered then f s else s)
/-- An event of the Chamois pair, which may take place in any power state. -/
def eventAny (f : State → State) (s : State) : Out := .next (f s)

end Sys2Proof.Machine
end

