-- ==== Sys2Proof/Machine/Operands.lean ====
section
/-!
DEFINITION. Operand forms: special values (R200), immediates and constant windows (R85, R201), sources and destinations
of the integer types (R175, R204, R219), address pairs (R206), and the consumption of poison (R221, R434).
-/
namespace Sys2Proof.Machine

/-! ### Special values -/

/-- Bit n set: group lane index n holds a live thread. -/
def State.liveMask (s : State) (g : Group) : Nat :=
  (s.liveTids g).foldl (fun m t => m ||| 2 ^ tidLane t) 0

/-- A special value of the current thread, 64 bits (R200). -/
def State.special (s : State) (n : Nat) : Nat :=
  let th := s.me
  let t := s.cur
  let svc := isService t
  let u := s.myUnit
  let uf (f : UnitRec → Nat) (d : Nat) : Nat := match u with | some r => f r | none => d
  let rf (f : LaunchRec → Nat) : Nat :=
    match u with
    | some r => match s.launches.find? r.cid with | some l => f l.r | none => 0
    | none => 0
  let gf (f : Group → Nat) (d : Nat) : Nat :=
    match u with
    | some r => match r.group th.group with | some g => f g | none => d
    | none => d
  match n with
  | 0x00 => if svc then 0 else tidLane t
  | 0x01 => if svc then 0 else tidSlot t
  | 0x02 => if svc then 0 else th.group * 32 + tidLane t
  | 0x03 => if svc then 0 else th.group
  | 0x04 => uf UnitRec.x 0
  | 0x05 => uf UnitRec.y 0
  | 0x06 => uf UnitRec.z 0
  | 0x07 => th.cid
  | 0x08 => th.part
  | 0x09 => tidCore t
  | 0x0A => s.msOf s.src
  | 0x0B => if svc then s.rt / Config.svcPeriodFs else s.now
  | 0x0C => if svc then 0 else tidQuad t
  | 0x0D => rf LaunchRec.gx
  | 0x0E => rf LaunchRec.gy
  | 0x0F => rf LaunchRec.gz
  | 0x10 => uf UnitRec.linear 0
  | 0x11 => gf Group.n 1
  | 0x12 => uf (fun r => r.res.groups) 1
  | 0x13 => gf Group.cgn 0
  | 0x14 => th.asid
  | 0x15 => th.level
  | 0x16 => if svc then 1 else 0
  | 0x17 => if svc then tidHw t else 0
  | 0x18 => gf s.liveMask 1
  | 0x19 => if svc then 1 else s.bundle.toNat
  | _ => 0

/-! ### Types -/

/-- Signedness of an integer type code (R204). -/
def tySigned (ty : BitVec 4) : Bool := decide (ty.toNat < 4)

/-- A raw operand read as the type: bits w-1:0, signed or unsigned (R219). -/
def srcOf (ty : BitVec 4) (raw : Nat) : Int :=
  let w := typeWidth ty
  let x := raw % 2 ^ w
  if tySigned ty && decide (2 ^ (w - 1) ≤ x) then (x : Int) - 2 ^ w else x

/-- Clamp to the range of the type (R175, R223). -/
def satTo (ty : BitVec 4) (v : Int) : Int :=
  let w := typeWidth ty
  let lo : Int := if tySigned ty then -(2 ^ (w - 1)) else 0
  let hi : Int := if tySigned ty then 2 ^ (w - 1) - 1 else 2 ^ w - 1
  max lo (min hi v)

/-- The 32- or 64-bit word that a result is written as: modulo 2^w, extended to 32 bits by signedness (R219). -/
def dstOf (ty : BitVec 4) (v : Int) : Nat :=
  let w := typeWidth ty
  let x := (v % 2 ^ w).toNat
  if w < 32 && tySigned ty && decide (2 ^ (w - 1) ≤ x) then x + (2 ^ 32 - 2 ^ w) else x

/-! ### Sources -/

/-- A value read from an operand, with its poison. -/
structure Val where
  raw : Nat
  poison : Bool
  deriving DecidableEq, Repr

/-- Read a pair (R175). -/
def State.pair (s : State) (n : Nat) : Val :=
  let lo := s.gReg n
  let hi := s.gReg (n + 1)
  { raw := lo.val.toNat + 2 ^ 32 * hi.val.toNat, poison := lo.poison || hi.poison }

/-- Base of a constant window of the current thread's unit; zero when absent (R85). -/
def State.window (s : State) (k : Nat) : Nat :=
  match s.myUnit with
  | some u => (u.windows.getD k 0).toNat
  | none => 0

/-- A constant operand: a load of 4 or 8 bytes at base + 4w (R85, R201). -/
def readConst (opnd k w bytes : Nat) : M Val := do
  let base := (← get).window k
  if base = 0 then illegal
  let (v, p) ← loadBytes opnd (base + 4 * w) bytes
  return { raw := v, poison := p }

/-- The value of a source that is no constant window: 32 bits, or 64 under a 64-bit type code (R199, R200, R201,
R219). -/
def State.srcVal (s : State) (x : Spec) (ty : BitVec 4) (ext : BitVec 32) : Val :=
  let w64 := is64 ty
  match x with
  | .g n => if w64 then s.pair n.toNat else { raw := (s.gReg n.toNat).val.toNat, poison := (s.gReg n.toNat).poison }
  | .sv n => { raw := if w64 then s.special n.toNat else s.special n.toNat % 2 ^ 32, poison := false }
  | .imm => { raw := if w64 && tySigned ty then (ext.signExtend 64).toNat else ext.toNat, poison := false }
  | _ => { raw := 0, poison := false }

/-- Read a source (R200, R201, R219). `opnd` is the field's number in EXC_CAUSE.OPND. -/
def readSrc (opnd : Nat) (x : Spec) (ty : BitVec 4) (ext : BitVec 32) : M Val := do
  match x with
  | .k n => readConst opnd n.toNat (ext.toNat % 2 ^ 17) (if is64 ty then 8 else 4)
  | _ => return (← get).srcVal x ty ext

/-- Read a source that stays 32 bits whatever the type (R222). -/
def readSrc32 (opnd : Nat) (x : Spec) (ext : BitVec 32) : M Val := readSrc opnd x 6 ext

/-- The poison of a register operand, which is known before any load (R433 step 7). -/
def State.regPoison (s : State) (x : Spec) (w64 : Bool) : Bool :=
  match x with
  | .g n => if w64 then (s.pair n.toNat).poison else (s.gReg n.toNat).poison
  | .v n => (s.vReg n.toNat).poison
  | _ => false

/-- Register operands whose poison is consumed trap before any operand of the instruction is loaded, the lowest first; `w64`
marks pairs (R433 step 7). -/
def regsClean (l : List (Nat × Spec × Bool)) : M Unit := do
  let s ← get
  match l.find? fun e => s.regPoison e.2.1 e.2.2 with
  | some e => trap cPOISON e.1
  | none => pure ()

/-- Poison that is consumed traps, naming the operand (R221). -/
def consume (opnd : Nat) (v : Val) : M Nat := do
  if v.poison then trap cPOISON opnd
  return v.raw

/-- The pair that an operand names, or zero for 0xE9 (R199). -/
def readPair (x : Spec) : M Val := do
  match x with
  | .g n => return (← get).pair n.toNat
  | _ => return { raw := 0, poison := false }

/-- The form-M address: the pair in A plus the signed offset, modulo 2^64; poison there is consumed (R206, R247). -/
def addrM (w : Fields) : M Nat := do
  let a ← consume 2 (← readPair w.a)
  return (BitVec.ofNat 64 a + w.ext.signExtend 64).toNat

/-- An access that breaks its alignment traps with the address (R247). -/
def aligned (code opnd va n : Nat) : M Unit := do
  if va % n ≠ 0 then trap code opnd (BitVec.ofNat 64 va)

/-! ### Destinations -/

/-- A 32-bit word in the g register a field names. -/
def State.putG (s : State) (x : Spec) (v : Nat) (poison : Bool) : State :=
  match x with
  | .g n => s.setG n.toNat { val := BitVec.ofNat 32 v, poison }
  | _ => s
def writeG (x : Spec) (v : Nat) (poison : Bool) : M Unit := upd fun s => s.putG x v poison

/-- Write 64 bits to the pair a field names. -/
def State.setPairOf (s : State) (t : Tid) (n v : Nat) (poison : Bool) : State :=
  (s.setGOf t n { val := BitVec.ofNat 32 v, poison }).setGOf t (n + 1) { val := BitVec.ofNat 32 (v / 2 ^ 32), poison }
def State.putPair (s : State) (x : Spec) (v : Nat) (poison : Bool) : State :=
  match x with
  | .g n => s.setPairOf s.cur n.toNat v poison
  | _ => s
def writePair (x : Spec) (v : Nat) (poison : Bool) : M Unit := upd fun s => s.putPair x v poison

/-- A result of an integer type in its destination (R219). -/
def State.putDst (s : State) (x : Spec) (ty : BitVec 4) (v : Int) (poison : Bool) : State :=
  if is64 ty then s.putPair x (dstOf ty v) poison else s.putG x (dstOf ty v) poison
def writeDst (x : Spec) (ty : BitVec 4) (v : Int) (poison : Bool) : M Unit := upd fun s => s.putDst x ty v poison

/-- The predicate a field names, written; p7 discards it (R199). -/
def State.putP (s : State) (x : Spec) (b : Bool) : State :=
  match x with
  | .p n => s.setP n.toNat b
  | _ => s
def writeP (x : Spec) (b : Bool) : M Unit := upd fun s => s.putP x b
/-- Read the predicate a field names. -/
def State.predOf (s : State) (x : Spec) : Bool :=
  match x with
  | .p n => s.pReg n.toNat
  | _ => false

/-- The v register a field names, written. -/
def State.putV (s : State) (x : Spec) (v : VReg) : State :=
  match x with
  | .v n => s.setV n.toNat v
  | _ => s
def writeV (x : Spec) (v : VReg) : M Unit := upd fun s => s.putV x v
/-- Read a v operand; zero is a zero sector with the tag the instruction expects (R199). -/
def State.readV (s : State) (x : Spec) (tag : BitVec 4) : VReg :=
  match x with
  | .v n => s.vReg n.toNat
  | _ => { tag }

end Sys2Proof.Machine
end

