-- ==== Sys2Proof/Machine/Pool.lean ====
section
/-!
DEFINITION. The KV frame pool of a partition: frames, allocation, migration, eviction, freeing, the residency map and the
prefix table (R113 to R127, R258 to R260, R458 to R460).
-/
namespace Sys2Proof.Machine

-- Status codes of R260.
def kvOK := 0
def kvNOSEQ := 1
def kvCAPACITY := 2
def kvCOUNT := 3
def kvALIGN := 4
def kvNOFRAME := 5
def kvNOTSHARED := 6
def kvRANGE := 7

-- States of a frame (R115); an unlisted handle is free.
def frRESIDENT := 1
def frMARKED := 2
def frEVICTED := 3
def frMIGRATING := 4

/-- A free choice among n things, where the manual does not say which is taken. -/
def State.pickOf (s : State) (n : Nat) : Nat × State :=
  (if n ≤ 1 then 0 else (Config.freeDword s.free).toNat % n, { s with free := s.free + 1 })

def State.pool (s : State) (part : Nat) : KvPool := (s.part part).pool
def State.modPool (s : State) (part : Nat) (f : KvPool → KvPool) : State :=
  s.modPart part fun p => { p with pool := f p.pool }
def State.kvFrameOf (s : State) (part h : Nat) : Option Frame := (s.pool part).frames.find? h
def State.modFrame (s : State) (part h : Nat) (f : Frame → Frame) : State :=
  s.modPool part fun k => { k with frames := Tbl.adjust k.frames h f }
def State.kvSeq (s : State) (part q : Nat) : Seq := (s.pool part).seqs.get {} q
def State.setSeq (s : State) (part q : Nat) (v : Seq) : State :=
  s.modPool part fun k => { k with seqs := Tbl.put {} k.seqs q v }

/-- Pool frames in use in a home: those that hold data, and those that a copy is filling (R114, R122). -/
def KvPool.used (k : KvPool) (spill : Bool) : List Nat :=
  k.frames.flatMap fun e =>
    (if e.2.spilled = spill then [e.2.frame] else []) ++
    (match e.2.dest with
      | some d => if e.2.spilled = spill then [] else [d]
      | none => [])
/-- Free frames of a home. -/
def Part.freeFrames (p : Part) (spill : Bool) : List Nat :=
  let used := p.pool.used spill
  (List.range (if spill then p.spill else p.res)).filter fun n => !used.contains n

/-- Physical address of the data of a frame. -/
def State.kvBase (s : State) (part : Nat) (f : Frame) : Option Nat :=
  s.frameAddr part (if f.spilled then 1 else 0) f.frame
/-- An access by a source to a frame of a partition whose channel has been retired at run time is reported, with the frame
(R411, R415). -/
def State.frameDead (s : State) (source part cid home frame : Nat) : State :=
  match s.frameAddr part home frame with
  | none => s
  | some a =>
    if s.mem.isDead a then
      (s.meet source).report part 1 0x02 cid 2 (a / 65536 % 256) (BitVec.ofNat 64 (home * 2 ^ 40 + frame)) 4 0
    else s
/-- The same for KV frames, by home and frame. -/
def State.framesDead (s : State) (source part cid : Nat) (fs : List (Bool × Nat)) : State :=
  fs.foldl (fun s f => s.frameDead source part cid (if f.1 then 1 else 0) f.2) s
/-- The same for the frame of a handle. -/
def State.handleDead (s : State) (source part cid h : Nat) : State :=
  match s.kvFrameOf part h with
  | some f => s.framesDead source part cid [(f.spilled, f.frame)]
  | none => s
/-- Offset in its frame of the line for selector, head and slot (R113). -/
def kvLine (kv h slot : Nat) : Nat := kv * 32768 + h * 2048 + slot * 128

/-- Copy n bytes of a frame with side words and poison bits, sector for sector (R458). -/
def Mem.copyRange (m : Mem) (src dst n : Nat) : Mem :=
  let z := m.zeroRange dst (dst + n)
  let inside (a : Nat) : Bool := decide (src ≤ a) && decide (a < src + n)
  if m.isDead dst then m
  else if m.isDead src then (List.range (n / 32)).foldl (fun z i => z.setPois (dst + 32 * i) true) z
  else { z with
    bytes := (m.bytes.filter fun e => inside e.1).foldl (fun t e => Tbl.ins t (dst + (e.1 - src)) e.2) z.bytes
    sides := (m.sides.filter fun e => inside (e.1 * 32)).foldl
      (fun t e => Tbl.ins t ((dst + (e.1 * 32 - src)) / 32) e.2) z.sides
    poison := (m.poison.filter fun e => inside (e.1 * 32)).foldl
      (fun t e => Tbl.ins t ((dst + (e.1 * 32 - src)) / 32) e.2) z.poison }

/-- Threads and migrations of a partition that wait for a frame look again. -/
def State.wakePool (s : State) (part : Nat) : State :=
  s.wakeIf fun _ th => (th.wait == .pool || th.wait == .moving) && th.part == part
/-- Cached lines of a frame are removed (R122). -/
def KvPool.uncache (k : KvPool) (h : Nat) : KvPool := { k with cached := k.cached.filter fun l => l / 512 != h }

/-- A frame with REF and PIN both zero becomes free, with its prefix entries (R119). -/
def State.freeIfUnused (s : State) (part h : Nat) : State :=
  match s.kvFrameOf part h with
  | none => s
  | some f =>
    if f.ref = 0 ∧ f.pin = 0 then
      (s.modPool part fun k => { k.uncache h with
        frames := Tbl.del k.frames h, pfx := k.pfx.filter fun e => e.2.handle != h }).wakePool part
    else s
def State.dropRef (s : State) (part h : Nat) : State :=
  (s.modFrame part h fun f => { f with ref := f.ref - 1 }).freeIfUnused part h
def State.addRef (s : State) (part h : Nat) : State := s.modFrame part h fun f => { f with ref := f.ref + 1 }

/-- The pool acts once more, at a milestone of its own (R118, R122). -/
def State.poolTick (s : State) : State := s.setMs 164 (s.msOf 164 + 1)
/-- A pool operation's milestone: its own, and after every earlier access of the thread (R260). -/
def State.poolMs (s : State) : State := s.setMs 164 (max (s.msOf 164 + 1) (s.msOf s.src))
/-- The thread's later accesses follow its pool operation (R260). -/
def State.poolDone (s : State) : State := s.atLeastMs s.src (s.msOf 164 + 1)
/-- An access of a source to frames of the pool, at its own key: after what the pool has done, before what it does next
(R118, R258). -/
def State.poolRead (s : State) (src : Nat) : State :=
  let s := s.atLeastMs src (s.msOf 164 + 1)
  s.atLeastMs 164 (s.msOf src - 1)

/-- What an allocation of a resident frame comes to (R121). -/
inductive Alloc where
  | ok (frame : Nat)
  | wait
  | noFrame
  deriving DecidableEq, Repr

/-- The prefix entry that an allocation removes: least AGE among those whose frame has REF 1 and PIN 0 (R126). -/
def KvPool.victim (k : KvPool) : Option (Nat × Pfx) :=
  (k.pfx.filter fun e => match k.frames.find? e.2.handle with
    | some f => f.ref == 1 && f.pin == 0
    | none => false).foldl (fun best e => match best with
      | none => some e
      | some b => if e.2.age < b.2.age then some e else some b) none

/-- Some frame can be evicted, or is being evicted (R121, R122). -/
def Part.canEvict (p : Part) : Bool :=
  p.pool.frames.any (fun e => e.2.st == frMARKED) ||
    (p.pool.frames.any (fun e => e.2.st == frRESIDENT && e.2.pin == 0) && !(p.freeFrames true).isEmpty)

/-- Allocate a resident frame: a free one; else wait for an eviction; else remove prefix entries, each at its own
milestone (R121, R126). -/
def State.kvAlloc (s : State) (part : Nat) : Nat → Alloc × State
  | 0 => (.noFrame, s)
  | fuel + 1 =>
    let p := s.part part
    match p.freeFrames false with
    | f :: fs =>
      let (i, s) := s.pickOf (fs.length + 1)
      (.ok ((f :: fs).getD i f), s)
    | [] =>
      if p.canEvict then (.wait, s)
      else match p.pool.victim with
        | none => (.noFrame, s)
        | some (i, e) =>
          let s := s.modPool part fun k => { k with pfx := Tbl.del k.pfx i }
          (s.dropRef part e.handle).poolTick.kvAlloc part fuel

/-- A free handle: one exists whenever a resident frame is free. -/
def State.freeHandle (s : State) (part : Nat) : Nat × State :=
  let p := s.part part
  let hs := (List.range (p.res + p.spill)).filterMap fun i =>
    if (p.pool.frames.find? (i + 1)).isNone then some (i + 1) else none
  let (i, s) := s.pickOf hs.length
  (hs.getD i 0, s)

/-- Begin the migration of an evicted frame, once it has a resident frame; until then it waits, and without one it gives
up (R121, R122, R458). -/
def State.migrate (s : State) (part h : Nat) : State :=
  match s.kvAlloc part 65 with
  | (.ok fr, s) => s.modFrame part h fun f => { f with st := frMIGRATING, dest := some fr, wanted := false }
  | (.wait, s) => s.modFrame part h fun f => { f with wanted := true }
  | (.noFrame, s) => s.modFrame part h fun f => { f with wanted := false }

/-! ### The residency map (R117) -/

/-- A position resolved: its status code, the sectors of its line when there are any, and the handle. -/
structure Resolved where
  status : Nat
  line : List SectorLit
  handle : Nat
  deriving DecidableEq, Repr

def zeroLit : SectorLit := { data := 0, side := 0, poison := false }

/-- Resolve a position for some sectors of its line (R117, R258). -/
def State.resolve (s : State) (part q h p kv : Nat) (secs : List Nat) : Resolved :=
  let d := s.kvSeq part q
  let zero := secs.map fun _ => zeroLit
  if !d.live ∨ d.len ≤ p ∨ 16 ≤ h then { status := 1, line := zero, handle := 0 }
  else
    let hd := d.pages.getD (p / 16) 0
    match s.kvFrameOf part hd with
    | none => { status := 1, line := zero, handle := 0 }
    | some f =>
      let base := (s.kvBase part f).getD 0 + kvLine kv h (p % 16)
      let line := secs.map fun j => s.mem.sector (base + 32 * j)
      if f.psn ∨ line.any SectorLit.poison then
        { status := 3, line := line.map fun x => { x with poison := true }, handle := hd }
      else if f.st = frEVICTED ∨ f.st = frMIGRATING then { status := 2, line := zero, handle := hd }
      else { status := 0, line, handle := hd }

/-- A position found in an evicted frame begins its migration (R117). -/
def State.wantFrame (s : State) (part : Nat) (r : Resolved) : State :=
  match s.kvFrameOf part r.handle with
  | some f => if r.status = 2 ∧ f.st = frEVICTED then s.migrate part r.handle else s
  | none => s
/-- KVLD's mark on the frame: its AGE, and the migration of an evicted one (R117, R258). -/
def State.touchFrame (s : State) (part m : Nat) (r : Resolved) : State :=
  (if r.handle = 0 then s else s.modFrame part r.handle fun f => { f with age := m }).wantFrame part r

/-! ### The eviction engine (R122, R123) -/

/-- A thread or a migration of the partition waits for the allocation of a resident frame; one that waits for a migration
that has its frame does not. -/
def State.poolWaits (s : State) (part : Nat) : Bool :=
  s.threads.any (fun e => e.2.wait == .pool && e.2.part == part) ||
    (s.pool part).frames.any fun e => e.2.st == frEVICTED && e.2.wanted

/-- EVICTION_MARK: the resident frame of least AGE with PIN 0 is marked, and its copy begins; the engine works on one frame
at a time (R122). -/
def evictionMark (part : Nat) (s : State) : State :=
  let p := s.part part
  let cands := p.pool.frames.filter fun e => e.2.st == frRESIDENT && e.2.pin == 0
  let pick := cands.foldl (fun (best : Option (Nat × Frame)) e => match best with
    | none => some e
    | some b => if e.2.age < b.2.age then some e else some b) none
  match pick, p.freeFrames true with
  | some (h, _), f :: fs =>
    if p.pool.frames.any fun e => e.2.st == frMARKED then s
    else if (p.freeFrames false).length < p.pool.lowat ∨ s.poolWaits part then
      let (i, s) := s.pickOf (fs.length + 1)
      s.poolTick.modFrame part h fun x => { x with st := frMARKED, dest := some ((f :: fs).getD i f), written := false }
    else s
  | _, _ => s
def execEvictionMark (part : Nat) (s : State) : Out := event (evictionMark part) s

/-- EVICTION_COMMIT: the marked frame becomes evicted, or resident again (R122). -/
def evictionCommit (part h : Nat) (s : State) : State :=
  match s.kvFrameOf part h with
  | none => s
  | some f =>
    match f.dest, s.kvBase part f with
    | some d, some src =>
      let s' := s.poolTick
      if f.st ≠ frMARKED then s
      else if f.pin = 0 ∧ 0 < f.ref ∧ !f.written then
        match s.frameAddr part 1 d with
        | none => s
        | some dst =>
          let s := { s'.framesDead 164 part f.owner [(false, f.frame), (true, d)] with mem := s'.mem.copyRange src dst 65536 }
          ((s.modFrame part h fun f => { f with st := frEVICTED, spilled := true, frame := d, dest := none }).modPool part
            fun k => k.uncache h).wakePool part
      else (s'.modFrame part h fun f => { f with st := frRESIDENT, dest := none }).wakePool part
    | _, _ => s
def execEvictionCommit (part handle : Nat) (s : State) : Out := event (evictionCommit part handle) s

/-- MIGRATION_COMPLETE: the copy of a migrating frame ends; its AGE is its completion milestone (R122, R458). -/
def finishMigration (part h : Nat) (s : State) : State :=
  match s.kvFrameOf part h with
  | none => s
  | some f =>
    match f.dest, s.kvBase part f with
    | some d, some src =>
      if f.st ≠ frMIGRATING then s
      else match s.frameAddr part 0 d with
        | none => s
        | some dst =>
          let s := { s.poolTick.framesDead 164 part f.owner [(true, f.frame), (false, d)] with mem := s.mem.copyRange src dst 65536 }
          let m := s.msOf 164
          (s.modFrame part h fun f => { f with st := frRESIDENT, spilled := false, frame := d, dest := none, age := m })
            |>.wakePool part
    | _, _ => s
/-- A migration that waits for a resident frame looks for one again, and begins or gives up; one that has begun ends. -/
def migrationComplete (part h : Nat) (s : State) : State :=
  match s.kvFrameOf part h with
  | none => s
  | some f =>
    if f.st = frEVICTED ∧ f.wanted then
      let s := s.migrate part h
      match s.kvFrameOf part h with
      | some f => if f.st = frEVICTED ∧ f.wanted then s else s.wakePool part
      | none => s
    else finishMigration part h s
def execMigrationComplete (part handle : Nat) (s : State) : Out := event (migrationComplete part handle) s

end Sys2Proof.Machine
end

