-- ==== Sys2Proof/Machine/Num.lean ====
section
/-!
DEFINITION. Number formats and exact arithmetic (R175 to R191): exact values, the floating-point and MX formats, the
one rounding, block scales and quantisation, sums of K blocks, and the exponential.
-/
namespace Sys2Proof.Machine

/-- An exact value: NaN, an infinity, or (-1)^neg * n * 2^e; zero carries its sign. -/
inductive Num where
  | nan
  | inf (neg : Bool)
  | fin (neg : Bool) (n : Nat) (e : Int)
  deriving DecidableEq, Repr

/-- A floating-point format of R176: width, mantissa bits, bias, and its special values. -/
structure Fmt where
  w : Nat
  m : Nat
  bias : Nat
  hasInf : Bool
  hasNan : Bool
  deriving DecidableEq, Repr

def fFP32 : Fmt := { w := 32, m := 23, bias := 127, hasInf := true, hasNan := true }
def fBF16 : Fmt := { w := 16, m := 7, bias := 127, hasInf := true, hasNan := true }
def fFP16 : Fmt := { w := 16, m := 10, bias := 15, hasInf := true, hasNan := true }
def fE4M3 : Fmt := { w := 8, m := 3, bias := 7, hasInf := false, hasNan := true }
def fE5M2 : Fmt := { w := 8, m := 2, bias := 15, hasInf := true, hasNan := true }
def fE2M3 : Fmt := { w := 6, m := 3, bias := 1, hasInf := false, hasNan := false }
def fE3M2 : Fmt := { w := 6, m := 2, bias := 3, hasInf := false, hasNan := false }
def fE2M1 : Fmt := { w := 4, m := 1, bias := 1, hasInf := false, hasNan := false }

/-- emin of R176. -/
def Fmt.emin (F : Fmt) : Int := 1 - F.bias
/-- Codes of the exponent field. -/
def Fmt.eTop (F : Fmt) : Nat := 2 ^ (F.w - 1 - F.m) - 1
/-- Code of the largest finite value, without its sign. -/
def Fmt.largest (F : Fmt) : Nat :=
  if F.hasInf then F.eTop * 2 ^ F.m - 1 else if F.hasNan then 2 ^ (F.w - 1) - 2 else 2 ^ (F.w - 1) - 1
def Fmt.sign (F : Fmt) (neg : Bool) : Nat := if neg then 2 ^ (F.w - 1) else 0
/-- The canonical NaN (R177). A format without one has none to produce. -/
def Fmt.nanCode (F : Fmt) : Nat :=
  if F.hasInf then F.eTop * 2 ^ F.m + 2 ^ (F.m - 1) else if F.hasNan then 2 ^ (F.w - 1) - 1 else 0
/-- inf_result of R183. -/
def Fmt.infCode (F : Fmt) (neg : Bool) : Nat :=
  F.sign neg + (if F.hasInf then F.eTop * 2 ^ F.m else F.largest)

/-- The value of a code (R176). -/
def Fmt.value (F : Fmt) (code : Nat) : Num :=
  let neg := code / 2 ^ (F.w - 1) % 2 == 1
  let e := code / 2 ^ F.m % (F.eTop + 1)
  let m := code % 2 ^ F.m
  if F.hasInf ∧ e = F.eTop then (if m = 0 then .inf neg else .nan)
  else if !F.hasInf ∧ F.hasNan ∧ code % 2 ^ (F.w - 1) = 2 ^ (F.w - 1) - 1 then .nan
  else if e = 0 then .fin neg m (F.emin - F.m)
  else .fin neg (2 ^ F.m + m) ((e : Int) - F.bias - F.m)

/-! ### Exact arithmetic -/

def Num.isNan : Num → Bool
  | .nan => true
  | _ => false
def Num.isInf : Num → Bool
  | .inf _ => true
  | _ => false
def Num.isZero : Num → Bool
  | .fin _ 0 _ => true
  | _ => false
def Num.neg? : Num → Bool
  | .nan => false
  | .inf s => s
  | .fin s _ _ => s
/-- Negation flips the sign only. -/
def Num.neg : Num → Num
  | .nan => .nan
  | .inf s => .inf !s
  | .fin s n e => .fin (!s) n e
def Num.negIf (b : Bool) (x : Num) : Num := if b then x.neg else x
def Num.abs : Num → Num
  | .nan => .nan
  | .inf _ => .inf false
  | .fin _ n e => .fin false n e
/-- z * 2^e. -/
def Num.ofInt (z : Int) (e : Int := 0) : Num := .fin (decide (z < 0)) z.natAbs e
/-- The signed numerator of a finite value over 2^e0, e0 being at most its exponent. -/
def Num.scaled (x : Num) (e0 : Int) : Int :=
  match x with
  | .fin s n e => let v : Int := n * 2 ^ (e - e0).toNat; if s then -v else v
  | _ => 0
def Num.exp : Num → Int
  | .fin _ _ e => e
  | _ => 0
/-- Multiply by a power of two. -/
def Num.shift (x : Num) (k : Int) : Num :=
  match x with
  | .fin s n e => .fin s n (e + k)
  | y => y

/-- The exact sum, with the zero-sign rule of R276; `rdn` is the mode RDN. -/
def Num.add (rdn : Bool) (x y : Num) : Num :=
  match x, y with
  | .nan, _ => .nan
  | _, .nan => .nan
  | .inf a, .inf b => if a = b then .inf a else .nan
  | .inf a, _ => .inf a
  | _, .inf b => .inf b
  | .fin a n e, .fin b m f =>
    let e0 := min e f
    let z := (Num.fin a n e).scaled e0 + (Num.fin b m f).scaled e0
    if z = 0 then .fin (if n = 0 ∧ m = 0 ∧ a = b then a else rdn) 0 0 else Num.ofInt z e0
/-- The exact product. -/
def Num.mul (x y : Num) : Num :=
  match x, y with
  | .nan, _ => .nan
  | _, .nan => .nan
  | .inf a, .inf b => .inf (a != b)
  | .inf a, .fin b m _ => if m = 0 then .nan else .inf (a != b)
  | .fin a n _, .inf b => if n = 0 then .nan else .inf (a != b)
  | .fin a n e, .fin b m f => .fin (a != b) (n * m) (e + f)

/-- Order of two values; zeros are equal. -/
def Num.lt (x y : Num) : Bool :=
  match x, y with
  | .nan, _ => false
  | _, .nan => false
  | .inf a, .inf b => a && !b
  | .inf a, _ => a
  | _, .inf b => !b
  | .fin a n e, .fin b m f =>
    decide ((Num.fin a n e).scaled (min e f) < (Num.fin b m f).scaled (min e f))

/-- floor(log2 v) of a positive numerator. -/
def ilog2 (n : Nat) (e : Int) : Int := (Nat.log2 n : Int) + e

/-! ### Rounding (R182 to R184) -/

-- Rounding modes.
def rmRNE := 0
def rmRTZ := 1
def rmRDN := 2
def rmRUP := 3
def rmSR := 4

/-- One more unit for a remainder r of d, the kept part being k (R183). -/
def roundsUp (rm : Nat) (neg : Bool) (k r d : Nat) (word : Nat) : Bool :=
  match rm with
  | 0 => decide (d < 2 * r) || (decide (2 * r = d) && k % 2 == 1)
  | 1 => false
  | 2 => decide (0 < r) && neg
  | 3 => decide (0 < r) && !neg
  | _ => decide (2 ^ 16 ≤ r * 2 ^ 16 / d + word)

/-- Rounded quotient of n * 2^e by 2^qe. -/
def roundAt (rm : Nat) (neg : Bool) (n : Nat) (e qe : Int) (word : Nat) : Nat :=
  if qe ≤ e then n * 2 ^ (e - qe).toNat
  else
    let d := 2 ^ (qe - e).toNat
    let k := n / d
    if roundsUp rm neg k (n % d) d word then k + 1 else k

/-- over_result of R183; within mx_quant the largest finite value in every mode (R188). -/
def Fmt.over (F : Fmt) (rm : Nat) (neg sat : Bool) : Nat :=
  let big := F.sign neg + F.largest
  if sat ∨ !F.hasInf then big
  else match rm with
  | 1 => big
  | 2 => if neg then F.infCode neg else big
  | 3 => if neg then big else F.infCode neg
  | _ => F.infCode neg

/-- round(v, F, rm), the random word being given (R183). -/
def roundNum (v : Num) (F : Fmt) (rm word : Nat) (sat : Bool := false) : Nat :=
  match v with
  | .nan => F.nanCode
  | .inf s => F.infCode s
  | .fin s n e =>
    if n = 0 then F.sign s
    else
      let qe := max (ilog2 n e) F.emin - F.m
      let k := roundAt rm s n e qe word
      -- k units of 2^qe, as a code without sign
      let code := (qe - (F.emin - F.m)).toNat * 2 ^ F.m + k
      if F.largest < code then F.over rm s sat else F.sign s + code

def roundRne (v : Num) (F : Fmt) : Nat := roundNum v F 0 0

/-- round_int: an integer, before its saturation to a range (R184). -/
def roundToInt (v : Num) (rm word : Nat) : Int :=
  match v with
  | .fin s n e => let k : Int := roundAt rm s n e 0 word; if s then -k else k
  | _ => 0
/-- round_int(v, w, signed, rm) (R184). -/
def roundInt (v : Num) (w : Nat) (signed : Bool) (rm word : Nat) : Int :=
  let lo : Int := if signed then -(2 ^ (w - 1)) else 0
  let hi : Int := if signed then 2 ^ (w - 1) - 1 else 2 ^ w - 1
  match v with
  | .nan => 0
  | .inf s => if s then lo else hi
  | x => max lo (min hi (roundToInt x rm word))

/-- The step of the random word (R185). -/
def rndStep (w : BitVec 16) : BitVec 16 :=
  let w := w ^^^ (w <<< 7)
  let w := w ^^^ (w >>> 9)
  w ^^^ (w <<< 8)
/-- The next n words, first taken first, and the word after them. -/
def rndTake : Nat → BitVec 16 → List Nat × BitVec 16
  | 0, w => ([], w)
  | n + 1, w => let (l, x) := rndTake n (rndStep w); (w.toNat :: l, x)

/-! ### FP32 shorthands -/

def f32 (x : Nat) : Num := fFP32.value x
/-- IEEE addition of FP32 codes, rounded once to nearest. -/
def f32Add (x y : Nat) : Nat := roundRne ((f32 x).add false (f32 y)) fFP32
def f32Mul (x y : Nat) : Nat := roundRne ((f32 x).mul (f32 y)) fFP32
/-- -0 counts as less than +0 (R277). -/
def Num.below (x y : Num) : Bool := x.lt y || (x.isZero && y.isZero && x.neg? && !y.neg?)
/-- The choice of R277 between two codes: `mx` takes the larger. -/
def pickMinMax (F : Fmt) (mx : Bool) (a b : Nat) : Nat :=
  let x := F.value a
  let y := F.value b
  match x.isNan, y.isNan with
  | true, true => F.nanCode
  | true, false => b
  | false, true => a
  | false, false => if (if mx then x.below y else y.below x) then b else a
/-- The same between values. -/
def Num.pick (mx : Bool) (x y : Num) : Num :=
  match x.isNan, y.isNan with
  | true, true => .nan
  | true, false => y
  | false, true => x
  | false, false => if (if mx then x.below y else y.below x) then y else x

/-- Whole square root. -/
def isqrt (x : Nat) : Nat :=
  (List.range (Nat.log2 x / 2 + 1)).foldr (fun i r => if (r + 2 ^ i) * (r + 2 ^ i) ≤ x then r + 2 ^ i else r) 0

/-! ### Reciprocal, reciprocal square root, logarithm (R279). The exact value is given to at least 64 significant bits,
truncated, with one bit below them that says whether anything was cut off: every rounding of R183 agrees on it. -/

def withSticky (neg : Bool) (t : Nat) (exact : Bool) (e : Int) : Num :=
  .fin neg (2 * t + (if exact then 0 else 1)) (e - 1)

def Num.recip : Num → Num
  | .nan => .nan
  | .inf s => .fin s 0 0
  | .fin s n e =>
    if n = 0 then .inf s
    else
      let p := Nat.log2 n + 66
      withSticky s (2 ^ p / n) (2 ^ p % n == 0) (-e - p)

/-- The exact quotient. -/
def Num.div (x y : Num) : Num :=
  match x, y with
  | .nan, _ => .nan
  | _, .nan => .nan
  | .inf _, .inf _ => .nan
  | .inf a, .fin b _ _ => .inf (a != b)
  | .fin a _ _, .inf b => .fin (a != b) 0 0
  | .fin a n e, .fin b m f =>
    if m = 0 then (if n = 0 then .nan else .inf (a != b))
    else
      let p := Nat.log2 m + 66
      withSticky (a != b) (n * 2 ^ p / m) (n * 2 ^ p % m == 0) (e - f - p)

def Num.rsqrt : Num → Num
  | .nan => .nan
  | .inf s => if s then .nan else .fin false 0 0
  | .fin s n e =>
    if n = 0 then .inf s
    else if s then .nan
    else
      -- an even exponent
      let n' := if e % 2 = 0 then n else 2 * n
      let e' := if e % 2 = 0 then e else e - 1
      let p := Nat.log2 n' + 70
      let t := isqrt (2 ^ (2 * p) / n')
      withSticky false t (t * t * n' == 2 ^ (2 * p)) (-(e' / 2) - p)

/-- The first n binary digits of log2 of a value in [1,2), held between lo and hi over 2^320. -/
def logDigits : Nat → Nat → Nat → Nat → Nat
  | 0, _, _, acc => acc
  | n + 1, lo, hi, acc =>
    let lo' := lo * lo / 2 ^ 320
    let hi' := hi * hi / 2 ^ 320 + 1
    if 2 ^ 321 ≤ lo' then logDigits n (lo' / 2) (hi' / 2 + 1) (2 * acc + 1)
    else logDigits n lo' hi' (2 * acc)

def Num.log2 : Num → Num
  | .nan => .nan
  | .inf s => if s then .nan else .inf false
  | .fin s n e =>
    if n = 0 then .inf true
    else if s then .nan
    else
      let l := Nat.log2 n
      let k : Int := (l : Int) + e
      if n = 2 ^ l then Num.ofInt k
      else
        let x := n * 2 ^ 320 / 2 ^ l
        -- the logarithm lies strictly between T and T + 1 over 2^96
        let t : Int := k * 2 ^ 96 + logDigits 96 x (x + 1) 0
        Num.ofInt (2 * t + 1) (-97)

/-! ### The exponential (R190) -/

/-- T[i] = floor(2^(i/64) * 2^23 + 1/2). -/
def expT (i : Nat) : Nat :=
  let x := (List.range 26).foldr (fun b r => if (r + 2 ^ b) ^ 64 ≤ 2 ^ (i + 1536) then r + 2 ^ b else r) 0
  (x + 1) / 2

def exp2e9 (x : Nat) : Nat :=
  let clamp (v : Num) : Num :=
    if v.lt (Num.ofInt (-150)) then Num.ofInt (-150)
    else if v.lt (Num.ofInt 128) then v else Num.ofInt (2 ^ 24 - 1) (-17)
  match clamp (f32 x) with
  | .fin s n e =>
    if (f32 x).isNan then 0x7FC00000
    else
      -- z = floor(v * 2^30)
      let num : Int := if s then -(n : Int) else n
      let z : Int := if 0 ≤ e + 30 then num * 2 ^ (e + 30).toNat else num / 2 ^ (-(e + 30)).toNat
      let k : Int := z / 2 ^ 30
      let f := (z - k * 2 ^ 30).toNat
      let i := f / 2 ^ 24
      let d := f % 2 ^ 24
      let h := 257941248 * d / 2 ^ 30
      let t := d * (744261118 + h) / 2 ^ 30
      let y := expT i * (2 ^ 30 + t) / 2 ^ 23
      roundRne (.fin false y (k - 30)) fFP32
  | _ => 0x7FC00000

/-! ### MX blocks (R178 to R180, R188, R189) -/

/-- An element format of an MX block. -/
inductive Elem where
  | flt (F : Fmt)
  | int8
  deriving DecidableEq, Repr

/-- MX emax (R176). -/
def Elem.emax : Elem → Int
  | .int8 => 0
  | .flt F => if F = fE4M3 then 8 else if F = fE5M2 then 15 else if F = fE3M2 then 4 else 2
def Elem.width : Elem → Nat
  | .int8 => 8
  | .flt F => F.w

/-- The signed value of a byte (R175). -/
def sInt (w x : Nat) : Int := let y := x % 2 ^ w; if 2 ^ (w - 1) ≤ y then (y : Int) - 2 ^ w else y

/-- The value of an element under scale code c (R179, R180). -/
def Elem.value (E : Elem) (code c : Nat) : Num :=
  if c = 0xFF then .nan
  else match E with
  | .int8 => Num.ofInt (sInt 8 code) ((c : Int) - 127 - 6)
  | .flt F => (F.value code).shift ((c : Int) - 127)

/-- The largest magnitude of a list of finite values. -/
def maxAbs (vs : List Num) : Num := vs.foldl (fun m v => if m.lt v.abs then v.abs else m) (.fin false 0 0)

/-- mx_scale (R188). -/
def mxScale (E : Elem) (vs : List Num) : Nat :=
  if vs.any fun v => v.isNan || v.isInf then 0xFF
  else match maxAbs vs with
  | .fin _ n e => if n = 0 then 0 else (max (min (ilog2 n e - E.emax) 127) (-127) + 127).toNat
  | _ => 0xFF

/-- One element of mx_quant under scale code c. -/
def quantElem (E : Elem) (c rm word : Nat) (v : Num) : Nat :=
  match E with
  | .int8 => ((max (-127) (min 127 (roundToInt (v.shift (133 - (c : Int))) rm word))) % 256).toNat
  | .flt F => roundNum (v.shift (127 - (c : Int))) F rm word true

/-- mx_quant: the scale and 32 element codes; `words` are the 32 random words under SR (R188). -/
def mxQuant (E : Elem) (rm : Nat) (words : List Nat) (vs : List Num) : Nat × List Nat :=
  let c := mxScale E vs
  if c = 0xFF then (0xFF, vs.map fun _ => 0)
  else (c, (List.range vs.length).zip vs |>.map fun e => quantElem E c rm (words.getD e.1 0) e.2)

/-- amax_word (R189). -/
def amaxWord (vs : List Num) : Nat :=
  if vs.any Num.isNan then 0x7FC00000
  else if vs.any Num.isInf then 0x7F800000
  else roundRne (maxAbs vs) fFP32

/-! ### K blocks (R187) -/

/-- The sum of exact terms with the special cases of kblock; `rdn` is the sign of an exact zero. -/
def exactSum (rdn : Bool) (vs : List Num) : Num :=
  if vs.any Num.isNan then .nan
  else if vs.any (fun v => v == .inf true) && vs.any (fun v => v == .inf false) then .nan
  else match vs.find? Num.isInf with
  | some v => v
  | none =>
    let e0 := vs.foldl (fun e v => min e v.exp) 0
    let z := vs.foldl (fun acc v => acc + v.scaled e0) 0
    if z = 0 then .fin rdn 0 0 else Num.ofInt z e0

/-- kblock on decoded elements; the scales are applied to the exact sum (R187). An infinite or NaN scale does not
occur but for NaN, which `none` stands for. -/
def kblock (a b : List Num) (sa sb : Option Int) : Nat :=
  match sa, sb with
  | some x, some y =>
    let s := exactSum false ((a.zip b).map fun e => e.1.mul e.2)
    roundRne (s.shift (x + y)) fFP32
  | _, _ => fFP32.nanCode

end Sys2Proof.Machine
end

