-- ==== Sys2Proof/Machine/Sector.lean ====
section
/-!
DEFINITION. Sectors as the elements that a format tag names (R180, R181, R283).
-/
namespace Sys2Proof.Machine

-- Tag codes (R181).
def tagRAW : BitVec 4 := 0
def tagF32 : BitVec 4 := 1
def tagBF16 : BitVec 4 := 2
def tagF16 : BitVec 4 := 3
def tagI32 : BitVec 4 := 4
def tagI8 : BitVec 4 := 5
def tagE4M3 : BitVec 4 := 8
def tagE5M2 : BitVec 4 := 9
def tagE2M3 : BitVec 4 := 10
def tagE3M2 : BitVec 4 := 11
def tagE2M1 : BitVec 4 := 12
def tagINT8 : BitVec 4 := 13

/-- What an element of a tag is. -/
inductive Kind where
  | raw
  | flt (F : Fmt)
  | int (w : Nat)
  | mx (E : Elem)
  deriving DecidableEq, Repr

def kindOf (tag : BitVec 4) : Kind :=
  match tag.toNat with
  | 1 => .flt fFP32
  | 2 => .flt fBF16
  | 3 => .flt fFP16
  | 4 => .int 32
  | 5 => .int 8
  | 8 => .mx (.flt fE4M3)
  | 9 => .mx (.flt fE5M2)
  | 10 => .mx (.flt fE2M3)
  | 11 => .mx (.flt fE3M2)
  | 12 => .mx (.flt fE2M1)
  | 13 => .mx .int8
  | _ => .raw

/-- Width in bits of an element's code. -/
def Kind.width : Kind → Nat
  | .raw => 32
  | .flt F => F.w
  | .int w => w
  | .mx E => E.width
/-- Elements of a sector (R283). -/
def Kind.count : Kind → Nat
  | .mx E => if E.width = 4 then 64 else 32
  | k => 256 / k.width
def Kind.isMx : Kind → Bool
  | .mx _ => true
  | _ => false

/-- Code of element i of a sector (R180, R181). -/
def elemCode (k : Kind) (sec : Sector) (i : Nat) : Nat := sec.toNat / 2 ^ (k.width * i) % 2 ^ k.width
/-- Scale code of block b (R180). -/
def scaleOf (side : BitVec 16) (b : Nat) : Nat := side.toNat / 2 ^ (8 * b) % 256
/-- Exact value of element i, integers by signedness (R180, R283). -/
def elemValue (k : Kind) (signed : Bool) (sec : Sector) (side : BitVec 16) (i : Nat) : Num :=
  let c := elemCode k sec i
  match k with
  | .raw => Num.ofInt c
  | .flt F => F.value c
  | .int w => Num.ofInt (if signed then sInt w c else c)
  | .mx E => E.value c (scaleOf side (i / 32))
def elemValues (k : Kind) (signed : Bool) (sec : Sector) (side : BitVec 16) : List Num :=
  (List.range k.count).map (elemValue k signed sec side)
/-- The value of an integer element. -/
def elemInt (k : Kind) (signed : Bool) (sec : Sector) (i : Nat) : Int :=
  let c := elemCode k sec i
  if signed then sInt k.width c else c

/-- A sector from element codes, lowest first; unused bits are zero (R180). -/
def packElems (k : Kind) (codes : List Nat) : Sector :=
  BitVec.ofNat 256 (codes.foldr (fun c acc => c % 2 ^ k.width + 2 ^ k.width * acc) 0)
/-- A sector with element i replaced. -/
def putElem (k : Kind) (sec : Sector) (i code : Nat) : Sector :=
  let w := k.width
  let m := BitVec.ofNat 256 ((2 ^ w - 1) * 2 ^ (w * i))
  (sec &&& ~~~m) ||| BitVec.ofNat 256 (code % 2 ^ w * 2 ^ (w * i))

/-- Take n random words of a thread (R185). -/
def takeWords (n : Nat) : M (List Nat) := do
  let (l, w) := rndTake n (← get).me.rnd
  upd fun s => s.modMe fun th => { th with rnd := w }
  return l
/-- Words for n roundings: taken under SR only (R185). -/
def srWords (rm : Nat) (n : Nat) : M (List Nat) := if rm = rmSR then takeWords n else return []
/-- The word for one rounding. -/
def srWord (rm : Nat) : M Nat := do return (← srWords rm 1).headD 0

/-- Quantise the values of whole blocks to an MX format: sector and side word (R188, R285). -/
def mxPack (E : Elem) (rm : Nat) (words : List Nat) (vs : List Num) : Sector × BitVec 16 :=
  let blocks := (List.range (vs.length / 32)).map fun b =>
    mxQuant E rm ((words.drop (32 * b)).take 32) ((vs.drop (32 * b)).take 32)
  (packElems (.mx E) (blocks.flatMap Prod.snd),
   BitVec.ofNat 16 (blocks.foldr (fun b acc => b.1 + 256 * acc) 0))

end Sys2Proof.Machine
end

