-- ==== Sys2Proof/Machine/Kv.lean ====
section
/-!
DEFINITION. KV and prefix instructions (R257 to R261, R441) and POOLCTL (R333, R446).
-/
namespace Sys2Proof.Machine

/-- A 32-bit operand used as an index, count or address: its poison is consumed (R257). -/
def kvOperand (opnd : Nat) (x : Spec) (ext : BitVec 32) : M Nat := do consume opnd (← readSrc32 opnd x ext)

/-- A source on a remote page is refused as a denied one is: the lowest page refused decides (R259, R448). -/
def refuseRemote (opnd va n : Nat) : M Unit := do
  let s ← get
  let remote (l : Nat) : Bool := regionOf va != .carve && (match (s.translate s.who l).1 with
    | .ok x => x.home == 3
    | _ => false)
  match (linesOf va n).find? remote with
  | none => return
  | some l =>
    let before := (s.places s.who .load none ((linesOf va n).filter fun x => decide (x < l))).1
    if !before.any fun e => e.2 == .denied then trap cPAGE opnd (BitVec.ofNat 64 (max va (l / 65536 * 65536)))

/-- 16 token IDs at a pair, read as one load, with their poison (R257, R261). -/
def readTokens (opnd : Nat) (x : Spec) : M (List Word × Bool) := do
  let va ← consume opnd (← readPair x)
  aligned cMISALIGNED opnd va 4
  let (v, p) ← loadBytes opnd va 64
  return ((List.range 16).map fun i => BitVec.ofNat 32 (v / 2 ^ (32 * i)), p)

/-! ### KVLD (R258) -/

/-- The line of a resident frame is brought into the LLC (R123, R258). DESIGN CHOICE (log 127): the location of a line without
a VA is not given; a frame line takes the place of no other line, and stays until its frame moves or goes. -/
def State.bringLine (s : State) (part h off : Nat) : State :=
  match s.kvFrameOf part h with
  | some f =>
    let l := h * 512 + off / 128
    if f.st = frRESIDENT then s.modPool part fun k => { k with cached := if k.cached.contains l then k.cached else k.cached ++ [l] }
    else s
  | none => s

def kvldBody (w : Fields) : M Unit := do
  unsupportedInTx
  regsClean [(2, w.a, false), (3, w.b, false)]
  let a ← kvOperand 2 w.a w.ext
  let p ← kvOperand 3 w.b w.ext
  let part := (← get).me.part
  let at_ := kvLine (w.sub.toNat % 2) (a / 65536 % 256) (p % 16)
  let line (s : State) : Resolved := s.resolve part (a % 65536) (a / 65536 % 256) p (w.sub.toNat % 2) [a / 2 ^ 24 % 4]
  if w.sub.getLsbD 1 then
    -- with PF the line enters the LLC and nothing else changes
    upd fun s => s.bringLine part (line s).handle at_
  else
    upd fun s => s.poolRead s.src
    let r := line (← get)
    upd fun s => ((s.handleDead s.src part s.me.cid r.handle).touchFrame part (s.msOf s.src) r).bringLine part r.handle at_
    let x := r.line.headD zeroLit
    writeV w.d { sec := x.data, side := x.side, tag := tagE4M3, poison := x.poison }
    writeG w.c r.status false
def execKvld (w : Fields) (s : State) : Out := runInstr (.kvld w) w (seqBody (kvldBody w)) s

/-! ### KVAPP (R118, R259) -/

/-- A pool operation ends with a status. -/
def poolStatus (w : Fields) (c : Nat) : M Unit := do
  upd State.poolDone
  writeG w.d c false

/-- A pool operation that must wait for a frame, or for a migration. -/
def waitPool {α : Type} : M α := hold .pool
def waitMoving {α : Type} : M α := hold .moving

/-- A frame that the operation is to write must be resident or marked: an evicted one begins migration and is waited
for (R123). -/
def needResident (part h : Nat) (status : Nat → M Unit) (go : M Unit) : M Unit := do
  match (← get).kvFrameOf part h with
  | none => go
  | some f =>
    if f.st = frEVICTED then
      upd fun s => s.migrate part h
      match (← get).kvFrameOf part h with
      | some f => if f.st = frEVICTED ∧ !f.wanted then status kvNOFRAME else waitMoving
      | none => go
    else if f.st = frMIGRATING then waitMoving
    else go

/-- Allocate a frame for a context: a handle with REF 1 and FILL 0 (R118, R121). -/
def newFrame (part cid : Nat) (status : Nat → M Unit) (go : Nat → M Unit) : M Unit := do
  let (a, s) := (← get).kvAlloc part 65
  set s
  match a with
  | .wait => waitPool
  | .noFrame => status kvNOFRAME
  | .ok fr =>
    let (h, s) := (← get).freeHandle part
    set (s.modPool part fun k => { k with frames := Tbl.ins k.frames h { ref := 1, owner := cid, frame := fr } })
    go h

/-- Write one token's lines into a slot of a frame (R113, R259). -/
def State.putToken (s : State) (part h slot : Nat) (lines : List SectorLit) : State :=
  match s.kvFrameOf part h with
  | none => s
  | some f =>
    match s.kvBase part f with
    | none => s
    | some base =>
      let put (m : Mem) (e : Nat × SectorLit) : Mem :=
        -- sector e.1 of the token: selector, head, sector of the line
        m.setSector (base + kvLine (e.1 / 64) (e.1 / 4 % 16) slot + 32 * (e.1 % 4)) e.2
      { s with mem := ((List.range lines.length).zip lines).foldl put s.mem }

/-- Append tokens to a frame at its FILL. -/
def State.fillFrame (s : State) (part h : Nat) (toks : List (Word × List SectorLit)) : State :=
  toks.foldl (fun s t =>
    match s.kvFrameOf part h with
    | none => s
    | some f =>
      let m := s.msOf 164
      (s.putToken part h f.fill t.2).modFrame part h fun f =>
        { f with fill := f.fill + 1, tokens := f.tokens ++ [t.1], age := m, written := true })
    (if toks.isEmpty then s else s.handleDead s.src part s.me.cid h)

def kvappBody (w : Fields) : M Unit := do
  unsupportedInTx
  regsClean [(2, w.a, false), (3, w.b, true)]
  let a ← kvOperand 2 w.a w.ext
  let va ← consume 3 (← readPair w.b)
  let q := a % 65536
  let n := a / 65536 % 16 + 1
  let len := 256 + n * 4096
  aligned cMISALIGNED 3 va 256
  checkRange 3 va len
  checkLocks 3 va len false
  refuseRemote 3 va len
  let secs ← loadSectors 3 va len
  if (secs.take ((4 * n + 31) / 32)).any SectorLit.poison then trap cPOISON 3
  let ids := bytesOf (secs.take 8) 0 256
  let tok (i : Nat) : Word × List SectorLit :=
    (BitVec.ofNat 32 (ids / 2 ^ (32 * i)), (secs.drop (8 + 128 * i)).take 128)
  let toks := (List.range n).map tok
  upd State.poolMs
  let s ← get
  let part := s.me.part
  let cid := s.me.cid
  let d := s.kvSeq part q
  let status := poolStatus w
  let fill := match d.pages.getLast? with
    | some h => ((s.kvFrameOf part h).map Frame.fill).getD 16
    | none => 16
  let room := 16 - fill
  let tail := d.pages.getLastD 0
  if !d.live then status kvNOSEQ
  else if room < n ∧ d.cap < d.pages.length + 1 then status kvCAPACITY
  else
    if 0 < room then
      match s.kvFrameOf part tail with
      | some f => if 1 < f.ref then trap 0x0A 0 (BitVec.ofNat 64 tail)
      | none => pure ()
    let finish (extra : List Nat) (s : State) : State :=
      let d := s.kvSeq part q
      s.setSeq part q { d with len := d.len + n, pages := d.pages ++ extra }
    let fillTail : M Unit := upd fun s => s.fillFrame part tail (toks.take room)
    let rest : M Unit :=
      if room < n then
        newFrame part cid status fun h => do
          fillTail
          upd fun s => finish [h] (s.fillFrame part h (toks.drop room))
          status kvOK
      else do
        fillTail
        upd (finish [])
        status kvOK
    if 0 < room then needResident part tail status rest else rest
def execKvapp (w : Fields) (s : State) : Out := runInstr (.kvapp w) w (seqBody (kvappBody w)) s

/-! ### The other pool operations (R118, R126, R127) -/

/-- Run a pool operation at its milestone: it answers a status and the state after. -/
def poolOp (w : Fields) (f : Nat → State → Nat × State) : M Unit := do
  upd State.poolMs
  let s ← get
  let (c, s) := f s.me.part s
  set s
  poolStatus w c

def kvfork (cid src dst part : Nat) (s : State) : Nat × State :=
  let a := s.kvSeq part src
  let b := s.kvSeq part dst
  let tooMany := a.pages.any fun h => match s.kvFrameOf part h with
    | some f => decide (65535 < f.ref + a.pages.count h)
    | none => false
  if !a.live then (kvNOSEQ, s)
  else if b.live ∨ b.cap < a.pages.length then (kvCAPACITY, s)
  else if tooMany then (kvCOUNT, s)
  else
    let s := s.setSeq part dst { b with live := true, len := a.len, pages := a.pages, owner := cid }
    (kvOK, a.pages.foldl (fun s h => s.addRef part h) s)
def kvforkBody (w : Fields) : M Unit := do
  unsupportedInTx
  regsClean [(2, w.a, false), (3, w.b, false)]
  let a ← kvOperand 2 w.a w.ext
  let b ← kvOperand 3 w.b w.ext
  let cid := (← get).me.cid
  poolOp w (kvfork cid (a % 65536) (b % 65536))
def execKvfork (w : Fields) (s : State) : Out := runInstr (.kvfork w) w (seqBody (kvforkBody w)) s

def kvrel (q part : Nat) (s : State) : Nat × State :=
  let d := s.kvSeq part q
  if !d.live then (kvNOSEQ, s)
  else
    let s := s.setSeq part q { cap := d.cap, list := d.list }
    (kvOK, d.pages.foldl (fun s h => s.dropRef part h) s)
def kvrelBody (w : Fields) : M Unit := do
  unsupportedInTx
  let a ← kvOperand 2 w.a w.ext
  poolOp w (kvrel (a % 65536))
def execKvrel (w : Fields) (s : State) : Out := runInstr (.kvrel w) w (seqBody (kvrelBody w)) s

def kvlink (q h part : Nat) (s : State) : Nat × State :=
  let d := s.kvSeq part q
  let f := s.kvFrameOf part h
  if !d.live then (kvNOSEQ, s)
  else if d.cap < d.pages.length + 1 then (kvCAPACITY, s)
  else if f.any (fun f => decide (65535 < f.ref + 1)) then (kvCOUNT, s)
  else match f with
    | none => (kvALIGN, s)
    | some f =>
      if d.len % 16 ≠ 0 then (kvALIGN, s)
      else (kvOK, (s.setSeq part q { d with len := d.len + f.fill, pages := d.pages ++ [h] }).addRef part h)
def kvlinkBody (w : Fields) : M Unit := do
  unsupportedInTx
  regsClean [(2, w.a, false), (3, w.b, false)]
  let a ← kvOperand 2 w.a w.ext
  let b ← kvOperand 3 w.b w.ext
  poolOp w (kvlink (a % 65536) (b % 2 ^ 24))
def execKvlink (w : Fields) (s : State) : Out := runInstr (.kvlink w) w (seqBody (kvlinkBody w)) s

def pinFrame (h part : Nat) (s : State) : Nat × State :=
  match s.kvFrameOf part h with
  | none => (kvNOSEQ, s)
  | some f =>
    if 65535 ≤ f.pin then (kvCOUNT, s)
    else
      let m := s.msOf 164
      let s := s.modFrame part h fun f => { f with pin := f.pin + 1, age := m }
      -- an allocation that waits may now find no frame to evict (R121)
      (kvOK, (if f.st = frEVICTED then s.migrate part h else s).wakePool part)
def pinBody (w : Fields) : M Unit := do
  unsupportedInTx
  let a ← kvOperand 2 w.a w.ext
  poolOp w (pinFrame (a % 2 ^ 24))
def execPin (w : Fields) (s : State) : Out := runInstr (.pin w) w (seqBody (pinBody w)) s

def unpinFrame (h part : Nat) (s : State) : Nat × State :=
  match s.kvFrameOf part h with
  | none => (kvNOSEQ, s)
  | some f =>
    if f.pin = 0 then (kvCOUNT, s)
    else (kvOK, (s.modFrame part h fun f => { f with pin := f.pin - 1 }).freeIfUnused part h)
def unpinBody (w : Fields) : M Unit := do
  unsupportedInTx
  let a ← kvOperand 2 w.a w.ext
  poolOp w (unpinFrame (a % 2 ^ 24))
def execUnpin (w : Fields) (s : State) : Out := runInstr (.unpin w) w (seqBody (unpinBody w)) s

/-! ### The prefix table -/

/-- PHASH (R125). -/
def phash (x : Nat) (ids : List Word) : Nat :=
  ids.foldl (fun x t => (x * 65539 + t.toNat + 1) % 2147483647) x
/-- AGE of a prefix entry: bits 39:24 of a milestone (R124). -/
def pfxAge (m : Nat) : Nat := m / 2 ^ 24 % 65536

def pfxhashBody (w : Fields) : M Unit := do
  unsupportedInTx
  regsClean [(2, w.a, false), (3, w.b, true)]
  let x ← kvOperand 2 w.a w.ext
  -- poisoned token IDs only poison the result (R414)
  let (ids, p) ← readTokens 3 w.b
  writeG w.d (phash x ids) p
def execPfxhash (w : Fields) (s : State) : Out := runInstr (.pfxhash w) w (seqBody (pfxhashBody w)) s

/-- PFXFIND: the handle, or zero (R127, R261). -/
def pfxfind (hash depth : Nat) (ids : List Word) (part : Nat) (s : State) : Nat × State :=
  let k := s.pool part
  let hit := List.find? (fun (e : Nat × Pfx) => e.2.hash == hash && e.2.depth == depth) k.pfx
  if 2 ^ 31 ≤ hash ∨ depth = 0 then (0, s)
  else match hit with
  | none => (0, s)
  | some (i, e) =>
    match k.frames.find? e.handle with
    | none => (0, s)
    | some f =>
      if f.tokens ≠ ids then (0, s)
      else
        let m := pfxAge (s.msOf 164)
        (e.handle, s.modPool part fun k => { k with pfx := Tbl.adjust k.pfx i fun e => { e with age := m } })
def pfxfindBody (w : Fields) : M Unit := do
  unsupportedInTx
  regsClean [(2, w.a, false), (3, w.b, false), (4, w.c, true)]
  let hash ← kvOperand 2 w.a w.ext
  let depth ← kvOperand 3 w.b w.ext
  let (ids, p) ← readTokens 4 w.c
  if p then trap cPOISON 4
  poolOp w (pfxfind hash (depth % 65536) ids)
def execPfxfind (w : Fields) (s : State) : Out := runInstr (.pfxfind w) w (seqBody (pfxfindBody w)) s

/-- The entry that an insertion takes, and the handle it displaces (R126). -/
def KvPool.slotFor (k : KvPool) (hash depth : Nat) : Nat × Option Nat :=
  match List.find? (fun (e : Nat × Pfx) => e.2.hash == hash && e.2.depth == depth) k.pfx with
  | some (i, e) => (i, some e.handle)
  | none =>
    match (List.range 64).find? fun i => (k.pfx.find? i).isNone with
    | some i => (i, none)
    | none =>
      match k.pfx with
      | [] => (0, none)
      | e :: es =>
        let v := es.foldl (fun b e => if e.2.age < b.2.age then e else b) e
        (v.1, some v.2.handle)

def pfxins (hash depth h part : Nat) (s : State) : Nat × State :=
  match s.kvFrameOf part h with
  | none => (kvNOSEQ, s)
  | some f =>
    let (i, old) := (s.pool part).slotFor hash depth
    if f.psn then (kvNOSEQ, s)
    else if 65535 ≤ f.ref ∧ old ≠ some h then (kvCOUNT, s)
    else if f.fill ≠ 16 then (kvALIGN, s)
    else if 2 ^ 31 - 1 ≤ hash ∨ depth = 0 then (kvRANGE, s)
    else
      let e : Pfx := { hash, depth, age := pfxAge (s.msOf 164), handle := h }
      let s := (s.addRef part h).modPool part fun k => { k with pfx := Tbl.ins k.pfx i e }
      (kvOK, match old with
        | some o => s.dropRef part o
        | none => s)
def pfxinsBody (w : Fields) : M Unit := do
  unsupportedInTx
  regsClean [(2, w.a, false), (3, w.b, false), (4, w.c, false)]
  let hash ← kvOperand 2 w.a w.ext
  let depth ← kvOperand 3 w.b w.ext
  let h ← kvOperand 4 w.c w.ext
  poolOp w (pfxins hash (depth % 65536) (h % 2 ^ 24))
def execPfxins (w : Fields) (s : State) : Out := runInstr (.pfxins w) w (seqBody (pfxinsBody w)) s

/-! ### POOLCTL (R333) -/

/-- Lowest level of a form: any, handler or kernel, or kernel of the service die only (R446). -/
def poolLevel (kernel : Bool) : M Unit := do
  let s ← get
  if s.me.level = 0 ∨ (kernel ∧ !isService s.cur) then trap cPRIVILEGE 0
  unsupportedInTx

/-- The data of one frame copied to another: the filled slots of both selectors and all heads (R118). -/
def State.copySlots (s : State) (part src dst : Nat) (fill : Nat) : State :=
  match s.kvFrameOf part src, s.kvFrameOf part dst with
  | some f, some g =>
    match s.kvBase part f, s.kvBase part g with
    | some a, some b =>
      let offs := (List.range fill).flatMap fun slot => (List.range 32).map fun x => kvLine (x / 16) (x % 16) slot
      { s with mem := offs.foldl (fun m o => m.copyRange (a + o) (b + o) 128) s.mem }
    | _, _ => s
  | _, _ => s

def poolctlCowBody (w : Fields) : M Unit := do
  poolLevel false
  let a ← kvOperand 2 w.a w.ext
  upd State.poolMs
  let s ← get
  let part := s.me.part
  let q := a % 65536
  let d := s.kvSeq part q
  let status := poolStatus w
  let tail := d.pages.getLastD 0
  if !d.live then status kvNOSEQ
  else match s.kvFrameOf part tail with
  | none => status kvNOTSHARED
  | some f =>
    if f.ref ≤ 1 then status kvNOTSHARED
    else newFrame part s.me.cid status fun h => do
      upd fun s =>
        let s := ((s.handleDead 164 part s.me.cid tail).handleDead 164 part s.me.cid h).copySlots part tail h f.fill
        let s := s.modFrame part h fun g => { g with fill := f.fill, tokens := f.tokens, written := true }
        let s := s.setSeq part q { d with pages := d.pages.dropLast ++ [h] }
        s.dropRef part tail
      status kvOK
def execPoolctlCow (w : Fields) (s : State) : Out := runInstr (.poolctlCow w) w (seqBody (poolctlCowBody w)) s

/-- List space left to a descriptor, once its own list is released (R116). -/
def State.listRoom (s : State) (part q : Nat) : Nat :=
  let p := s.part part
  2 * (p.res + p.spill) + 65536 - ((p.pool.seqs.filter fun e => e.1 != q).map fun e => e.2.cap).foldl (· + ·) 0

/-- Set CAP of a free descriptor, reserving a new list, and make it live or leave it free. LIST carries no meaning
beyond the place of the list, which the manual does not give: a free value (R116). -/
def seqSet (live : Bool) (cid q cap part : Nat) (s : State) : Nat × State :=
  let d := s.kvSeq part q
  if d.live then (kvNOSEQ, s)
  else if cap = 0 ∨ 65536 < cap ∨ s.listRoom part q < cap then (kvCAPACITY, s)
  else
    let v : Seq := { cap, live, owner := if live then cid else d.owner, list := (Config.freeDword s.free).toNat }
    (kvOK, { s with free := s.free + 1 }.setSeq part q v)
def seqBodyOf (live : Bool) (w : Fields) : M Unit := do
  unsupportedInTx
  regsClean [(2, w.a, false), (3, w.b, false)]
  let a ← kvOperand 2 w.a w.ext
  let cap ← kvOperand 3 w.b w.ext
  let cid := (← get).me.cid
  poolOp w (seqSet live cid (a % 65536) cap)
def execPoolctlSeqnew (w : Fields) (s : State) : Out :=
  runInstr (.poolctlSeqnew w) w (seqBody (seqBodyOf true w)) s
def execPoolctlSeqcap (w : Fields) (s : State) : Out :=
  runInstr (.poolctlSeqcap w) w (seqBody (seqBodyOf false w)) s

/-- A little-endian number from fields, lowest first: (bytes, value). -/
def packBytes : List (Nat × Nat) → Nat
  | [] => 0
  | (n, v) :: r => v % 256 ^ n + 256 ^ n * packBytes r

/-- The 128-byte frame descriptor (R115); zero for a free handle. -/
def frameDesc (f : Option Frame) : Nat :=
  match f with
  | none => 0
  | some f =>
    let w0 := f.ref * 2 ^ 48 + f.pin * 2 ^ 32 + f.owner * 2 ^ 16 + f.fill * 2 ^ 11 + (if f.psn then 16 else 0) + f.st
    packBytes ([(8, w0), (8, (if f.spilled then 2 ^ 63 else 0) + f.frame), (8, f.age), (40, 0)] ++
      f.tokens.map fun t => (4, t.toNat))
/-- The sequence descriptor and its list entries (R116, R333). -/
def seqDesc (d : Seq) : Nat :=
  packBytes ([(4, d.len), (4, d.pages.length), (4, d.cap), (2, if d.live then 1 else 0), (2, d.owner), (8, d.list), (8, 0)] ++
    d.pages.map fun h => (4, h))
/-- The 64 prefix entries, 16 bytes each (R124). -/
def pfxDesc (k : KvPool) : Nat :=
  packBytes ((List.range 64).flatMap fun i => match k.pfx.find? i with
    | some e => [(8, e.handle), (2, e.age), (2, e.depth), (4, e.hash)]
    | none => [(16, 0)])

/-- A read form: the bytes go to the pair B as one access that is held, never deferred (R333). -/
def poolRead (w : Fields) (f : Nat → Nat → State → Nat × Nat) : M Unit := do
  poolLevel true
  regsClean [(2, w.a, false), (3, w.b, true)]
  let a ← kvOperand 2 w.a w.ext
  let va ← consume 3 (← readPair w.b)
  let s ← get
  let (n, val) := f s.me.part a s
  let ps ← storePlaces 3 va n false true
  storeAll ps (splitBytes (n + 1) va n val)
  poolOp w fun _ s => (kvOK, s)
def poolctlRdframeBody (w : Fields) : M Unit :=
  poolRead w fun part a s => (128, frameDesc (s.kvFrameOf part (a % 2 ^ 24)))
def execPoolctlRdframe (w : Fields) (s : State) : Out :=
  runInstr (.poolctlRdframe w) w (seqBody (poolctlRdframeBody w)) s
def poolctlRdseqBody (w : Fields) : M Unit :=
  poolRead w fun part a s =>
    let d := s.kvSeq part (a % 65536)
    (32 + 4 * d.pages.length, seqDesc d)
def execPoolctlRdseq (w : Fields) (s : State) : Out :=
  runInstr (.poolctlRdseq w) w (seqBody (poolctlRdseqBody w)) s
def poolctlRdpfxBody (w : Fields) : M Unit := poolRead w fun part _ s => (1024, pfxDesc (s.pool part))
def execPoolctlRdpfx (w : Fields) (s : State) : Out :=
  runInstr (.poolctlRdpfx w) w (seqBody (poolctlRdpfxBody w)) s

end Sys2Proof.Machine
end

