-- ==== Sys2Proof/Machine/Control.lean ====
section
/-!
DEFINITION. Traps on request, branches, waits on counters, LAUNCH, barriers, the right of way, SLEEP and YIELD (R233 to
R235, R239 to R242, R244 to R246).
-/
namespace Sys2Proof.Machine

/-! ### TRAP, BKPT and transfers -/

def trapBody (code : Nat) (w : Fields) : M Flow := trap code 0 (w.ext.setWidth 64)
def execTrap (w : Fields) (s : State) : Out := runInstr (.trap w) w (trapBody cTRAP w) s
def execBkpt (w : Fields) (s : State) : Out := runInstr (.bkpt w) w (trapBody cBKPT w) s

/-- The form-B target (R205). -/
def targetB (pc : Dword) (ext : BitVec 32) : Dword :=
  let line := (pc.extractLsb' 6 54) + (ext.extractLsb' 3 29).signExtend 54
  (0 : BitVec 4) ++ line ++ (0 : BitVec 3) ++ ext.extractLsb' 0 3

/-- Check a transfer against the target line's mask (R194, R195); the line is read as a fetch. -/
def checkTarget (pc : Dword) : M Unit := do
  if !pcFormOk pc then trap cBRANCH 0 pc
  let s ← get
  let (r, s) := s.fetch s.cur (lineOf pc)
  set s
  match r with
  | .line secs =>
    if secs.any SectorLit.poison then dieContext 0x14 0
    if !btmOk (lineWord secs) (pc.toNat % 8) then trap cBRANCH 0 pc
  | .denied => trap cPAGE 0 (BitVec.ofNat 64 (lineOf pc))
  | .wait w =>
    -- an access that a fault would hold aborts a transaction (R268)
    match w with
    | .page _ => if ← inTx then txAbort txFAULT
    | _ => pure ()
    hold w

def braBody (w : Fields) : M Flow := do
  let t := targetB (← get).me.pc w.ext
  checkTarget t
  return .goto t
def execBra (w : Fields) (s : State) : Out := runInstr (.bra w) w (braBody w) s
/-- BRX and RET: the 64-bit pair in A (R235). -/
def brxBody (w : Fields) : M Flow := do
  let a ← consume 2 (← readPair w.a)
  let t := BitVec.ofNat 64 a
  checkTarget t
  return .goto t
def execBrx (w : Fields) (s : State) : Out := runInstr (.brx w) w (brxBody w) s
def execRet (w : Fields) (s : State) : Out := runInstr (.ret w) w (brxBody w) s
/-- CALL writes the link only if the target passes (R235). -/
def callBody (w : Fields) : M Flow := do
  let pc := (← get).me.pc
  let t := targetB pc w.ext
  checkTarget t
  writePair w.d (nextPc pc).toNat false
  return .goto t
def execCall (w : Fields) (s : State) : Out := runInstr (.call w) w (callBody w) s

/-! ### CNTWAIT (R239) and the shared wait of CHWAIT (R271) -/

/-- Flash and remote pages are refused (R239). -/
def refuseFar (opnd va : Nat) : M Unit := do
  let s ← get
  if regionOf va ≠ .carve then
    match (s.translate s.who va).1 with
    | .ok x => if 2 ≤ x.home then trap cPAGE opnd (BitVec.ofNat 64 va)
    | _ => pure ()

/-- Read the word at `va`; go on if it satisfies the bound, else wait for the first write that does. -/
def waitWord (va : Nat) (bound : Nat) (atLeast : Bool) : M Flow := do
  -- the write that ended the wait left the word poisoned
  if (← get).me.eaten then trap cPOISON 0 (BitVec.ofNat 64 va)
  aligned cMISALIGNED 2 va 8
  checkRange 2 va 8
  checkLocks 2 va 8 false
  refuseFar 2 va
  let ps := foundOf (← locate 2 va 8 .load false)
  let me := (← get).me
  raceCheck (tagOf va me.asid me.part) (sectorsOf va 8) false (leaseLines ps)
  let vs ← readSectors ps va 8
  if vs.any SectorLit.poison then trap cPOISON 0 (BitVec.ofNat 64 va)
  let v := bytesOf vs va 8
  let phys := match placeOf ps va with | some p => p.phys + va % 128 | none => 0
  let ok := fun (x : Nat) => if atLeast then decide (bound ≤ x) else decide (x ≤ bound)
  let s ← get
  let now := s.mem.readN phys 8
  -- a write later in the order than the copy read may already have ended the wait
  if !ok v then
    if s.mem.pois phys then
      set (s.leaseLoad s.src (leaseLines ps))
      trap cPOISON 0 (BitVec.ofNat 64 va)
    if ok now then set (s.leaseLoad s.src (leaseLines ps))
  if ok v || ok now then
    upd fun s => s.modPart s.me.part fun p => { p with interval := p.interval + 1 }
    return .seq
  upd fun s => { s with waiters := s.waiters ++ [{ tid := s.cur, phys, va, bound := BitVec.ofNat 64 bound, atLeast }] }
  hold .counter

def cntwaitBody (w : Fields) : M Flow := do
  unsupportedInTx
  let va ← addrM w
  let b ← consume 3 (← readPair w.b)
  waitWord va b false
def execCntwait (w : Fields) (s : State) : Out := runInstr (.cntwait w) w (cntwaitBody w) s

/-! ### LAUNCH (R240) -/

/-- Physical number of a partition's queue. -/
def State.physQueue (s : State) (part n : Nat) : Option Nat := (bitsOf (s.part part).queues)[n]?
/-- Address of the ring slot of a record index (R54). -/
def Queue.slotAddr (q : Queue) (i : Word) : Nat := q.base.toNat + 256 * (i.toNat % 2 ^ q.size)

/-- An access of a source to a queue's TAIL takes its milestone. -/
def State.leaveQueue (s : State) (src qn : Nat) : State := s.modQueue qn fun q => { q with tailMs := max q.tailMs (s.msOf src) }
/-- An access of a source to a queue's TAIL and HEAD: it follows their last advances (R240, R246). -/
def State.joinQueue (s : State) (src qn : Nat) : State :=
  (s.afterMs src (max (s.queue qn).tailMs (s.queue qn).headMs)).leaveQueue src qn

/-- LAUNCH: the read of the record, the write of the slot and the advance of TAIL are one access at one key, the lines read
being held at the key of the write. -/
def launchBody (w : Fields) : M Flow := do
  unsupportedInTx
  let va ← addrM w
  let b ← consume 3 (← readSrc32 3 w.b w.ext)
  aligned cMISALIGNED 2 va 256
  let (pr, src) ← loadWithin 2 va 256
  let s ← get
  match s.physQueue s.me.part b with
  | none => writeG w.d 2 false
  | some qn =>
    let q := s.queue qn
    if !q.en then writeG w.d 2 false
    else if 2 ^ q.size ≤ (q.tail - q.head).toNat then
      upd fun s => s.joinQueue s.src qn
      holdLines pr
      upd fun s => s.leaveQueue s.src qn
      writeG w.d 1 false
    else
      let slot := q.slotAddr q.tail
      let who : Who := { s.who with asid := s.me.part * 2048 + q.space }
      let ps ← storeChecks who 0 slot 256 false true
      storeClaim who slot 256 true ps
      let ps := foundOf ps
      let ws : List SecWrite := (List.range 8).zip src |>.map fun e =>
        { va := slot + 32 * e.1, n := 32, val := e.2.data.toNat, side := some e.2.side, poison := some e.2.poison }
      upd fun s => ((s.joinQueue s.src qn).performWrites s.src ps ws).modQueue qn fun q => { q with tail := q.tail + 1 }
      holdLines pr
      upd fun s => s.leaveQueue s.src qn
      writeG w.d 0 false
  return .seq
def execLaunch (w : Fields) (s : State) : Out := runInstr (.launch w) w (launchBody w) s

/-! ### Named barriers (R241) -/

/-- Threads of a unit that have not exited. -/
def State.unitLive (s : State) (u : UnitRec) : Nat := (u.groups.map fun g => (s.liveTids g.2).length).foldl (· + ·) 0

/-- Complete a barrier whose count has reached its target: the generation advances and its waiters go on (R241). -/
def State.completeBar (s : State) (uid n : Nat) : State :=
  match s.units.find? uid with
  | none => s
  | some u =>
    let b := u.bars.get {} n
    if b.count = 0 ∨ b.count < b.target then s
    else
      let s := s.modUnit uid fun u => { u with
        bars := Tbl.ins u.bars n { gen := b.gen + 1 }, interval := u.interval + 1 }
      { s with threads := s.threads.map fun e =>
          if !isService e.1 && e.2.unit == uid && e.2.wait == .barrier n then (e.1, e.2.wakeNext s.now) else e }

/-- Count an arrival; the first of a generation sets the target, for an A of zero to the threads live then (R241). -/
def State.arrive (s : State) (uid n a : Nat) : State :=
  s.modUnit uid fun u =>
    let b := u.bars.get {} n
    let b := if b.count = 0 then { b with target := if a = 0 then s.unitLive u else a, live := decide (a = 0) } else b
    { u with bars := Tbl.ins u.bars n { b with count := b.count + 1 } }
/-- An EXIT counts the live threads of a barrier's target afresh, and may so complete it (R241). -/
def State.recountBar (s : State) (uid n : Nat) : State :=
  match s.units.find? uid with
  | none => s
  | some u =>
    if (u.bars.get {} n).live then
      (s.modUnit uid fun u => { u with bars := Tbl.ins u.bars n { u.bars.get {} n with target := s.unitLive u } }).completeBar uid n
    else s

def barBody (w : Fields) : M Flow := do
  unsupportedInTx
  let a ← consume 2 (← readSrc32 2 w.a 0)
  let s ← get
  let n := w.ext.toNat % 64
  match s.myUnit with
  | none => illegal
  | some u =>
    if u.res.bars ≤ n ∨ 1024 < a then illegal
    let sync := !w.sub.getLsbD 0
    -- the thread waits, and the completion it may bring about releases it with the others
    if sync then upd fun s => s.modMe fun th => { th with wait := .barrier n }
    upd fun s => (s.arrive s.me.unit n a).completeBar s.me.unit n
    if sync then throw .keep
    return .seq
def execBar (w : Fields) (s : State) : Out := runInstr (.bar w) w (barBody w) s

/-! ### The right-of-way token (R44 to R46) -/

def Pair.has (p : Pair) (core quad unit g : Nat) : Bool :=
  p.core == core && p.quad == quad && p.unit == unit && (p.a == g || p.b == g)
def Pair.other (p : Pair) (g : Nat) : Nat := if p.a = g then p.b else p.a

/-- Pair of a group of the current thread's unit and quadrant. -/
def State.pairOf (s : State) (g : Nat) : Option Pair :=
  s.pairs.find? fun p => p.has (tidCore s.cur) (tidQuad s.cur) s.me.unit g

/-- Clear the passed bits of a group, and let its threads that wait for the token issue again. -/
def State.giveToken (s : State) (uid g : Nat) : State :=
  match s.units.find? uid with
  | none => s
  | some u => match u.group g with
    | none => s
    | some gr => gr.tids.foldl (fun s t => s.modThr t fun th =>
        let th := { th with passed := false }
        if th.wait = .token then th.wake s.now else th) s

/-- The token moves to the partner when every live thread of the holder has passed (R45). -/
def State.moveToken (s : State) (uid g : Nat) : State :=
  match s.units.find? uid with
  | none => s
  | some u =>
    match u.group g with
    | none => s
    | some gr =>
      match s.pairs.find? fun p => p.has u.core gr.quad uid g with
      | none => s
      | some p =>
        let live := s.liveTids gr
        if p.holder = g && !live.isEmpty && live.all fun t => (s.thr t).passed then
          let s := { s with pairs := s.pairs.map fun q => if q = p then { q with holder := p.other g } else q }
          s.giveToken uid (p.other g)
        else s

/-- The pair that a ROWPASS or ROWWAIT naming group n acts on, forming it if need be; `none` when the instruction
completes at once (R44). -/
def partner (n : Nat) : M (Option Pair) := do
  let s ← get
  let me := s.me
  let bad : M (Option Pair) := trap cPARTNER 0 (BitVec.ofNat 64 n)
  if 31 < n ∨ n = me.group then bad
  else match s.pairOf me.group with
  | some p => if p.other me.group = n then return some p else bad
  | none =>
    match s.myUnit with
    | none => return none
    | some u =>
      match u.group n with
      | none => return none
      | some g =>
        let here := s.pairs.filter fun p => p.core == tidCore s.cur && p.quad == tidQuad s.cur
        if g.quad ≠ tidQuad s.cur ∨ (s.pairOf n).isSome ∨ 4 ≤ here.length then bad
        else
          let h := min n me.group
          let p : Pair := { core := u.core, quad := g.quad, unit := me.unit, a := me.group, b := n, holder := h }
          upd fun s => ({ s with pairs := s.pairs ++ [p] }).giveToken me.unit h
          return some p

def rowBody (pass : Bool) (w : Fields) : M Flow := do
  unsupportedInTx
  let n ← consume 2 (← readSrc32 2 w.a w.ext)
  match ← partner n with
  | none => return .seq
  | some p =>
    let s ← get
    if p.holder ≠ s.me.group ∨ s.me.passed then hold .token
    if pass then
      upd fun s => (s.modMe fun th => { th with passed := true }).moveToken s.me.unit s.me.group
    return .seq
def execRowpass (w : Fields) (s : State) : Out := runInstr (.rowpass w) w (rowBody true w) s
def execRowwait (w : Fields) (s : State) : Out := runInstr (.rowwait w) w (rowBody false w) s

/-! ### SLEEP and YIELD (R245) -/

/-- The clock that a thread counts: compute periods, or service-die periods (R200). -/
def State.clockOf (s : State) (t : Tid) : Nat := if isService t then s.rt / Config.svcPeriodFs else s.now

def sleepBody (w : Fields) : M Flow := do
  let n ← consume 2 (← readSrc32 2 w.a w.ext)
  if n = 0 then return .seq
  let s ← get
  hold (.sleep (s.clockOf s.cur + n))
def execSleep (w : Fields) (s : State) : Out := runInstr (.sleep w) w (sleepBody w) s
/-- YIELD: the thread is ready again from the next cycle, with that cycle as its entry cycle. -/
def execYield (w : Fields) (s : State) : Out := runInstr (.yield w) w (pure .seq) s
/-- A thread's sleep counts: its unit is not being stopped, and a service thread's package runs (R52, R245). -/
def State.counts (s : State) (t : Tid) : Bool :=
  if isService t then s.boot.power == .running
  else match s.units.find? (s.thr t).unit with
  | some u => u.stopping.isNone
  | none => false
/-- SLEEP_EXPIRY: a sleeping thread whose count has run out goes on. -/
def sleepExpiry (t : Tid) (s : State) : State :=
  if !s.counts t then s
  else match (s.thr t).wait with
  | .sleep till => if till ≤ s.clockOf t then s.modThr t fun th => th.wakeNext s.now else s
  | _ => s
def execSleepExpiry (tid : Nat) (s : State) : Out := event (sleepExpiry tid) s

end Sys2Proof.Machine
end

