-- ==== Sys2Proof/Machine/Place.lean ====
section
/-!
DEFINITION. The resources of a core and the placement of groups and units (R26, R37, R38, R68, R81, R186).
-/
namespace Sys2Proof.Machine

/-- The slot holds no thread. A thread that has exited keeps its slot until its group completes (R33). -/
def State.slotFree (s : State) (core quad lane slot : Nat) : Bool :=
  (s.thr (mkTid core quad lane slot)).wait == .free
/-- Threads on a lane of a quadrant. -/
def State.laneThreads (s : State) (core quad lane : Nat) : List Thread :=
  (List.range 8).filterMap fun k =>
    let th := s.thr (mkTid core quad lane k)
    if th.wait = .free then none else some th
/-- A lane has g and v registers free for one more thread: 512 and 128 in all (R68). -/
def State.laneRoom (s : State) (core quad lane gregs vregs : Nat) : Bool :=
  let ts := s.laneThreads core quad lane
  decide (ts.foldl (fun n t => n + t.nG) gregs ≤ 512) && decide (ts.foldl (fun n t => n + t.nV) vregs ≤ 128)
/-- Units on a core. -/
def State.unitsOn (s : State) (core : Nat) : List (Nat × UnitRec) := s.units.filter fun e => e.2.core == core
/-- Accumulator tiles of a quadrant held by its groups. -/
def State.accUsed (s : State) (core quad : Nat) : List Nat :=
  (s.unitsOn core).flatMap fun u => (u.2.groups.filter fun g => g.2.quad == quad).flatMap fun g => g.2.acc
/-- Free accumulator tiles of a quadrant, ascending. -/
def State.accFree (s : State) (core quad : Nat) : List Nat :=
  let used := s.accUsed core quad
  (List.range 8).filter fun n => !used.contains n
/-- Core group numbers in use on a core. -/
def State.cgnsUsed (s : State) (core : Nat) : List Nat :=
  (s.unitsOn core).flatMap fun u => u.2.groups.map fun g => g.2.cgn
/-- The lowest core group number not in use (R26). -/
def State.freeCgn (s : State) (core : Nat) : Nat :=
  let used := s.cgnsUsed core
  ((List.range 1024).find? fun n => !used.contains n).getD 0
/-- Lowest-addressed contiguous run of free 4 KiB units of a core's tile store (R68). -/
def State.tileRun (s : State) (core n : Nat) : Option Nat :=
  if n = 0 then some 0
  else
    let busy := (s.unitsOn core).map (fun u => (u.2.tileBase, u.2.tileBase + u.2.res.tile4k)) ++
      (s.regions.filter fun r => r.1 == core).map fun r => (r.2.1, r.2.1 + r.2.2.1)
    let ends := 0 :: busy.map Prod.snd
    let ok := ends.filter fun b => decide (b + n ≤ 2048) && busy.all fun r => decide (b + n ≤ r.1) || decide (r.2 ≤ b)
    ok.foldl (fun best b => match best with | none => some b | some x => some (min x b)) none
/-- Barriers in use on a core. -/
def State.barsUsed (s : State) (core : Nat) : Nat :=
  (((s.unitsOn core).filter fun u => !u.2.groups.isEmpty).map fun u => u.2.res.bars).foldl (· + ·) 0

/-! ### Unit queues (R70) -/

/-- Insert an entry in a unit queue: higher priority first, then the order of dealing. -/
def insertEntry (q : List QEntry) (e : QEntry) : List QEntry :=
  let before (x : QEntry) : Bool := decide (e.prio < x.prio) || (x.prio == e.prio && decide (x.order < e.order))
  q.filter before ++ e :: q.filter fun x => !before x
/-- Entries of a core's unit queue, 256 at most. -/
def State.queueRoom (s : State) (core : Nat) : Nat := 256 - (s.coreRec core).queue.length

/-- The random word of a new thread (R186). -/
def seedOf (linear group lane : Nat) : BitVec 16 := BitVec.ofNat 16 ((linear * 1024 + group * 32 + lane) % 65535 + 1)

/-- A slot number free on every lane 0 to n-1 of a quadrant, the lowest (R68). -/
def State.commonSlot (s : State) (core quad n : Nat) : Option Nat :=
  (List.range 8).find? fun k => (List.range n).all fun lane => s.slotFree core quad lane k

/-- The quadrant and slot that a group of a placed unit takes (R68). -/
def State.quadFor (s : State) (core : Nat) (r : Res) : Option (Nat × Nat) :=
  (List.range 4).findSome? fun q =>
    if (List.range r.threads).all (fun lane => s.laneRoom core q lane r.gregs r.vregs) &&
        decide (r.acc ≤ (s.accFree core q).length) then
      (s.commonSlot core q r.threads).map fun k => (q, k)
    else none

/-- Add a group to a unit, its threads in the slots given, one per lane. -/
def State.addGroup (s : State) (uid gnum quad : Nat) (slots : List Nat) (accN : Nat) (init : Nat → Thread) : State :=
  match s.units.find? uid with
  | none => s
  | some u =>
    let acc := (s.accFree u.core quad).take accN
    let tids := (List.range slots.length).zip slots |>.map fun e => mkTid u.core quad e.1 e.2
    let g : Group := { cgn := s.freeCgn u.core, quad, n := slots.length, tids, acc }
    let s := s.modUnit uid fun u => { u with groups := Tbl.ins u.groups gnum g }
    let s := tids.foldl (fun s t =>
      { s with threads := Tbl.ins s.threads t { init (tidLane t) with
          wait := .ready, entry := s.now, part := u.part, cid := u.cid, asid := u.asid, unit := uid, group := gnum,
          nG := u.res.gregs, nV := u.res.vregs, rnd := seedOf u.linear gnum (tidLane t) } }) s
    { s with accs := acc.foldl (fun t n => Tbl.del t ((u.core * 4 + quad) * 8 + n)) s.accs }

/-- Place the groups of a unit in ascending number; `none` when one finds no quadrant (R68). -/
def State.addGroups (s : State) (uid : Nat) (r : Res) (core : Nat) (init : Nat → Thread) : List Nat → Option State
  | [] => some s
  | g :: rest =>
    match s.quadFor core r with
    | none => none
    | some (q, k) => (s.addGroup uid g q (List.replicate r.threads k) r.acc init).addGroups uid r core init rest

/-- Place a unit whole on a core, or not at all (R68, R81). -/
def State.placeUnit (s : State) (core : Nat) (u : UnitRec) (entry : Dword) (param : Dword) : Option State :=
  match s.tileRun core u.res.tile4k with
  | none => none
  | some base =>
    if 64 < s.barsUsed core + u.res.bars then none
    else
      let uid := s.nextUnit
      let lo := tileAddr core (base * 4096)
      let s' := { s with
        units := Tbl.ins s.units uid { u with core, tileBase := base, barBase := 0, groups := [], tiles := [], bars := [] }
        nextUnit := uid + 1
        mem := s.mem.zeroRange lo (lo + u.res.tile4k * 4096) }
      let init : Nat → Thread := fun _ =>
        { pc := entry
          g := Tbl.put {} (Tbl.put {} [] 1 { val := param.extractLsb' 32 32 }) 0 { val := param.extractLsb' 0 32 } }
      s'.addGroups uid u.res core init (List.range u.res.groups)

/-- The slots that a spawned group of n threads takes in a quadrant: the lowest free slot of each lane (R37). -/
def State.spawnSlots (s : State) (core quad n gregs vregs : Nat) : Option (List Nat) :=
  (List.range n).mapM fun lane =>
    if s.laneRoom core quad lane gregs vregs then
      (List.range 8).find? fun k => s.slotFree core quad lane k
    else none

end Sys2Proof.Machine
end

