-- ==== Sys2Proof/Machine/Levels.lean ====
section
/-!
DEFINITION. SPAWN (R37 to R39, R237) and CANCEL (R30, R31, R238).
-/
namespace Sys2Proof.Machine

/-- Serve one request of SPAWN: its own quadrant first, then the lowest that qualifies (R37). -/
def State.spawn (s : State) (gs n : Nat) (pc : Dword) : Option State :=
  match s.myUnit with
  | none => none
  | some u =>
    let core := tidCore s.cur
    let q0 := tidQuad s.cur
    let try' (q : Nat) : Option (Nat × List Nat) :=
      (s.spawnSlots core q n u.res.gregs u.res.vregs).map fun k => (q, k)
    match (List.range 32).find? fun g => (u.group g).isNone with
    | none => none
    | some gnum =>
      match (q0 :: List.range 4).findSome? try' with
      | none => none
      | some (q, slots) =>
        let regs := (List.range 8).map fun i => s.gReg (gs + i)
        let init : Nat → Thread := fun lane =>
          { pc
            g := Tbl.put {} ((List.range 8).zip regs |>.foldl (fun t e => Tbl.put {} t e.1 e.2) []) 8
                  { val := BitVec.ofNat 32 lane } }
        -- a spawned group holds no accumulator tile (R294)
        some (s.addGroup s.me.unit gnum q slots 0 init)

def spawnBody (w : Fields) : M Flow := do
  unsupportedInTx
  let pc := targetB (← get).me.pc w.ext
  checkTarget pc
  let s ← get
  match s.spawn w.a.gNum (w.sub.toNat + 1) pc with
  | some s' => set s'; writeP w.d true
  | none => writeP w.d false
  return .seq
def execSpawn (w : Fields) (s : State) : Out := runInstr (.spawn w) w (spawnBody w) s

/-! ### CANCEL -/

/-- Identifier a record gives a level: 2 graph, 3 phase, 4 job. -/
def LaunchRec.ident (r : LaunchRec) (lvl : Nat) : Nat :=
  match lvl with
  | 2 => r.graph
  | 3 => r.phase
  | _ => r.job

/-- Write zero to a counter word that a record names: no completion that is still to be counted in it is counted
(R31). -/
def State.clearCounter (s : State) (part asid cid : Nat) (va : Dword) : State :=
  if va == 0 then s
  else
    let counts (d : Due) : Bool := d.part == part && d.asid == asid && d.va == va && d.val.isNone
    { s with due := s.due.filter fun d => !counts d }.schedStore part asid cid va 0

/-- A launch of a partition that belongs to an instance of a level. -/
def Launch.isIn (l : Launch) (part lvl id : Nat) : Bool := l.part == part && l.r.ident lvl == id

/-- Cancel a member launch of an instance, uncounted, with the counters below the instance's own level (R31). One that has
completed, and still owes its completion accesses, performs them uncounted. -/
def State.cancelMember (s : State) (part lvl serial cid : Nat) (l : Launch) : State :=
  let s := if l.complete then s.modLaunch cid fun x => { x with uncounted := true } else s.cancelLaunch cid false
  -- an instance of the same level that was cancelled before still ends with its own members
  let keeps : Bool := match l.closing with
    | some (old, _) => decide (lvl ≤ old)
    | none => false
  let s := if keeps then s else s.modLaunch cid fun x => { x with closing := some (lvl, serial) }
  (List.range (lvl - 2)).foldl (fun s k => s.clearCounter part l.asid cid (l.r.counter (k + 1))) s

/-- Phase instances that end with an instance of a level: the phase itself, or those of a job (R31, R72). -/
def phasesOf (lvl id : Nat) (members : List (Nat × Launch)) : List Nat :=
  if lvl = 3 then [id] else if lvl = 4 then ((members.map fun e => e.2.r.phase).filter (· != 0)).eraseDups else []

/-- Cancel a graph, phase or job instance: each member is cancelled uncounted, and the counters of the instance and of the
levels within it are written to zero; the enclosing level counts one when the members have performed their completion
accesses (R30, R31). Answers whether one was live. -/
def State.cancelInstance (s : State) (part lvl id : Nat) : Bool × State :=
  let members := s.launches.filter fun e => e.2.isIn part lvl id
  match members.filter fun e => !e.2.complete with
  | [] => (false, s)
  | (cid, l) :: _ =>
    let serial := s.launches.foldl (fun n (e : Nat × Launch) => max n ((e.2.closing.map (·.2)).getD 0)) 0 + 1
    let s := members.foldl (fun s e => s.cancelMember part lvl serial e.1 e.2) s
    let s := s.clearCounter part l.asid cid (l.r.counter (lvl - 1))
    (true, (phasesOf lvl id members).foldl (fun s ph => s.phaseBoundary part ph false) s)

/-- The reduce unit of a launch exists: its collective has not failed and can complete, and its arrival is not counted in
its place (R61, R345, R474). -/
def Launch.hasReduce (l : Launch) : Bool := l.r.coll && l.r.reducePc != 0 && !l.collfail && !l.r.mismatch

/-- Count a cancelled unit that was not placed. A unit of the grid leaves its chunk without a contribution, so that the
collective fails (R345, R474); the reduce unit has none. -/
def State.countAbsent (s : State) (cid linear : Nat) (l : Launch) : State :=
  let s := s.countUnit cid
  if linear < l.r.gridUnits then s.collFail cid else s

/-- Cancel the unit of a launch with a linear index, wherever it stands (R30, R76). Answers whether it was live. -/
def State.cancelLinear (s : State) (part cid linear : Nat) : Bool × State :=
  match s.launches.find? cid with
  | none => (false, s)
  | some l =>
    let here (x : UnitRec) : Bool := x.cid == cid && x.linear == linear
    if l.part ≠ part ∨ l.complete ∨ l.r.total ≤ linear ∨ (linear = l.r.gridUnits ∧ !l.hasReduce) then (false, s)
    else match List.find? (fun (e : Nat × UnitRec) => here e.2 && !e.2.groups.isEmpty) s.units with
    | some (u, _) => (true, s.cancelUnit u)
    | none =>
      match s.saved.find? fun x => here x.unit with
      | some x => (true, ({ s with saved := s.saved.filter fun x => !here x.unit }.atLeastMs 163 x.ms).countAbsent cid linear l)
      | none =>
        if s.cores.any fun c => c.2.queue.any fun q => q.cid == cid && q.linear == linear then
          let drop (c : CoreRec) : CoreRec := { c with queue := c.queue.filter fun q => !(q.cid == cid && q.linear == linear) }
          (true, { s with cores := s.cores.mapVals drop }.countAbsent cid linear l)
        else if l.dealt ≤ linear && !l.skip.contains linear then
          (true, (s.modLaunch cid fun l => { l with skip := l.skip ++ [linear] }).countAbsent cid linear l)
        else (false, s)

def cancelBody (w : Fields) : M Flow := do
  let s ← get
  let th := s.me
  let lvl := w.sub.toNat
  if isService s.cur then
    if th.level = 0 then trap cPRIVILEGE 0
    unsupportedInTx
    let v ← consume 2 (← readPair w.a)
    let (ok, s) :=
      match lvl with
      | 0 => s.cancelLinear th.part (v % 65536) (v / 65536)
      | 1 =>
        match s.launches.find? (v % 65536) with
        | some l => if 65536 ≤ v ∨ l.part ≠ th.part ∨ l.complete then (false, s) else (true, s.cancelLaunch v)
        | none => (false, s)
      | _ => if 2 ^ 32 ≤ v ∨ v = 0 then (false, s) else s.cancelInstance th.part lvl v
    set s
    writeG w.d (if ok then 0 else 1) false
    return .seq
  else
    unsupportedInTx
    match s.launches.find? th.cid with
    | none => return .seq
    | some l =>
      match lvl with
      | 0 => upd fun s => s.cancelUnit th.unit; return .done
      | 1 => upd fun s => s.cancelLaunch th.cid; return .done
      | _ =>
        if l.r.ident lvl = 0 then return .seq
        let (_, s) := s.cancelInstance th.part lvl (l.r.ident lvl)
        set s
        return .done
def execCancel (w : Fields) (s : State) : Out := runInstr (.cancel w) w (cancelBody w) s

end Sys2Proof.Machine
end

