-- ==== Sys2Proof/Machine/Atomic.lean ====
section
/-!
DEFINITION. ATOM and MXAADD (R262 to R265, R442), with the arithmetic that a deferred one has at its application.
-/
namespace Sys2Proof.Machine

/-- The memory value that an ATOM writes, w bits (R262). -/
def atomNew (op : Nat) (ty : BitVec 4) (old b c : Nat) : Nat :=
  let w := typeWidth ty
  let o := old % 2 ^ w
  let x := b % 2 ^ w
  let mx (gt : Bool) : Nat :=
    let less := decide (srcOf ty o < srcOf ty x)
    if less == gt then x else o
  match op with
  | 0 => if ty = 8 then f32Add o x else (o + x) % 2 ^ w
  | 1 => mx false
  | 2 => mx true
  | 3 => o &&& x
  | 4 => o ||| x
  | 5 => o ^^^ x
  | 6 => x
  | _ => if o = x then c % 2 ^ w else o

/-- A core's part of a partition has performed an ATOM, an MXAADD or a commit: the core's interval advances (R147). -/
def State.bumpCore (s : State) (src part : Nat) : State :=
  if src < 32 then
    s.modCore src fun c => { c with intervals := Tbl.put 0 c.intervals part (c.intervals.get 0 part + 1) }
  else s

/-- Perform a read-modify-write of n bytes at a place, at the milestone of a source that has gone past the leases of its
lines: answers the old value and its sector's poison. -/
def State.rmwHere (s : State) (src : Nat) (ps : List (Nat × Place)) (va n : Nat) (f : Nat → Nat) (poison : Bool) :
    Nat × Bool × State :=
  match placeOf ps va with
  | none => (0, false, s)
  | some p =>
    let a := p.phys + va % 128
    let old := s.mem.readN a n
    let pz := s.mem.pois a
    (old, pz, s.performHere src ps [{ va, n, val := f old, poison := some (pz || poison) }])
/-- Perform a read-modify-write of n bytes at a place by a source, past the leases of its lines (R132). -/
def State.rmw (s : State) (src : Nat) (ps : List (Nat × Place)) (va n : Nat) (f : Nat → Nat) (poison : Bool) :
    Nat × Bool × State :=
  (s.pastLeases src (leaseLines ps)).rmwHere src ps va n f poison

/-! ### ATOM: the lanes of a bundle are combined before memory (R131, R263) -/

/-- The operands of an ATOM of the current thread: address, B and C, the address aligned to the width. -/
def atomOperands (w : Fields) : M (Nat × Val × Val) := do
  let va ← addrM w
  let b ← readSrc 3 w.b w.ty 0
  let c ← readSrc 4 w.c w.ty 0
  aligned cMISALIGNED 2 va (typeWidth w.ty / 8)
  return (va, b, c)
/-- The checks of an ATOM of the current thread at an address, and the places of its line. -/
def atomPlaces (w : Fields) (va : Nat) : M (List (Nat × Option Place)) := do
  storeChecks (← get).who 2 va (typeWidth w.ty / 8) (w.d == .none) false
/-- Plan the ATOM of another lane of the bundle: where it would be performed, its places are kept for it. A lane that traps or
is held has no effect yet. -/
def State.planLane (w : Fields) (s : State) (t : Tid) : State :=
  let me := { s with cur := t }
  if !staticPass (.atom w) me || !guardTrue w me.me || me.me.tx.isSome then s
  else match (do let (va, _, _) ← atomOperands w; atomPlaces w va : M _).run me with
  | .ok ps s' => { s' with cur := s.cur, threads := s.threads, combined := Tbl.ins s'.combined t ps }
  | .error _ _ => s
/-- The other lanes of the current thread's bundle that have yet to run. -/
def State.lanesLeft (s : State) : List Tid :=
  s.latch.filterMap fun it => if it.tid ≠ s.cur ∧ it.pc = s.me.pc then some it.tid else none
/-- The first lane of a combined ATOM: its own places are given; every other lane is planned, and the core goes past the
leases of all their lines, so that the lanes share one milestone and nothing comes between them. -/
def State.combineLanes (s : State) (w : Fields) (ps : List (Nat × Option Place)) : State :=
  let s := s.lanesLeft.foldl (State.planLane w) s
  s.pastLeases s.src (leaseLines (foundOf ps ++ s.combined.vals.flatMap foundOf))
/-- The places at which the current lane performs its ATOM: those planned for it, or its own as the first lane. -/
def atomClaim (w : Fields) (va : Nat) : M (List (Nat × Option Place)) := do
  let s ← get
  let ps ← match s.combined.find? s.cur with
    | some ps => do
      set { s with combined := Tbl.del s.combined s.cur }
      pure ps
    | none => do
      let ps ← atomPlaces w va
      upd fun s => s.combineLanes w ps
      pure ps
  storeClaim (← get).who va (typeWidth w.ty / 8) false ps
  return ps

def atomBody (w : Fields) : M Unit := do
  unsupportedInTx
  let op := w.sub.toNat % 16
  let (va, b, c) ← atomOperands w
  match foundOf (← atomClaim w va) with
  | [] =>
    retire [(va / 128 * 128, [], .atom op w.ty.toNat va (BitVec.ofNat 64 b.raw) (BitVec.ofNat 64 c.raw) (b.poison || c.poison))]
    upd fun s => s.bumpCore s.src s.me.part
  | here =>
    let s ← get
    let (old, pz, s) := s.rmwHere s.src here va (typeWidth w.ty / 8) (fun old => atomNew op w.ty old b.raw c.raw)
      (b.poison || c.poison)
    set (s.bumpCore s.src s.me.part)
    writeDst w.d w.ty (srcOf w.ty old) pz
def execAtom (w : Fields) (s : State) : Out := runInstr (.atom w) w (seqBody (atomBody w)) s

/-! ### MXAADD -/

/-- The memory format of a type code (R264). -/
def memElem (ty : Nat) : Elem :=
  match ty with
  | 0xB => .flt fE4M3
  | 0xC => .flt fE5M2
  | 0xD => .flt fE2M3
  | 0xE => .flt fE3M2
  | _ => .flt fE2M1

/-- The sector after MXAADD: the target block is added to the operand block exactly and quantised afresh; the other
block of an E2M1 sector is unchanged (R265). -/
def mxaddSector (ty rm : Nat) (block : Nat) (src : VReg) (hi : Bool) (words : List Nat) (old : SectorLit) (poison : Bool) :
    SectorLit :=
  let E := memElem ty
  let ks := kindOf src.tag
  let so := if hi then 32 else 0
  let xs := (List.range 32).map fun i =>
    (elemValue (.mx E) true old.data old.side (32 * block + i)).add false (elemValue ks true src.sec src.side (so + i))
  let (c, es) := mxQuant E rm words xs
  let new := packElems (.mx E) es
  if E.width = 4 then
    let keep : Sector := if block = 0 then old.data >>> 128 <<< 128 else old.data <<< 128 >>> 128
    let side := if block = 0 then old.side &&& 0xFF00 ||| BitVec.ofNat 16 c
                else old.side &&& 0x00FF ||| BitVec.ofNat 16 (c * 256)
    { data := keep ||| (if block = 0 then new else new <<< 128), side, poison := old.poison || poison }
  else { data := new, side := BitVec.ofNat 16 c, poison := old.poison || poison }

/-- Perform an MXAADD on the sector of va at its place. -/
def State.mxadd (s : State) (src : Nat) (ps : List (Nat × Place)) (va ty rm : Nat) (b : VReg) (hi : Bool)
    (words : List Nat) (poison : Bool) : State :=
  match placeOf ps va with
  | none => s
  | some p =>
    let a := va / 32 * 32
    let new := mxaddSector ty rm (va / 16 % 2 * (if ty = 0xF then 1 else 0)) b hi words (s.mem.sector (p.phys + a % 128)) poison
    s.performWrites src ps
      [{ va := a, n := 32, val := new.data.toNat, side := some new.side, poison := some new.poison }]

def mxaaddBody (w : Fields) : M Unit := do
  unsupportedInTx
  let s ← get
  let b := s.readV w.b tagE4M3
  if b.tag ≠ tagE4M3 ∧ b.tag ≠ tagE5M2 ∧ b.tag ≠ tagE2M1 then trap cTAG 3 (b.tag.setWidth 64)
  let va ← addrM w
  let hi := w.sub.getLsbD 0
  if hi ∧ b.tag ≠ tagE2M1 then illegal
  aligned cMXALIGN 2 va (if w.ty = 0xF then 16 else 32)
  let a := va / 32 * 32
  let ps ← storePlacesIf 2 a 32 true false (needSides 2 va)
  let here := foundOf ps
  let rm := w.rm.toNat
  match here with
  | [] =>
    -- the words are taken only when the entry is: a thread held for room takes them when it issues again
    let words := (rndTake (if rm = rmSR then 32 else 0) (← get).me.rnd).1
    retire [(va / 128 * 128, [], .mxadd w.ty.toNat rm va b hi words b.poison)]
    let _ ← srWords rm 32
    upd fun s => s.bumpCore s.src s.me.part
  | here =>
    let words ← srWords rm 32
    upd fun s => (s.mxadd s.src here va w.ty.toNat rm b hi words b.poison).bumpCore s.src s.me.part
def execMxaadd (w : Fields) (s : State) : Out := runInstr (.mxaadd w) w (seqBody (mxaaddBody w)) s

/-! ### The absolute-maximum fold (R189, R290, R312) -/

/-- The checks and the place of a fold into memory, which behaves as an ATOM without return (R189). -/
def foldPkgPlaces (opnd va : Nat) : M (List (Nat × Option Place)) := do
  aligned cMISALIGNED opnd va 4
  storeChecks (← get).who opnd va 4 true false
/-- The side-log entries that a fold needs. -/
def foldEntries (ps : List (Nat × Option Place)) (va v : Nat) (poison : Bool) : List (Nat × List SecWrite × LogOp) :=
  if (foundOf ps).isEmpty then [(va / 128 * 128, [], .fold va (BitVec.ofNat 32 v) poison)] else []
/-- The unsigned maximum itself, where its page is present. -/
def State.foldAt (s : State) (src : Nat) (ps : List (Nat × Place)) (va v : Nat) (poison : Bool) : State :=
  (s.rmw src ps va 4 (fun old => max old v) poison).2.2
/-- Fold a word into memory (R189). DEDUCED (log 117): performed as an ATOM, it advances the core's interval as one (R147). -/
def foldPkg (opnd va : Nat) (v : Nat) (poison : Bool) : M Unit := do
  let ps ← foldPkgPlaces opnd va
  storeClaim (← get).who va 4 false ps
  let es := foldEntries ps va v poison
  unless' es.isEmpty (retire es)
  upd fun s => (s.foldAt s.src (foundOf ps) va v poison).bumpCore s.src s.me.part

end Sys2Proof.Machine
end

