-- ==== Sys2Proof/Machine/Trans.lean ====
section
/-!
DEFINITION. Transactions: TBEGIN, TEND, TABORT, TSTAT, and the commit (R141 to R144, R266 to R268).
-/
namespace Sys2Proof.Machine

def tbeginBody (w : Fields) : M Flow := do
  if ← inTx then txAbort txNESTED
  let t := targetB (← get).me.pc w.ext
  checkTarget t
  let (q, s) := (← get).nextSeq (← get).src
  set (s.modMe fun th => { th with
    tstat := 0, tx := some { beginMs := s.msOf s.src, source := s.src, seq := q, abortPc := t } })
  return .seq
def execTbegin (w : Fields) (s : State) : Out := runInstr (.tbegin w) w (tbeginBody w) s

/-- TEND waits until the commit has committed or aborted (R266). -/
def tendBody : M Flow := do
  if !(← inTx) then return .seq
  hold .commit
def execTend (w : Fields) (s : State) : Out := runInstr (.tend w) w tendBody s

def tabortBody (w : Fields) : M Flow := do
  if ← inTx then txAbort txEXPLICIT (w.ext.toNat % 256)
  return .seq
def execTabort (w : Fields) (s : State) : Out := runInstr (.tabort w) w (tabortBody w) s

/-- The transaction status word (R267). -/
def Thread.txStatus (th : Thread) : Nat := th.tstat.toNat + (if th.tx.isSome then 2 ^ 31 else 0)
def tstatBody (w : Fields) : M Unit := do writeG w.d (← get).me.txStatus false
def execTstat (w : Fields) (s : State) : Out := runInstr (.tstat w) w (seqBody (tstatBody w)) s

/-! ### The commit (R143) -/

/-- A logged sector as the write that the commit performs. -/
def TxWrite.toWrite (x : TxWrite) (old : SectorLit) : SecWrite :=
  { va := x.va, n := 32, val := (mergeSector old.data x.data x.mask).toNat, side := x.side,
    poison := if x.side.isSome then some x.poison else if x.poison then some true else none }

/-- A read-set sector still holds the value recorded, side word by the page's mode, and no read of it returned
another. -/
def State.readHolds (s : State) (ps : List (Nat × Place)) (r : TxRead) : Bool :=
  match placeOf ps r.va with
  | some p => !r.torn && s.sectorAt p (r.va % 128 / 32) == r.val
  | none => false

/-- Check the read set and record the write set in the race detector, as the committing thread's (R148). -/
def commitRace (x : Tx) : M Unit := do
  let s ← get
  let tagged (va : Nat) : Nat := tagOf va s.me.asid s.me.part
  for r in x.reads.vals do raceCheck (tagged r.va) [r.va] false []
  for r in x.writes.vals do raceRecord (tagged r.va) [r.va]

/-- Validate and commit the current thread's transaction, or abort it. -/
def commitTx : M Unit := do
  let s ← get
  match s.me.tx with
  | none => return
  | some x =>
    let tag (va : Nat) : Nat := tagOf va s.me.asid s.me.part
    if x.writes.vals.any (fun r => s.lockedBy (tag r.va) r.va (r.va + 32) true) ||
        x.reads.vals.any (fun r => s.lockedBy (tag r.va) r.va (r.va + 32) false) then txAbort txLOCKED
    let lines (vas : List Nat) : List Nat := (vas.map fun a => a / 128 * 128).eraseDups
    let (fw, s) := s.places s.who .store none (lines (x.writes.vals.map TxWrite.va))
    let (fr, s) := s.places s.who .load none (lines (x.reads.vals.map TxRead.va))
    set s
    let bad (e : Nat × Found) : Bool := match e.2 with
      | .denied => true
      | .absent _ => true
      | _ => false
    match (fw ++ fr).find? bad with
    | some (va, f) =>
      match f with
      | .absent r => upd fun s => s.postFault s.who va 4 r
      | _ => pure ()
      txAbort txFAULT
    | none => pure ()
    -- a line of flash that is not here is awaited, and its value then compared
    if (fw ++ fr).any fun e => match e.2 with | .wait _ => true | _ => false then throw .keep
    let found (fs : List (Nat × Found)) : List (Nat × Place) :=
      fs.filterMap fun e => match e.2 with | .ok p => some (e.1, p) | _ => none
    let pw := found fw
    let pr := found fr
    let s ← get
    if !(x.reads.vals.all fun r => s.readHolds pr r) then txAbort txVALIDATE
    commitRace x
    let s ← get
    let ws := x.writes.vals.map fun r => r.toWrite (match placeOf pw r.va with
      | some p => s.mem.sector (p.phys + r.va % 128)
      | none => { data := 0, side := 0, poison := false })
    -- mc lies past the lease end of every line involved, and every read is placed at it
    let past := (leaseLines pr).foldl (fun m l => max m ((s.lease l).le + 1)) (s.msOf s.src)
    let s := (s.atLeastMs s.src past).performWrites s.src pw ws
    let s := s.leaseLoad s.src (leaseLines pr)
    set ((s.bumpCore s.src s.me.part).modMe fun th => { th.wakeNext s.now with tx := none })

/-- TRANSACTION_COMMIT: the commit of a thread that waits at TEND (R143, R266). A finding of the race detector in trap
mode aborts the transaction with TRAP (R148, R447). -/
def transactionCommit (t : Tid) (s : State) : State :=
  if (s.thr t).wait = .commit ∧ (s.thr t).tx.isSome then
    let out := match commitTx.run { s with cur := t } with
      | .ok _ s' => s'
      | .error (.trap c _ _) s' => s'.abortTx t txTRAP 0 c
      | .error .keep s' => s'
    { out with cur := s.cur }
  else s
def execTransactionCommit (tid : Nat) (s : State) : Out := event (transactionCommit tid) s

end Sys2Proof.Machine
end

