-- ==== Sys2Proof/Machine/Chain.lean ====
section
/-!
DEFINITION. Fences, command chains as threads see them, and GSUM (R138, R139, R269 to R272, R334, R335, R338, R348).
-/
namespace Sys2Proof.Machine

-- Command codes (R339).
def opCOPY := 0x01
def opGATHER := 0x02
def opSCATTER := 0x03
def opFILL := 0x04
def opTFILL := 0x05
def opTDRAIN := 0x06
def opPUT := 0x07
def opAPPEND := 0x10
def opSEAL := 0x11
def opSBAR := 0x12
def opTRIM := 0x13

/-! ### FENCE -/

/-- FENCE.engine: every earlier access of the thread has been performed; later commands issue after its milestone
(R138). -/
def fenceEngineEffect : M Unit := upd fun s => s.modMe fun th => { th with fenceMs := max th.fenceMs (s.msOf s.src) }

/-- A PUT that a thread appended, not yet acknowledged (R139). -/
def Cmd.putBy (c : Cmd) (t : Tid) (unit : Option Nat) : Bool :=
  c.tid == t && c.unit == unit && c.op == BitVec.ofNat 8 opPUT && (c.phase != .effected || c.unacked)
/-- Unit of a thread as a command records it. -/
def State.unitOf (s : State) (t : Tid) : Option Nat := if isService t then none else some (s.thr t).unit
def State.putsPending (s : State) (t : Tid) : Bool := s.cmds.any fun c => c.2.putBy t (s.unitOf t)
def fenceFabricWait : M Unit := do
  let s ← get
  if s.putsPending s.cur then hold .fence

def fenceEngineBody : M Unit := do unsupportedInTx; fenceEngineEffect
def execFenceEngine (w : Fields) (s : State) : Out := runInstr (.fenceEngine w) w (seqBody fenceEngineBody) s
def fenceFabricBody : M Unit := do unsupportedInTx; fenceFabricWait
def execFenceFabric (w : Fields) (s : State) : Out := runInstr (.fenceFabric w) w (seqBody fenceFabricBody) s
def fenceAllBody : M Unit := do unsupportedInTx; fenceFabricWait; fenceEngineEffect
def execFenceAll (w : Fields) (s : State) : Out := runInstr (.fenceAll w) w (seqBody fenceAllBody) s

/-! ### CHAPP -/

/-- A chain descriptor (R334). -/
structure ChainDesc where
  ctl : Dword
  tail : Nat
  nextSeq : Nat
  seqWord : Nat
  err : Dword
  resv : Nat
  deriving DecidableEq, Repr

def parseDesc (x : Nat) : ChainDesc :=
  { ctl := BitVec.ofNat 64 x, tail := x / 2 ^ 64 % 2 ^ 64, nextSeq := x / 2 ^ 128 % 2 ^ 64,
    seqWord := x / 2 ^ 192 % 2 ^ 64, err := BitVec.ofNat 64 (x / 2 ^ 256), resv := x / 2 ^ 320 % 2 ^ 192 }
def ChainDesc.en (d : ChainDesc) : Bool := d.ctl.getLsbD 63
def ChainDesc.bound (d : ChainDesc) : Nat := (d.ctl.extractLsb' 40 8).toNat
def ChainDesc.stream (d : ChainDesc) : Nat := (d.ctl.extractLsb' 12 4).toNat
def ChainDesc.kind (d : ChainDesc) : Nat := (d.ctl.extractLsb' 0 2).toNat
/-- Condition 1 of R335. -/
def ChainDesc.malformed (d : ChainDesc) : Bool :=
  !d.en || decide (2 ≤ d.kind) || d.ctl.extractLsb' 48 15 != 0 || d.ctl.extractLsb' 16 24 != 0 ||
    d.ctl.extractLsb' 2 10 != 0 || d.resv != 0 || d.seqWord == 0 || d.seqWord % 8 != 0

/-- A chain is known by the tag and address of its descriptor. -/
def State.chainOf (s : State) (tag desc : Nat) : Option ChainRec :=
  s.chains.find? fun c => c.asid == tag && c.desc == desc
/-- Keep a chain's record, binding it to an engine (R335): a command `seq` is appended to a chain whose sequence word holds
`upTo`. A sequence number that does not follow those of the record (`known`: the largest command of the chain that the engine
has or has completed) is of a chain that software has set up afresh at the same address, which begins with what the word
holds (R334, R374). DEDUCED (log 130). -/
def State.bindChain (s : State) (tag desc engine upTo seq known : Nat) : State :=
  match s.chainOf tag desc with
  | none => { s with chains := s.chains ++ [{ asid := tag, desc, upTo, engine }] }
  | some _ => { s with chains := s.chains.map fun c =>
      if c.asid == tag && c.desc == desc then
        if seq ≤ known then { c with engine, upTo, ahead := [], broken := false } else { c with engine }
      else c }
/-- The largest sequence number of a chain that its engine has, or has completed. -/
def State.lastSeq (s : State) (tag desc : Nat) : Nat :=
  let own (c : Cmd) : Bool := tagOf c.chain c.asid c.part == tag && c.chain == desc
  match s.chainOf tag desc with
  | none => 0
  | some c => (s.cmds.vals.filter own).foldl (fun m x => max m x.seq) (c.ahead.foldl max c.upTo)

/-- The command that an entry describes (R338). -/
def parseEntry (x : Nat) (base : Cmd) : Cmd :=
  let q (off : Nat) : Dword := BitVec.ofNat 64 (x / 2 ^ (8 * off))
  { base with
    op := BitVec.ofNat 8 x, flags := BitVec.ofNat 8 (x / 2 ^ 8), tag := BitVec.ofNat 16 (x / 2 ^ 16),
    resv := BitVec.ofNat 32 (x / 2 ^ 32), src := q 0x10, dst := q 0x18, len := q 0x20, aux := q 0x28, aux2 := q 0x30,
    record := q 0x38 }

/-- Read the completion sequence word as part of CHAPP's access: its fates name operand 0 and its address (R335). -/
def readSeqWord (va : Nat) : M (List (Nat × Place) × Nat) := do
  let (ps, secs) ← loadWithin 0 va 8
  if secs.any SectorLit.poison then trap cPOISON 0 (BitVec.ofNat 64 va)
  return (ps, bytesOf secs va 8)

/-- The engine as the maker of accesses for a command. -/
def Cmd.who (c : Cmd) : Who := { source := c.engine, part := c.part, asid := c.asid, priv := false, cid := c.cid }
/-- The addresses that the list of a GATHER or SCATTER names, as memory holds it now, where it can be read. -/
def State.listedNow (s : State) (c : Cmd) : List Nat :=
  let word (va : Nat) : Option Nat := match (s.place c.who va .load none).1 with
    | .ok p => some (s.mem.readN (p.phys + va % 128) 8)
    | _ => none
  let at_ (base : Dword) : List Nat := (List.range (min c.len.toNat 65536)).filterMap fun i => word (base.toNat + 8 * i)
  match c.op.toNat with
  | 2 => at_ c.src
  | 3 => at_ c.dst
  | _ => []
/-- A range that a command names itself, or has locked, lies in the carve-out window (R461, R462). -/
def Cmd.nearCarve (c : Cmd) : Bool :=
  let near (a : Dword) : Bool := regionOf a.toNat == .carve
  (match c.op.toNat with
    | 4 => near c.dst
    | 5 => !c.flags.getLsbD 2 && near c.src
    | 6 => near c.dst
    | 7 => near c.src
    | 0x10 => near c.src
    | 1 | 2 | 3 => near c.src || near c.dst
    | _ => false) || c.locks.any fun l => l.tag == 65537 + c.part
/-- A range of the command lies in the carve-out window, the listed side of a GATHER or SCATTER among them (R343, R461,
R462). -/
def State.inCarve (s : State) (c : Cmd) : Bool :=
  c.nearCarve || (decide (c.phase = .queued) && (s.listedNow c).any fun va => regionOf va == .carve)

def chappBody (w : Fields) : M Unit := do
  unsupportedInTx
  let va ← addrM w
  let eb ← consume 3 (← readPair w.b)
  aligned cMISALIGNED 2 va 64
  aligned cMISALIGNED 3 eb 64
  let who := (← get).who
  let pds ← storeChecks who 2 va 64 false true
  let pd := foundOf pds
  let (pe, entry) ← loadWithin 3 eb 64
  let dsecs ← readSlice pd va 64
  -- a poisoned descriptor would steer the linking (R414). DEDUCED (log 133): the trap names A
  if dsecs.any SectorLit.poison then trap cPOISON 2 0
  let s ← get
  let t := s.cur
  let part := s.me.part
  let tag := tagOf va s.me.asid part
  let d := parseDesc (bytesOf dsecs va 64)
  -- a descriptor that refuses the entry has been read only
  let refuse (pw : List (Nat × Place)) : M Unit := do
    raceNote tag (presentSecs pds va 64) false (leaseLines pd)
    holdLines (pd ++ pe ++ pw)
    writePair w.d 0 false
  let core := tidCore t
  let mine := 32 + core
  let elsewhere := d.kind == 0 && decide (32 ≤ d.bound ∧ d.bound < 64 ∧ d.bound ≠ mine)
  let stream := (s.part part).streams.get {} d.stream
  if d.malformed then refuse []
  else if d.kind = 0 ∧ isService t then refuse []
  else
    let (pw, early) ← if elsewhere then readSeqWord d.seqWord else pure ([], 0)
    if elsewhere && decide ((early : Int) < (d.nextSeq : Int) - 1) then refuse pw
    else if d.kind = 1 && (!stream.en || stream.chain.any fun c => c != (tag, va)) then refuse []
    else
      let (pw, done) ← readSeqWord d.seqWord
      if (4096 : Int) ≤ (d.nextSeq : Int) - 1 - done then refuse pw
      else
        -- the entry at TAIL receives its NEXT field
        let pt ← if d.tail = 0 then pure [] else do pure (foundOf (← storePlaces 0 (d.tail + 8) 8 false true))
        storeClaim who va 64 true pds
        let s ← get
        let engine := if d.kind = 0 then mine else 161
        let ctl := (d.ctl &&& ~~~(0xFF#64 <<< 40)) ||| (BitVec.ofNat 64 engine <<< 40)
        let next : List SecWrite := if d.tail = 0 then [] else splitBytes 9 (d.tail + 8) 8 eb
        let ws : List SecWrite :=
          next ++ [{ va, n := 24, val := ctl.toNat + 2 ^ 64 * eb + 2 ^ 128 * ((d.nextSeq + 1) % 2 ^ 64) }]
        -- the lines read are held at the key of the writes: all of it is one access (R270)
        let s := s.performWrites s.src (pd ++ pt) ws
        let s := s.leaseLoad s.src (leaseLines (pe ++ pw))
        let s := s.bindChain tag va engine done d.nextSeq (s.lastSeq tag va)
        let s := if d.kind = 1 then
            s.modPart part fun p => { p with streams := Tbl.adjust p.streams d.stream fun x => { x with chain := some (tag, va) } }
          else s
        let base : Cmd :=
          { asid := s.me.asid, chain := va, seqWord := BitVec.ofNat 64 d.seqWord, seq := d.nextSeq, engine, stream := d.stream,
            op := 0, flags := 0, tag := 0, resv := 0, src := 0, dst := 0, len := 0, aux := 0, aux2 := 0, record := 0,
            poison := entry.any SectorLit.poison, cid := s.me.cid, part, unit := s.unitOf t, tid := t,
            after := s.me.fenceMs }
        let cmd := parseEntry (bytesOf entry eb 64) base
        let discard := (s.chainOf tag va).any ChainRec.broken
        unless' discard (set { s with cmds := Tbl.ins s.cmds s.nextCmd cmd, nextCmd := s.nextCmd + 1 })
        if discard then set s
        -- a gated core runs again (R398)
        upd fun s => if isService t then s else { s with boot := { s.boot with idle := setBit s.boot.idle core false } }
        if s.inCarve cmd && !isService t then upd fun s => s.modUnit s.me.unit fun u => { u with carve := true }
        writePair w.d d.nextSeq false
def execChapp (w : Fields) (s : State) : Out := runInstr (.chapp w) w (seqBody (chappBody w)) s

/-! ### CHWAIT (R271) -/

def chwaitBody (w : Fields) : M Flow := do
  unsupportedInTx
  let va ← addrM w
  let b ← consume 3 (← readPair w.b)
  waitWord va b true
def execChwait (w : Fields) (s : State) : Out := runInstr (.chwait w) w (chwaitBody w) s

/-! ### GSUM (R272, R348) -/

/-- Key of a summed line in the fabric cache: partition, tree, line and element type. -/
def gsumKey (part tree frame : Nat) : Nat := 2 ^ 52 * (1 + tree * 2 ^ 57 + frame) + part * 2 ^ 45

/-- The grant whose replicated region holds an address of a space (R344, R348). -/
def State.treeAt (s : State) (part space va : Nat) : Option Tree :=
  (s.part part).trees.find? fun t => t.space == space && decide (t.gb ≤ va ∧ va < t.gb + t.gs)

def gsumBody (w : Fields) : M Unit := do
  unsupportedInTx
  let va ← addrM w
  let n := typeWidth w.ty / 8
  aligned cMISALIGNED 2 va n
  checkRange 2 va n
  let s ← get
  match s.treeAt s.me.part (s.me.asid % 2048) va with
  | none => trap cPAGE 2 (BitVec.ofNat 64 va)
  | some t =>
    checkLocks 2 va n false
    let reply := s.me.reply
    let ps := foundOf (← locate 2 va n .load false)
    if ps.any fun e => e.2.home != 0 then trap cPAGE 2 (BitVec.ofNat 64 va)
    let frame := va / 128 * 16 + w.ty.toNat
    let key := gsumKey s.me.part t.id.toNat frame
    let held : M (Option (List SectorLit)) := modifyGet fun s => s.heldRemote key
    let data ← match reply with
      | some r => if r.key = key ∧ !r.flash then pure (some r.data) else held
      | none => held
    match data with
    | none =>
      let (q, s) := (← get).askRemote s.me.part frame va true t.id s.me.cid
      set { s with reqs := Tbl.adjust s.reqs q fun r => { r with tids := r.tids ++ [s.cur] } }
      hold (.remote q)
    | some line =>
      let secs := (line.drop (va % 128 / 32)).take 1
      writeDst w.d w.ty (srcOf w.ty (bytesOf secs va n)) (secs.any SectorLit.poison)
def execGsum (w : Fields) (s : State) : Out := runInstr (.gsum w) w (seqBody (gsumBody w)) s

end Sys2Proof.Machine
end

