-- ==== Sys2Proof/Machine/Flags.lean ====
section
/-!
DEFINITION. What the machine has for flags: predicates. The conditions of comparisons, their combination with a further
predicate, and truth tables (R225, R228, R229, R278).
-/
namespace Sys2Proof.Machine

/-- Outcome of comparing: less, equal, greater, or unordered when a NaN takes part. -/
inductive Cmp where
  | lt | eq | gt | un
  deriving DecidableEq, Repr

/-- Compare two exact integers. -/
def cmpInt (a b : Int) : Cmp := if a < b then .lt else if a = b then .eq else .gt

/-- The condition cc of CMP (R228): eq, ne, lt, le, gt, ge. -/
def cond (cc : Nat) (c : Cmp) : Bool :=
  match cc with
  | 0 => c == .eq
  | 1 => c == .lt || c == .gt
  | 2 => c == .lt
  | 3 => c == .lt || c == .eq
  | 4 => c == .gt
  | _ => c == .gt || c == .eq

/-- Combine an outcome with predicate c: none, and, or, xor (R228). -/
def comb (k : Nat) (r c : Bool) : Bool :=
  match k with
  | 0 => r
  | 1 => r && c
  | 2 => r || c
  | _ => r != c

/-- One bit of a truth table: combination k = 4b + 2a + c (R225). -/
def lutBit (lut : BitVec 8) (a b c : Bool) : Bool :=
  lut.getLsbD ((if b then 4 else 0) + (if a then 2 else 0) + (if c then 1 else 0))

/-- LOP3 over w bits (R225). -/
def lop3Bits (lut : BitVec 8) (w a b c : Nat) : Nat :=
  (List.range w).foldl (fun acc i =>
    if lutBit lut (a.testBit i) (b.testBit i) (c.testBit i) then acc + 2 ^ i else acc) 0

end Sys2Proof.Machine
end

