-- ==== Sys2Proof/Machine/Float.lean ====
section
/-!
DEFINITION. Scalar float instructions (R274 to R282, R443).
-/
namespace Sys2Proof.Machine

/-- The format of a float type code (R204). -/
def typeFmt (ty : BitVec 4) : Fmt :=
  match ty.toNat with
  | 8 => fFP32
  | 9 => fBF16
  | 10 => fFP16
  | 11 => fE4M3
  | 12 => fE5M2
  | 13 => fE2M3
  | 14 => fE3M2
  | _ => fE2M1

/-- The code of a float operand: its low bits (R274). -/
def floatCode (F : Fmt) (raw : Nat) : Nat := raw % 2 ^ F.w

/-- A result rounded once, one word being taken under SR, and written to D with poison (R276). -/
def writeRounded (w : Fields) (v : Num) (poison : Bool) : M Unit := do
  let word ← srWord w.rm.toNat
  writeG w.d (roundNum v (typeFmt w.ty) w.rm.toNat word) poison

/-- Two sources as exact values. -/
def float2 (w : Fields) (f : Num → Num → Num) : M Unit := do
  let F := typeFmt w.ty
  let a ← readSrc 2 w.a w.ty w.ext
  let b ← readSrc 3 w.b w.ty w.ext
  writeRounded w (f (F.value (floatCode F a.raw)) (F.value (floatCode F b.raw))) (a.poison || b.poison)
/-- One source as an exact value. -/
def float1 (w : Fields) (f : Num → Num) : M Unit := do
  let F := typeFmt w.ty
  let a ← readSrc 2 w.a w.ty w.ext
  writeRounded w (f (F.value (floatCode F a.raw))) a.poison

/-- RDN gives an exact zero sum its minus sign (R276). -/
def isRdn (rm : BitVec 3) : Bool := rm.toNat == rmRDN

def faddBody (w : Fields) : M Unit :=
  float2 w fun a b => a.add (isRdn w.rm) (b.negIf (w.sub.getLsbD 0))
def execFadd (w : Fields) (s : State) : Out := runInstr (.fadd w) w (seqBody (faddBody w)) s
def fmulBody (w : Fields) : M Unit := float2 w Num.mul
def execFmul (w : Fields) (s : State) : Out := runInstr (.fmul w) w (seqBody (fmulBody w)) s

/-- The exact value of a fused multiply-add (R276). -/
def fmaNum (rdn np nc : Bool) (a b c : Num) : Num := ((a.mul b).negIf np).add rdn (c.negIf nc)
def ffmaBody (w : Fields) : M Unit := do
  let F := typeFmt w.ty
  let a ← readSrc 2 w.a w.ty w.ext
  let b ← readSrc 3 w.b w.ty w.ext
  let c ← readSrc 4 w.c w.ty w.ext
  let v := fmaNum (isRdn w.rm) (w.sub.getLsbD 0) (w.sub.getLsbD 1)
    (F.value (floatCode F a.raw)) (F.value (floatCode F b.raw)) (F.value (floatCode F c.raw))
  writeRounded w v (a.poison || b.poison || c.poison)
def execFfma (w : Fields) (s : State) : Out := runInstr (.ffma w) w (seqBody (ffmaBody w)) s

/-- FMIN and FMAX return an operand unchanged (R277). -/
def fminmaxBody (mx : Bool) (w : Fields) : M Unit := do
  let F := typeFmt w.ty
  let a ← readSrc 2 w.a w.ty w.ext
  let b ← readSrc 3 w.b w.ty w.ext
  writeG w.d (pickMinMax F mx (floatCode F a.raw) (floatCode F b.raw)) (a.poison || b.poison)
def execFmin (w : Fields) (s : State) : Out := runInstr (.fmin w) w (seqBody (fminmaxBody false w)) s
def execFmax (w : Fields) (s : State) : Out := runInstr (.fmax w) w (seqBody (fminmaxBody true w)) s

/-- Compare two values; a NaN is unordered and zeros are equal (R278). -/
def cmpNum (x y : Num) : Cmp :=
  if x.isNan || y.isNan then .un else if x.lt y then .lt else if y.lt x then .gt else .eq
/-- The condition of FCMP (R278): those of CMP, with ne true when unordered, and un, ord. -/
def fcond (cc : Nat) (c : Cmp) : Bool :=
  match cc with
  | 1 => c != .eq
  | 6 => c == .un
  | 7 => c != .un
  | n => cond n c
def fcmpBody (w : Fields) : M Unit := do
  let F := typeFmt w.ty
  let s ← get
  if s.regPoison w.a false then trap cPOISON 2
  if s.regPoison w.b false then trap cPOISON 3
  let a ← consume 2 (← readSrc 2 w.a w.ty w.ext)
  let b ← consume 3 (← readSrc 3 w.b w.ty w.ext)
  let r := fcond (w.sub.toNat % 8) (cmpNum (F.value (floatCode F a)) (F.value (floatCode F b)))
  writeP w.d (comb (w.sub.toNat / 8) r ((← get).predOf w.c))
def execFcmp (w : Fields) (s : State) : Out := runInstr (.fcmp w) w (seqBody (fcmpBody w)) s

def frcpBody (w : Fields) : M Unit := float1 w Num.recip
def execFrcp (w : Fields) (s : State) : Out := runInstr (.frcp w) w (seqBody (frcpBody w)) s
def frsqBody (w : Fields) : M Unit := float1 w Num.rsqrt
def execFrsq (w : Fields) (s : State) : Out := runInstr (.frsq w) w (seqBody (frsqBody w)) s
def fexp2Body (w : Fields) : M Unit := do
  let a ← readSrc 2 w.a w.ty w.ext
  writeG w.d (exp2e9 (floatCode fFP32 a.raw)) a.poison
def execFexp2 (w : Fields) (s : State) : Out := runInstr (.fexp2 w) w (seqBody (fexp2Body w)) s
def flog2Body (w : Fields) : M Unit := float1 w Num.log2
def execFlog2 (w : Fields) (s : State) : Out := runInstr (.flog2 w) w (seqBody (flog2Body w)) s

/-- Round to an integral value; zero keeps the sign (R281). -/
def Num.integral (rm : Nat) : Num → Num
  | .fin s n e => .fin s (roundAt rm s n e 0 0) 0
  | x => x
def frndBody (w : Fields) : M Unit := do
  let F := typeFmt w.ty
  let a ← readSrc 2 w.a w.ty w.ext
  writeG w.d (roundNum ((F.value (floatCode F a.raw)).integral w.rm.toNat) F rmRTZ 0) a.poison
def execFrnd (w : Fields) (s : State) : Out := runInstr (.frnd w) w (seqBody (frndBody w)) s

/-! ### CVT (R282) -/

/-- Rounding into a type, where formats without NaN and infinity take +0 for NaN and their largest for an infinity. -/
def cvtFloat (v : Num) (F : Fmt) (rm word : Nat) : Nat := roundNum v F rm word

def isIntType (ty : BitVec 4) : Bool := decide (ty.toNat < 8)

def cvtBody (w : Fields) : M Unit := do
  let st := BitVec.ofNat 4 (w.sub.toNat % 16)
  let rm := w.rm.toNat
  let a ← readSrc 2 w.a st w.ext
  match isIntType st, isIntType w.ty with
  | true, true => writeDst w.d w.ty (satTo w.ty (srcOf st a.raw)) a.poison
  | true, false =>
    let word ← srWord rm
    writeG w.d (cvtFloat (Num.ofInt (srcOf st a.raw)) (typeFmt w.ty) rm word) a.poison
  | false, true =>
    let word ← srWord rm
    let F := typeFmt st
    writeDst w.d w.ty (roundInt (F.value (floatCode F a.raw)) (typeWidth w.ty) (tySigned w.ty) rm word) a.poison
  | false, false =>
    let word ← srWord rm
    let F := typeFmt st
    writeG w.d (cvtFloat (F.value (floatCode F a.raw)) (typeFmt w.ty) rm word) a.poison
def execCvt (w : Fields) (s : State) : Out := runInstr (.cvt w) w (seqBody (cvtBody w)) s

end Sys2Proof.Machine
end

