-- ==== Sys2Proof/Machine/Tile.lean ====
section
/-!
DEFINITION. The tile store: tile-table entries (R82, R83), accesses by handle and offset (R84, R254), and TLD, TST,
TSET and TQRY (R255, R256).
-/
namespace Sys2Proof.Machine

-- States of a tile (R82).
def tileEMPTY := 0
def tileFILLING := 1
def tileREADY := 2
def tileDRAINING := 3

/-- STATE, SIZE and BASE of a tile-table entry (R82). -/
def tileState (e : Word) : Nat := (e.extractLsb' 30 2).toNat
def tileSize (e : Word) : Nat := (e.extractLsb' 16 12).toNat
def tileBaseOf (e : Word) : Nat := (e.extractLsb' 0 11).toNat
/-- Compose an entry. -/
def mkTile (st size base : Nat) : Word := BitVec.ofNat 32 (st * 2 ^ 30 + size * 2 ^ 16 + base)
/-- An entry with another state. -/
def setTileState (e : Word) (st : Nat) : Word := mkTile st (tileSize e) (tileBaseOf e)

def UnitRec.tile (u : UnitRec) (h : Nat) : Word := u.tiles.get 0 h

/-- A thread of a unit that waits for a tile. -/
def waitsTile (uid h : Nat) (t : Tid) (th : Thread) : Bool :=
  !isService t && th.unit == uid && (th.wait == .tile h || th.wait == .tset h)
/-- Write an entry at a milestone, and let the unit's threads that wait for the tile issue again (R83). -/
def State.setTile (s : State) (ms uid h : Nat) (e : Word) : State :=
  (s.modUnit uid fun u =>
    { u with tiles := Tbl.put 0 u.tiles h e, tileMs := Tbl.put 0 u.tileMs h ms }).wakeIf (waitsTile uid h)
/-- First and last byte, exclusive, of a tile in its core's store. -/
def UnitRec.tileRange (u : UnitRec) (h : Nat) : Nat × Nat :=
  let e := u.tile h
  ((u.tileBase + tileBaseOf e) * 4096, (u.tileBase + tileBaseOf e + tileSize e) * 4096)
/-- Milestone of the last change of a tile, or of one that shares bytes with it (R84, R134). -/
def UnitRec.tileLast (u : UnitRec) (h : Nat) : Nat :=
  let shares (g : Nat) : Bool := g == h || decide ((u.tileRange g).1 < (u.tileRange h).2 ∧ (u.tileRange h).1 < (u.tileRange g).2)
  u.tileMs.foldl (fun m e => if shares e.1 then max m e.2 else m) 0
/-- The current thread goes on after the last change of a tile (R83, R84, R134). -/
def State.tileSeen (s : State) (h : Nat) : State :=
  match s.myUnit with
  | some u => s.atLeastMs s.src (u.tileLast h)
  | none => s
/-- A change that TSET makes, at the milestone of its thread. -/
def State.tsetTile (s : State) (h : Nat) (e : Word) : State :=
  let s := s.tileSeen h
  s.setTile (s.msOf s.src) s.me.unit h e

/-- The tile that a convergence operation reads or writes. -/
def instrTile : Option Instr → Option Nat
  | some (.mma w) => some (w.ext.toNat % 256)
  | some (.softstep w) => some (w.ext.toNat % 256)
  | _ => none
/-- Tiles of a unit that a running MMA or SOFTSTEP holds busy. -/
def State.runningTiles (s : State) (uid : Nat) : List Nat :=
  s.quads.flatMap fun q => [q.2.mma, q.2.soft].filterMap fun r => match r with
    | some x => if x.unit = uid then some x.handle else none
    | none => none
/-- Tiles of a unit that are busy for rounds which a test accepts, from the first signature on. -/
def State.claimedTiles (s : State) (uid : Nat) (ok : CvReg → Bool) : List Nat :=
  s.cvs.filterMap fun e => if e.2.unit = uid ∧ e.2.signed ≠ 0 ∧ ok e.2 then instrTile e.2.instr else none
/-- Tiles of a unit that an MMA or SOFTSTEP holds busy, from the first signature of its round until it completes
(R296). -/
def State.busyTiles (s : State) (uid : Nat) : List Nat := s.runningTiles uid ++ s.claimedTiles uid fun _ => true
/-- An issued instruction of the unit still accesses the tile (R83, R296). -/
def State.tileBusy (s : State) (uid h : Nat) : Bool := (s.busyTiles uid).contains h
/-- A busy tile whose bytes meet a range of the core's store (R296). -/
def State.busyAt (s : State) (uid : Nat) (u : UnitRec) (lo n : Nat) : Option Nat :=
  (s.busyTiles uid).find? fun h => decide ((u.tileRange h).1 < lo + n ∧ lo < (u.tileRange h).2)
/-- Threads of a unit that wait for a tile issue again. -/
def State.wakeTile (s : State) (uid h : Nat) : State := s.wakeIf (waitsTile uid h)

/-- EXC_VAL of an access by handle and offset (R84). -/
def tileVal (h off : Nat) : Dword := BitVec.ofNat 64 (h * 2 ^ 56 + off % 2 ^ 24)

/-- Hold the thread until the tile is ready; its access then follows the change to ready (R84). -/
def tileReady (h : Nat) : M Unit := do
  match (← get).myUnit with
  | none => illegal
  | some u =>
    if tileState (u.tile h) ≠ tileREADY then hold (.tile h)
    upd fun s => s.tileSeen h
/-- The lowest of the offsets that a test refuses (R84). -/
def lowestBad (offs : List Nat) (bad : Nat → Bool) : Option Nat :=
  (offs.filter bad).foldl (fun m o => match m with
    | none => some o
    | some x => some (min x o)) none

/-- Offsets of sectors in a tile, after the check of alignment. -/
def tileAligned (opnd h : Nat) (offs : List Nat) : M Unit := do
  match lowestBad offs fun o => o % 32 != 0 with
  | some o => trap cMISALIGNED opnd (tileVal h o)
  | none => pure ()
/-- Offsets wrapped into the tile, after the check of its size (R84, R254). -/
def tileInside (opnd h : Nat) (offs : List Nat) (wrap : Bool) : M (List Nat) := do
  match (← get).myUnit with
  | none => illegal
  | some u =>
    let bytes := tileSize (u.tile h) * 4096
    let offs := if wrap then offs.map (· % bytes) else offs
    match lowestBad offs fun o => decide (bytes ≤ o) with
    | some o => trap cPAGE opnd (tileVal h o)
    | none => return offs
/-- Physical addresses of sectors at offsets of a tile, after the check of range locks (R84, R137). -/
def tileUnlocked (opnd h : Nat) (offs : List Nat) (store : Bool) : M (List Nat) := do
  let s ← get
  match s.myUnit with
  | none => illegal
  | some u =>
    let at_ (o : Nat) : Nat := (u.tileBase + tileBaseOf (u.tile h)) * 4096 + o
    match lowestBad offs fun o => s.lockedBy (70000 + u.core) (at_ o) (at_ o + 32) store with
    | some o => trap cLOCKED opnd (tileVal h o)
    | none => return offs.map fun o => tileAddr u.core (at_ o)
/-- Physical addresses of sectors at offsets of a tile, after the checks of alignment, size and locks (R84, R254). -/
def tileAddrs (opnd h : Nat) (offs : List Nat) (wrap store : Bool) : M (List Nat) := do
  tileAligned opnd h offs
  tileUnlocked opnd h (← tileInside opnd h offs wrap) store
/-- Hold the thread while a matrix or softmax operation holds one of its bytes busy (R296). -/
def waitBusy (at_ : List Nat) : M Unit := do
  let s ← get
  match s.myUnit with
  | none => illegal
  | some u =>
    match at_.findSome? fun a => s.busyAt s.me.unit u (a - tileAddr u.core 0) 32 with
    | some b => hold (.tile b)
    | none => pure ()

/-- The same, waiting while a matrix or softmax operation holds the bytes busy (R296). -/
def tileSectors (opnd h : Nat) (offs : List Nat) (wrap store : Bool) : M (List Nat) := do
  let at_ ← tileAddrs opnd h offs wrap store
  waitBusy at_
  return at_

/-- An offset operand: a g register, a special value or zero, unsigned 32 bits (R254). -/
def tileOffset (opnd : Nat) (x : Spec) : M Nat := do consume opnd (← readSrc32 opnd x 0)

def tldBody (w : Fields) : M Unit := do
  unsupportedInTx
  let h := w.ext.toNat % 256
  tileReady h
  let off ← tileOffset 2 w.a
  for a in ← tileSectors 2 h [off] (w.sub.getLsbD 0) false do
    let x := (← get).mem.sector a
    writeV w.d { sec := x.data, side := x.side, tag := w.ty, poison := x.poison }
def execTld (w : Fields) (s : State) : Out := runInstr (.tld w) w (seqBody (tldBody w)) s

def tstBody (w : Fields) : M Unit := do
  unsupportedInTx
  let h := w.ext.toNat % 256
  tileReady h
  let off ← tileOffset 2 w.a
  let b := (← get).readV w.b 0
  for a in ← tileSectors 2 h [off] (w.sub.getLsbD 0) true do
    upd fun s => { s with mem := s.mem.setSector a { data := b.sec, side := b.side, poison := b.poison } }
def execTst (w : Fields) (s : State) : Out := runInstr (.tst w) w (seqBody (tstBody w)) s

def tsetDefBody (w : Fields) : M Unit := do
  unsupportedInTx
  let h := w.ext.toNat % 256
  let base ← tileOffset 2 w.a
  let size ← tileOffset 3 w.b
  let s ← get
  match s.myUnit with
  | none => illegal
  | some u =>
    if size = 0 ∨ u.res.tile4k < base + size then illegal
    if tileState (u.tile h) ≠ tileEMPTY then hold (.tset h)
    upd fun s => s.tsetTile h (mkTile tileEMPTY size base)
def execTsetDef (w : Fields) (s : State) : Out := runInstr (.tsetDef w) w (seqBody (tsetDefBody w)) s

def tsetReadyBody (w : Fields) : M Unit := do
  unsupportedInTx
  let h := w.ext.toNat % 256
  let s ← get
  match s.myUnit with
  | none => illegal
  | some u =>
    let e := u.tile h
    if tileState e = tileREADY then return
    if tileState e ≠ tileEMPTY ∨ tileSize e = 0 then hold (.tset h)
    upd fun s => s.tsetTile h (setTileState e tileREADY)
def execTsetReady (w : Fields) (s : State) : Out := runInstr (.tsetReady w) w (seqBody (tsetReadyBody w)) s

def tsetEmptyBody (w : Fields) : M Unit := do
  unsupportedInTx
  let h := w.ext.toNat % 256
  let s ← get
  match s.myUnit with
  | none => illegal
  | some u =>
    let e := u.tile h
    if tileState e = tileEMPTY then return
    if tileState e ≠ tileREADY ∨ s.tileBusy s.me.unit h then hold (.tset h)
    upd fun s => s.tsetTile h (setTileState e tileEMPTY)
def execTsetEmpty (w : Fields) (s : State) : Out := runInstr (.tsetEmpty w) w (seqBody (tsetEmptyBody w)) s

def tqryBody (w : Fields) : M Unit := do
  unsupportedInTx
  match (← get).myUnit with
  | none => illegal
  | some u =>
    upd fun s => s.tileSeen (w.ext.toNat % 256)
    writeG w.d (u.tile (w.ext.toNat % 256)).toNat false
def execTqry (w : Fields) (s : State) : Out := runInstr (.tqry w) w (seqBody (tqryBody w)) s

end Sys2Proof.Machine
end

