-- ==== Sys2Proof/Machine/Vector.lean ====
section
/-!
DEFINITION. Sector vector instructions (R283 to R293, R444).
-/
namespace Sys2Proof.Machine

/-- Read a v operand as a tag, which it must carry (R181, R283). -/
def readTagged (opnd : Nat) (x : Spec) (tag : BitVec 4) : M VReg := do
  let v := (← get).readV x tag
  if v.tag ≠ tag then trap cTAG opnd (v.tag.setWidth 64)
  return v

/-- I32 and I8 are signed unless MOD[4] is set (R204). -/
def vSigned (w : Fields) : Bool := !w.sub.getLsbD 4

/-- Wrap or clamp an integer element (R285). -/
def intElem (wd : Nat) (signed sat : Bool) (v : Int) : Nat :=
  let lo : Int := if signed then -(2 ^ (wd - 1)) else 0
  let hi : Int := if signed then 2 ^ (wd - 1) - 1 else 2 ^ wd - 1
  let x := if sat then max lo (min hi v) else v
  (x % 2 ^ wd).toNat

/-- Element-wise results of one tag: integers by `fi`, floats and MX values by `fn` (R285). A NaN value on either side
makes an MX block NaN; `fc` gives float codes directly where the result is an operand unchanged. -/
def elementwise (w : Fields) (sat : Bool) (vs : List VReg) (fi : List Int → Int) (fn : List Num → Num)
    (fc : Option (Fmt → List Nat → Nat)) : M Unit := do
  let k := kindOf w.ty
  let sg := vSigned w
  let rm := w.rm.toNat
  let poison := vs.any VReg.poison
  let aSide := match vs with
    | v :: _ => v.side
    | [] => 0
  let nums (i : Nat) : List Num := vs.map fun v => elemValue k sg v.sec v.side i
  match k with
  | .int wd =>
    let codes := (List.range k.count).map fun i => intElem wd sg sat (fi (vs.map fun v => elemInt k sg v.sec i))
    writeV w.d { sec := packElems k codes, side := aSide, tag := w.ty, poison }
  | .mx E =>
    let words ← srWords rm k.count
    let xs := (List.range k.count).map fun i => if (nums i).any Num.isNan then .nan else fn (nums i)
    let (sec, side) := mxPack E rm words xs
    writeV w.d { sec, side, tag := w.ty, poison }
  | .flt F =>
    match fc with
    | some f =>
      let codes := (List.range k.count).map fun i => f F (vs.map fun v => elemCode k v.sec i)
      writeV w.d { sec := packElems k codes, side := aSide, tag := w.ty, poison }
    | none =>
      let words ← srWords rm k.count
      let codes := (List.range k.count).map fun i => roundNum (fn (nums i)) F rm (words.getD i 0)
      writeV w.d { sec := packElems k codes, side := aSide, tag := w.ty, poison }
  | .raw => return

/-- The sources of a vector instruction, checked in the order A, B. -/
def readAB (w : Fields) : M (List VReg) := do
  let a ← readTagged 2 w.a w.ty
  let b ← readTagged 3 w.b w.ty
  return [a, b]

-- Functions of the operands of one element, by position.
def n0 (xs : List Num) : Num := xs.getD 0 .nan
def n1 (xs : List Num) : Num := xs.getD 1 .nan
def n2 (xs : List Num) : Num := xs.getD 2 .nan
def i0 (xs : List Int) : Int := xs.getD 0 0
def i1 (xs : List Int) : Int := xs.getD 1 0
def i2 (xs : List Int) : Int := xs.getD 2 0
def negIfInt (b : Bool) (x : Int) : Int := if b then -x else x

def vaddBody (w : Fields) : M Unit := do
  let vs ← readAB w
  let nb := w.sub.getLsbD 1
  elementwise w (w.sub.getLsbD 0) vs (fun x => i0 x + negIfInt nb (i1 x))
    (fun x => (n0 x).add (isRdn w.rm) ((n1 x).negIf nb)) none
def execVadd (w : Fields) (s : State) : Out := runInstr (.vadd w) w (seqBody (vaddBody w)) s
def vmulBody (w : Fields) : M Unit := do
  let vs ← readAB w
  elementwise w (w.sub.getLsbD 0) vs (fun x => i0 x * i1 x) (fun x => (n0 x).mul (n1 x)) none
def execVmul (w : Fields) (s : State) : Out := runInstr (.vmul w) w (seqBody (vmulBody w)) s
def vfmaBody (w : Fields) : M Unit := do
  let vs ← readAB w
  let c ← readTagged 4 w.c w.ty
  let np := w.sub.getLsbD 1
  let nc := w.sub.getLsbD 2
  elementwise w (w.sub.getLsbD 0) (vs ++ [c]) (fun x => negIfInt np (i0 x * i1 x) + negIfInt nc (i2 x))
    (fun x => fmaNum (isRdn w.rm) np nc (n0 x) (n1 x) (n2 x)) none
def execVfma (w : Fields) (s : State) : Out := runInstr (.vfma w) w (seqBody (vfmaBody w)) s
def vminmaxBody (mx : Bool) (w : Fields) : M Unit := do
  let vs ← readAB w
  elementwise w false vs (fun x => if mx then max (i0 x) (i1 x) else min (i0 x) (i1 x))
    (fun x => Num.pick mx (n0 x) (n1 x)) (some fun F c => pickMinMax F mx (c.getD 0 0) (c.getD 1 0))
def execVmin (w : Fields) (s : State) : Out := runInstr (.vmin w) w (seqBody (vminmaxBody false w)) s
def execVmax (w : Fields) (s : State) : Out := runInstr (.vmax w) w (seqBody (vminmaxBody true w)) s

/-! ### Reductions (R286, R287) -/

def vredBody (w : Fields) : M Unit := do
  let a ← readTagged 2 w.a w.ty
  let k := kindOf w.ty
  let op := w.sub.toNat % 4
  match k with
  | .int _ =>
    let xs := (List.range k.count).map fun i => elemInt k (vSigned w) a.sec i
    let v := match op, xs with
      | 0, _ => xs.foldl (· + ·) 0
      | _, [] => 0
      | 1, x :: r => r.foldl min x
      | _, x :: r => r.foldl max x
    writeG w.d (v % 2 ^ 32).toNat a.poison
  | _ =>
    let xs := elemValues k true a.sec a.side
    let v := match op, xs with
      | 0, _ => exactSum (isRdn w.rm) xs
      | _, [] => .nan
      | n, x :: r => r.foldl (Num.pick (n == 2)) x
    let word ← srWord w.rm.toNat
    writeG w.d (roundNum v fFP32 w.rm.toNat word) a.poison
def execVred (w : Fields) (s : State) : Out := runInstr (.vred w) w (seqBody (vredBody w)) s

/-- The sum of VDOT's terms, with its rule for an exact zero (R287). -/
def dotSum (rdn : Bool) (terms : List Num) : Num :=
  let allZero (neg : Bool) : Bool := terms.all fun t => t.isZero && t.neg? == neg
  exactSum (if allZero true then true else if allZero false then false else rdn) terms

def vdotBody (w : Fields) : M Unit := do
  let vs ← readAB w
  let a := vs.headD {}
  let b := vs.getD 1 {}
  let c ← readSrc32 4 w.c w.ext
  let k := kindOf w.ty
  let sg := vSigned w
  let poison := a.poison || b.poison || c.poison
  match k with
  | .int _ =>
    let sum := (List.range k.count).foldl (fun acc i => acc + elemInt k sg a.sec i * elemInt k sg b.sec i)
      (if sg then sInt 32 c.raw else c.raw)
    writeG w.d (intElem 32 sg (w.sub.getLsbD 0) sum) poison
  | _ =>
    let prods := (elemValues k true a.sec a.side).zip (elemValues k true b.sec b.side) |>.map fun e => e.1.mul e.2
    let v := dotSum (isRdn w.rm) (f32 c.raw :: prods)
    let word ← srWord w.rm.toNat
    writeG w.d (roundNum v fFP32 w.rm.toNat word) poison
def execVdot (w : Fields) (s : State) : Out := runInstr (.vdot w) w (seqBody (vdotBody w)) s

/-! ### Conversion (R288) -/

def vcvtBody (w : Fields) : M Unit := do
  let st := BitVec.ofNat 4 (w.sub.toNat % 16)
  let a ← readTagged 2 w.a st
  let ks := kindOf st
  let kd := kindOf w.ty
  let ns := ks.count
  let nd := kd.count
  let p := w.fn.toNat
  let b ← if ns < nd then readTagged 3 w.b w.ty else pure { tag := w.ty }
  let rm := w.rm.toNat
  let poison := a.poison || b.poison
  -- the source elements converted, and the first destination element they go to
  let n := min ns nd
  let xs := (List.range n).map fun i =>
    elemValue ks (vSigned w) a.sec a.side (if nd < ns then p * nd + i else i)
  let at_ := if ns < nd then p * ns else 0
  match kd with
  | .mx E =>
    let words ← srWords rm n
    let (sec, side) := mxPack E rm words xs
    if ns < nd then
      -- one block of two is converted; the other, with its scale, comes from B
      let keep : Sector := if p = 0 then b.sec >>> 128 <<< 128 else b.sec <<< 128 >>> 128
      let kside := if p = 0 then b.side &&& 0xFF00 ||| side else b.side &&& 0x00FF ||| (side <<< 8)
      writeV w.d { sec := keep ||| (if p = 0 then sec else sec <<< 128), side := kside, tag := w.ty, poison }
    else writeV w.d { sec, side, tag := w.ty, poison }
  | _ =>
    let words ← srWords rm n
    let code (i : Nat) (v : Num) : Nat :=
      match kd with
      | .flt F => roundNum v F rm (words.getD i 0)
      | _ => (roundInt v kd.width (vSigned w) rm (words.getD i 0) % 2 ^ kd.width).toNat
    let sec := ((List.range n).zip xs).foldl (fun sec e => putElem kd sec (at_ + e.1) (code e.1 e.2))
      (if ns < nd then b.sec else 0)
    writeV w.d { sec, side := 0, tag := w.ty, poison }
def execVcvt (w : Fields) (s : State) : Out := runInstr (.vcvt w) w (seqBody (vcvtBody w)) s

/-! ### Quantisation (R289, R290) -/

/-- Alignment of a fold's word in a tile. -/
def foldUnitAligned (opnd h off : Nat) : M Unit := do
  if off % 4 ≠ 0 then trap cMISALIGNED opnd (tileVal h off)
/-- A fold's word lies in its tile. -/
def foldUnitInside (opnd h off : Nat) : M Unit := do
  match (← get).myUnit with
  | none => illegal
  | some u => if tileSize (u.tile h) * 4096 ≤ off then trap cPAGE opnd (tileVal h off)
/-- The physical address of a fold's word in a tile, which no command locks. -/
def foldUnitUnlocked (opnd h off : Nat) : M Nat := do
  let s ← get
  match s.myUnit with
  | none => illegal
  | some u =>
    let o := (u.tileBase + tileBaseOf (u.tile h)) * 4096 + off
    if s.lockedBy (70000 + u.core) (o / 32 * 32) (o / 32 * 32 + 32) true then trap cLOCKED opnd (tileVal h off)
    return tileAddr u.core o
/-- Hold the thread while an operation holds the word's sector busy (R296). -/
def foldUnitFree (at_ : Nat) : M Unit := waitBusy [at_ / 32 * 32]
/-- The checks and the place of a fold into a tile (R189, R290). -/
def foldUnitAt (opnd h off : Nat) : M Nat := do
  foldUnitAligned opnd h off
  foldUnitInside opnd h off
  let at_ ← foldUnitUnlocked opnd h off
  foldUnitFree at_
  return at_
/-- The unsigned maximum in a tile, at the thread's milestone. -/
def State.foldTile (s : State) (at_ v : Nat) (poison : Bool) : State :=
  let m := s.mem.writeN at_ 4 (max (s.mem.readN at_ 4) v)
  { s with mem := if poison then m.setPois at_ true else m }

def vquantBody (w : Fields) : M Unit := do
  let amax := w.sub.toNat % 4
  unless' (amax == 0) unsupportedInTx
  let sTag : BitVec 4 := BitVec.ofNat 4 (w.sub.toNat / 4 % 4 + 1)
  let s ← get
  let srcs := (List.range (vquantM w)).map fun i => s.vReg (w.a.vNum + i)
  match srcs.find? fun v => v.tag != sTag with
  | some v => trap cTAG 2 (v.tag.setWidth 64)
  | none => pure ()
  let ks := kindOf sTag
  let xs := srcs.flatMap fun v => elemValues ks true v.sec v.side
  let poison := srcs.any VReg.poison
  let rm := w.rm.toNat
  match amax with
  | 1 =>
    let off ← consume 3 (← readSrc32 3 w.b 0)
    let h ← consume 4 (← readSrc32 4 w.c w.ext)
    tileReady (h % 256)
    let at_ ← foldUnitAt 3 (h % 256) off
    upd fun s => s.foldTile at_ (amaxWord xs) poison
  | 2 =>
    let va ← consume 3 (← readPair w.b)
    foldPkg 3 va (amaxWord xs) poison
  | _ => pure ()
  let E := match kindOf w.ty with
    | .mx E => E
    | _ => .int8
  let words ← srWords rm xs.length
  let (sec, side) := mxPack E rm words xs
  writeV w.d { sec, side, tag := w.ty, poison }
def execVquant (w : Fields) (s : State) : Out := runInstr (.vquant w) w (seqBody (vquantBody w)) s

/-! ### Movement (R291, R292) -/

def vsplatBody (w : Fields) : M Unit := do
  let a ← readSrc32 2 w.a w.ext
  let k := kindOf w.ty
  writeV w.d { sec := packElems k (List.replicate k.count (a.raw % 2 ^ k.width)), side := 0, tag := w.ty, poison := a.poison }
def execVsplat (w : Fields) (s : State) : Out := runInstr (.vsplat w) w (seqBody (vsplatBody w)) s
def vextBody (w : Fields) : M Unit := do
  let a ← readTagged 2 w.a w.ty
  let i ← consume 3 (← readSrc32 3 w.b w.ext)
  let k := kindOf w.ty
  let c := elemCode k a.sec (i % k.count)
  let v := match k with
    | .int wd => if vSigned w then (sInt wd c % 2 ^ 32).toNat else c
    | _ => c
  writeG w.d v a.poison
def execVext (w : Fields) (s : State) : Out := runInstr (.vext w) w (seqBody (vextBody w)) s
def vinsBody (w : Fields) : M Unit := do
  let a ← readTagged 2 w.a w.ty
  let s ← get
  if s.regPoison w.b false then trap cPOISON 3
  let i ← consume 3 (← readSrc32 3 w.b w.ext)
  let c ← readSrc32 4 w.c w.ext
  let k := kindOf w.ty
  writeV w.d { a with sec := putElem k a.sec (i % k.count) c.raw, poison := a.poison || c.poison }
def execVins (w : Fields) (s : State) : Out := runInstr (.vins w) w (seqBody (vinsBody w)) s
def vsideGetBody (w : Fields) : M Unit := do
  let a := (← get).readV w.a 0
  writeG w.d a.side.toNat a.poison
def execVsideGet (w : Fields) (s : State) : Out := runInstr (.vsideGet w) w (seqBody (vsideGetBody w)) s
def vsideSetBody (w : Fields) : M Unit := do
  let a := (← get).readV w.a 0
  let b ← readSrc32 3 w.b w.ext
  writeV w.d { a with side := BitVec.ofNat 16 b.raw, poison := a.poison || b.poison }
def execVsideSet (w : Fields) (s : State) : Out := runInstr (.vsideSet w) w (seqBody (vsideSetBody w)) s
def vtagBody (w : Fields) : M Unit := do
  let a := (← get).readV w.a 0
  writeV w.d { a with tag := w.ty }
def execVtag (w : Fields) (s : State) : Out := runInstr (.vtag w) w (seqBody (vtagBody w)) s

end Sys2Proof.Machine
end

