-- ==== Sys2Proof/Machine/Matrix.lean ====
section
/-!
DEFINITION. Accumulator tiles and their arithmetic: the product of MMA, the step of SOFTSTEP, and the row instructions
(R294 to R314).
-/
namespace Sys2Proof.Machine

def negInf : Nat := 0xFF800000
def f32Nan : Nat := 0x7FC00000
def f32One : Nat := 0x3F800000

-- Row states (R295).
def rowFRESH : BitVec 2 := 0
def rowLIVE : BitVec 2 := 1
def rowEMPTY : BitVec 2 := 2

def AccRow.sum (r : AccRow) (c : Nat) : Nat := (r.o.get 0 c).toNat
/-- The 128 sums of a row. -/
def AccRow.sums (r : AccRow) : List Nat := (List.range 128).map r.sum
/-- A row with other sums. -/
def AccRow.withSums (r : AccRow) (xs : List Nat) : AccRow :=
  { r with o := ((List.range xs.length).zip xs).foldl (fun t e => Tbl.put 0 t e.1 (BitVec.ofNat 32 e.2)) [] }
/-- Make a row NaN (R295). -/
def AccRow.mkNan (r : AccRow) : AccRow :=
  { r.withSums (List.replicate 128 f32Nan) with m := 0x7FC00000, l := 0x7FC00000, st := rowLIVE }
def AccTile.row (t : AccTile) (r : Nat) : AccRow := Tbl.get {} t r
def AccTile.setRow (t : AccTile) (r : Nat) (v : AccRow) : AccTile := Tbl.put {} t r v

def isNan32 (x : Nat) : Bool := (f32 x).isNan
/-- The larger of two FP32 codes, neither NaN. -/
def max32 (a b : Nat) : Nat := pickMinMax fFP32 true a b
def sub32 (a b : Nat) : Nat := roundRne ((f32 a).add false (f32 b).neg) fFP32

/-! ### The product of MMA (R298, R299) -/

/-- Elements of a K block, and K blocks of a row, of an operand tag. -/
def kbWidth (tag : BitVec 4) : Nat := if tag = tagBF16 then 8 else 32
def kbCount (tag : BitVec 4) : Nat := if tag = tagBF16 ∨ tag = tagE2M1 then 8 else 4

/-- Exact value of element k of an operand row, given its sectors. -/
def rowElem (tag : BitVec 4) (secs : List SectorLit) (k : Nat) : Num :=
  let kd := kindOf tag
  let x := secs.getD (k / kd.count) { data := 0, side := 0, poison := false }
  elemValue kd true x.data x.side (k % kd.count)

/-- The operand B: its sectors in order of offset; column j and K index k (R298). -/
def bElem (tag : BitVec 4) (kmaj : Bool) (secs : List SectorLit) (k j : Nat) : Num :=
  let kd := kindOf tag
  let perRow := 128 / kd.count
  if kmaj then
    let x := secs.getD (perRow * k + j / kd.count) { data := 0, side := 0, poison := false }
    elemValue kd true x.data x.side (j % kd.count)
  else rowElem tag ((secs.drop (4 * j)).take 4) k

/-- kpart (R299). -/
def kpart (xs ys : List Num) : Nat :=
  roundRne (exactSum false ((xs.zip ys).map fun e => e.1.mul e.2)) fFP32

/-- One element: the accumulator with every K block added in order. -/
def mmaElem (ta tb : BitVec 4) (kmaj : Bool) (arow : List SectorLit) (bsecs : List SectorLit) (j acc : Nat) : Nat :=
  let w := kbWidth ta
  (List.range (kbCount ta)).foldl (fun t b =>
    let ks := (List.range w).map fun i => b * w + i
    f32Add t (kpart (ks.map (rowElem ta arow)) (ks.map fun k => bElem tb kmaj bsecs k j))) acc

/-- The accumulator after an MMA: A rows from `latch` (row*4 + sector), B sectors in order. -/
def mmaTile (ta tb : BitVec 4) (kmaj : Bool) (latch : Tbl SectorLit) (bsecs : List SectorLit) (t : AccTile) : AccTile :=
  let bp := bsecs.any SectorLit.poison
  (List.range 64).foldl (fun acc i =>
    let arow := (List.range 4).map fun q => Tbl.get zeroLit' latch (4 * i + q)
    let r := t.row i
    let r' := r.withSums ((List.range 128).map fun j => mmaElem ta tb kmaj arow bsecs j (r.sum j))
    acc.setRow i { r' with poison := r.poison || arow.any SectorLit.poison || bp }) t
where zeroLit' : SectorLit := { data := 0, side := 0, poison := false }

/-! ### SOFTSTEP (R303 to R305) -/

/-- The mask of a SOFTSTEP: its kind and position values. -/
structure Mask where
  kind : Nat
  qbase : Int := 0
  kbase : Int := 0
  lo : Int := 0
  hi : Int := 0
  deriving DecidableEq, Repr
/-- Column j of row r is unmasked (R303). -/
def Mask.open (m : Mask) (r j : Nat) : Bool :=
  let d := (m.qbase + r) - (m.kbase + j)
  match m.kind with
  | 0 => true
  | 1 => decide (0 ≤ d)
  | _ => decide (m.lo ≤ d) && decide (d ≤ m.hi)

/-- One row of SOFTSTEP: the row of O after it and the P row as FP32 codes (R304). -/
def softRow (mask : Mask) (scale r : Nat) (srow orow : AccRow) : AccRow × List Nat :=
  let s := srow.sums.map fun x => f32Mul scale x
  let u := (List.range 128).map (mask.open r)
  let us := u.zip s
  if isNan32 orow.m.toNat || us.any (fun e => e.1 && isNan32 e.2) then (orow.mkNan, List.replicate 128 f32Nan)
  else
    let mt := us.foldl (fun m e => if e.1 then max32 m e.2 else m) negInf
    let m2 := max32 orow.m.toNat mt
    if m2 = negInf then
      ({ orow with st := if orow.st = rowFRESH then rowEMPTY else orow.st }, List.replicate 128 0)
    else
      let a := if orow.m.toNat = negInf then f32One else exp2e9 (sub32 orow.m.toNat m2)
      let p := us.map fun e => if e.1 then exp2e9 (sub32 e.2 m2) else 0
      let l := p.foldl f32Add (f32Mul orow.l.toNat a)
      ({ orow.withSums (orow.sums.map fun x => f32Mul x a) with
          l := BitVec.ofNat 32 l, m := BitVec.ofNat 32 m2, st := rowLIVE }, p)

/-- The sectors of a P row, in the layout of R305; the words are the 128 of the row. -/
def pSectors (tag : BitVec 4) (rm : Nat) (words : List Nat) (p : List Nat) (poison : Bool) : List SectorLit :=
  if tag = tagBF16 then
    let codes := (List.range 128).zip p |>.map fun e => roundNum (f32 e.2) fBF16 rm (words.getD e.1 0)
    (List.range 8).map fun i => { data := packElems (.flt fBF16) ((codes.drop (16 * i)).take 16), side := 0, poison }
  else
    (List.range 4).map fun b =>
      let (sec, side) := mxPack (.flt fE4M3) rm ((words.drop (32 * b)).take 32) (((p.drop (32 * b)).take 32).map f32)
      { data := sec, side, poison }

/-! ### Row instructions (R306 to R314) -/

/-- The quadrant and physical number of an accumulator that the current thread names: ILLEGAL_OPCODE at or above ACC
(R294, R315), and a wait while an operation of the group runs on it (R296). -/
def useAcc (n : Nat) : M Nat := do
  let s ← get
  match s.myUnit with
  | none => illegal
  | some u =>
    match u.group s.me.group with
    | none => illegal
    | some g =>
      match g.acc[n]? with
      | none => illegal
      | some phys =>
        let q := s.quadOf (tidCq s.cur)
        let runs (r : Option EngineRun) : Bool :=
          r.any fun x => x.unit == s.me.unit && x.group == s.me.group && (x.acc == phys || x.accB == phys)
        if runs q.mma || runs q.soft then hold .engine
        return tidCq s.cur * 8 + phys

def State.accTile (s : State) (k : Nat) : AccTile := s.accs.get [] k
def State.setAcc (s : State) (k : Nat) (t : AccTile) : State := { s with accs := Tbl.put [] s.accs k t }
/-- Rows that the current thread owns (R294). -/
def State.rows (s : State) : List Nat := [2 * tidLane s.cur, 2 * tidLane s.cur + 1]
/-- Change the owned rows of an accumulator. -/
def modRows (k : Nat) (f : Nat → AccRow → AccRow) : M Unit :=
  upd fun s => s.setAcc k (s.rows.foldl (fun t r => t.setRow r (f r (t.row r))) (s.accTile k))

def aclrBody (w : Fields) : M Unit := do
  unsupportedInTx
  let k ← useAcc w.d.accNum
  modRows k fun _ _ => {}
def execAclr (w : Fields) (s : State) : Out := runInstr (.aclr w) w (seqBody (aclrBody w)) s

/-- Bytes of one row's data (R307). -/
def rowBytes (tag : BitVec 4) : Nat :=
  if tag = tagF32 then 512 else if tag = tagBF16 ∨ tag = tagF16 then 256 else if tag = tagE2M1 then 64 else 128

/-- The current thread's span of a row image of n sectors a thread: base + 2n × st (R307). -/
def State.spanAt (s : State) (base n : Nat) : Nat := base + tidLane s.cur * (32 * n)

/-- The two owned rows in a tile or in memory (R307): the data of a load, n sectors in all. -/
def loadSpan (w : Fields) (opnd : Nat) (x : Spec) (n : Nat) : M (List SectorLit) := do
  if w.sub.getLsbD 0 then
    let base ← consume opnd (← readPair x)
    aligned cMISALIGNED opnd base 32
    let va := (← get).spanAt base n % 2 ^ 64
    loadSectors opnd va (32 * n)
  else
    let h := w.ext.toNat % 256
    let off := (← get).spanAt (← tileOffset opnd x) n
    let at_ ← tileSectors opnd h ((List.range n).map fun i => off + 32 * i) false false
    let s ← get
    return at_.map s.mem.sector

/-- A row from its image (R308). -/
def rowFrom (tag : BitVec 4) (st : Bool) (secs : List SectorLit) (old : AccRow) : AccRow :=
  let nd := rowBytes tag / 32
  let k := kindOf tag
  let sums := (List.range 128).map fun c =>
    let x := secs.getD (c / k.count) zero
    roundRne (elemValue k true x.data x.side (c % k.count)) fFP32
  -- F32 is copied bit for bit
  let raw := (List.range 128).map fun c => elemCode k (secs.getD (c / k.count) zero).data (c % k.count)
  let r := old.withSums (if tag = tagF32 then raw else sums)
  let poison := secs.any SectorLit.poison
  if st then
    let x := (secs.getD nd zero).data.toNat
    let code := x / 2 ^ 64 % 4
    let bad := x / 2 ^ 66 ≠ 0 ∨ (secs.getD nd zero).side ≠ 0 ∨ code = 3
    { r with m := BitVec.ofNat 32 x, l := BitVec.ofNat 32 (x / 2 ^ 32),
             st := if bad then rowFRESH else BitVec.ofNat 2 code, poison := poison || decide bad }
  else { r with poison }
where zero : SectorLit := { data := 0, side := 0, poison := false }

def aloadBody (w : Fields) : M Unit := do
  unsupportedInTx
  let k ← useAcc w.d.accNum
  unless' (w.sub.getLsbD 0) (tileReady (w.ext.toNat % 256))
  let st := w.sub.getLsbD 1
  let n := rowBytes w.ty / 32 + (if st then 1 else 0)
  let secs ← loadSpan w 2 w.a (2 * n)
  modRows k fun r old => rowFrom w.ty st ((secs.drop (n * (r % 2))).take n) old
def execAload (w : Fields) (s : State) : Out := runInstr (.aload w) w (seqBody (aloadBody w)) s

/-- The image of a row in a format (R307, R309); the words are those of the row. -/
def rowImage (tag : BitVec 4) (rm : Nat) (words : List Nat) (st : Bool) (r : AccRow) : List SectorLit :=
  let k := kindOf tag
  let lit (sec : Sector) (side : BitVec 16) : SectorLit := { data := sec, side, poison := r.poison }
  let xs := r.sums
  let data : List SectorLit := match k with
    | .mx E =>
      let per := if E.width = 4 then 64 else 32
      (List.range (128 / per)).map fun b =>
        let (sec, side) := mxPack E rm ((words.drop (per * b)).take per) (((xs.drop (per * b)).take per).map f32)
        lit sec side
    | .flt F =>
      let codes := if tag = tagF32 then xs
        else (List.range 128).zip xs |>.map fun e => roundNum (f32 e.2) F rm (words.getD e.1 0)
      (List.range (128 / k.count)).map fun i => lit (packElems k ((codes.drop (k.count * i)).take k.count)) 0
    | _ => []
  let state := lit (BitVec.ofNat 256 (r.m.toNat + 2 ^ 32 * r.l.toNat + 2 ^ 64 * r.st.toNat)) 0
  if st then data ++ [state] else data

def adrainBody (w : Fields) : M Unit := do
  unsupportedInTx
  let k ← useAcc w.a.accNum
  let mem := w.sub.getLsbD 0
  let st := w.sub.getLsbD 1
  let amax := w.sub.toNat / 4 % 4
  let h := w.ext.toNat % 256
  let h2 := w.ext.toNat / 256 % 256
  unless' mem (tileReady h)
  if amax = 1 then tileReady h2
  let s ← get
  let rm := w.rm.toNat
  let rows := s.rows.map (s.accTile k).row
  -- the words are kept only when nothing traps or waits
  let nw := if rm = rmSR ∧ w.ty ≠ tagF32 then 128 else 0
  let (words, rnd) := rndTake (2 * nw) s.me.rnd
  let image := (rowImage w.ty rm (words.take nw) st (rows.getD 0 {})) ++
    (rowImage w.ty rm (words.drop nw) st (rows.getD 1 {}))
  let n := image.length
  -- operands
  let base0 ← if mem then consume 3 (← readPair w.b) else tileOffset 3 w.b
  let base := if mem then s.spanAt base0 n % 2 ^ 64 else s.spanAt base0 n
  let c ← match amax with
    | 1 => consume 4 (← readSrc32 4 w.c 0)
    | 2 => consume 4 (← readPair w.c)
    | _ => pure 0
  -- the checks of image and fold are made together, step by step (R309, R433)
  let offs := (List.range n).map fun i => base + 32 * i
  if mem then aligned cMISALIGNED 3 base0 32 else tileAligned 3 h offs
  if amax = 1 then foldUnitAligned 4 h2 c
  if amax = 2 then aligned cMISALIGNED 4 c 4
  if mem then checkRange 3 base (32 * n) else discard (tileInside 3 h offs false)
  if amax = 1 then foldUnitInside 4 h2 c
  if amax = 2 then checkRange 4 c 4
  let tiles ← if mem then do checkLocks 3 base (32 * n) true; pure [] else tileUnlocked 3 h offs true
  let fold ← if amax = 1 then foldUnitUnlocked 4 h2 c else pure 0
  if amax = 2 then checkLocks 4 c 4 true
  if !mem then waitBusy tiles
  if amax = 1 then foldUnitFree fold
  let me := (← get).who
  let ps ← if mem then storeChecks me 3 base (32 * n) true false else pure []
  let fps ← if amax = 2 then foldPkgPlaces 4 c else pure []
  if mem then raceTrap (tagOf base me.asid me.part) (presentSecs ps base (32 * n))
  let v := amaxWord (rows.flatMap fun r => r.sums.map f32)
  let poison := rows.any AccRow.poison
  let ws : List SecWrite := (List.range n).zip image |>.map fun e =>
    { va := base + 32 * e.1, n := 32, val := e.2.data.toNat, side := some e.2.side, poison := some e.2.poison }
  let gone := (ps.filter fun e => e.2.isNone).map Prod.fst
  let entries := (gone.map fun l => (l, ws.filter (fun x => x.va / 128 * 128 == l), LogOp.store)) ++
    (if amax = 2 then foldEntries fps c v poison else [])
  -- one key past the leases of the image's present lines (R448)
  let here := foundOf ps
  upd fun s => s.pastLeases s.src (leaseLines here)
  unless' entries.isEmpty (retire entries)
  if mem then storeClaim me base (32 * n) true ps
  if amax = 2 then storeClaim me c 4 false fps
  if mem then unless' here.isEmpty (upd fun s => s.performHere s.src here ws)
  else upd fun s => { s with mem := (tiles.zip image).foldl (fun m e => m.setSector e.1 e.2) s.mem }
  if amax = 1 then upd fun s => s.foldTile fold v poison
  if amax = 2 then upd fun s => (s.foldAt s.src (foundOf fps) c v poison).bumpCore s.src s.me.part
  upd fun s => s.modMe fun th => { th with rnd }
def execAdrain (w : Fields) (s : State) : Out := runInstr (.adrain w) w (seqBody (adrainBody w)) s

/-- ARESCALE on one row (R310). -/
def rescaleRow (v : Nat) (poison : Bool) (r : AccRow) : AccRow :=
  let r := { r with poison := r.poison || poison }
  if isNan32 v || isNan32 r.m.toNat then r.mkNan
  else
    let t := max32 r.m.toNat v
    if t = negInf then r
    else
      let a := if r.m.toNat = negInf then f32One else exp2e9 (sub32 r.m.toNat t)
      { r.withSums (r.sums.map fun x => f32Mul x a) with
        l := BitVec.ofNat 32 (f32Mul r.l.toNat a), m := BitVec.ofNat 32 t, st := rowLIVE }
def arescaleBody (w : Fields) : M Unit := do
  unsupportedInTx
  let k ← useAcc w.d.accNum
  let a ← readSrc32 2 w.a 0
  modRows k fun _ r => rescaleRow (a.raw % 2 ^ 32) a.poison r
def execArescale (w : Fields) (s : State) : Out := runInstr (.arescale w) w (seqBody (arescaleBody w)) s

/-- SMERGE of one row of A into one of D (R311). -/
def mergeRow (d a : AccRow) : AccRow :=
  let d := { d with poison := d.poison || a.poison }
  let m1 := d.m.toNat
  let m2 := a.m.toNat
  if isNan32 m1 || isNan32 m2 then d.mkNan
  else
    let m := max32 m1 m2
    if m = negInf then { d with st := if d.st = rowFRESH ∧ a.st = rowFRESH then rowFRESH else rowEMPTY }
    else
      let a1 := if m1 = negInf then 0 else exp2e9 (sub32 m1 m)
      let a2 := if m2 = negInf then 0 else exp2e9 (sub32 m2 m)
      let join (x y : Nat) : Nat := roundRne (((f32 x).mul (f32 a1)).add false ((f32 y).mul (f32 a2))) fFP32
      { d.withSums ((d.sums.zip a.sums).map fun e => join e.1 e.2) with
        l := BitVec.ofNat 32 (join d.l.toNat a.l.toNat), m := BitVec.ofNat 32 m, st := rowLIVE }
def smergeBody (w : Fields) : M Unit := do
  unsupportedInTx
  let k ← useAcc w.d.accNum
  let j ← useAcc w.a.accNum
  let src := (← get).accTile j
  modRows k fun r d => mergeRow d (src.row r)
def execSmerge (w : Fields) (s : State) : Out := runInstr (.smerge w) w (seqBody (smergeBody w)) s

/-- ANORM on one row (R312). -/
def normRow (r : AccRow) : AccRow :=
  let l := f32 r.l.toNat
  if l.isNan then r.withSums (List.replicate 128 f32Nan)
  else if l.isZero then { r.withSums [] with l := 0 }
  else { r.withSums (r.sums.map fun x => roundRne ((f32 x).div l) fFP32) with l := 0x3F800000 }
def anormBody (w : Fields) : M Unit := do
  unsupportedInTx
  let k ← useAcc w.d.accNum
  modRows k fun _ r => normRow r
def execAnorm (w : Fields) (s : State) : Out := runInstr (.anorm w) w (seqBody (anormBody w)) s

def arowBody (w : Fields) : M Unit := do
  unsupportedInTx
  let k ← useAcc w.a.accNum
  let s ← get
  let r := (s.accTile k).row (2 * tidLane s.cur + (if w.sub.getLsbD 0 then 1 else 0))
  if w.sub.getLsbD 1 then writeG w.d (r.st.toNat + (if r.poison then 4 else 0)) false
  else writePair w.d (r.m.toNat + 2 ^ 32 * r.l.toNat) r.poison
def execArow (w : Fields) (s : State) : Out := runInstr (.arow w) w (seqBody (arowBody w)) s

def astatBody (w : Fields) : M Unit := do
  unsupportedInTx
  let s ← get
  let group := match s.myUnit with
    | some u => ((u.group s.me.group).map Group.check).getD 0
    | none => 0
  writeG w.d (if w.sub.getLsbD 0 then (s.quadOf (tidCq s.cur)).check else group) false
def execAstat (w : Fields) (s : State) : Out := runInstr (.astat w) w (seqBody (astatBody w)) s

end Sys2Proof.Machine
end

