-- ==== Sys2Proof/Machine/Converge.lean ====
section
/-!
DEFINITION. Convergence: CVDECL, signing, the round that issues when SIGNED equals DECL, its five operations CVSIGN, LXCH,
VOTE, MMA and SOFTSTEP, and EXIT (R40 to R43, R231, R232, R236, R243, R296 to R305).
-/
namespace Sys2Proof.Machine

/-- Key of convergence register n of a thread's quadrant. -/
def cvKey (t : Tid) (n : Nat) : Nat := tidCq t * 16 + n
def State.cv (s : State) (k : Nat) : CvReg := s.cvs.get {} k
def State.setCv (s : State) (k : Nat) (r : CvReg) : State := { s with cvs := Tbl.put {} s.cvs k r }
/-- Bits 63:0 of a register (R40, R49). -/
def CvReg.bits (r : CvReg) : Dword := r.signed ++ r.decl
/-- The register number a field names. -/
def cvNum : Spec → Nat
  | .cv n => n.toNat
  | _ => 0
/-- OP code of an instruction (R40). -/
def cvOp : Instr → BitVec 3
  | .mma _ => 1
  | .softstep _ => 2
  | .lxch _ => 3
  | .vote _ => 4
  | _ => 5

/-- The group of the current thread, with its unit. -/
def State.myGroup (s : State) : Option (UnitRec × Group) :=
  match s.myUnit with
  | none => none
  | some u => (u.group s.me.group).map fun g => (u, g)

/-! ### CVDECL (R41, R243) -/

def cvdeclBody (w : Fields) : M Unit := do
  unsupportedInTx
  let mask ← consume 2 (← readSrc32 2 w.a w.ext)
  let s ← get
  match s.myGroup with
  | none => illegal
  | some (_, g) =>
    let k := cvKey s.cur (cvNum w.c)
    let r := s.cv k
    -- the effective mask: exited lanes are cleared
    let there (i : Nat) : Bool := mask.testBit i && g.tids.any fun t => tidLane t == i && (s.thr t).live
    let eff : BitVec 32 := BitVec.ofNat 32 ((List.range 32).foldl (fun m i => if there i then m + 2 ^ i else m) 0)
    let bad : M Unit := trap cCONVERGENCE 0 r.bits
    let mine := r.unit == s.me.unit && r.cgn == BitVec.ofNat 10 g.cgn
    if (mask % 2 ^ 32) / 2 ^ g.n ≠ 0 ∨ eff = 0 then bad
    else if r.declared && !mine then bad
    else if r.declared && r.decl == eff then return
    else if r.declared && r.signed != 0 then bad
    else
      let new : CvReg :=
        { decl := eff, signed := 0, cgn := BitVec.ofNat 10 g.cgn, op := 0, declared := true, unit := s.me.unit }
      upd fun s => s.setCv k new
def execCvdecl (w : Fields) (s : State) : Out := runInstr (.cvdecl w) w (seqBody (cvdeclBody w)) s

/-! ### What a round does when it issues -/

/-- What becomes of a round. -/
inductive Round where
  /-- performed: each signer goes on -/
  | done (s : State)
  /-- a check fails: each signer traps -/
  | fail (code opnd : Nat) (val : Dword) (s : State)
  /-- it waits for its engine, an accumulator or a page -/
  | wait (s : State)

/-- A check or effect of a round, run in the place of one of its signers: a trap fails the round, a wait leaves the
signer in Signed state. -/
def inRound (s : State) (t : Tid) (n : Nat) (m : M State) : Round :=
  match m.run { s with cur := t } with
  | .ok s' _ => .done { s' with cur := s.cur }
  | .error (.trap c o v) s' => .fail c o v { s' with cur := s.cur }
  | .error .keep s' =>
    let held := match (s'.thr t).wait with
      | .page keys => keys
      | _ => []
    .wait { (s'.modThr t fun th => { th with wait := .signed n }).setCv (cvKey t n) { s'.cv (cvKey t n) with held } with cur := s.cur }

/-- A 32-bit operand of a signer that no window feeds. -/
def State.valOf (s : State) (t : Tid) (x : Spec) (ext : BitVec 32) : Val :=
  let s := { s with cur := t }
  match x with
  | .g n => { raw := (s.gReg n.toNat).val.toNat, poison := (s.gReg n.toNat).poison }
  | .sv n => { raw := s.special n.toNat % 2 ^ 32, poison := false }
  | .imm => { raw := ext.toNat, poison := false }
  | _ => { raw := 0, poison := false }
/-- A value of a signer by type: one register or a pair. -/
def State.typedOf (s : State) (t : Tid) (x : Spec) (w64 : Bool) : Val :=
  match x with
  | .g n => if w64 then { s with cur := t }.pair n.toNat else s.valOf t x 0
  | _ => { raw := 0, poison := false }

/-- The lane that LXCH takes its value from (R231). -/
def lxchSource (mode : Nat) (decl : BitVec 32) (b : Nat → Nat) (n : Nat) : Nat :=
  let lanes := bitsOf decl
  match mode with
  | 0 => b n % 32
  | 1 => (n + 32 - b n % 32) % 32
  | 2 => n ^^^ (2 ^ min (b n) 5 - 1)
  | _ => match lanes.find? fun m => b m != 0 with
    | some m => m
    | none => lanes.headD 0

def issueLxch (w : Fields) (decl : BitVec 32) (signers : List Tid) (s : State) : Round :=
  let w64 := is64 w.ty
  let bs : Tbl Val := signers.foldl (fun t x => Tbl.ins t (tidLane x) (s.valOf x w.b w.ext)) []
  let as : Tbl Val := signers.foldl (fun t x => Tbl.ins t (tidLane x) (s.typedOf x w.a w64)) []
  if bs.any fun e => e.2.poison then .fail cPOISON 3 0 s
  else
    let b (n : Nat) : Nat := (bs.get { raw := 0, poison := false } n).raw
    let put (s : State) (t : Tid) : State :=
      let n := tidLane t
      let src := lxchSource (w.sub.toNat % 4) decl b n
      let v := as.get { raw := 0, poison := false } (if decl.getLsbD src then src else n)
      match w.d with
      | .g d =>
        if w64 then s.setPairOf t d.toNat v.raw v.poison
        else s.setGOf t d.toNat { val := BitVec.ofNat 32 v.raw, poison := v.poison }
      | _ => s
    .done (signers.foldl put s)

def issueVote (w : Fields) (signers : List Tid) (s : State) : Round :=
  let a (t : Tid) : Bool := { s with cur := t }.predOf w.a
  let yes := signers.filter a
  let put (s : State) (t : Tid) : State :=
    match w.d, w.sub.toNat % 4 with
    | .p d, 0 => s.modThr t fun th => th.setPred d.toNat !yes.isEmpty
    | .p d, 1 => s.modThr t fun th => th.setPred d.toNat (yes.length == signers.length)
    | .g d, 2 => s.setGOf t d.toNat { val := BitVec.ofNat 32 (yes.foldl (fun m x => m + 2 ^ tidLane x) 0) }
    | .g d, _ => s.setGOf t d.toNat { val := BitVec.ofNat 32 yes.length }
    | _, _ => s
  .done (signers.foldl put s)

/-- An accumulator of the group is in use by a running operation (R296). -/
def Quad.usesAcc (q : Quad) (unit group phys : Nat) : Bool :=
  [q.mma, q.soft].any fun r => r.any fun x => x.unit == unit && x.group == group && (x.acc == phys || x.accB == phys)

/-- The registers that supply A, by register and lane: the lowest that does not carry the tag (R300, R315). -/
def badTag (s : State) (signers : List Tid) (base : Nat) (tag : BitVec 4) : Option VReg :=
  ((List.range 8).flatMap fun i => signers.map fun t => Tbl.get {} (s.thr t).v (base + i)).find? fun v => v.tag != tag

def issueMma (w : Fields) (n : Nat) (r : CvReg) (gnum : Nat) (g : Group) (signers : List Tid)
    (s : State) : Round :=
  let cq := match signers with
    | t :: _ => tidCq t
    | [] => 0
  let q := s.quadOf cq
  let phys := g.acc.getD w.d.accNum 0
  if q.mma.isSome || q.usesAcc r.unit gnum phys then .wait s
  else
    let base := w.a.vNum
    let h := w.ext.toNat % 256
    let lead := signers.headD 0
    let o := s.valOf lead w.b 0
    let tagErr : Option (BitVec 4 × State) := match g.latch with
      | some (t, _) =>
        if t = w.ty then none
        else some (t, s.modUnit r.unit fun u => u.modGroup gnum fun g => { g with latch := none })
      | none => (badTag s signers base w.ty).map fun v => (v.tag, s)
    match tagErr with
    | some (t, s) => .fail cTAG 2 (t.setWidth 64) s
    | none =>
      if tidLane lead = 0 ∧ o.poison then .fail cPOISON 3 0 s
      else if g.n ≠ 32 ∨ r.decl ≠ BitVec.allOnes 32 then .fail cCONVERGENCE 0 r.bits s
      else inRound s lead n do
        let at_ ← tileAddrs 3 h ((List.range 512).map fun i => o.raw + 32 * i) (w.sub.getLsbD 0) false
        let s ← get
        let bsecs := at_.map s.mem.sector
        let fromRegs : Tbl SectorLit := signers.foldl (fun t x =>
          (List.range 8).foldl (fun t i =>
            let v := Tbl.get {} (s.thr x).v (base + i)
            Tbl.ins t (8 * tidLane x + i) { data := v.sec, side := v.side, poison := v.poison }) t) []
        let latch := match g.latch with
          | some (_, l) => l
          | none => fromRegs
        let k := cq * 8 + phys
        let run : EngineRun :=
          { unit := r.unit, group := gnum, acc := phys, accB := phys, handle := h, startAt := s.now
            part := (s.thr lead).part, cid := (s.thr lead).cid
            tile := mmaTile w.ty (mmaBTag w) (w.sub.getLsbD 2) latch bsecs (s.accTile k) }
        let keep := if w.sub.getLsbD 1 then some (w.ty, latch) else none
        let s := s.modUnit r.unit fun u => u.modGroup gnum fun g => { g with latch := keep }
        return s.modQuad cq fun q => { q with mma := some run }

/-- The tile that receives P is large enough, and its region is not locked (R302). -/
def checkP (h bytes : Nat) : M (List Nat) := do
  match (← get).myUnit with
  | none => illegal
  | some u =>
    let size := tileSize (u.tile h) * 4096
    if size < bytes then trap cPAGE 0 (tileVal h size)
    tileAddrs 0 h ((List.range (bytes / 32)).map fun i => 32 * i) false true

def issueSoft (w : Fields) (n : Nat) (r : CvReg) (gnum : Nat) (g : Group) (signers : List Tid) (s : State) : Round :=
  let cq := match signers with
    | t :: _ => tidCq t
    | [] => 0
  let q := s.quadOf cq
  let physO := g.acc.getD w.d.accNum 0
  let physS := g.acc.getD w.a.accNum 0
  if q.soft.isSome || q.usesAcc r.unit gnum physO || q.usesAcc r.unit gnum physS then .wait s
  else
    let lead := signers.headD 0
    let kind := w.sub.toNat % 4
    let pos (i : Nat) : GReg := { s with cur := lead }.gReg (w.b.gNum + i)
    let used := if kind = 0 then 0 else if kind = 1 then 2 else 4
    if tidLane lead = 0 ∧ (List.range used).any (fun i => (pos i).poison) then .fail cPOISON 3 0 s
    else if g.n ≠ 32 ∨ r.decl ≠ BitVec.allOnes 32 then .fail cCONVERGENCE 0 r.bits s
    else inRound s lead n do
      let h := w.ext.toNat % 256
      let bytes := if w.ty = tagBF16 then 16384 else 8192
      let base := (← get).window (w.ext.toNat / 2 ^ 29)
      if base = 0 then illegal
      let at_ ← checkP h bytes
      let scale ← readConst 0 (w.ext.toNat / 2 ^ 29) (w.ext.toNat / 2 ^ 16 % 8192) 4
      let s ← get
      let i32 (i : Nat) : Int := (pos i).val.toInt
      let mask : Mask := { kind, qbase := i32 0, kbase := i32 1, lo := i32 2, hi := i32 3 }
      let sTile := s.accTile (cq * 8 + physS)
      let oTile := s.accTile (cq * 8 + physO)
      let rm := w.rm.toNat
      let nw := if rm = rmSR then 128 else 0
      -- each row's words come from the signer that owns it, rows ascending
      let step (acc : AccTile × List SectorLit × State) (row : Nat) : AccTile × List SectorLit × State :=
        let (t, ps, s) := acc
        let owner := (signers.find? fun x => tidLane x == row / 2).getD lead
        let (words, rnd) := rndTake nw (s.thr owner).rnd
        let (o, p) := softRow mask scale.raw row (sTile.row row) (t.row row)
        let poison := (sTile.row row).poison || scale.poison
        (t.setRow row { o with poison := o.poison || poison }, ps ++ pSectors w.ty rm words p poison,
          s.modThr owner fun th => { th with rnd })
      let (tile, ps, s) := (List.range 64).foldl step (oTile, [], s)
      let run : EngineRun :=
        { unit := r.unit, group := gnum, acc := physO, accB := physS, handle := h, startAt := s.now, tile
          part := (s.thr lead).part, cid := (s.thr lead).cid }
      let s := { s with mem := (at_.zip ps).foldl (fun (m : Mem) (e : Nat × SectorLit) => m.setSector e.1 e.2) s.mem }
      return s.modQuad cq fun q => { q with soft := some run }

/-- What the operation of a complete round comes to. -/
def issueOf (n : Nat) (r : CvReg) (gnum : Nat) (g : Group) (signers : List Tid) (s : State) : Round :=
  match r.instr with
  | some (.mma w) => issueMma w n r gnum g signers s
  | some (.softstep w) => issueSoft w n r gnum g signers s
  | some (.lxch w) => issueLxch w r.decl signers s
  | some (.vote w) => issueVote w signers s
  | _ => .done s

/-- Trap one thread, as the current one would. -/
def State.trapThread (s : State) (t : Tid) (code opnd : Nat) (val : Dword) : State :=
  if (s.thr t).live then { ({ s with cur := t }.takeTrap code opnd val) with cur := s.cur } else s

/-- A register's round is complete. -/
def CvReg.complete (r : CvReg) : Bool := r.declared && r.decl != 0 && r.signed == r.decl
/-- Accumulators that a round names. -/
def CvReg.accs (r : CvReg) : List Nat :=
  match r.instr with
  | some (.mma w) => [w.d.accNum]
  | some (.softstep w) => [w.d.accNum, w.a.accNum]
  | _ => []
/-- Bytes of its core's tile store that a round accesses: first, and one past the last (R296, R302). -/
def State.roundSpan (s : State) (u : UnitRec) (r : CvReg) (lead : Tid) : Option (Nat × Nat) :=
  match r.instr with
  | some (.mma w) =>
    let all := u.tileRange (w.ext.toNat % 256)
    let lo := all.1 + (s.valOf lead w.b 0).raw
    some (if w.sub.getLsbD 0 then all else (lo, lo + 16384))
  | some (.softstep w) =>
    let lo := (u.tileRange (w.ext.toNat % 256)).1
    some (lo, lo + (if w.ty = tagBF16 then 16384 else 8192))
  | _ => none
/-- A tile that an operation running, or a round signed earlier, holds busy meets the bytes of a round (R296). -/
def State.tileAwaited (s : State) (u : UnitRec) (r : CvReg) (lead : Tid) : Bool :=
  match s.roundSpan u r lead with
  | none => false
  | some (lo, hi) =>
    (s.runningTiles r.unit ++ s.claimedTiles r.unit fun x => decide (x.claim < r.claim)).any fun h =>
      decide ((u.tileRange h).1 < hi ∧ lo < (u.tileRange h).2)
/-- A complete round that took its place earlier goes first: on the same engine, or where both name an accumulator of
their group (R296). -/
def State.roundBefore (s : State) (k : Nat) (r : CvReg) : Bool :=
  s.cvs.any fun e =>
    let x := e.2
    e.1 != k && e.1 / 16 == k / 16 && x.complete && x.turn != 0 && decide (x.turn < r.turn) &&
      (x.op == r.op || (x.unit == r.unit && x.cgn == r.cgn && x.accs.any r.accs.contains))
/-- A round that an engine performs takes its place among those that wait. -/
def State.takeTurn (s : State) (k : Nat) (r : CvReg) : CvReg × State :=
  if r.turn ≠ 0 ∨ r.accs.isEmpty then (r, s)
  else
    let r := { r with turn := s.nextTurn + 1 }
    (r, { s.setCv k r with nextTurn := s.nextTurn + 1 })
/-- A round has ended: its tile is busy for it no longer. -/
def State.clearRound (s : State) (k : Nat) (r : CvReg) : State :=
  let s := s.setCv k { r with signed := 0, op := 0, pc := 0, instr := none, claim := 0, turn := 0, held := [] }
  match instrTile r.instr with
  | some h => s.wakeTile r.unit h
  | none => s

/-- Issue the round of a convergence register whose SIGNED equals its DECL (R42, R43). No round of a stopping unit begins
(R74). -/
def State.tryIssue (s : State) (k : Nat) : State :=
  let r := s.cv k
  if !r.complete then s
  else match s.units.find? r.unit with
  | none => s
  | some u =>
    match List.find? (fun (e : Nat × Group) => BitVec.ofNat 10 e.2.cgn == r.cgn) u.groups with
    | none => s
    | some (gnum, g) =>
      let signers := g.tids.filter fun t => r.decl.getLsbD (tidLane t)
      if u.stopping.isSome || s.tileAwaited u r (signers.headD 0) then s
      else
        let (r, s) := s.takeTurn k r
        if s.roundBefore k r then s
        else match issueOf (k % 16) r gnum g signers s with
        | .wait s => s
        | .fail c o v s =>
          let low := match r.instr with
            | some i => lowWord i
            | none => 0
          let v := if c = cILLEGAL then low else v
          -- the signers trap together: none of their traps changes what another's is
          signers.foldl (fun s t => s.trapThread t c o v) (s.clearRound k r)
        | .done s =>
          let s := (s.clearRound k r).modUnit r.unit fun u => u.modGroup gnum fun g => { g with interval := g.interval + 1 }
          signers.foldl (fun s t => s.modThr t fun th => th.wakeNext s.now) s

/-! ### Signing (R42) -/

/-- Sign a register for an instruction; the round issues with the last signature. -/
def sign (i : Instr) (w : Fields) : M Flow := do
  let s ← get
  let n := cvNum w.c
  let k := cvKey s.cur n
  let r := s.cv k
  match s.myGroup with
  | none => illegal
  | some (_, g) =>
    let lane := tidLane s.cur
    let first := r.signed == 0
    if !r.declared ∨ r.unit ≠ s.me.unit ∨ r.cgn ≠ BitVec.ofNat 10 g.cgn ∨ !r.decl.getLsbD lane ∨ r.signed.getLsbD lane ∨
        (!first ∧ r.pc ≠ s.me.pc) then trap cCONVERGENCE 0 r.bits
    let r' := { r with signed := setBit r.signed lane true }
    let r' := if first then { r' with op := cvOp i, pc := s.me.pc, instr := some i, claim := s.nextTurn + 1 } else r'
    let s := if first then { s with nextTurn := s.nextTurn + 1 } else s
    set (((s.setCv k r').modMe fun th => { th with wait := .signed n }).tryIssue k)
    return .done

def cvsignBody (w : Fields) : M Flow := do
  unsupportedInTx
  sign (.cvsign w) w
def execCvsign (w : Fields) (s : State) : Out := runInstr (.cvsign w) w (cvsignBody w) s
def lxchBody (w : Fields) : M Flow := do
  unsupportedInTx
  sign (.lxch w) w
def execLxch (w : Fields) (s : State) : Out := runInstr (.lxch w) w (lxchBody w) s
def voteBody (w : Fields) : M Flow := do
  unsupportedInTx
  sign (.vote w) w
def execVote (w : Fields) (s : State) : Out := runInstr (.vote w) w (voteBody w) s

/-- An accumulator that the group holds (R315). -/
def accHeld (n : Nat) : M Unit := do
  match (← get).myGroup with
  | none => illegal
  | some (_, g) => if g.acc.length ≤ n then illegal
def mmaBody (w : Fields) : M Flow := do
  unsupportedInTx
  accHeld w.d.accNum
  tileReady (w.ext.toNat % 256)
  sign (.mma w) w
def execMma (w : Fields) (s : State) : Out := runInstr (.mma w) w (mmaBody w) s
def softstepBody (w : Fields) : M Flow := do
  unsupportedInTx
  accHeld w.d.accNum
  accHeld w.a.accNum
  tileReady (w.ext.toNat % 256)
  sign (.softstep w) w
def execSoftstep (w : Fields) (s : State) : Out := runInstr (.softstep w) w (softstepBody w) s

/-! ### Completion of the engines (R301, R302) -/

/-- The group that issued an operation still holds its accumulator: a later group of its number holds none (R294). -/
def State.issuerLives (s : State) (cq : Nat) (run : EngineRun) : Bool :=
  match s.units.find? run.unit with
  | some u => match u.group run.group with
    | some g => g.acc.contains run.acc && u.core * 4 + g.quad == cq
    | none => false
  | none => false
/-- Write the accumulator of a finished operation, if its group still stands, and let those who wait go on. -/
def State.finishRun (s : State) (cq : Nat) (run : EngineRun) : State :=
  let s := if s.issuerLives cq run then s.setAcc (cq * 8 + run.acc) run.tile else s
  (s.wakeTile run.unit run.handle).wakeIf fun t th => th.wait == .engine && tidCq t == cq && !isService t

/-- Raise the check counters of the quadrant and of the group that issued (R301, R314). -/
def State.countCheck (s : State) (cq : Nat) (run : EngineRun) : State :=
  let s' := s.modQuad cq fun q => { q with check := min (q.check + 1) 0xFFFFFFFF }
  if s.issuerLives cq run then
    s'.modUnit run.unit fun u => u.modGroup run.group fun g => { g with check := min (g.check + 1) 0xFFFFFFFF }
  else s'

/-- MMA_PASS_COMPLETE: a pass whose 64 clocks have gone by ends; its checksums agree or not (R301). -/
def mmaPassComplete (core quad : Nat) (agree : Bool) (s : State) : State :=
  let cq := core * 4 + quad
  match (s.quadOf cq).mma with
  | none => s
  | some run =>
    if s.now < run.startAt + 64 then s
    else if agree then (s.modQuad cq fun q => { q with mma := none }).finishRun cq run
    else if !run.second then
      (s.modQuad cq fun q => { q with mma := some { run with second := true, startAt := run.startAt + 64 } }).countCheck cq run
    else
      let s := s.modQuad cq fun q => { q with mma := none }
      let s := (s.wakeTile run.unit run.handle).wakeIf fun t th => th.wait == .engine && tidCq t == cq && !isService t
      -- the launch is the context, whether or not this unit of it is still there
      if s.launches.any fun e => e.1 == run.cid && !e.2.complete then (s.meet core).fatalContext run.part 0x06 run.cid 0
      else (s.meet core).report run.part 2 0x06 run.cid 0 0 0 0 0
def execMmaPassComplete (core quad : Nat) (agree : Bool) (s : State) : Out := event (mmaPassComplete core quad agree) s

/-- SOFTSTEP_COMPLETE: the unit's 64 clocks have gone by (R302). -/
def softstepComplete (core quad : Nat) (s : State) : State :=
  let cq := core * 4 + quad
  match (s.quadOf cq).soft with
  | none => s
  | some run =>
    if s.now < run.startAt + 64 then s
    else (s.modQuad cq fun q => { q with soft := none }).finishRun cq run
def execSoftstepComplete (core quad : Nat) (s : State) : Out := event (softstepComplete core quad) s

/-! ### EXIT (R236) -/

/-- Clear an exiting thread's bit in its group's convergence registers; a round may issue, a register become free
(R43). -/
def State.leaveCvs (s : State) (t : Tid) (unit : Nat) (cgn : Nat) : State :=
  (List.range 16).foldl (fun s n =>
    let k := cvKey t n
    let r := s.cv k
    if r.declared && r.unit == unit && r.cgn == BitVec.ofNat 10 cgn && r.decl.getLsbD (tidLane t) then
      let decl := setBit r.decl (tidLane t) false
      if decl = 0 then s.setCv k {} else (s.setCv k { r with decl }).tryIssue k
    else s) s

/-- The threads of a group that wait for the token see it held: their ROWPASS or ROWWAIT completes (R46). -/
def State.tokenSeen (s : State) (unit g : Nat) : State :=
  let go (e : Tid × Thread) : Tid × Thread :=
    if !isService e.1 && e.2.unit == unit && e.2.group == g && e.2.wait == .token then (e.1, e.2.wakeNext s.now) else e
  { s with threads := s.threads.map go }

/-- Release the pair record of a group that completes; its partner goes on as if it held the token (R46). -/
def State.dropPair (s : State) (unit core quad g : Nat) : State :=
  match s.pairs.find? fun p => p.has core quad unit g with
  | none => s
  | some p => { s with pairs := s.pairs.filter fun q => q != p }.tokenSeen unit (p.other g)

/-- A group whose last thread has exited releases what it holds (R236). -/
def State.endGroup (s : State) (uid gnum : Nat) (g : Group) (core : Nat) : State :=
  let s := s.dropPair uid core g.quad gnum
  { s.modUnit uid (fun u => { u with groups := Tbl.del u.groups gnum }) with
    threads := g.tids.foldl Tbl.del s.threads }

/-- A unit whose last group has completed (R28). One that contributes to a collective keeps its tile store until its
chunk's tile is read (R345). -/
def State.finishUnit (s : State) (uid : Nat) (u : UnitRec) : State :=
  let keep := match s.launches.find? u.cid with
    | some l => l.r.coll && !u.reduce && !l.complete && !l.collfail && !l.r.mismatch
    | none => false
  let s := s.atLeastMs 163 (s.msOf u.core)
  (if keep then s else s.dropUnit uid).countUnit u.cid

/-- The current thread ends. -/
def State.exitThread (s : State) : State :=
  let t := s.cur
  let th := s.me
  let s := s.modMe fun th => { th with wait := .exited }
  match s.units.find? th.unit with
  | none => s
  | some u =>
    match u.group th.group with
    | none => s
    | some g =>
      let s := s.leaveCvs t th.unit g.cgn
      let s := u.bars.keys.foldl (fun s b => s.recountBar th.unit b) s
      if !(s.liveTids g).isEmpty then s.moveToken th.unit th.group
      else
        let s := s.endGroup th.unit th.group g u.core
        match s.units.find? th.unit with
        | some u' => if u'.groups.isEmpty then s.finishUnit th.unit u' else s
        | none => s

def exitBody : M Flow := do
  unsupportedInTx
  upd fun s => if isService s.cur then s.modMe fun th => { th with wait := .exited } else s.exitThread
  return .done
def execExit (w : Fields) (s : State) : Out := runInstr (.exit w) w exitBody s

end Sys2Proof.Machine
end

