-- ==== Sys2Proof/Machine/Image.lean ====
section
/-!
DEFINITION. Context images: the thread image (R327), its checks (R329, R425, R428), and the unit image.
-/
namespace Sys2Proof.Machine

/-- Wait codes of a thread image: the rows of R33 counted from Scoreboard = 1 to Sleep = 8. -/
def Wait.code : Wait → Nat
  | .tile _ => 1
  | .tset _ => 1
  | .engine => 1
  | .remote _ => 1
  | .line _ => 1
  | .commit => 1
  | .fence => 1
  | .barrier _ => 2
  | .counter => 3
  | .call _ _ => 3
  | .ring => 3
  | .signed _ => 4
  | .token => 5
  | .page _ => 6
  | .logFull => 6
  | .pool => 6
  | .moving => 6
  | .flash _ => 7
  | .sleep _ => 8
  | _ => 0

/-- The wait argument: remaining SLEEP clocks, call tag, or zero (R327). -/
def Wait.arg (now : Nat) : Wait → Nat
  | .sleep till => till - now
  | .call tag _ => tag
  | _ => 0

/-- Sectors of a number of n sectors, lowest first, without side words. -/
def sectorsOfNat (n x : Nat) : List SectorLit :=
  (List.range n).map fun i => { data := BitVec.ofNat 256 (x / 2 ^ (256 * i)), side := 0, poison := false }
/-- Mark sectors poisoned by a test on their index. -/
def poisonWhere (f : Nat → Bool) (l : List SectorLit) : List SectorLit :=
  (List.range l.length).zip l |>.map fun e => { e.2 with poison := e.2.poison || f e.1 }

/-- A thread as its image records it. -/
structure ImageHead where
  pc : Nat
  level : Nat
  wait : Nat
  arg : Nat
  passed : Bool
  deriving DecidableEq, Repr

/-- The 2,048 bytes of a thread image (R327): 64 sectors. -/
def threadImage (h : ImageHead) (th : Thread) : List SectorLit :=
  let bit (b : Bool) (n : Nat) : Nat := if b then 2 ^ n else 0
  let gs := (List.range 128).map fun i => Tbl.get {} th.g i
  let vs := (List.range 32).map fun i => Tbl.get {} th.v i
  let hs := (List.range 4).map fun i => Tbl.get {} th.h i
  let mask (ps : List Bool) : Nat := ((List.range ps.length).zip ps).foldl (fun m e => m + bit e.2 e.1) 0
  let tags := ((List.range 32).zip vs).foldl (fun m e => m + e.2.tag.toNat * 2 ^ (4 * e.1)) 0
  let head := packBytes
    ([(8, h.pc), (1, h.level), (1, h.wait), (2, th.rnd.toNat), (4, th.txStatus), (8, h.arg),
      (1, th.p.toNat + bit h.passed 7), (7, 0), (8, th.epc.toNat), (4, th.cause.toNat), (4, 0), (8, th.val.toNat), (8, 0),
      (16, mask (gs.map GReg.poison)), (1, mask (hs.map GReg.poison)), (15, 0)] ++
      hs.map (fun r => (4, r.val.toNat)) ++ [(16, tags)] ++ gs.map fun r => (4, r.val.toNat))
  -- the sectors that hold poisoned registers are poisoned: sector 3 the handler registers, 4 to 19 g0 to g127
  let pois (i : Nat) : Bool :=
    if i = 3 then hs.any GReg.poison
    else decide (4 ≤ i) && ((gs.drop (8 * (i - 4))).take 8).any GReg.poison
  poisonWhere pois (sectorsOfNat 20 head) ++
    vs.map (fun v => { data := v.sec, side := v.side, poison := v.poison }) ++ List.replicate 12 zeroLit

/-- Bytes of an image, as one number. -/
def imageNat (l : List SectorLit) : Nat := l.foldr (fun x acc => x.data.toNat + 2 ^ 256 * acc) 0
/-- n bytes at an offset of an image. -/
def imageBytes (x off n : Nat) : Nat := x / 256 ^ off % 256 ^ n

/-- A byte of the image that R327 leaves unlisted is not zero (R329). -/
def imageReserved (x : Nat) : Bool :=
  imageBytes x 0x19 7 != 0 || imageBytes x 0x2C 4 != 0 || imageBytes x 0x38 8 != 0 || imageBytes x 0x51 15 != 0 ||
    imageBytes x 0x680 384 != 0

/-- EXC_EPC: LINE and SLOT, its other bits reading zero (R48). -/
def pcField (v : Dword) : Dword := v &&& 0x0FFFFFFFFFFFFFC7

/-- A format tag of the image is a reserved code, which no register ever has (R181). -/
def imageTagBad (x : Nat) : Bool :=
  (List.range 32).any fun i => [6, 7, 14, 15].contains (imageBytes x 0x70 16 / 16 ^ i % 16)

/-- A random word, which is never zero (R185, R186). -/
def rndOf (x : Nat) : BitVec 16 := if x % 65536 = 0 then 0xACE1 else BitVec.ofNat 16 x

/-- The user context of an image laid over a thread: registers within its allocation, poison, tags, predicates, the
random word and the exception registers but EXC_EPC (R329). -/
def Thread.fromImage (th : Thread) (l : List SectorLit) : Thread :=
  let x := imageNat l
  let sp (i : Nat) : Bool := (l.getD i zeroLit).poison
  let gReg (i : Nat) : GReg :=
    { val := BitVec.ofNat 32 (imageBytes x (0x80 + 4 * i) 4), poison := x.testBit (8 * 0x40 + i) || sp (4 + i / 8) }
  let hReg (i : Nat) : GReg :=
    { val := BitVec.ofNat 32 (imageBytes x (0x60 + 4 * i) 4), poison := x.testBit (8 * 0x50 + i) || sp 3 }
  let vReg (i : Nat) : VReg :=
    let v := l.getD (20 + i) zeroLit
    { sec := v.data, side := v.side, poison := v.poison, tag := BitVec.ofNat 4 (imageBytes x 0x70 16 / 16 ^ i) }
  { th with
    g := (List.range th.nG).foldl (fun t i => Tbl.put {} t i (gReg i)) []
    v := (List.range th.nV).foldl (fun t i => Tbl.put {} t i (vReg i)) []
    h := (List.range 4).foldl (fun t i => Tbl.put {} t i (hReg i)) []
    p := BitVec.ofNat 7 (imageBytes x 0x18 1)
    rnd := rndOf (imageBytes x 0x0A 2)
    cause := BitVec.ofNat 32 (imageBytes x 0x28 4 % 2 ^ 11)
    val := BitVec.ofNat 64 (imageBytes x 0x30 8) }

/-! ### Unit images -/

/-- Pad a list of sectors to a multiple of 256 bytes. -/
def pad256 (l : List SectorLit) : List SectorLit := l ++ List.replicate ((8 - l.length % 8) % 8) zeroLit

/-- The 16 bytes of a convergence register (R40). -/
def cvImage (r : CvReg) : Nat :=
  r.decl.toNat + 2 ^ 32 * r.signed.toNat + 2 ^ 64 * r.cgn.toNat + 2 ^ 74 * r.op.toNat +
    2 ^ 77 * (if r.declared then 1 else 0)
/-- The 8 bytes of a barrier. -/
def barImage (b : Barrier) : Nat := b.target % 2 ^ 15 + (if b.live then 2 ^ 15 else 0) + 2 ^ 16 * (b.count % 65536) + 2 ^ 32 * (b.gen % 2 ^ 32)

/-- Groups of a unit by ascending core group number. -/
def UnitRec.byCgn (u : UnitRec) : List (Nat × Group) :=
  u.groups.foldl (fun acc e =>
    (acc.filter fun x => decide (x.2.cgn < e.2.cgn)) ++ e :: acc.filter fun x => decide (e.2.cgn < x.2.cgn)) []

/-- Live threads of a unit, ascending by core group number and lane: the order of their images. -/
def SavedUnit.order (x : SavedUnit) : List Tid :=
  x.unit.byCgn.flatMap fun e => e.2.tids.filter fun t => (Tbl.get {} x.threads t).live

/-- Sectors before the first thread image, and sectors of one group's accumulator and latch part. -/
def headSectors : Nat := 8
def groupSectors (g : Group) : Nat := g.acc.length * 1088 + 256

/-- The header of a unit image: launch CID, linear index, RES, and the pair records with their holders. The manual gives
the contents and no layout; this one is the model's. -/
def unitHead (x : SavedUnit) : List SectorLit :=
  let pairs := (x.pairs.map fun p => (4, p.a + 256 * p.b + 65536 * p.holder + 2 ^ 24 * (p.quad + 128)))
  sectorsOfNat headSectors (packBytes ([(8, x.unit.cid), (8, x.unit.linear), (8, x.unit.res.raw.toNat)] ++ pairs))

/-- The image of a saved unit; tile-store sectors are given. -/
def unitImage (x : SavedUnit) (now : Nat) (store : List SectorLit) : List SectorLit :=
  let threads := x.order.flatMap fun t =>
    let th := Tbl.get {} x.threads t
    threadImage { pc := th.pc.toNat, level := th.level, wait := th.wait.code, arg := th.wait.arg now, passed := th.passed } th
  let groups := x.unit.byCgn.flatMap fun e =>
    (e.2.acc.flatMap fun n =>
      let tile := Tbl.get [] x.accs (e.2.quad * 8 + n)
      (List.range 64).flatMap fun r => rowImage tagF32 0 [] true (AccTile.row tile r)) ++
    (match e.2.latch with
      | some (_, l) => (List.range 256).map fun i => Tbl.get zeroLit l i
      | none => List.replicate 256 zeroLit)
  let cvs := sectorsOfNat ((x.cvs.length + 1) / 2) (packBytes (x.cvs.vals.map fun r => (16, cvImage r)))
  let bars := (List.range x.unit.res.bars).map fun i => (8, barImage (x.unit.bars.get {} i))
  let tbl := (List.range 256).map fun h => (4, (x.unit.tile h).toNat)
  unitHead x ++ threads ++ groups ++ pad256 cvs ++ pad256 (sectorsOfNat ((x.unit.res.bars + 3) / 4) (packBytes bars)) ++
    sectorsOfNat 32 (packBytes tbl) ++ store

/-- Bytes of a unit's image. -/
def unitSize (threads : Nat) (cvs : Nat) (u : UnitRec) : Nat :=
  let r256 (n : Nat) : Nat := (n + 255) / 256 * 256
  256 + threads * 2048 + (u.groups.map fun g => groupSectors g.2 * 32).foldl (· + ·) 0 + r256 (16 * cvs) +
    r256 (8 * u.res.bars) + 1024 + u.res.tile4k * 4096

/-- Physical address of a byte of a partition's save area (R326). -/
def State.saveAddr (s : State) (part off : Nat) : Option Nat :=
  let c := (s.part part).ctxSave.toNat
  if c / 2 ^ 40 * 65536 ≤ off then none
  else (s.frameAddr part 0 (c % 2 ^ 36 + off / 65536)).map (· + off % 65536)
/-- Bytes of the save area. -/
def State.saveSize (s : State) (part : Nat) : Nat := (s.part part).ctxSave.toNat / 2 ^ 40 * 65536

/-- Accesses to n bytes of the save area report frames on a channel retired at run time (R415). -/
def State.savedDead (s : State) (part cid off n : Nat) : State :=
  (List.range ((off % 65536 + n + 65535) / 65536)).foldl (fun s i =>
    s.frameDead 163 part cid 0 ((s.part part).ctxSave.toNat % 2 ^ 36 + off / 65536 + i)) s
/-- Write sectors into the save area. -/
def State.saveSectors (s : State) (part cid off : Nat) (l : List SectorLit) : State :=
  let put (m : Mem) (e : Nat × SectorLit) : Mem := match s.saveAddr part (off + 32 * e.1) with
    | some a => m.setSector a e.2
    | none => m
  { s.savedDead part cid off (32 * l.length) with mem := ((List.range l.length).zip l).foldl put s.mem }
/-- Read n sectors of the save area. -/
def State.readSaved (s : State) (part off n : Nat) : List SectorLit :=
  (List.range n).map fun i => match s.saveAddr part (off + 32 * i) with
    | some a => s.mem.sector a
    | none => zeroLit

/-- Offset of a saved thread's image in the save area. -/
def SavedUnit.threadAt (x : SavedUnit) (t : Tid) : Nat :=
  x.offset + 256 + 2048 * ((x.order.takeWhile fun u => u != t).length)

/-- Registers of a saved thread, as an instruction of that thread names them (R48). -/
def Thread.setSaved (th : Thread) (n : Nat) (v : GReg) : Thread :=
  if 124 ≤ n ∧ 1 ≤ th.level then { th with h := Tbl.put {} th.h (n - 124) v } else { th with g := Tbl.put {} th.g n v }

/-- Write bytes of a saved image. -/
def State.saveBytes (s : State) (part off n v : Nat) : State :=
  match s.saveAddr part off with
  | some a => { s with mem := s.mem.writeN a n v }
  | none => s
/-- Clear bits of a byte of a poison map of a saved image; a sector that it alone marks is poisoned no longer (R327). -/
def State.saveClean (s : State) (part map_ bits sector : Nat) : State :=
  match s.saveAddr part map_, s.saveAddr part sector with
  | some a, some b =>
    let old := s.mem.readN a 1
    let new := old - (old &&& bits)
    let m := s.mem.writeN a 1 new
    { s with mem := if old ≠ 0 ∧ new = 0 then m.setPois b false else m }
  | _, _ => s

/-- Write a pair of a saved thread, the handler registers at handler level: in its record and in its image (R324). -/
def State.patchSaved (s : State) (part : Nat) (x : SavedUnit) (t : Tid) (d v : Nat) (done : Thread → Thread) : State :=
  let at_ := x.threadAt t
  let old := Tbl.get {} x.threads t
  let handler := decide (124 ≤ d) && decide (1 ≤ old.level)
  let th := ((done old).setSaved d { val := BitVec.ofNat 32 v }).setSaved (d + 1) { val := BitVec.ofNat 32 (v / 2 ^ 32) }
  let s := s.saveBytes part (at_ + if handler then 0x60 + 4 * (d - 124) else 0x80 + 4 * d) 8 v
  let s := if handler then s.saveClean part (at_ + 0x50) (3 * 2 ^ (d - 124)) (at_ + 0x60)
    else s.saveClean part (at_ + 0x40 + d / 8) (3 * 2 ^ (d % 8)) (at_ + 0x80 + d / 8 * 32)
  let s := (s.saveBytes part at_ 8 th.pc.toNat).saveBytes part (at_ + 9) 1 0
  { s with saved := s.saved.map fun y =>
      if y = x then { x with threads := Tbl.ins x.threads t th, ms := max x.ms (s.msOf s.src) } else y }

end Sys2Proof.Machine
end

