-- ==== Sys2Proof/Machine/System.lean ====
section
/-!
DEFINITION. System instructions but for CSRR, CSRW and PARTCTL: MCALL, MRET, ERET, SAVECTX, LOADCTX, INVAL, HALT, IPI
(R317, R318, R323 to R325, R328 to R331, R446).
-/
namespace Sys2Proof.Machine

/-- A system instruction: its lowest level, then the abort inside a transaction (R433 steps 4 and 5). -/
def sysLevel (lowest : Nat) : M Unit := do
  if (← get).me.level < lowest then trap cPRIVILEGE 0
  unsupportedInTx

/-! ### MCALL and MRET (R323, R324, R357) -/

/-- WHO of a call record. -/
def State.callWho (s : State) : Nat :=
  let t := s.cur
  let cgn := match s.myGroup with
    | some (_, g) => g.cgn
    | none => 0
  s.src + 2 ^ 8 * cgn + (if isService t then 0 else 2 ^ 18 * tidLane t + 2 ^ 23 * tidSlot t) + 2 ^ 26 * s.me.level

def mcallBody (w : Fields) : M Flow := do
  let s ← get
  let th := s.me
  let svc := isService s.cur
  if svc ∧ th.level = 2 then trap cPRIVILEGE 0
  unsupportedInTx
  let a ← consume 2 (← readPair w.a)
  let b ← consume 3 (← readPair w.b)
  let kernel := svc && th.level == 1
  let p := s.part th.part
  let ring := if kernel then p.mc1 else p.mc0
  if ring.full then hold .ring
  let va := ring.addr 32
  let tag := s.nextCall
  let rec_ := packBytes [(2, w.ext.toNat), (2, th.cid), (4, s.callWho), (8, a), (8, b), (8, tag)]
  match s.blockPlaces (blockWho s.src th.part) .store va 32 with
  | (.ok ps, s) =>
    let s := s.performWrites s.src ps (splitBytes 33 va 32 rec_)
    let up (p : Part) : Part :=
      if kernel then { p with mc1 := { p.mc1 with tail := p.mc1.tail + 1 } }
      else { p with mc0 := { p.mc0 with tail := p.mc0.tail + 1 } }
    let s := { s.modPart th.part up with nextCall := tag + 1 }
    -- the caller waits first, so that a record it posts to its own partition does not end its own wait
    set ((s.modMe fun th => { th with wait := .call tag w.d.gNum }).wakeHalted th.part)
    return .done
  | (.absent va r, s) =>
    set (s.postFault (blockWho s.src th.part) va 1 r)
    hold .ring
  | (.denied, _) => trap cPAGE 0 (BitVec.ofNat 64 va)
  | (.wait _, s) =>
    set s
    hold .ring
def execMcall (w : Fields) (s : State) : Out := runInstr (.mcall w) w (mcallBody w) s

/-- The D pair of a caller receives a value and the caller goes on (R324). -/
def State.answer (s : State) (t : Tid) (d v : Nat) : State :=
  (s.setPairOf t d v false).modThr t fun th => th.wakeNext s.now
/-- Answer the waiting caller of a tag, placed or saved; whether there was one. -/
def State.reply (s : State) (tag v : Nat) (ok : Tid → Thread → Bool) : Bool × State :=
  let waits (e : Tid × Thread) : Bool := match e.2.wait with
    | .call g _ => g == tag && ok e.1 e.2
    | _ => false
  let dOf (th : Thread) : Nat := match th.wait with
    | .call _ d => d
    | _ => 0
  match s.threads.filter waits with
  | (t, th) :: _ =>
    (true, (s.answer t (dOf th) v).atLeastMs (tidSource t) (s.msOf s.src))
  | [] =>
    match s.saved.find? fun x => x.threads.any waits with
    | none => (false, s)
    | some x =>
      match x.threads.filter waits with
      | [] => (false, s)
      | (t, th) :: _ => (true, s.patchSaved x.unit.part x t (dOf th) v fun th => th.wakeNext s.now)

/-- A caller that the partition kernel serves: ring 0 takes compute threads and user processes (R357). -/
def onRing0 (t : Tid) (th : Thread) : Bool := !isService t || th.level == 0

def mretBody (w : Fields) : M Unit := do
  sysLevel 1
  let tag ← consume 2 (← readPair w.a)
  let v ← consume 3 (← readPair w.b)
  let s ← get
  let me := s.me
  let (done, s) := s.reply tag v fun t th => me.level == 2 || (th.part == me.part && onRing0 t th)
  set s
  writeG w.d (if done then 0 else 1) false
def execMret (w : Fields) (s : State) : Out := runInstr (.mret w) w (seqBody (mretBody w)) s

/-! ### ERET (R50, R325) -/

/-- ERET's checks and return. Monitor level exists on the Oryx core only (R317): on a general core that code of PLVL names
no level to return to. -/
def eretBody : M Flow := do
  sysLevel 1
  let s ← get
  let svc := isService s.cur
  if svc ∧ (s.me.plvl = 3 ∨ s.me.plvl = 2 ∧ !isOryx s.cur) then illegal
  if s.refusesPc s.cur s.me.epc then dieContext 0x07 0
  upd fun s => (s.modMe fun th => th.leaveTrap svc s.now).owesCheck s.cur 0
  return .done
def execEret (w : Fields) (s : State) : Out := runInstr (.eret w) w eretBody s

/-! ### SAVECTX and LOADCTX (R328, R329) -/

def savectxBody (w : Fields) : M Unit := do
  sysLevel 1
  let va ← addrM w
  aligned cMISALIGNED 2 va 256
  let ps ← storePlacesIf 2 va 2048 false true (needSides 2 va)
  let th := (← get).me
  let image := threadImage { pc := th.epc.toNat, level := 0, wait := 0, arg := 0, passed := th.passed } th
  storeAll ps ((List.range 64).zip image |>.map fun e =>
    { va := va + 32 * e.1, n := 32, val := e.2.data.toNat, side := some e.2.side, poison := some e.2.poison })
def execSavectx (w : Fields) (s : State) : Out := runInstr (.savectx w) w (seqBody (savectxBody w)) s

def loadctxBody (w : Fields) : M Unit := do
  sysLevel 1
  let va ← addrM w
  aligned cMISALIGNED 2 va 256
  let l ← loadSectors 2 va 2048
  if (l.take 4).any SectorLit.poison then trap cPOISON 2
  let x := imageNat l
  if imageReserved x || imageTagBad x || x.testBit (8 * 0x0C + 31) then writeG w.d 1 false
  else
    upd fun s => s.modMe fun th =>
      let new := th.fromImage l
      { new with epc := pcField (BitVec.ofNat 64 (imageBytes x 0 8)), h := if isService s.cur then [] else new.h }
    writeG w.d 0 false
def execLoadctx (w : Fields) (s : State) : Out := runInstr (.loadctx w) w (seqBody (loadctxBody w)) s

/-! ### INVAL (R330) -/

/-- Whole microseconds of a wait, rounded up, up to 0x1F_FFFF (R156). -/
def waitUs (fs : Nat) : Nat := min ((fs + 999999999) / 1000000000) 0x1FFFFF

/-- A line key lies in a range of addresses, seen from an address space of a partition. -/
def keyIn (asid part va n : Nat) (grain : Nat) (bits : Nat) (k : Nat) : Bool :=
  let a := k % 2 ^ bits * grain
  decide (a < va + n) && decide (va < a + grain) && k / 2 ^ bits == tagOf a asid part

/-- The flash waits of a read end: MAXUS of each waiting thread's partition (R156). A wait that its thread has left was
discarded (R155). -/
def State.endWaits (s : State) (f : FlashRead) : State :=
  f.waits.foldl (fun (s : State) (x : Tid × Nat) =>
    if (s.thr x.1).wait = .flash f.key then
      s.modPart (s.thr x.1).part fun p => { p with fwMax := max p.fwMax (waitUs (s.rt - x.2)) }
    else s) s

/-- Threads, commands and queues that wait for a line look again. -/
def State.wakeLine (s : State) (key : Nat) : State :=
  let s := s.wakeIf fun _ th => th.wait == .line key || th.wait == .flash key
  let go (c : Cmd) : Cmd := if c.waiting = some key then { c with waiting := none } else c
  let free (q : Queue) : Queue := if q.hold = some key then { q with hold := none } else q
  { s with cmds := s.cmds.mapVals go, queues := s.queues.mapVals free }

/-- Outstanding flash reads of a set of lines are given up: what they return enters no cache, and what waits for it looks
again (R173, R174). -/
def State.dropFlash (s : State) (hit : Nat → Bool) : State :=
  let gone := s.flash.filter fun f => hit f.key
  let s := gone.foldl (fun s f => (s.endWaits f).wakeLine f.key) s
  { s with flash := s.flash.filter fun f => !hit f.key }

/-- Write back and remove the lines of a range from every L1, the LLC and every instruction path; their shadow entries
go with them (R147, R330), and so do outstanding reads of flash lines (R173). -/
def State.invalLines (s : State) (asid part va n : Nat) : State :=
  let hit (k : Nat) : Bool := keyIn asid part va n 128 53 k
  let s := (s.lines.filter fun l => hit l.1).foldl (fun s l => s.evictLine l.1) (s.dropFlash hit)
  { s with
    l1 := s.l1.map fun e => (e.1, e.2.filter fun l => !hit l.1)
    ipath := s.ipath.map fun e => (e.1, e.2.filter fun l => !keyIn asid part va n 64 54 l.1)
    shadow := s.shadow.filter fun x => !keyIn asid part va n 32 55 x.1 }

/-- Remove cached translations of a range of pages (R106). -/
def State.invalPages (s : State) (asid part va n : Nat) : State :=
  -- an entry covers its own page and the run that it declares (R105)
  let covers (e : Nat × Xlate) : Bool :=
    let a := e.1 % 2 ^ 44 * 65536
    decide (a < va + n) && decide (va < a + (e.2.run + 1) * 65536) && e.1 / 2 ^ 44 == tagOf a asid part
  { s with tlb := s.tlb.filter fun e => !covers e }

/-- A range that leaves the 60-bit space traps (R330). -/
def checkSpan (va n : Nat) : M Unit := do
  if 2 ^ 60 < va + n then trap cPAGE 2 (BitVec.ofNat 64 (max va (2 ^ 60)))

def invalOperands (w : Fields) : M (Nat × Nat) := do
  let va ← addrM w
  let n ← consume 3 (← readPair w.b)
  return (va, n)

def invalLineBody (w : Fields) : M Unit := do
  unsupportedInTx
  let (va, n) ← invalOperands w
  if n = 0 then return
  checkSpan va n
  upd fun s => s.invalLines s.me.asid s.me.part va n
def execInvalLine (w : Fields) (s : State) : Out := runInstr (.invalLine w) w (seqBody (invalLineBody w)) s

/-- INVAL.xlt and .frame exist at kernel level of the service die only (R446). -/
def kernelOnly : M Unit := do
  if !isService (← get).cur then trap cPRIVILEGE 0
  sysLevel 1

def invalXltBody (w : Fields) : M Unit := do
  kernelOnly
  let (va, n) ← invalOperands w
  let c ← consume 4 (← readSrc32 4 w.c 0)
  if n = 0 then return
  checkSpan (va / 65536 * 65536) (n * 65536)
  upd fun s =>
    let asid := s.me.part * 2048 + c % 2048
    let lo := va / 65536 * 65536
    (s.invalLines asid s.me.part lo (n * 65536)).invalPages asid s.me.part lo (n * 65536)
def execInvalXlt (w : Fields) (s : State) : Out := runInstr (.invalXlt w) w (seqBody (invalXltBody w)) s

/-- The partition frame that a physical frame is, if it is one of the partition's (R104). -/
def State.frameIndex (s : State) (part home phys : Nat) : Option Nat :=
  let p := s.part part
  match home with
  | 0 =>
    let ch := bitsOf p.chans
    let c := phys % 256
    if p.chans.getLsbD c then some (phys / 256 * ch.length + (ch.takeWhile (· != c)).length) else none
  | 1 =>
    (p.lruns.foldl (fun (acc : Option Nat × Nat) r =>
      let (found, base) := acc
      match found with
      | some _ => acc
      | none => (if r.1 ≤ phys ∧ phys < r.1 + r.2 then some (base + (phys - r.1)) else none, base + r.2)) (none, 0)).1
  | _ => none

/-- Return the owner records of a range of frames to free (R107, R330). -/
def State.invalFrames (s : State) (part home first n : Nat) : State :=
  let phys (k : Nat) : Nat := if home = 1 then k % 2 ^ 48 - lpBase / 65536 else k % 2 ^ 48
  let hit (k : Nat) : Bool :=
    k / 2 ^ 48 == home && (match s.frameIndex part home (phys k) with
      | some i => decide (first ≤ i ∧ i < first + n)
      | none => false)
  { s with owners := s.owners.filter fun e => !hit e.1 }

def invalFrameBody (w : Fields) : M Unit := do
  kernelOnly
  let (x, n) ← invalOperands w
  if n = 0 then return
  checkSpan x 1
  upd fun s => s.invalFrames s.me.part (x / 2 ^ 40 % 4) (x % 2 ^ 36) n
def execInvalFrame (w : Fields) (s : State) : Out := runInstr (.invalFrame w) w (seqBody (invalFrameBody w)) s

/-! ### HALT and IPI (R331) -/

def haltBody : M Flow := do
  sysLevel 1
  if (← get).me.pend then return .seq
  upd fun s => s.modMe fun th => { th with pc := nextPc th.pc, wait := .halted, denied := none }
  return .done
def execHalt (w : Fields) (s : State) : Out := runInstr (.halt w) w haltBody s

/-- An IPI arrives: PEND is set, and a SLEEP or HALT ends (R245, R331). -/
def Thread.ipi (now : Nat) (th : Thread) : Thread :=
  let th := { th with pend := true }
  match th.wait with
  | .sleep _ => th.wakeNext now
  | .halted => th.wake now
  | _ => th

def ipiBody (w : Fields) : M Unit := do
  sysLevel 1
  let n ← consume 2 (← readSrc32 2 w.a 0)
  if 192 < n then illegal
  let s ← get
  if s.me.level < 2 ∧ (s.part s.me.part).svc ≠ some (n / 2) then trap cPRIVILEGE 0
  let t := 32768 + n
  if (s.thr t).live then upd fun s => s.modThr t (Thread.ipi s.now)
def execIpi (w : Fields) (s : State) : Out := runInstr (.ipi w) w (seqBody (ipiBody w)) s

end Sys2Proof.Machine
end

