-- ==== Sys2Proof/Machine/Preempt.lean ====
section
/-!
DEFINITION. Pre-emption: the stop milestone, the collector, saving units into the save area and placing them again, time
slices, debug halts, and stalled units (R74 to R78, R326, R327, R420 to R430).
-/
namespace Sys2Proof.Machine

/-! ### The stop (R75, R420 to R422) -/

/-- Order of causes (R420). -/
def stopRank : StopCause → Nat
  | .debug => 0
  | .partctl => 1
  | .suspend => 1
  | .slice => 2

/-- Waits that a stop discards: the instruction issues again when its unit is restored (R421, R422). -/
def Wait.discarded : Wait → Bool
  | .engine => true
  | .remote _ => true
  | .line _ => true
  | .commit => true
  | .ring => true
  | .page _ => true
  | .logFull => true
  | .pool => true
  | .moving => true
  | .flash _ => true
  | _ => false

/-- A sleeping thread whose count stands still: its remaining clocks; and again a time at which they run out (R52, R245). -/
def Thread.freeze (now : Nat) (th : Thread) : Thread :=
  match th.wait with
  | .sleep till => { th with wait := .sleep (till - now) }
  | _ => th
def Thread.thaw (now : Nat) (th : Thread) : Thread :=
  match th.wait with
  | .sleep n => { th with wait := .sleep (now + n) }
  | _ => th

/-- A thread at the stop: a transaction before its commit aborts PREEMPT, a held load is discarded, a sleep counts no
further. -/
def State.stopThread (s : State) (t : Tid) : State :=
  let s := s.abortTx t txPREEMPT
  let s := if (s.thr t).wait.discarded then s.modThr t fun th => { th.wake s.now with reply := none } else s
  let s := s.modThr t (Thread.freeze s.now)
  { s with reqs := s.reqs.map fun e => (e.1, { e.2 with tids := e.2.tids.filter (· != t) }) }

/-- Threads of a unit that live. -/
def State.unitTids (s : State) (u : UnitRec) : List Tid := u.groups.flatMap fun g => s.liveTids g.2

/-- Stop one unit, under the lowest-numbered cause that reaches it. -/
def State.stopUnit (s : State) (uid : Nat) (cause : StopCause) : State :=
  match s.units.find? uid with
  | none => s
  | some u =>
    let c := match u.stopping with
      | some old => if stopRank old ≤ stopRank cause then old else cause
      | none => cause
    let s := if u.stopping.isSome then s else (s.unitTids u).foldl State.stopThread s
    s.modUnit uid fun u => { u with stopping := some c }

/-- Units that a stop reaches. -/
def State.stoppable (s : State) (part : Nat) (cores : BitVec 32) (cause : StopCause) : List Nat :=
  let ctx := part * 2048 + (s.part part).dbgCtx
  s.units.filterMap fun e =>
    if e.2.part == part && cores.getLsbD e.2.core && !e.2.groups.isEmpty && (cause != .debug || e.2.cid == ctx) then some e.1
    else none

/-- A cause is among those of a pre-emption. -/
def StopRec.has (r : StopRec) (cause : StopCause) : Bool := r.reqs.any fun q => q.1 == cause

/-- PREEMPTION_STOP: units stop at the stop milestone, and the collector begins (R75). A request whose units all stop already
joins their pre-emption; one that reaches others too is a pre-emption of those (R77, R420). -/
def preemptionStop (part : Nat) (cores : BitVec 32) (cause : StopCause) (s : State) : State :=
  let reached := s.stoppable part cores cause
  let fresh := reached.filter fun u => match s.units.find? u with
    | some r => r.stopping.isNone
    | none => false
  let s := reached.foldl (fun s u => s.stopUnit u cause) s
  let joins (r : StopRec) : Bool :=
    r.part == part && (r.reqs.contains (cause, cores) || r.units.any fun u => reached.contains u)
  if fresh.isEmpty ∧ s.stops.any joins then
    let join (r : StopRec) : StopRec :=
      if joins r && !r.reqs.contains (cause, cores) then { r with reqs := r.reqs ++ [(cause, cores)] } else r
    { s with stops := s.stops.map join }
  else { s with stops := s.stops ++ [{ part, reqs := [(cause, cores)], units := fresh, startAt := s.rt }] }
def execPreemptionStop (part : Nat) (cores : BitVec 32) (cause : StopCause) (s : State) : Out :=
  event (preemptionStop part cores cause) s

/-! ### Room in the save area (R326) -/

/-- Parts of the save area in use: unit images, and the debug directory while halted. -/
def State.saveUsed (s : State) (part : Nat) : List (Nat × Nat) :=
  let p := s.part part
  (s.saved.filter fun x => x.unit.part == part).map (fun x => (x.offset, x.offset + x.size)) ++
    (if p.dbgState = 2 ∧ 0 < p.dbgCount then [(p.dbgDir, p.dbgDir + 16 * p.dbgCount)] else [])
/-- The part of the save area that stays in place while a launch is halted: its images and their directory. -/
def State.fixedEnd (s : State) (part : Nat) : Nat :=
  let p := s.part part
  if p.dbgState = 2 then (p.dbgDir + 16 * p.dbgCount + 255) / 256 * 256 else 0
/-- Images of a partition that may be moved: not those of a halted launch, which its directory names (R427). -/
def State.movable (s : State) (part : Nat) : List SavedUnit :=
  s.saved.filter fun x => x.unit.part == part &&
    !((s.part part).dbgState = 2 && x.unit.cid == part * 2048 + (s.part part).dbgCtx)
/-- Lay images one after another from an offset. -/
def State.layOut (s : State) (part start : Nat) (xs : List SavedUnit) : State :=
  let placed := (xs.foldl (fun (acc : List (SavedUnit × Nat) × Nat) x => (acc.1 ++ [(x, acc.2)], acc.2 + x.size)) ([], start)).1
  let images := placed.map fun e => (e.2, e.1.unit.cid, s.readSaved part e.1.offset (e.1.size / 32))
  let s := { s with saved := s.saved.map fun y => match placed.find? fun e => e.1.uid == y.uid with
    | some (_, off) => { y with offset := off }
    | none => y }
  images.foldl (fun s e => s.saveSectors part e.2.1 e.1 e.2.2) s
/-- Move the images of a partition together. DESIGN CHOICE (log 126): an area that holds them all never fails by the gaps
between them (R326). -/
def State.compact (s : State) (part : Nat) : State := s.layOut part (s.fixedEnd part) (s.movable part)

/-- Free gaps of the save area, ascending. -/
def State.saveGaps (s : State) (part : Nat) : List (Nat × Nat) :=
  let used := s.saveUsed part
  let starts := (0 :: used.map fun r => (r.2 + 255) / 256 * 256).filter fun a => used.all fun r => decide (a < r.1) || decide (r.2 ≤ a)
  starts.map fun a => (a, (used.filter fun r => decide (a ≤ r.1)).foldl (fun m r => min m r.1) (s.saveSize part))
/-- Offsets in a gap at which a number of bytes can begin. -/
def gapSlots (size : Nat) (g : Nat × Nat) : Nat := if g.1 + size ≤ g.2 then (g.2 - g.1 - size) / 256 + 1 else 0
/-- The k-th offset over the gaps. -/
def slotAt (size : Nat) : List (Nat × Nat) → Nat → Nat
  | [], _ => 0
  | g :: r, k => if k < gapSlots size g then g.1 + 256 * k else slotAt size r (k - gapSlots size g)
/-- Where the parts in use end. -/
def State.saveEnd (s : State) (part : Nat) : Nat := ((s.saveUsed part).foldl (fun m r => max m r.2) 0 + 255) / 256 * 256
/-- Bytes of the save area that its parts take. -/
def State.saveTaken (s : State) (part : Nat) : Nat :=
  s.fixedEnd part + ((s.movable part).map SavedUnit.size).foldl (· + ·) 0
/-- Take room after all that is saved: `none` where the area cannot hold it. -/
def State.roomAfter (s : State) (part size : Nat) : Option (Nat × State) :=
  if s.saveEnd part + size ≤ s.saveSize part then some (s.saveEnd part, s)
  else if s.saveTaken part + size ≤ s.saveSize part then some (s.saveTaken part, s.compact part)
  else none
/-- Take room for an image: where it lies is not specified. -/
def State.saveRoom (s : State) (part size : Nat) : Option (Nat × State) :=
  let gaps := s.saveGaps part
  let n := (gaps.map (gapSlots size)).foldl (· + ·) 0
  if n = 0 then s.roomAfter part size
  else
    let (k, s) := s.pickOf n
    some (slotAt size gaps k, s)

/-! ### Saving (R327) -/

/-- A thread as it is saved; a SLEEP holds its remaining clocks since the stop. What it is restored at is not checked against
BTM (R195), and one that has had the instruction of its step has had it when it is placed again (R429). -/
def Thread.saved (stepping : Bool) (th : Thread) : Thread :=
  { th with stepped := stepping && th.stepped, reply := none, unchecked := none }

/-- A placed unit as it is saved. -/
def State.capture (s : State) (uid : Nat) (u : UnitRec) : SavedUnit :=
  let threads : Tbl Thread := s.threads.filter fun e => !isService e.1 && e.2.unit == uid
  let cvs := (s.cvs.filter fun e => e.1 / 64 == u.core && e.2.unit == uid && e.2.declared).map fun e => (e.1 % 64, e.2)
  let accs := u.groups.foldl (fun (t : Tbl AccTile) e =>
    e.2.acc.foldl (fun t n => Tbl.put [] t (e.2.quad * 8 + n) (s.accTile ((u.core * 4 + e.2.quad) * 8 + n))) t) []
  { uid, unit := { u with stall := u.stall.map fun x => s.now - x }, threads := Tbl.mapVals threads (Thread.saved u.stepping), cvs
    ms := s.msOf u.core
    pairs := s.pairs.filter fun p => p.core == u.core && p.unit == uid, accs, offset := 0
    size := unitSize (s.unitTids u).length cvs.length u
    cause := u.stopping.getD .partctl }

/-- A partition's side-log entries are discarded unsaved, and reported (R478). -/
def State.dropLog (s : State) (part : Nat) : State :=
  (s.keepLog fun e => e.part != part).discardEntries (sortLog (s.log.filter fun e => e.part == part))

/-- Save a unit into its partition's save area and remove it from its core. Too small an area is fatal to the
partition, and at a suspend its side-log entries are discarded with its units (R478). -/
def State.saveUnit (s : State) (uid : Nat) : State :=
  match s.units.find? uid with
  | none => s
  | some u =>
    let x := s.capture uid u
    match s.saveRoom u.part x.size with
    | none => (if s.boot.power = .suspending then s.dropLog u.part else s).meet u.core |>.fatalPartition u.part 0x10 u.cid 0 0 0
    | some (offset, s) =>
      let lo := tileAddr u.core (u.tileBase * 4096)
      let store := (List.range (u.res.tile4k * 128)).map fun i => s.mem.sector (lo + 32 * i)
      let x := { x with offset }
      let s := s.saveSectors u.part u.cid offset (unitImage x 0 store)
      -- a command that has issued on a tile keeps no lock on the store its unit leaves
      let keep (c : Cmd) : List SectorLit := match c.region with
        | some (core, lo, size) => (List.range (size / 32)).map fun i => s.mem.sector (tileAddr core lo + 32 * i)
        | none => []
      let free (c : Cmd) : Cmd :=
        if c.unit = some uid then
          { c with region := none, kept := keep c, locks := c.locks.filter fun l => decide (l.tag < 70000) }
        else c
      let s := { s with cmds := s.cmds.mapVals free, saved := s.saved ++ [x] }
      { s.dropUnit uid with regions := s.regions }

/-- The 16-byte directory entries of a halted launch (R427). -/
def State.directory (s : State) (cid : Nat) : List (Nat × Nat) :=
  let xs := s.saved.filter fun x => x.unit.cid == cid
  let sorted := xs.foldl (fun acc x =>
    (acc.filter fun (y : SavedUnit) => decide (y.unit.linear < x.unit.linear)) ++ x ::
      acc.filter fun (y : SavedUnit) => decide (x.unit.linear < y.unit.linear)) []
  sorted.flatMap fun x => [(6, x.unit.linear), (1, x.unit.core), (1, 0), (8, x.offset)]

/-- A completed debug halt has its directory (R427): the images that it names are laid out first and stay there, the
directory after them, and the partition's others follow (log 126). Nothing of it where the launch is gone. -/
def State.finishStop (s : State) (r : StopRec) : State :=
  let part := r.part
  let p := s.part part
  if !r.has .debug ∨ p.dbgState ≠ 1 then s
  else
    let cid := part * 2048 + p.dbgCtx
    let (mine, others) := (s.saved.filter fun x => x.unit.part == part).partition fun x => x.unit.cid == cid
    let off := (mine.map SavedUnit.size).foldl (· + ·) 0
    let after := off + (16 * mine.length + 255) / 256 * 256
    if s.saveSize part < after + (others.map SavedUnit.size).foldl (· + ·) 0 then
      (s.meet 169).fatalPartition part 0x10 cid 0 0 0
    else
      let s := s.layOut part 0 (mine ++ others)
      let s := s.layOut part after others
      let dir := s.directory cid
      let count := dir.length / 4
      let s := s.saveSectors part cid off (sectorsOfNat ((count + 1) / 2) (packBytes dir))
      s.modPart part fun p => { p with dbgState := 2, dbgCount := count, dbgDir := if count = 0 then 0 else off }

/-- An engine still works for a stopping unit (R74, R423). -/
def State.unitAtWork (s : State) (uid : Nat) : Bool :=
  (match s.units.find? uid with
    | some u => u.stopping.isSome
    | none => false) && s.quads.any fun e => [e.2.mma, e.2.soft].any fun r => r.any fun x => x.unit == uid
/-- An engine still works for a stopping unit of a partition. -/
def State.collecting (s : State) (part : Nat) : Bool := s.units.any fun e => e.2.part == part && s.unitAtWork e.1
/-- The collector of a pre-emption still waits. -/
def State.awaits (s : State) (r : StopRec) : Bool := r.units.any s.unitAtWork

/-- The stopping units of a partition. -/
def State.stoppingOf (s : State) (part : Nat) : List Nat :=
  s.units.filterMap fun e => if e.2.part == part && e.2.stopping.isSome then some e.1 else none

/-- PREEMPTION_COMPLETE: every engine has acknowledged; the units are saved (R75). -/
def preemptionComplete (part : Nat) (s : State) : State :=
  let recs := s.stops.filter fun r => r.part == part
  if recs.isEmpty ∨ s.collecting part then s
  else
    let s := (s.stoppingOf part).foldl State.saveUnit s
    recs.foldl State.finishStop { s with stops := s.stops.filter fun r => r.part != part }
def execPreemptionComplete (part : Nat) (s : State) : Out := event (preemptionComplete part) s

/-- One millisecond in femtoseconds. -/
def msFs : Nat := 10 ^ 12

/-- COLLECTOR_TIMEOUT_REPORT: a collector that still waits 1 ms after the stop milestone reports once (R75, R423); that of a
suspend has R478's time. -/
def collectorTimeoutReport (part : Nat) (s : State) : State :=
  let late (r : StopRec) : Bool :=
    r.part == part && !r.has .suspend && !r.reported && decide (r.startAt + msFs ≤ s.rt) && s.awaits r
  if s.stops.any late then
    ({ s with stops := s.stops.map fun r => if late r then { r with reported := true } else r }).report part 0 0x13
      (part * 2048) 0 0 0 0 0
  else s
def execCollectorTimeoutReport (part : Nat) (s : State) : Out := event (collectorTimeoutReport part) s

/-- COLLECTOR_TIMEOUT_FATAL: at 10 ms the partition is fatal and its stop ends (R423). -/
def collectorTimeoutFatal (part : Nat) (s : State) : State :=
  if s.stops.any fun r => r.part == part && !r.has .suspend && decide (r.startAt + 10 * msFs ≤ s.rt) && s.awaits r then
    { s.fatalPartition part 0x13 (part * 2048) 0 0 0 with stops := s.stops.filter fun r => r.part != part }
  else s
def execCollectorTimeoutFatal (part : Nat) (s : State) : Out := event (collectorTimeoutFatal part) s

/-! ### Placing a saved unit again (R76, R424, R425, R428) -/

/-- The same quadrant, lane and slot on another core (R32). -/
def moveTid (core : Nat) (t : Tid) : Tid := core * 1024 + t % 1024

/-- Place one group of a saved unit: its slots with their registers, and its accumulators. -/
def State.placeSavedGroup (s : State) (x : SavedUnit) (core uid : Nat) (e : Nat × Group) : Option State :=
  let g := e.2
  let acc := (s.accFree core g.quad).take g.acc.length
  if acc.length < g.acc.length then none
  else
    let cgn := s.freeCgn core
    let put (s : Option State) (t : Tid) : Option State :=
      match s with
      | none => none
      | some s =>
        let th := Tbl.get {} x.threads t
        let t' := moveTid core t
        if (s.thr t').wait = .free ∧ s.laneRoom core g.quad (tidLane t) th.nG th.nV then
          let th := { th with entry := s.now + 1 }.thaw s.now
          let th := match th.wait with
            | .tile _ => { th with wait := .ready }
            | .tset _ => { th with wait := .ready }
            | .fence => { th with wait := .ready }
            -- CNTWAIT and CHWAIT are evaluated again: they issue again (R239, R271)
            | .counter => { th with wait := .ready }
            | _ => th
          some { s with threads := Tbl.ins s.threads t' th }
        else none
    (g.tids.foldl put (some s)).map fun s =>
      let accs := (g.acc.zip acc).foldl (fun (t : Tbl AccTile) (p : Nat × Nat) =>
        Tbl.put [] t ((core * 4 + g.quad) * 8 + p.2) (Tbl.get [] x.accs (g.quad * 8 + p.1))) s.accs
      let mine := x.cvs.filter fun c => c.1 / 16 == g.quad && c.2.cgn == BitVec.ofNat 10 g.cgn
      let cvs := mine.foldl (fun (t : Tbl CvReg) (c : Nat × CvReg) =>
        Tbl.ins t (core * 64 + c.1) { c.2 with cgn := BitVec.ofNat 10 cgn }) s.cvs
      let g' := { g with cgn, acc, tids := g.tids.map (moveTid core) }
      { s with accs, cvs }.modUnit uid fun u => { u with groups := Tbl.ins u.groups e.1 g' }

/-- Place a saved unit on a core from its record, where it fits whole (R424). -/
def State.placeSaved (s : State) (x : SavedUnit) (core : Nat) : Option State :=
  let pairsOk := (List.range 4).all fun q =>
    decide (((s.pairs.filter fun p => p.core == core && p.quad == q) ++ x.pairs.filter fun p => p.quad == q).length ≤ 4)
  if 64 < s.barsUsed core + x.unit.res.bars ∨ !pairsOk ∨ x.cvs.any (fun c => (s.cv (core * 64 + c.1)).declared) then none
  else match s.tileRun core x.unit.res.tile4k with
  | none => none
  | some base =>
    let lo := tileAddr core (base * 4096)
    let u := { x.unit with core, tileBase := base, groups := [], stopping := none, stall := x.unit.stall.map fun n => s.now - n }
    let s' := { s with
      units := Tbl.ins s.units x.uid u
      mem := s.mem.zeroRange lo (lo + u.res.tile4k * 4096)
      pairs := s.pairs ++ x.pairs.map fun p => { p with core } }
    let placed := x.unit.groups.foldl (fun (s : Option State) (e : Nat × Group) => match s with
      | none => none
      | some s => s.placeSavedGroup x core x.uid e) (some s')
    let move (c : Cmd) : Cmd := if c.unit = some x.uid then { c with tid := moveTid core c.tid } else c
    -- what its threads do from here on follows all that they did and were answered (R129)
    placed.map fun s => { s.afterMs core x.ms with
      boot := { s.boot with idle := setBit s.boot.idle core false }
      saved := s.saved.filter fun y => y.uid != x.uid, cmds := s.cmds.mapVals move }

/-- Poison bits of a thread image that its poison maps explain are no damage (R425). -/
def clearExplained (l : List SectorLit) : List SectorLit :=
  let x := imageNat l
  let told (i : Nat) : Bool :=
    if i = 3 then imageBytes x 0x50 1 % 16 != 0
    else decide (4 ≤ i) && decide (i < 20) && imageBytes x (0x40 + (i - 4)) 1 != 0
  (List.range l.length).zip l |>.map fun e => { e.2 with poison := e.2.poison && !told e.1 }

/-- A thread from its image, or `none` where a check of R425 or R428 fails. `old` is its record. -/
def Thread.restore (old : Thread) (image : List SectorLit) : Option Thread :=
  let l := clearExplained image
  let x := imageNat l
  let code := imageBytes x 9 1
  let pc := BitVec.ofNat 64 (imageBytes x 0 8)
  if (l.take 4).any SectorLit.poison ∨ imageTagBad x ∨ !pcFormOk pc then none
  else if (code ≠ 0 ∨ old.wait.code ≠ 0) ∧ pc ≠ old.pc then none
  else
    let th := old.fromImage l
    some { th with epc := pcField (BitVec.ofNat 64 (imageBytes x 0x20 8)), pc }

/-- A row from its part of a unit image; a damaged state sector makes it fresh (R425). The poison of a row that was saved
poisoned, `was`, is no damage (R327). -/
def rowRestored (was : Bool) (secs : List SectorLit) : AccRow :=
  let r := rowFrom tagF32 true secs {}
  if (secs.getD 16 zeroLit).poison ∧ !was then { r with st := rowFRESH } else r
/-- An operand latch from its part of a unit image; damage poisons all of it (R409, R425). A sector that was saved
poisoned is no damage (R327). -/
def latchRestored (old : Tbl SectorLit) (secs : List SectorLit) : Tbl SectorLit :=
  let l := (List.range 256).zip secs
  let hurt := l.any fun v => v.2.poison && !(Tbl.get zeroLit old v.1).poison
  l.foldl (fun t v => Tbl.ins t v.1 { v.2 with poison := v.2.poison || hurt }) []

/-- Lay a unit's images over what its record placed; `none` where a check fails. -/
def State.overlay (s : State) (x : SavedUnit) (core : Nat) (u : UnitRec) : Option State :=
  let order := x.order
  let n := order.length
  let gs := x.unit.byCgn
  let groupsAt := headSectors + 64 * n
  let cvsAt := groupsAt + (gs.map fun g => groupSectors g.2).foldl (· + ·) 0
  let storeAt := x.size / 32 - x.unit.res.tile4k * 128
  let s := s.savedDead x.unit.part x.unit.cid x.offset x.size
  let read (sec k : Nat) : List SectorLit := s.readSaved x.unit.part (x.offset + 32 * sec) k
  if (read cvsAt (storeAt - cvsAt)).any SectorLit.poison ∨ (read 0 headSectors).any SectorLit.poison then none
  else
    let threads := ((List.range n).zip order).foldl (fun (s : Option State) (e : Nat × Tid) => match s with
      | none => none
      | some s =>
        let t := moveTid core e.2
        ((s.thr t).restore (read (headSectors + 64 * e.1) 64)).map fun th => s.modThr t fun _ => th) (some s)
    threads.map fun s =>
      let place (acc : State × Nat) (e : Nat × Group) : State × Nat :=
        let (s, at_) := acc
        let g := (Tbl.find? u.groups e.1).getD e.2
        let s := ((List.range g.acc.length).zip g.acc).foldl (fun (s : State) (a : Nat × Nat) =>
          let tile : AccTile := (List.range 64).foldl (fun t r =>
            AccTile.setRow t r (rowRestored (AccTile.row (s.accTile ((core * 4 + g.quad) * 8 + a.2)) r).poison
              (read (at_ + 1088 * a.1 + 17 * r) 17))) []
          s.setAcc ((core * 4 + g.quad) * 8 + a.2) tile) s
        let latchAt := at_ + 1088 * g.acc.length
        let latch := g.latch.map fun l => (l.1, latchRestored l.2 (read latchAt 256))
        (s.modUnit x.uid fun u => u.modGroup e.1 fun g => { g with latch }, latchAt + 256)
      let (s, _) := gs.foldl place (s, groupsAt)
      let lo := tileAddr core (u.tileBase * 4096)
      let k := x.unit.res.tile4k * 128
      { s with mem := ((List.range k).zip (read storeAt k)).foldl (fun (m : Mem) (v : Nat × SectorLit) =>
          m.setSector (lo + 32 * v.1) v.2) s.mem }

/-- The issued tile commands of a restored unit have their tile and its lock again (R84, R340). -/
def State.regainTiles (s : State) (uid : Nat) : State :=
  match s.units.find? uid with
  | none => s
  | some u =>
    let give (c : Cmd) : Cmd :=
      if c.unit = some uid ∧ c.phase ≠ .queued ∧ c.tileTaken then
        let (lo, hi) := u.tileRange (c.tag.toNat % 256)
        let lock : Lock := { tag := 70000 + u.core, lo, hi, full := c.op == 5 }
        { c with region := some (u.core, lo, hi - lo), kept := [], locks := c.locks ++ [lock] }
      else c
    { s with cmds := s.cmds.mapVals give }

/-- A resumed or stepped launch with no unit left to place is resuming no longer (R428, R429). -/
def State.resumed (s : State) (part : Nat) : State :=
  let p := s.part part
  let cid := part * 2048 + p.dbgCtx
  let stepping := s.units.any fun e => e.2.cid == cid && e.2.stepping
  if p.dbgState = 3 ∧ !stepping ∧ !s.saved.any (fun x => x.unit.cid == cid) then
    s.modPart part fun p => { p with dbgState := 0 }
  else s

/-- Restore a saved unit on a core where it fits; damage, or an edit that breaks a check, is fatal to its context. -/
def State.restoreUnit (s : State) (x : SavedUnit) (core : Nat) : Option State :=
  (s.placeSaved x core).map fun s' =>
    match s'.units.find? x.uid with
    | none => s'
    | some u =>
      match s'.overlay x core u with
      | some t =>
        (t.regainTiles x.uid).resumed x.unit.part
      | none => (s'.meet core).fatalContext x.unit.part 0x07 x.unit.cid 0

/-- A saved unit that may be placed: its launch is not halted, but for a step (R427, R429). -/
def State.placeable (s : State) (x : SavedUnit) : Bool :=
  x.unit.stepping || !(match s.launches.find? x.unit.cid with
    | some l => l.halted
    | none => false)

/-! ### Time slices (R78) -/

/-- The partition has work on a pool's cores: an active launch, a queued unit or a saved unit; those of a halted launch do
not count as saved (R78, R427). -/
def State.hasWork (s : State) (part : Nat) : Bool :=
  s.launches.any (fun e => e.2.part == part && !e.2.complete && (decide (e.2.dealt < e.2.r.gridUnits) ||
      (e.2.reduced && e.2.r.reducePc != 0 && decide (e.2.dealt ≤ e.2.r.gridUnits)))) ||
    s.cores.any (fun c => c.2.queue.any fun q => q.cid / 2048 == part) ||
    s.saved.any fun x => x.unit.part == part && s.placeable x
/-- Members of a pool. -/
def State.members (s : State) (cores : BitVec 32) : List Nat :=
  s.parts.filterMap fun e => if e.2.present && e.2.pooled && e.2.cores == cores then some e.1 else none
/-- The member whose turn comes after one: ascending, skipping members without work (R78). -/
def State.nextHolder (s : State) (pool : PoolTurn) : Option Nat :=
  let ms := (s.members pool.cores).filter fun m => m != pool.holder && s.hasWork m
  ((ms.filter fun m => decide (pool.holder < m)) ++ ms).head?
/-- A partition has units placed on cores. -/
def State.onCores (s : State) (part : Nat) (cores : BitVec 32) : Bool :=
  s.units.any fun e => e.2.part == part && cores.getLsbD e.2.core && !e.2.groups.isEmpty

/-- Give a pool's turn to a member, until a time; 0 where the holder has no work and no turn runs. -/
def State.setTurn (s : State) (cores : BitVec 32) (holder till : Nat) : State :=
  { s with pools := s.pools.map fun p => if p.cores == cores then { p with holder, till } else p }
/-- When a turn that begins now ends. DESIGN CHOICE (log 120): the turn's clocks count from the switch, also while the holder
before is still being saved (R78). -/
def State.turnEnd (s : State) (part : Nat) : Nat := s.now + (s.part part).quant * 1024

/-- A member leaves its pool: a pool without members is dissolved (R355). -/
def State.leavePool (s : State) (a : Nat) : State :=
  let p := s.part a
  if !p.pooled then s
  else
    let s := s.modPart a fun p => { p with pooled := false, cores := 0 }
    let joins := s.parts.any fun e => e.2.present && e.2.leaving == some (p.cores, true)
    if (s.members p.cores).isEmpty && !joins then { s with pools := s.pools.filter fun t => t.cores != p.cores } else s

/-- Queued units of a partition on cores that it has lost move to the lowest of its cores with room, and keep their order
keys (R70). -/
def State.requeue (s : State) (a : Nat) : State :=
  let now := (s.part a).cores
  let strays := s.cores.flatMap fun c =>
    if now.getLsbD c.1 then [] else (c.2.queue.filter fun q => q.cid / 2048 == a).map fun q => (c.1, q)
  -- one for which no queue has room stays where it is
  let move (s : State) (e : Nat × QEntry) : State :=
    match (bitsOf now).find? fun c => decide (0 < s.queueRoom c) with
    | some c =>
      let s := s.modCore e.1 fun r => { r with queue := r.queue.filter (· != e.2) }
      s.modCore c fun r => { r with queue := insertEntry r.queue e.2 }
    | none => s
  strays.foldl move s

/-- A partition holds exactly these compute cores, fixed or as a member of the pool of that set (R355). -/
def State.holdCores (s : State) (a : Nat) (c : BitVec 32) (pooled : Bool) : State :=
  let p := s.part a
  let s := if p.pooled && pooled && p.cores == c then s else s.leavePool a
  let s := s.modPart a fun p => { p with cores := c, pooled, leaving := none }
  let s := if pooled ∧ !s.pools.any (fun t => t.cores == c) then
      { s with pools := s.pools ++ [{ cores := c, holder := a, till := 0 }] }
    else s
  s.requeue a
/-- Partitions that are to join or leave a pool at its next turn boundary (R361). -/
def State.changers (s : State) (cores : BitVec 32) : List Nat :=
  s.parts.filterMap fun e =>
    if e.2.present && e.2.leaving.isSome && ((e.2.pooled && e.2.cores == cores) || e.2.leaving == some (cores, true)) then
      some e.1
    else none
/-- At a boundary of a pool a partition gets the cores that it was to have (R361); where another pool that it is to join or
leave has a turn that runs, that part of the change waits for that pool's boundary. -/
def State.applyLeave (s : State) (cores : BitVec 32) (a : Nat) : State :=
  let p := s.part a
  match p.leaving with
  | none => s
  | some (c, pooled) =>
    let runs (t : PoolTurn) : Bool :=
      t.till != 0 && t.cores != cores && ((p.pooled && p.cores == t.cores) || (pooled && c == t.cores))
    if !s.pools.any runs then s.holdCores a c pooled
    else if p.pooled && p.cores == cores then s.leavePool a
    else s

/-- TIME_SLICE_EXPIRY: the turn of a pool ends, at its time or because the holder has no work, and the next partition with
work takes the cores; where only the holder has work its turn is renewed, and a turn begins when work comes (R78). Those that
are to join or leave the pool do so at this boundary (R361). -/
def timeSliceExpiry (cores : BitVec 32) (s : State) : State :=
  match s.pools.find? fun p => p.cores == cores with
  | none => s
  | some pool =>
    let h := pool.holder
    let quiet := !(s.members cores).contains h || !s.hasWork h
    let stop (s : State) : State := if s.onCores h cores then preemptionStop h cores .slice s else s
    if quiet ∨ (pool.till ≠ 0 ∧ pool.till ≤ s.now) then
      let changing := s.changers cores
      let s := (changing.filter (· != h)).foldl (fun s a => s.applyLeave cores a) s
      match s.nextHolder pool with
      | none =>
        if changing.contains h then ((stop s).setTurn cores h 0).applyLeave cores h
        else s.setTurn cores h (if quiet then 0 else s.turnEnd h)
      | some next => ((stop s).setTurn cores next (s.turnEnd next)).applyLeave cores h
    else if pool.till = 0 then s.setTurn cores h (s.turnEnd h)
    else s
def execTimeSliceExpiry (pool : BitVec 32) (s : State) : Out := event (timeSliceExpiry pool) s

/-! ### Debug (R426 to R429) -/

def dbgNOCTX : BitVec 8 := 1
def dbgSTATE : BitVec 8 := 2
def dbgBUSY : BitVec 8 := 3
def dbgSPACE : BitVec 8 := 4

def State.dbgResultIs (s : State) (part : Nat) (r : BitVec 8) : State := s.modPart part fun p => { p with dbgResult := r }
/-- A live launch of the partition holds the context. -/
def State.liveCtx (s : State) (part ctx : Nat) : Bool :=
  match s.launches.find? (part * 2048 + ctx) with
  | some l => l.part == part && !l.complete
  | none => false
/-- Another launch of the partition is halting, halted or resuming. -/
def State.dbgBusy (s : State) (part ctx : Nat) : Bool :=
  (s.part part).dbgState != 0 && decide ((s.part part).dbgCtx ≠ ctx)

/-- The save area holds the images of a launch's placed units, with their directory (R426). -/
def State.dbgFits (s : State) (part ctx : Nat) : Bool :=
  let cid := part * 2048 + ctx
  let us := s.units.filter fun e => e.2.cid == cid && !e.2.groups.isEmpty
  let images := (us.map fun e => (s.capture e.1 e.2).size).foldl (· + ·) 0
  let n := us.length + (s.saved.filter fun x => x.unit.cid == cid).length
  us.isEmpty || decide (s.saveTaken part + images + (16 * n + 255) / 256 * 256 ≤ s.saveSize part)

/-- DBG_HALT (R427). -/
def dbgHalt (part ctx : Nat) (s : State) : State :=
  if !s.liveCtx part ctx then s.dbgResultIs part dbgNOCTX
  else if (s.part part).dbgState ≠ 0 ∧ (s.part part).dbgCtx = ctx then s.dbgResultIs part dbgSTATE
  else if s.dbgBusy part ctx then s.dbgResultIs part dbgBUSY
  else if !s.dbgFits part ctx then s.dbgResultIs part dbgSPACE
  else
    let s := s.modPart part fun p => { p with dbgCtx := ctx, dbgResult := 0, dbgState := 1, dbgCount := 0 }
    let s := s.modLaunch (part * 2048 + ctx) fun l => { l with halted := true }
    preemptionStop part (BitVec.allOnes 32) .debug s
def execDbgHalt (part ctx : Nat) (s : State) : Out := event (dbgHalt part ctx) s

/-- RESUME and STEP: the units of a halted launch are placed again (R428, R429). -/
def dbgGo (step : Bool) (part ctx : Nat) (s : State) : State :=
  if !s.liveCtx part ctx then s.dbgResultIs part dbgNOCTX
  else if (s.part part).dbgState ≠ 2 ∨ (s.part part).dbgCtx ≠ ctx then s.dbgResultIs part dbgSTATE
  else
    let cid := part * 2048 + ctx
    let s := s.modPart part fun p => { p with dbgResult := 0, dbgState := 3, dbgCount := 0 }
    if step then
      { s with saved := s.saved.map fun x => if x.unit.cid = cid then { x with unit := { x.unit with stepping := true } } else x }
    else (s.modLaunch cid fun l => { l with halted := false }).resumed part
def execDbgResume (part ctx : Nat) (s : State) : Out := event (dbgGo false part ctx) s
def execDbgStep (part ctx : Nat) (s : State) : Out := event (dbgGo true part ctx) s

/-- A thread of a stepped unit has had its instruction, or waits throughout (R429). -/
def Thread.hasStepped (th : Thread) : Bool := th.stepped || !(th.wait == .ready)
/-- The step of a partition's halted launch is over: every unit is placed and no thread may still issue. -/
def State.stepOver (s : State) (part : Nat) : Bool :=
  let p := s.part part
  let cid := part * 2048 + p.dbgCtx
  p.dbgState == 3 && (match s.launches.find? cid with
    | some l => l.halted
    | none => false) && !s.saved.any (fun x => x.unit.cid == cid && x.unit.stepping) &&
    s.units.all fun e => e.2.cid != cid || (s.unitTids e.2).all fun t => (s.thr t).hasStepped
/-- The launch is halted again after its step (R429). -/
def State.stepHalt (s : State) (part : Nat) : State :=
  let cid := part * 2048 + (s.part part).dbgCtx
  let s := s.modPart part fun p => { p with dbgState := 1 }
  preemptionStop part (BitVec.allOnes 32) .debug
    { s with units := s.units.mapVals fun u => if u.cid = cid then { u with stepping := false } else u }

/-! ### Stalled units (R430) -/

/-- No event outside the unit can end a thread's wait; a complete round that is held on absent pages goes on when they are
mapped (R431). -/
def State.stuck (s : State) (u : UnitRec) (t : Tid) : Bool := match (s.thr t).wait with
  | .barrier _ => true
  | .signed n => (s.cv (cvKey t n)).held.isEmpty
  | .token => true
  | .tset h => tileSize (u.tile h) == 0
  | _ => false
/-- Every live thread of the unit is stuck, and no operation of it is in flight; a unit that is being pre-empted counts no
clocks (R52). -/
def State.stalled (s : State) (uid : Nat) (u : UnitRec) : Bool :=
  u.stopping.isNone && !(s.unitTids u).isEmpty && (s.unitTids u).all (s.stuck u) &&
    !s.quads.any fun e => [e.2.mma, e.2.soft].any fun r => r.any fun x => x.unit == uid
/-- Note which units are stalled as the clock advances; one that is being pre-empted keeps its count. -/
def State.noteStalls (s : State) : State :=
  let note (e : Nat × UnitRec) : Option Nat :=
    if e.2.stopping.isSome then e.2.stall.map (· + 1)
    else if s.stalled e.1 e.2 then some (e.2.stall.getD s.now) else none
  { s with units := s.units.map fun e => (e.1, { e.2 with stall := note e }) }

/-- STALL_TIMEOUT: a unit stalled for 2^20 clocks is fatal to its context (R430). -/
def stallTimeout (uid : Nat) (s : State) : State :=
  match s.units.find? uid with
  | none => s
  | some u =>
    match u.stall with
    | some since => if s.stalled uid u ∧ since + 2 ^ 20 ≤ s.now then (s.meet u.core).fatalContext u.part 0x07 u.cid 0 else s
    | none => s
def execStallTimeout (unit : Nat) (s : State) : Out := event (stallTimeout unit) s

end Sys2Proof.Machine
end

