-- ==== Sys2Proof/Machine/Engine.lean ====
section
/-!
DEFINITION. Transfer engines: the conditions on a command, its locks, and the effects of COPY, GATHER, SCATTER, FILL,
TFILL, TDRAIN and PUT (R83, R98, R136, R137, R139, R336 to R343).
-/
namespace Sys2Proof.Machine

-- Statuses of R341.
def stOK := 0
def stOP := 1
def stALIGN := 2
def stLENGTH := 3
def stDENIED := 4
def stTILE := 5
def stKV := 6
def stREMOTE := 7

def Cmd.opN (c : Cmd) : Nat := c.op.toNat
def Cmd.isAppend (c : Cmd) : Bool := decide (0x10 ≤ c.opN ∧ c.opN ≤ 0x13)
def Cmd.kv (c : Cmd) : Bool := c.flags.getLsbD 2
def Cmd.wrap (c : Cmd) : Bool := c.flags.getLsbD 1
def Cmd.order (c : Cmd) : Bool := c.flags.getLsbD 0
def Cmd.onTile (c : Cmd) : Bool := c.opN == opTFILL || c.opN == opTDRAIN
/-- Bytes of an element of GATHER and SCATTER. -/
def Cmd.elem (c : Cmd) : Nat := 32 * 2 ^ (c.aux.toNat % 16)
/-- Key of the chain's descriptor among chains. -/
def Cmd.tagN (c : Cmd) : Nat := tagOf c.chain c.asid c.part
/-- Two commands of one chain. -/
def Cmd.sameChain (a b : Cmd) : Bool := a.tagN == b.tagN && a.chain == b.chain

/-- End the effects of a command with a status; a FENCE.fabric that waits for it looks again. -/
def State.endCmd (s : State) (k status : Nat) : State :=
  (s.modCmd k fun c => { c with phase := .effected, status, waiting := none }).wakeIf fun _ th => th.wait == .fence
/-- Leave a command waiting for something known by a key. -/
def State.cmdWait (s : State) (k key : Nat) : State := s.modCmd k fun c => { c with waiting := some key }

/-! ### The statuses that precede any access (R339 to R341) -/

/-- A sector range: aligned, and from 32 bytes to 16 MiB. -/
def alignedRange (a n : Dword) : Bool := a.toNat % 32 == 0 && n.toNat % 32 == 0
def lengthOk (n : Nat) : Bool := decide (32 ≤ n ∧ n ≤ 2 ^ 24)

/-- OP: the code is not one of the chain's kind, or a reserved field or a flag without meaning is not zero. -/
def Cmd.badOp (c : Cmd) : Bool :=
  let append := c.engine == 161
  let known := if append then c.isAppend else decide (1 ≤ c.opN ∧ c.opN ≤ 7)
  let zero (l : List Dword) : Bool := l.all (· == 0)
  let flagMask : Nat := match c.opN with
    | 5 => 0b0111
    | 6 => 0b0011
    | 0x11 => 0b1001
    | _ => 0b0001
  let tagOk := if c.onTile then decide (c.tag.toNat < 256) else c.opN == 0x10 || c.opN == 0x11 || c.tag == 0
  let fieldsOk := match c.opN with
    | 1 => zero [c.aux, c.aux2]
    | 2 => c.aux.extractLsb' 4 60 == 0 && c.aux2 == 0
    | 3 => c.aux.extractLsb' 4 60 == 0 && c.aux2 == 0
    | 4 => c.src == 0 && c.aux2.extractLsb' 16 48 == 0
    | 5 => c.dst.extractLsb' 24 40 == 0 &&
        (if c.kv then c.src.extractLsb' 25 7 == 0 && zero [c.aux, c.aux2] else c.aux.extractLsb' 32 32 == 0)
    | 6 => c.src.extractLsb' 24 40 == 0 && c.aux.extractLsb' 32 32 == 0
    | 7 => zero [c.aux, c.aux2]
    | 0x10 => zero [c.dst, c.aux, c.aux2]
    | 0x11 => zero [c.src, c.dst, c.len, c.aux, c.aux2]
    | 0x12 => zero [c.src, c.dst, c.len, c.aux2] && c.aux.extractLsb' 16 48 == 0
    | _ => zero [c.src, c.aux, c.aux2]
  !known || c.flags.toNat &&& flagMask != c.flags.toNat || c.resv != 0 || !tagOk || !fieldsOk

/-- A row length or stride off the sector grain, or a length that is no whole number of rows (R340). -/
def Cmd.rowsUneven (c : Cmd) : Bool :=
  c.aux2.toNat % 32 != 0 || c.aux.toNat % 32 != 0 || c.len.toNat % 32 != 0 || (c.aux != 0 && c.len.toNat % c.aux.toNat != 0)

/-- ALIGN: an address or length breaks R339 or R340. -/
def Cmd.badAlign (c : Cmd) : Bool :=
  match c.opN with
  | 1 => !(alignedRange c.src c.len && alignedRange c.dst c.len)
  | 2 => c.src.toNat % 8 != 0 || c.dst.toNat % 32 != 0
  | 3 => c.dst.toNat % 8 != 0 || c.src.toNat % 32 != 0
  | 4 => !alignedRange c.dst c.len
  | 7 => !(alignedRange c.src c.len && alignedRange c.dst c.len)
  | 5 => c.dst.toNat % 32 != 0 || (!c.kv && (c.src.toNat % 32 != 0 || c.rowsUneven))
  | 6 => c.src.toNat % 32 != 0 || c.dst.toNat % 32 != 0 || c.rowsUneven
  | _ => false

/-- LENGTH: a count or length outside its limits; append commands have their own codes (R164). Bytes beyond the tile are looked at with the tile. -/
def Cmd.badLength (c : Cmd) : Bool :=
  let n := c.len.toNat
  -- the packed side of GATHER and SCATTER is a sector range too
  let list := decide (n < 1 ∨ 65536 < n ∨ 11 < c.aux.toNat % 16) || !lengthOk (n * c.elem)
  match c.opN with
  | 2 => list
  | 3 => list
  | 5 => if c.kv then decide (n < 1 ∨ 65536 < n)
         else decide (c.aux.toNat < 32 ∨ 65536 < c.aux.toNat ∨ n < c.aux.toNat ∨ 2 ^ 24 < n)
  | 6 => decide (c.aux.toNat < 32 ∨ 65536 < c.aux.toNat ∨ n < c.aux.toNat ∨ 2 ^ 24 < n)
  | 1 => !lengthOk n
  | 4 => !lengthOk n
  | 7 => !lengthOk n
  | _ => false

/-- Bytes that a tile command moves, and its offset in the tile. -/
def Cmd.tileBytes (c : Cmd) : Nat := if c.kv then 128 * c.len.toNat else c.len.toNat
def Cmd.tileOff (c : Cmd) : Nat := (if c.opN = opTFILL then c.dst else c.src).toNat

/-- What a tile command meets at its tile (R83, R340): its unit's tile, a status, or a wait. -/
inductive TileStart where
  | ok (core lo size : Nat) (e : Word)
  | status (n : Nat)
  | wait
  deriving DecidableEq, Repr

def State.tileStart (s : State) (c : Cmd) : TileStart :=
  match c.unit with
  | none => .status stTILE
  | some uid =>
    match s.units.find? uid with
    | none => if s.saved.any fun x => x.uid == uid then .wait else .status stTILE
    | some u =>
      let h := c.tag.toNat % 256
      let e := u.tile h
      let size := tileSize e * 4096
      if u.groups.isEmpty then .status stTILE
      else if u.stopping.isSome then .wait
      else if tileSize e ≠ 0 ∧ !c.wrap ∧ size < c.tileOff + c.tileBytes then .status stLENGTH
      else if tileSize e = 0 then .status stTILE
      else if c.opN = opTFILL then
        if tileState e ≠ tileEMPTY then .status stTILE else .ok u.core (u.tileRange h).1 size e
      else if tileState e = tileFILLING ∨ (tileState e = tileREADY ∧ s.tileBusy uid h) then .wait
      else if tileState e ≠ tileREADY then .status stTILE
      else .ok u.core (u.tileRange h).1 size e

/-- The first status of OP, ALIGN and LENGTH that applies; a poisoned entry is DENIED (R341, R414). -/
def Cmd.early (c : Cmd) : Nat :=
  if c.poison then stDENIED
  else if c.badOp then stOP
  else if c.badAlign then stALIGN
  else if c.badLength then stLENGTH
  else stOK

/-! ### Locks (R137, R343) -/

/-- The page at an address is remote. -/
def State.remoteAt (s : State) (c : Cmd) (va : Nat) : Bool :=
  regionOf va != .carve && (match (s.translate c.who va).1 with
    | .ok x => x.home == 3
    | _ => false)
/-- A lock on a range of addresses, at sector grain. -/
def Cmd.lock (c : Cmd) (va n : Nat) (full : Bool) : Lock :=
  { tag := tagOf va c.asid c.part, lo := va / 32 * 32, hi := (va + n + 31) / 32 * 32, full }
/-- Ranges of the memory rows of a tile command. -/
def Cmd.rowRanges (c : Cmd) : List (Nat × Nat) :=
  let base := (if c.opN = opTFILL then c.src else c.dst).toNat
  (List.range (c.len.toNat / c.aux.toNat)).map fun i => (base + i * c.aux2.toNat, c.aux.toNat)
/-- Pages of a range. -/
def pagesOf (va n : Nat) : List Nat := (List.range ((va % 65536 + n + 65535) / 65536)).map fun i => (va / 65536 + i) * 65536
/-- One lock over ranges, from the first byte to the last of those on local pages; remote ranges take none (R343). -/
def State.lockSpan (s : State) (c : Cmd) (full : Bool) (rs : List (Nat × Nat)) : List Lock :=
  let here := rs.flatMap fun r => (pagesOf r.1 r.2).filterMap fun p =>
    if s.remoteAt c p then none else some (max p r.1, min (p + 65536) (r.1 + r.2))
  match here with
  | [] => []
  | x :: xs =>
    let lo := xs.foldl (fun m r => min m r.1) x.1
    let hi := xs.foldl (fun m r => max m r.2) x.2
    [c.lock lo (hi - lo) full]
/-- Locks of a command; `list` holds the addresses of a GATHER or SCATTER. -/
def State.locksOf (s : State) (c : Cmd) (list : List Nat) : List Lock :=
  let n := c.len.toNat
  let src (n : Nat) : List Lock := s.lockSpan c false [(c.src.toNat, n)]
  let dst (full : Bool) (n : Nat) : List Lock := s.lockSpan c full [(c.dst.toNat, n)]
  let items (full : Bool) : List Lock := s.lockSpan c full (list.map fun a => (a, c.elem))
  match c.opN with
  | 1 => src n ++ dst true n
  | 2 => src (8 * n) ++ dst true (n * c.elem) ++ items false
  | 3 => dst false (8 * n) ++ src (n * c.elem) ++ items true
  | 4 => dst true n
  | 5 => if c.kv then [] else s.lockSpan c false c.rowRanges
  | 6 => s.lockSpan c true c.rowRanges
  | 7 => src n
  | 0x10 => src n
  | _ => []

/-- A lock meets one held by another command. -/
def State.meetsLock (s : State) (k : Nat) (l : Lock) : Bool :=
  s.cmds.any fun c => c.1 != k && c.2.locks.any fun m => m.tag == l.tag && decide (m.lo < l.hi ∧ l.lo < m.hi)
/-- Entries of an engine's range-lock table in use, and its capacity. -/
def State.lockCount (s : State) (engine : Nat) : Nat :=
  (s.cmds.map fun c => if c.2.engine = engine then c.2.locks.length else 0).foldl (· + ·) 0
def lockRoom (engine : Nat) : Nat := if engine = 161 then 64 else 32

/-! ### Accesses of a command -/

/-- Key under which a command holds a flash line. -/
def flashKey (key : Nat) : Nat := 2 ^ 80 + key
/-- The line that a remote read of the command has received, or one that no line can be; or the flash line. -/
def State.cmdReply (s : State) (c : Cmd) (va : Nat) : Option Reply :=
  match (s.translate c.who va).1 with
  | .ok x =>
    if x.home = 2 then
      let key := lineKey (tagOf va c.asid c.part) va
      (Tbl.find? c.lines (flashKey key)).map fun data => { key, data, flash := true }
    else if x.home = 3 then
      let k := remoteKey c.part x.frame va
      some { key := if (Tbl.find? c.lines k).isSome then k else noReply, data := (Tbl.find? c.lines k).getD [] }
    else none
  | _ => none

/-- First byte of the ranges in the line at an address. -/
def firstByte (rs : List (Nat × Nat)) (va : Nat) : Nat :=
  ((rs.find? fun x => x.1 / 128 * 128 ≤ va ∧ va < x.1 + x.2).map fun x => max x.1 va).getD va

/-- The place of a line for a command: a remote line is read afresh at its package (R145). -/
def State.cmdPlace (s : State) (k : Nat) (c : Cmd) (u : Use) (rs : List (Nat × Nat)) (va : Nat) : Found × State :=
  match s.place { c.who with first := firstByte rs va } va u (s.cmdReply c va) with
  | (.wait (.remote q), s) =>
    match s.reqs.find? q with
    | some r =>
      if r.cmd = some k then (.wait (.remote q), s)
      else
        -- its own request, not one that a thread's load has made
        let (q', s) := s.askRemote r.part r.frame va false 0 c.cid (some k)
        (.wait (.remote q'), { s with reqs := s.reqs.filter fun e => e.1 != q || e.2.tids != [] || e.2.cmd.isSome })
    | none => (.wait (.remote q), s)
  | x => x

def State.cmdPlaces (s : State) (k : Nat) (c : Cmd) (u : Use) (rs : List (Nat × Nat)) : List Nat → List (Nat × Found) × State
  | [] => ([], s)
  | va :: r =>
    let (f, s) := s.cmdPlace k c u rs va
    let (fs, s) := s.cmdPlaces k c u rs r
    ((va, f) :: fs, s)

/-- Lines of ranges of bytes, each once. -/
def linesOfAll (rs : List (Nat × Nat)) : List Nat :=
  (rs.flatMap fun r => linesOf r.1 r.2).foldl (fun acc l => if acc.contains l then acc else acc ++ [l]) []
/-- A range leaves the 60-bit space or its region (R92). -/
def badSpan (r : Nat × Nat) : Bool := decide (2 ^ 60 < r.1 + r.2) || regionOf r.1 != regionOf (r.1 + r.2 - 1)

/-- The places of ranges for a command, or what it ends or waits with. -/
inductive CmdRes where
  | ok (ps : List (Nat × Place))
  | denied
  | wait
  deriving DecidableEq, Repr

def State.cmdAccess (s : State) (k : Nat) (c : Cmd) (u : Use) (rs : List (Nat × Nat)) : CmdRes × State :=
  if rs.any badSpan then (.denied, s)
  else
    let (fs, s) := s.cmdPlaces k c u rs (linesOfAll rs)
    -- the flash reads that now go on serve the command too (R170)
    let mine (f : FlashRead) : Bool := fs.any fun e => e.2 == .wait (.line f.key)
    let s := { s with flash := s.flash.map fun f => if mine f && !f.cmds.contains k then { f with cmds := f.cmds ++ [k] } else f }
    match sumUp fs with
    | .ok ps => (.ok ps, s)
    | .denied => (.denied, s)
    | .absent va r =>
      (.wait, (s.postFault c.who (firstByte rs va) 3 r).cmdWait k (pageKey (tagOf va c.asid c.part) va))
    | .wait (.line key) => (.wait, s.cmdWait k key)
    | .wait (.remote q) => (.wait, s.cmdWait k (reqKey q))
    | .wait _ => (.wait, s)

/-! ### What a command's pages decide before any of them is moved (R341) -/

/-- How a command uses a range. -/
inductive Side where
  | load | store | put
  deriving DecidableEq, Repr

/-- What one page of a range says. -/
inductive PageFate where
  | ok
  | denied
  | absent (reserved : Bool)
  /-- a remote page over a closed transport context (R472) -/
  | closed
  deriving DecidableEq, Repr

/-- A translated line that neither the LLC nor the command holds is in a flash page that is free (R95, R151, R170). -/
def State.lineFree (s : State) (c : Cmd) (x : Xlate) (va : Nat) : Bool :=
  let key := lineKey (tagOf va c.asid c.part) va
  x.home == 2 && (Tbl.find? s.lines key).isNone && (Tbl.find? c.lines (flashKey key)).isNone &&
    (Tbl.find? (s.part (ownerPart va c.part)).published x.frame).isNone
/-- A translated line is denied to a use: by its entry, or where the LLC does not hold it, by its colour or because no
flash page is published there (R88, R95). -/
def State.lineDenied (s : State) (c : Cmd) (x : Xlate) (u : Use) (va : Nat) : Bool :=
  !x.permits u c.who.priv ||
    (x.home != 3 && (Tbl.find? s.lines (lineKey (tagOf va c.asid c.part) va)).isNone && !s.colourOk va c.asid c.part) ||
    s.lineFree c x va

/-- The fate of the part of a range in one page. -/
def State.pageFate (s : State) (c : Cmd) (side : Side) (va n : Nat) : PageFate × State :=
  if regionOf va = .carve then
    (if side = .put ∨ (s.carveAddr c.part (va % 2 ^ 48)).isNone then .denied else .ok, s)
  else match s.translate { c.who with first := va } va with
  | (.denied, s) => (.denied, s)
  | (.absent r, s) => (.absent r, s)
  | (.ok x, s) =>
    let cut := x.home == 3 && Tbl.find? (s.part c.part).closed (x.frame / 2 ^ 28) == some false
    let bad := match side with
      | .put => x.home != 3 || x.svc
      | .load => (linesOf va n).any (s.lineDenied c x .load)
      | .store => (linesOf va n).any (s.lineDenied c x .store)
    -- a read that a free flash page denies has its place before the next publication (R168)
    let s := if side = .load ∧ (linesOf va n).any (s.lineFree c x) then s.readFree c.engine else s
    (if bad then .denied else if cut then .closed else .ok, s)

/-- The fates of the pages of ranges, one after another. -/
def State.pageFates (s : State) (c : Cmd) : List (Side × Nat × Nat) → List (Nat × PageFate) × State
  | [] => ([], s)
  | (side, va, n) :: r =>
    let (f, s) := s.pageFate c side va n
    let (fs, s) := s.pageFates c r
    ((va, f) :: fs, s)

/-- The parts of ranges in each page. -/
def sidePages (rs : List (Side × Nat × Nat)) : List (Side × Nat × Nat) :=
  rs.flatMap fun (r : Side × Nat × Nat) => (pagesOf r.2.1 r.2.2).map fun p =>
    (r.1, max p r.2.1, min (p + 65536) (r.2.1 + r.2.2) - max p r.2.1)

/-- The pages of a command's ranges are examined together: a denied one ends it with DENIED, then an absent one is waited
for, then a closed transport context ends it with REMOTE. Whether it goes on (R341). -/
def State.scan (s : State) (k : Nat) (c : Cmd) (rs : List (Side × Nat × Nat)) : Bool × State :=
  if rs.any fun r => badSpan r.2 then (false, s.endCmd k stDENIED)
  else
    let (fs, s) := s.pageFates c (sidePages rs)
    if fs.any fun f => f.2 == .denied then (false, s.endCmd k stDENIED)
    else match fs.findSome? (fun f => match f.2 with | .absent r => some (f.1, r) | _ => none) with
    | some (va, r) =>
      (false, (s.postFault c.who va 3 r).cmdWait k (pageKey (tagOf va c.asid c.part) va))
    | none =>
      if fs.any fun f => f.2 == .closed then (false, (s.endCmd k stREMOTE).reportLink c.engine c.part c.cid 1) else (true, s)
/-- Ranges under one use. -/
def onSide (side : Side) (rs : List (Nat × Nat)) : List (Side × Nat × Nat) := rs.map fun r => (side, r.1, r.2)

/-- The report of a command that consumed a poisoned entry or list (R414). -/
def State.reportEaten (s : State) (c : Cmd) : State := (s.meet c.engine).report c.part 1 0x08 c.cid 0 0 0 0 9

/-- Read sectors at places. -/
def State.sectorList (s : State) (ps : List (Nat × Place)) (as : List Nat) : List SectorLit :=
  as.map fun a => match placeOf ps a with
    | some p => s.sectorAt p (a % 128 / 32)
    | none => zeroLit
/-- Sector addresses of a range. -/
def sectorAddrs (va n : Nat) : List Nat := (List.range (n / 32)).map fun i => va + 32 * i
/-- Whole-sector writes. -/
def sectorWrites (as : List Nat) (vs : List SectorLit) : List SecWrite :=
  (as.zip vs).map fun e =>
    { va := e.1, n := 32, val := e.2.data.toNat, side := some e.2.side, poison := some e.2.poison }

/-- The transfer engine of a command's core does not serve its partition: another's turn runs on a pooled core (R351, R477),
or the partition has no unit placed or queued there and the core is not its, or is being pre-empted (R74, R337). DEDUCED (log
118): at the end of a turn the engine stops although an entry of the partition stays in the core's unit queue. -/
def State.engineAway (s : State) (c : Cmd) : Bool :=
  let core := c.engine - 32
  decide (32 ≤ c.engine ∧ c.engine < 64) &&
    (s.pools.any (fun x => x.cores.getLsbD core && x.holder != c.part) ||
      (!(s.units.any (fun u => u.2.core == core && u.2.part == c.part)) &&
        !((s.coreRec core).queue.any fun q => q.cid / 2048 == c.part) &&
        (!(s.part c.part).cores.getLsbD core ||
          s.stops.any fun r => r.part == c.part && r.reqs.any fun q => q.2.getLsbD core && q.1 != .debug)))
/-- A command that has issued stands still: the package does not run, or its engine serves another. Those of a partition that
is fatal or being reset run to completion (R475 step 1, R476). -/
def State.cmdStill (s : State) (c : Cmd) : Bool :=
  let p := s.part c.part
  decide (s.boot.power ≠ .running) || (!p.fatal && !p.resetting && s.engineAway c)
/-- A command may not issue: as above, and none of a partition that is fatal or being reset does (R475 step 3, R476). -/
def State.cmdStopped (s : State) (c : Cmd) : Bool :=
  let p := s.part c.part
  p.fatal || p.resetting || s.cmdStill c

/-- Run an effect of an issued command whose operation is one of a list, unless it stands still. -/
def State.onIssued (s : State) (k : Nat) (ops : List Nat) (f : Cmd → State) : State :=
  match s.cmds.find? k with
  | none => s
  | some c => if c.phase = .issued ∧ ops.contains c.opN ∧ !s.cmdStill c then f c else s

/-- Sectors that a command moves at a time: 64 KiB of progress, between which it may stop (R74). -/
def pieceSecs : Nat := 2048
/-- The next piece of a command's sectors. -/
def Cmd.piece {α : Type} (c : Cmd) (l : List α) : List α := (l.drop (c.progress / 32)).take pieceSecs
/-- A piece of n bytes has been moved, of `total` in all: the command goes on, or ends. -/
def State.moved (s : State) (k n total : Nat) : State :=
  match s.cmds.find? k with
  | none => s
  | some c =>
    let at_ := c.progress + n
    let s := s.modCmd k fun c => { c with progress := at_, bytes := at_ }
    if total ≤ at_ then s.endCmd k stOK else s
/-- Sectors as ranges of a byte range each. -/
def secRanges (as : List Nat) : List (Nat × Nat) := as.map fun a => (a, 32)
/-- Sector addresses of ranges, in order. -/
def allSecs (rs : List (Nat × Nat)) : List Nat := rs.flatMap fun r => sectorAddrs r.1 r.2

/-- Read a piece of a command's sources: `none` where it ends or waits. -/
def State.readPiece (s : State) (k : Nat) (c : Cmd) (as : List Nat) : Option (List SectorLit) × State :=
  match s.cmdAccess k c .load (secRanges as) with
  | (.denied, s) => (none, s.endCmd k stDENIED)
  | (.wait, s) => (none, s)
  | (.ok ps, s) =>
    let s := s.leaseLoad c.engine (leaseLines ps)
    (some (s.sectorList ps as), s)
/-- Write a piece of a command's destinations, of `total` bytes in all. -/
def State.writePiece (s : State) (k : Nat) (c : Cmd) (as : List Nat) (vs : List SectorLit) (total : Nat) : State :=
  match s.cmdAccess k c .store (secRanges as) with
  | (.denied, s) => s.endCmd k stDENIED
  | (.wait, s) => s
  | (.ok pd, s) => (s.performWrites c.engine pd (sectorWrites as vs)).moved k (32 * as.length) total

/-- Move a piece of sectors between ranges of memory: its sources are read, then its destinations are written. -/
def State.moveSectors (s : State) (k : Nat) (c : Cmd) (src dst : List (Nat × Nat)) : State :=
  match s.scan k c (onSide .load src ++ onSide .store dst) with
  | (false, s) => s
  | (true, s) =>
    match s.readPiece k c (c.piece (allSecs src)) with
    | (none, s) => s
    | (some vs, s) => s.writePiece k c (c.piece (allSecs dst)) vs (32 * (allSecs dst).length)

/-! ### COPY, FILL, GATHER and SCATTER -/

def copyCmd (k : Nat) (s : State) : State :=
  s.onIssued k [opCOPY] fun c => s.moveSectors k c [(c.src.toNat, c.len.toNat)] [(c.dst.toNat, c.len.toNat)]
def execCopy (cmd : Nat) (s : State) : Out := event (copyCmd cmd) s

def fillCmd (k : Nat) (s : State) : State :=
  s.onIssued k [opFILL] fun c =>
    let dst := [(c.dst.toNat, c.len.toNat)]
    match s.scan k c (onSide .store dst) with
    | (false, s) => s
    | (true, s) =>
      let v : SectorLit := { data := c.aux ++ c.aux ++ c.aux ++ c.aux, side := c.aux2.extractLsb' 0 16, poison := false }
      let as := c.piece (allSecs dst)
      s.writePiece k c as (as.map fun _ => v) c.len.toNat
def execFill (cmd : Nat) (s : State) : Out := event (fillCmd cmd) s

/-- The list of a GATHER or SCATTER, and its packed range. -/
def Cmd.listRange (c : Cmd) : Nat × Nat := ((if c.opN = opGATHER then c.src else c.dst).toNat, 8 * c.len.toNat)
def Cmd.packed (c : Cmd) : Nat × Nat := ((if c.opN = opGATHER then c.dst else c.src).toNat, c.len.toNat * c.elem)
def Cmd.packedSide (c : Cmd) : Side := if c.opN = opGATHER then .store else .load

/-- The list of a GATHER or SCATTER: its addresses, or `none` where the command ends or waits for its pages. A poisoned
list is consumed: DENIED (R414). -/
def State.listOf (s : State) (k : Nat) (c : Cmd) : Option (List Nat) × State :=
  let (base, n) := c.listRange
  let list := onSide .load [c.listRange]
  -- the packed range is judged with the elements (R341), but for a list that cannot be read over its transport context
  let cut := (s.pageFates c (sidePages list)).1.any fun f => f.2 == .closed
  match s.scan k c (list ++ if cut then onSide c.packedSide [c.packed] else []) with
  | (false, s) => (none, s)
  | (true, s) =>
    match s.cmdAccess k c .load [c.listRange] with
    | (.denied, s) => (none, s.endCmd k stDENIED)
    | (.wait, s) => (none, s)
    | (.ok ps, s) =>
      let secs := s.sectorList ps (sectorsOf base n)
      let s := s.leaseLoad c.engine (leaseLines ps)
      if secs.any SectorLit.poison then (none, (s.reportEaten c).endCmd k stDENIED)
      else
        let x := bytesOf secs base n
        (some ((List.range c.len.toNat).map fun i => x / 2 ^ (64 * i) % 2 ^ 64), s)

/-- GATHER and SCATTER: `op` is the one performed. -/
def listCmd (op k : Nat) (s : State) : State :=
  s.onIssued k [op] fun c =>
    match s.listOf k c with
    | (none, s) => s
    | (some l, s) =>
      if l.any fun a => a % 32 != 0 then s.endCmd k stALIGN
      else
        let items := l.map fun a => (a, c.elem)
        if c.opN = opGATHER then s.moveSectors k c items [c.packed] else s.moveSectors k c [c.packed] items
def execGather (cmd : Nat) (s : State) : Out := event (listCmd opGATHER cmd) s
def execScatter (cmd : Nat) (s : State) : Out := event (listCmd opSCATTER cmd) s

/-! ### TFILL and TDRAIN -/

/-- Write physical sectors of a tile store. -/
def Mem.putSectors (m : Mem) (as : List Nat) (vs : List SectorLit) : Mem :=
  (as.zip vs).foldl (fun (m : Mem) (e : Nat × SectorLit) => m.setSector e.1 e.2) m

/-- Bytes of the tile of an issued command, where it can reach them: in a core's store, or in the command's own keeping
once its saved unit is gone for good; `none` while its unit is saved (R337, R340). -/
def State.tileHeld (s : State) (c : Cmd) : Option Nat :=
  match c.region with
  | some r => some r.2.2
  | none => if s.saved.any fun x => c.unit == some x.uid then none else some (32 * c.kept.length)
/-- Offsets in the tile of the sectors that a command moves, in order; WRAP takes them modulo the tile. -/
def Cmd.tileSecs (c : Cmd) (size n : Nat) : List Nat :=
  (List.range (n / 32)).map fun i =>
    let o := c.tileOff + 32 * i
    if c.wrap then o % size else o
/-- Read sectors of a command's tile. -/
def State.readTile (s : State) (c : Cmd) (os : List Nat) : List SectorLit :=
  os.map fun o => match c.region with
    | some (core, lo, _) => s.mem.sector (tileAddr core (lo + o))
    | none => c.kept.getD (o / 32) zeroLit
/-- Write sectors of a command's tile. -/
def State.writeTile (s : State) (k : Nat) (c : Cmd) (os : List Nat) (vs : List SectorLit) : State :=
  match c.region with
  | some (core, lo, _) => { s with mem := s.mem.putSectors (os.map fun o => tileAddr core (lo + o)) vs }
  | none => s.modCmd k fun c => { c with kept := (os.zip vs).foldl (fun l e => l.set (e.1 / 32) e.2) c.kept }

/-- Memory form of TFILL (R340). -/
def tfillCmd (k : Nat) (s : State) : State :=
  s.onIssued k [opTFILL] fun c =>
    match s.tileHeld c with
    | none => s
    | some size =>
      if c.kv then s
      else match s.scan k c (onSide .load c.rowRanges) with
      | (false, s) => s
      | (true, s) =>
        match s.readPiece k c (c.piece (allSecs c.rowRanges)) with
        | (none, s) => s
        | (some vs, s) =>
          (s.writeTile k c (c.piece (c.tileSecs size c.len.toNat)) vs).moved k (32 * vs.length) c.len.toNat
def execTfill (cmd : Nat) (s : State) : Out := event (tfillCmd cmd) s

/-- The counts of a KV fill with further statuses, from a position index on. -/
def Cmd.countKv (c : Cmd) (from_ p0 : Nat) (sts : List Nat) : Cmd :=
  let count (x : Nat) : Nat := c.kvCounts.getD x 0 + sts.count x
  let first := (List.range sts.length).find? fun i => sts.getD i 0 != 0
  { c with
    kvCounts := [count 0, count 1, count 2, count 3]
    kvFirst := match first with
      | some i => if c.kvFirst = 0xFFFFFFFF then (p0 + from_ + i) % 2 ^ 32 else c.kvFirst
      | none => c.kvFirst }

/-- KV form of TFILL: each position resolved through the residency map, as an access of the engine between mi and mc
(R117, R136, R258, R340). -/
def tfillKvCmd (k : Nat) (s : State) : State :=
  s.onIssued k [opTFILL] fun c =>
    match s.tileHeld c with
    | none => s
    | some size =>
      if !c.kv then s
      else
        let q := c.src.toNat % 2 ^ 16
        let h := c.src.toNat / 2 ^ 16 % 2 ^ 8
        let sel := c.src.toNat / 2 ^ 24 % 2
        let p0 := c.src.toNat / 2 ^ 32
        let total := 128 * c.len.toNat
        let done := c.progress / 128
        let n := min (pieceSecs / 4) (c.len.toNat - done)
        let s := s.poolRead c.engine
        let step (acc : State × List SectorLit × List Nat) (i : Nat) : State × List SectorLit × List Nat :=
          let (s, secs, sts) := acc
          let r := s.resolve c.part q h (p0 + done + i) sel [0, 1, 2, 3]
          ((s.handleDead c.engine c.part c.cid r.handle).wantFrame c.part r, secs ++ r.line, sts ++ [r.status])
        let (s, secs, sts) := (List.range n).foldl step (s, [], [])
        let s := (s.writeTile k c (c.piece (c.tileSecs size total)) secs).modCmd k fun c => c.countKv done p0 sts
        let s := s.moved k (128 * n) total
        match s.cmds.find? k with
        | some c => if c.phase = .effected ∧ c.kvCounts.getD 0 0 < c.len.toNat then s.endCmd k stKV else s
        | none => s
def execTfillKv (cmd : Nat) (s : State) : Out := event (tfillKvCmd cmd) s

def tdrainCmd (k : Nat) (s : State) : State :=
  s.onIssued k [opTDRAIN] fun c =>
    match s.tileHeld c with
    | none => s
    | some size =>
      match s.scan k c (onSide .store c.rowRanges) with
      | (false, s) => s
      | (true, s) =>
        let vs := s.readTile c (c.piece (c.tileSecs size c.len.toNat))
        s.writePiece k c (c.piece (allSecs c.rowRanges)) vs c.len.toNat
def execTdrain (cmd : Nat) (s : State) : Out := event (tdrainCmd cmd) s

/-! ### PUT (R139) -/

/-- The frame of a remote page; a page that is none has been refused before. -/
def State.remoteFrameOf (s : State) (c : Cmd) (va : Nat) : Nat :=
  match (s.translate c.who va).1 with
  | .ok x => x.frame
  | _ => 0
/-- Send sectors to a remote range, page by page. -/
def State.sendPut (s : State) (c : Cmd) (as : List Nat) (vs : List SectorLit) : State :=
  let pages := (as.map fun a => a / 65536 * 65536).eraseDups
  pages.foldl (fun (s : State) p =>
    let mine := (as.zip vs).filter fun e => e.1 / 65536 * 65536 == p
    s.send (.put c.part c.cid (s.remoteFrameOf c p) ((mine.map Prod.fst).headD p % 65536) (mine.map Prod.snd))) s

/-- PUT: the source is read and sent, piece by piece; the command completes after the acknowledgement. On a closed context
it fails at once (R472). -/
def putCmd (k : Nat) (s : State) : State :=
  s.onIssued k [opPUT] fun c =>
    let src := (c.src.toNat, c.len.toNat)
    let dst := (c.dst.toNat, c.len.toNat)
    if c.unacked then s
    else match s.scan k c (onSide .load [src] ++ onSide .put [dst]) with
    | (false, s) => s
    | (true, s) =>
      match s.readPiece k c (c.piece (allSecs [src])) with
      | (none, s) => s
      | (some vs, s) =>
        let pkgs := ((pagesOf dst.1 dst.2).map fun p => s.remoteFrameOf c p / 2 ^ 28).eraseDups
        let again := pkgs.filter fun p => (Tbl.find? (s.part c.part).closed p).isSome
        let s := again.foldl (fun s p => s.reopen c.engine c.part p c.cid) s
        let s := s.sendPut c (c.piece (allSecs [dst])) vs
        let at_ := c.progress + 32 * vs.length
        s.modCmd k fun c =>
          if c.len.toNat ≤ at_ then
            { c with progress := at_, unacked := true, sentAt := s.rt, pkgs, waiting := some (2 ^ 91 + k) }
          else { c with progress := at_ }
def execPut (cmd : Nat) (s : State) : Out := event (putCmd cmd) s

/-- PUT_ACKNOWLEDGE: the remote packages have performed the PUT (R139), also while its partition's commands stand still. -/
def putAcknowledge (k : Nat) (s : State) : State :=
  match s.cmds.find? k with
  | some c =>
    if c.phase = .issued ∧ c.unacked then
      (s.modCmd k fun c => { c with unacked := false, bytes := c.len.toNat }).endCmd k stOK
    else s
  | none => s
def execPutAcknowledge (cmd : Nat) (s : State) : Out := event (putAcknowledge cmd) s

end Sys2Proof.Machine
end

