-- ==== Sys2Proof/Machine/Append.lean ====
section
/-!
DEFINITION. Append streams and the append engine (R158 to R174, R469, R470); issue and completion of the commands of every
engine (R136, R137, R334 to R342, R477).
-/
namespace Sys2Proof.Machine

-- Statuses of R164.
def apOK := 0
def apSTREAM := 1
def apLENGTH := 2
def apFULL := 3
def apGROUPS := 4
def apNOGROUP := 5
def apSOURCE := 6
def apOPEN := 7
def apMEDIA := 8
def apGROUPFAIL := 9

/-! ### Streams -/

def State.stream (s : State) (part n : Nat) : Stream := (s.part part).streams.get {} n
def State.modStream (s : State) (part n : Nat) (f : Stream → Stream) : State :=
  s.modPart part fun p => { p with streams := Tbl.put {} p.streams n (f (Tbl.get {} p.streams n)) }
/-- Pages of a length (R161). -/
def pagesFor (n : Nat) : Nat := (n + 65535) / 65536
/-- Logical pages of an extent. -/
def Extent.pages (e : Extent) : List Nat := (List.range (pagesFor e.length)).map (e.lpage + ·)
/-- Logical pages that open groups of a partition hold. -/
def Part.openPages (p : Part) : List Nat :=
  p.streams.flatMap fun s => s.2.groups.flatMap fun g => g.extents.flatMap Extent.pages
/-- A logical page is free (R151) and no open group holds it. -/
def Part.pageFree (p : Part) (lp : Nat) : Bool := (Tbl.find? p.published lp).isNone && !p.openPages.contains lp
/-- Open group of a tag. -/
def Stream.group (s : Stream) (tag : Nat) : Option OpenGroup := s.groups.find? fun g => g.tag == tag
def Stream.modGroup (s : Stream) (tag : Nat) (f : OpenGroup → OpenGroup) : Stream :=
  { s with groups := s.groups.map fun g => if g.tag == tag then f g else g }
def Stream.closeGroup (s : Stream) (tag : Nat) : Stream := { s with groups := s.groups.filter fun g => g.tag != tag }
/-- VA of a log page of a stream. -/
def Stream.pageVa (s : Stream) (i : Nat) : Nat := s.base.toNat + i * 65536
/-- Physical address of a logical page. -/
def flashAddr (part lp : Nat) : Nat := hbfBase + (part * 2 ^ 25 + lp) * 65536

/-- Where an extent of n pages would go: its first log page and WPTR after it (R161). -/
def Part.placement (p : Part) (s : Stream) (n : Nat) : Option (Nat × Nat) :=
  if s.npages < n then none
  else
    let at_ := if s.wptr + n ≤ s.npages then s.wptr else 0
    if (List.range n).all fun i => p.pageFree (s.lpbase + at_ + i) then
      some (at_, if at_ + n = s.npages then 0 else at_ + n)
    else none

/-- STREAM_ENABLE: a write of EN with 1 (R159). -/
def streamEnable (part n : Nat) (s : State) : State :=
  let p := s.part part
  let x := s.stream part n
  let ring (y : Stream) : Nat × Nat := (y.lpbase, y.lpbase + y.npages)
  let overlaps (e : Nat × Stream) : Bool :=
    e.1 != n && e.2.en && decide ((ring e.2).1 < (ring x).2 ∧ (ring x).1 < (ring e.2).2)
  if x.en ∨ p.nstr ≤ n then s
  else if 1 ≤ x.npages ∧ x.lpbase + x.npages ≤ p.lpages ∧ x.base.toNat + x.npages * 65536 ≤ carveWindow ∧
      !p.streams.any overlaps then
    s.modStream part n fun x => { x with en := true }
  else s
def execStreamEnable (part stream : Nat) (s : State) : Out := event (streamEnable part stream) s

/-- STREAM_DISABLE: a write of EN with 0, ignored while a group is open (R159); the chain's binding ends (R335). -/
def streamDisable (part n : Nat) (s : State) : State :=
  let x := s.stream part n
  if x.en ∧ x.groups.isEmpty then s.modStream part n fun x => { x with en := false, chain := none } else s
def execStreamDisable (part stream : Nat) (s : State) : Out := event (streamDisable part stream) s

/-! ### Deficit round robin (R360) -/

/-- Serve one of the partitions with something pending, in ascending number; with `single`, a visit serves one only
(R477). -/
def Drr.serve (x : Drr) (pending : List Nat) (weight : Nat → Nat) (single : Bool) : Option (Nat × Drr) :=
  match pending with
  | [] => none
  | p0 :: _ =>
    let d := x.d
    let waited := x.waited
    let done (p : Nat) (d : Tbl Nat) (visit : Option Nat) : Nat × Drr :=
      (p, { d, visit, waited := pending.foldl (fun t q => Tbl.put 0 t q (if q = p then 0 else Tbl.get 0 waited q + 1)) waited })
    let longest := pending.foldl (fun (b : Option Nat) p =>
      if Tbl.get 0 waited p < 31 then b
      else match b with
        | none => some p
        | some q => if Tbl.get 0 waited q < Tbl.get 0 waited p then some p else b) none
    match longest with
    | some p => some (done p d x.visit)
    | none =>
      let stay := match x.visit with
        | some p => if !single ∧ pending.contains p ∧ 1 ≤ Tbl.get 0 d p then some p else none
        | none => none
      match stay with
      | some p => some (done p (Tbl.put 0 d p (Tbl.get 0 d p - 1)) (some p))
      | none =>
        let next := match x.visit with
          | some v => (pending.find? fun p => decide (v < p)).getD p0
          | none => p0
        some (done next (Tbl.put 0 d next (Tbl.get 0 d next + weight next - 1)) (some next))

/-- A partition with nothing pending at a server has no deficit there, and has not waited. -/
def State.settleDrr (s : State) (server : Nat) (pending : Nat → Bool) : State :=
  let x := s.drrs.get {} server
  if (x.d ++ x.waited).all fun e => pending e.1 then s
  else
    let keep (t : Tbl Nat) : Tbl Nat := Tbl.keep t fun p _ => pending p
    { s with drrs := Tbl.put {} s.drrs server { x with d := keep x.d, waited := keep x.waited } }
/-- Serve a slot of a server; the append engine, 2, serves one extent a visit (R477). -/
def State.serveSlot (s : State) (server : Nat) (pending : List Nat) : Option (Nat × State) :=
  match (s.drrs.get {} server).serve pending (fun p => (s.part p).weight) (server == 2) with
  | none => none
  | some (p, d) => some (p, { s with drrs := Tbl.put {} s.drrs server d })

/-! ### Issue (R336, R337) -/

/-- The command is the next of its chain to issue: no earlier one is queued; with ORDER, and for the append engine, no
earlier one is incomplete (R336). -/
def State.inTurn (s : State) (k : Nat) (c : Cmd) : Bool :=
  s.cmds.all fun e => e.1 == k || !e.2.sameChain c || decide (c.seq < e.2.seq) ||
    (decide (e.2.phase ≠ .queued) && !c.order && decide (c.engine ≠ 161))
/-- Commands of an engine in flight. -/
def State.inFlight (s : State) (engine : Nat) : Nat :=
  (s.cmds.filter fun e => e.2.engine == engine && decide (e.2.phase ≠ .queued)).length
/-- Every chain tail that an SBAR of the stream recorded has been passed (R162). -/
def State.barrierOpen (s : State) (c : Cmd) : Bool := (s.stream c.part c.stream).barrier.isEmpty
/-- Tails of a chain that have been passed are awaited no longer: every one, when the chain is broken. -/
def State.passTails (s : State) (c : Cmd) (upTo : Option Nat) : State :=
  let passed (b : Nat × Nat × Nat) : Bool := b.1 == c.tagN && b.2.1 == c.chain && (match upTo with
    | some n => decide (b.2.2 ≤ n)
    | none => true)
  let go (x : Stream) : Stream := { x with barrier := x.barrier.filter fun b => !passed b }
  if c.engine = 161 then s.modPart c.part fun p => { p with streams := p.streams.mapVals go } else s

/-- A command that could issue now, but for what its list and locks decide. -/
def State.mayIssue (s : State) (k : Nat) (c : Cmd) : Bool :=
  c.phase == .queued && c.waiting.isNone && !s.cmdStopped c && s.inTurn k c &&
    (c.engine == 161 || decide (s.inFlight c.engine < 8)) && (c.engine != 161 || s.barrierOpen c) &&
    !(s.chainOf c.tagN c.chain).any ChainRec.broken &&
    (c.early != stOK || !c.onTile || s.tileStart c != .wait)

/-- Locks that a command takes at its issue, when its list has been read. -/
def State.issueLocks (s : State) (c : Cmd) (list : List Nat) : List Lock :=
  s.locksOf c list ++ match s.tileStart c with
    | .ok core lo size _ => if c.onTile then [{ tag := 70000 + core, lo, hi := lo + size, full := c.opN == opTFILL }] else []
    | _ => []
/-- The locks of a command are free, and its table has room. -/
def State.locksFree (s : State) (k : Nat) (c : Cmd) (ls : List Lock) : Bool :=
  decide (s.lockCount c.engine + ls.length ≤ lockRoom c.engine) && !ls.any (s.meetsLock k)

/-- The placement of an APPEND at its issue milestone (R161, R162). -/
def State.startAppend (s : State) (k : Nat) (c : Cmd) : State :=
  let p := s.part c.part
  let x := s.stream c.part c.stream
  let tag := c.tag.toNat
  let n := c.len.toNat
  if !x.en then s.endCmd k apSTREAM
  else if n < 1 ∨ 2 ^ 24 < n then s.endCmd k apLENGTH
  else if (x.group tag).isNone ∧ 8 ≤ x.groups.length then s.endCmd k apGROUPS
  else match p.placement x (pagesFor n) with
  | none => s.endCmd k apFULL
  | some (i, wptr) =>
    let e : Extent := { stream := c.stream, tag, va := x.pageVa i, lpage := x.lpbase + i, length := n }
    let add (x : Stream) : Stream :=
      let x := if (x.group tag).isSome then x else { x with groups := x.groups ++ [{ tag, extents := [] }] }
      { x.modGroup tag (fun g => { g with extents := g.extents ++ [e] }) with wptr }
    (s.modStream c.part c.stream add).modCmd k fun c =>
      { c with extent := some e, va := e.va, lpage := e.lpage, bytes := pagesFor n }

/-- The tails that an SBAR records: the last command of each named stream's chain that is not complete (R162). -/
def State.startSbar (s : State) (k : Nat) (c : Cmd) : State :=
  let named := (List.range 16).filter fun i => c.aux.getLsbD i
  if named.any fun i => !(s.stream c.part i).en then s.endCmd k apSTREAM
  else
    let tails := (s.cmds.filter fun e =>
      e.2.part == c.part && e.2.engine == 161 && named.contains e.2.stream && e.1 != k && !e.2.sameChain c).map fun e =>
        (e.2.tagN, e.2.chain, e.2.seq)
    (s.modStream c.part c.stream fun x => { x with barrier := x.barrier ++ tails }).endCmd k apOK

/-- What a record gives of a command whatever becomes of it (R164). -/
def State.recorded (s : State) (c : Cmd) : Cmd :=
  let x := s.stream c.part c.stream
  if c.engine ≠ 161 then c
  else if c.opN = opSEAL then { c with serial := x.serial }
  else if c.opN = opTRIM then { c with va := c.dst.toNat, lpage := x.lpbase + (c.dst.toNat - x.base.toNat) / 65536 }
  else c
/-- What a command on a tile follows: the last change of its bytes, and every access that the core has performed (R83, R84,
R134). DESIGN CHOICE (log 129): R138 leaves a command free to come before accesses of the core that an MMA performs late. -/
def State.tileChanged (s : State) (c : Cmd) : Nat :=
  match c.unit.bind s.units.find? with
  | some u => if c.onTile then max (u.tileLast (c.tag.toNat % 256)) (s.msOf u.core) else 0
  | none => 0

/-- Change a unit, placed or saved. -/
def State.modResident (s : State) (uid : Nat) (f : UnitRec → UnitRec) : State :=
  if (s.units.find? uid).isSome then s.modUnit uid f
  else { s with saved := s.saved.map fun x => if x.uid = uid then { x with unit := f x.unit } else x }
/-- A list that names the carve-out window makes the unit of its command hold carve-out bytes (R461). -/
def State.listCarve (s : State) (c : Cmd) (list : List Nat) : State :=
  match c.unit with
  | some uid => if list.any fun va => regionOf va == .carve then s.modResident uid fun u => { u with carve := true } else s
  | none => s

/-- Issue one command: its milestone, its locks, and what it does at its issue. -/
def State.issueCmd (s : State) (k : Nat) (c : Cmd) : State :=
  let mi := max (max (s.msOf c.engine) c.after) (s.tileChanged c) + 1
  let s := s.setMs c.engine mi
  let go (s : State) (list : List Nat) : State :=
    let s := (s.modCmd k fun x => { x with phase := .issued, mi, locks := s.issueLocks c list })
    if c.opN = opAPPEND then s.startAppend k c
    else if c.opN = 0x12 then s.startSbar k c
    else if c.onTile then
      match s.tileStart c with
      | .ok core lo size e =>
        let st := if c.opN = opTFILL then tileFILLING else tileDRAINING
        (s.setTile (mi + 1) (c.unit.getD 0) (c.tag.toNat % 256) (setTileState e st)).modCmd k fun x =>
          { x with tileTaken := true, region := some (core, lo, size) }
      | .status n => s.endCmd k n
      | .wait => s
    else s
  if c.early ≠ stOK then
    ((if c.poison then s.reportEaten c else s).modCmd k fun c => { s.recorded c with mi }).endCmd k c.early
  else if c.opN = opGATHER ∨ c.opN = opSCATTER then
    match s.listOf k c with
    | (none, s) => s.modCmd k fun c => { c with mi }
    | (some l, s) => if s.locksFree k c (s.issueLocks c l) then (go s l).listCarve c l else s
  else if s.locksFree k c (s.issueLocks c []) then go s [] else s

/-- A chain's place in the round of its engine. -/
def State.chainIndex (s : State) (c : Cmd) : Nat :=
  (s.chains.takeWhile fun r => !(r.asid == c.tagN && r.desc == c.chain)).length + 1
/-- The command that an engine takes next: round robin over chains; the append engine first over partitions (R336,
R477). -/
def State.nextCommand (s : State) (engine : Nat) : Option (Nat × Cmd × State) :=
  let ready := s.cmds.filter fun e => e.2.engine == engine && s.mayIssue e.1 e.2 &&
    (e.2.early != stOK || e.2.opN == opGATHER || e.2.opN == opSCATTER || s.locksFree e.1 e.2 (s.issueLocks e.2 []))
  let turn (ready : Tbl Cmd) (s : State) : Option (Nat × Cmd × State) :=
    let last := s.turns.get 0 engine
    let least (l : Tbl Cmd) : Option (Nat × Cmd) := l.foldl (fun b e => match b with
      | none => some e
      | some x => if s.chainIndex e.2 < s.chainIndex x.2 then some e else b) none
    match (least (ready.filter fun e => decide (last < s.chainIndex e.2))).orElse fun _ => least ready with
    | none => none
    | some (k, c) => some (k, c, { s with turns := Tbl.put 0 s.turns engine (s.chainIndex c) })
  if engine = 161 then
    let parts := s.parts.keys.filter fun p => ready.any fun e => e.2.part == p
    match s.serveSlot 2 parts with
    | none => none
    | some (p, s) => turn (ready.filter fun e => e.2.part == p) s
  else turn ready s

/-- A partition has a command for the append engine to issue (R477). -/
def State.hasAppend (s : State) (part : Nat) : Bool :=
  s.cmds.any fun e => e.2.engine == 161 && e.2.part == part && e.2.phase == .queued

/-- COMMAND_ISSUE (R336). -/
def commandIssue (engine : Nat) (s : State) : State :=
  match s.nextCommand engine with
  | none => s
  | some (k, c, s) => s.issueCmd k c
def execCommandIssue (engine : Nat) (s : State) : Out := event (commandIssue engine) s

/-! ### The effects of append commands -/

/-- Report of a MEDIA status (R469). -/
def State.reportMedia (s : State) (c : Cmd) (lpage : Nat) : State :=
  (s.meet 161).report c.part 1 0x05 c.cid 0 0 (BitVec.ofNat 64 (2 * 2 ^ 40 + lpage)) 4 0

/-- An APPEND whose data cannot be placed: its pages are free, WPTR stays, and its group is failed (R162, R469). -/
def State.failAppend (s : State) (k : Nat) (c : Cmd) (status : Nat) : State :=
  (s.modStream c.part c.stream fun x => x.modGroup c.tag.toNat fun g =>
    { g with failed := true, extents := g.extents.filter fun e => some e != c.extent }).endCmd k status

/-- The sectors that a source of n bytes gives an extent: bytes from the source, zeros past its end, and the side word
and poison bit of each source sector. Where the source is not sector-aligned the manual gives no side word: a free value,
but zero where every source sector lies in a page of mode 0 (R98), which `sided` tells of each. -/
def State.extentSectors (s : State) (secs : List SectorLit) (sided : List Bool) (va n : Nat) : List SectorLit × State :=
  let count := (n + 31) / 32
  let x := bytesOf secs va n
  let straddles := decide (va % 32 ≠ 0)
  let lit (i : Nat) : SectorLit :=
    let a := secs.getD i zeroLit
    let two := straddles && decide (va % 32 + min n (32 * (i + 1)) > 32 * (i + 1))
    let b := if two then secs.getD (i + 1) zeroLit else zeroLit
    let open_ := straddles && (sided.getD i false || (two && sided.getD (i + 1) false))
    { data := BitVec.ofNat 256 (x / 2 ^ (256 * i)), poison := a.poison || b.poison
      side := if open_ then (Config.freeDword (s.free + i)).extractLsb' 0 16 else a.side }
  ((List.range count).map lit, if straddles then { s with free := s.free + count } else s)

/-- APPEND: copy the source into the extent's pages (R162). -/
def appendCmd (k : Nat) (media : Bool) (s : State) : State :=
  s.onIssued k [opAPPEND] fun c =>
    if media then (s.failAppend k c apMEDIA).reportMedia c c.lpage
    else
      let n := c.len.toNat
      -- a remote source page is a SOURCE error, as a denied one is
      if (pagesOf c.src.toNat n).any (s.remoteAt c) then s.failAppend k c apSOURCE
      else match s.cmdAccess k c .load [(c.src.toNat, n)] with
      | (.denied, s) => s.failAppend k c apSOURCE
      | (.wait, s) => s
      | (.ok ps, s) =>
          let s := s.leaseLoad 161 (leaseLines ps)
          let from_ := sectorsOf c.src.toNat n
          let sided := from_.map fun a => (placeOf ps a).any Place.swm
          let (secs, s) := s.extentSectors (s.sectorList ps from_) sided c.src.toNat n
          let lo := flashAddr c.part c.lpage
          let m := s.mem.zeroRange lo (lo + pagesFor n * 65536)
          let at_ := (List.range secs.length).map fun i => lo + 32 * i
          { s with mem := m.putSectors at_ secs }.endCmd k apOK
def execAppend (cmd : Nat) (media : Bool) (s : State) : Out := event (appendCmd cmd media) s

/-- Close a group and free its pages. -/
def State.discardGroup (s : State) (k : Nat) (c : Cmd) (g : OpenGroup) (status : Nat) : State :=
  let n := (g.extents.map fun e => pagesFor e.length).foldl (· + ·) 0
  ((s.modStream c.part c.stream fun x => x.closeGroup g.tag).modCmd k fun c =>
    { c with bytes := n, serial := (s.stream c.part c.stream).serial }).endCmd k status

/-- Publish a durable group at one milestone: its pages and its extent records (R162, R168, R172). -/
def State.publish (s : State) (k : Nat) (c : Cmd) (g : OpenGroup) : State :=
  let x := s.stream c.part c.stream
  let serial := x.serial + 1
  let pages := g.extents.flatMap Extent.pages
  let s := s.setMs 161 (s.msOf 161 + 1)
  let at_ := s.msOf 161
  let s := s.modPart c.part fun p => { p with
    -- loads of the other sources follow p (R168)
    published := pages.foldl (fun t lp => Tbl.ins t lp (at_ + 1)) p.published
    extents := p.extents ++ g.extents.map fun e => { e with serial := serial.toNat } }
  ((s.modStream c.part c.stream fun x => { x.closeGroup g.tag with serial }).modCmd k fun c =>
    { c with bytes := pages.length, serial }).endCmd k apOK

/-- SEAL: discard, or publish once the group is durable (R162, R165 to R168). -/
def sealCmd (k : Nat) (s : State) : State :=
  s.onIssued k [opSEAL] fun c =>
    let x := s.stream c.part c.stream
    match x.group c.tag.toNat with
    | none => (s.modCmd k s.recorded).endCmd k apNOGROUP
    | some g =>
      -- a group past its durability point survives (R166)
      if g.durable then s.publish k c g
      else if g.failed then s.discardGroup k c g apGROUPFAIL
      else if c.flags.getLsbD 3 then s.discardGroup k c g apOK
      else s
def execSeal (cmd : Nat) (s : State) : Out := event (sealCmd cmd) s

/-- SEAL_DURABLE: the extents and the seal record are programmed, or the record cannot be (R165, R469). -/
def sealDurable (k : Nat) (media : Bool) (s : State) : State :=
  s.onIssued k [opSEAL] fun c =>
    let x := s.stream c.part c.stream
    match x.group c.tag.toNat with
    | none => s
    | some g =>
      if g.failed ∨ c.flags.getLsbD 3 ∨ g.durable then s
      else if media then
        let lp := match g.extents with
          | e :: _ => e.lpage
          | [] => 0
        (s.discardGroup k c g apMEDIA).reportMedia c lp
      else s.modStream c.part c.stream fun x =>
        { x.modGroup g.tag (fun g => { g with durable := true, wptr := x.wptr }) with sealWptr := x.wptr }
def execSealDurable (cmd : Nat) (media : Bool) (s : State) : Out := event (sealDurable cmd media) s

/-- SBAR performs nothing beyond what its issue recorded (R162); a command that its stream's state did not end there ends
with OK. -/
def sbarCmd (k : Nat) (s : State) : State := s.onIssued k [opSBAR] fun c => s.startSbar k c
def execSbar (cmd : Nat) (s : State) : Out := event (sbarCmd cmd) s

/-- TRIM: free the published pages of a range at one milestone (R162, R169). DESIGN CHOICE (log 123): the extent records stay, and a
scan returns them. -/
def trimCmd (k : Nat) (s : State) : State :=
  s.onIssued k [opTRIM] fun c =>
    let p := s.part c.part
    let x := s.stream c.part c.stream
    let va := c.dst.toNat
    let n := c.len.toNat
    let first := (va - x.base.toNat) / 65536
    let s := s.modCmd k s.recorded
    if va % 65536 ≠ 0 ∨ va < x.base.toNat ∨ n < 1 ∨ x.npages < first + n then s.endCmd k apLENGTH
    else
      let pages := (List.range n).map fun i => x.lpbase + first + i
      if pages.any p.openPages.contains then s.endCmd k apOPEN
      else
        let freed := pages.filter fun lp => (Tbl.find? p.published lp).isSome
        let s := s.setMs 161 (s.msOf 161 + 1)
        let s := s.modPart c.part fun p => { p with published := freed.foldl Tbl.del p.published }
        (s.modCmd k fun c => { c with bytes := freed.length }).endCmd k apOK
def execTrim (cmd : Nat) (s : State) : Out := event (trimCmd cmd) s

/-! ### Completion (R136, R334, R341, R342, R164) -/

/-- The 32 bytes of a transfer record, or of an append record. -/
def Cmd.recordBytes (c : Cmd) : Nat :=
  if c.engine = 161 then
    let sl := c.opN == opSEAL
    let ext := c.opN == opAPPEND || c.opN == opTRIM
    packBytes [(8, if ext then c.va else 0), (4, if ext then c.lpage else 0), (4, c.bytes),
      (2, if c.opN = opAPPEND ∨ sl then c.tag.toNat else 0), (1, c.stream), (1, c.status), (4, 0),
      (8, if sl then c.serial.toNat else 0)]
  else
    packBytes [(8, c.bytes), (2, c.kvCounts.getD 0 0), (2, c.kvCounts.getD 1 0), (2, c.kvCounts.getD 2 0),
      (2, c.kvCounts.getD 3 0), (4, c.kvFirst), (1, c.status), (3, 0), (8, c.seq)]

/-- Release what a command holds: its locks, its tile, its tile-store region; the command is gone. -/
def State.releaseCmd (s : State) (k : Nat) (c : Cmd) : State :=
  let st := if c.opN = opTFILL then tileREADY else tileEMPTY
  let h := c.tag.toNat % 256
  let s := if !c.tileTaken then s
    else match c.unit with
    | none => s
    | some uid =>
      match s.units.find? uid with
      | some u => s.setTile (s.msOf c.engine + 1) uid h (setTileState (u.tile h) st)
      | none => s.modResident uid fun u => { u with
          tiles := Tbl.put 0 u.tiles h (setTileState (u.tile h) st), tileMs := Tbl.put 0 u.tileMs h (s.msOf c.engine + 1) }
  let s := { s with cmds := Tbl.del s.cmds k, regions := s.regions.filter fun r => r.2.2.2 != k }
  s.wakeIf fun _ th => th.wait == .fence

/-- Break a chain whose words cannot be written (R341). -/
def State.breakChain (s : State) (k : Nat) (c : Cmd) : State :=
  let s := (s.releaseCmd k c).passTails c none
  let broken (r : ChainRec) : ChainRec := if r.asid = c.tagN ∧ r.desc = c.chain then { r with broken := true } else r
  let s := { s with
    chains := s.chains.map broken
    cmds := s.cmds.filter fun e => !(e.2.sameChain c && e.2.phase == CmdPhase.queued) }
  (s.meet c.engine).fatalContext c.part 0x07 c.cid 0

/-- Completions of a chain once a sequence number is complete: all numbers up to `upTo`, and those ahead of it. -/
def advanceSeq (fuel upTo : Nat) (ahead : List Nat) : Nat × List Nat :=
  match fuel with
  | 0 => (upTo, ahead)
  | fuel + 1 =>
    if ahead.contains (upTo + 1) then advanceSeq fuel (upTo + 1) (ahead.filter (· != upTo + 1)) else (upTo, ahead)

/-- Write the completion record: `none` where it waits, else whether it could be written. -/
def State.writeRecord (s : State) (k : Nat) (c : Cmd) : Option Bool × State :=
  let va := c.record.toNat
  if va = 0 then (some true, s)
  else if va % 32 ≠ 0 then (some false, s)
  else match s.cmdAccess k c .store [(va, 32)] with
  | (.denied, s) => (some false, s)
  | (.wait, s) => (none, s)
  | (.ok ps, s) => (some true, s.performWrites c.engine ps [{ va, n := 32, val := c.recordBytes }])

/-- The milestone mc: ERR, then the completion sequence word (R136, R334). -/
def State.writeWords (s : State) (k : Nat) (c : Cmd) (err : Nat) : State :=
  match s.chainOf c.tagN c.chain with
  | none => s.releaseCmd k c
  | some r =>
    let s := s.setMs c.engine (s.msOf c.engine + 1)
    let ahead := r.ahead ++ [c.seq]
    let (upTo, ahead) := advanceSeq ahead.length r.upTo ahead
    let errVa := c.chain + 0x20
    match s.cmdAccess k c .store ((c.seqWord.toNat, 8) :: if err = 0 then [] else [(errVa, 8)]) with
    | (.denied, s) => s.breakChain k c
    | (.wait, s) => s
    | (.ok ps, s) =>
      let errNow := match placeOf ps errVa with
        | some p => s.mem.readN (p.phys + errVa % 128) 8
        | none => 1
      let s := if err ≠ 0 ∧ errNow = 0 then
          s.performWrites c.engine ps [{ va := errVa, n := 8, val := (c.seq * 256 + err) % 2 ^ 64 }]
        else s
      let count (x : ChainRec) : ChainRec := if x.asid = c.tagN ∧ x.desc = c.chain then { x with upTo, ahead } else x
      let s := { s with chains := s.chains.map count }
      let s := (s.releaseCmd k c).passTails c (some upTo)
      if upTo = r.upTo then s
      else
        -- each completion-sequence write advances the partition's interval (R147)
        let s := s.modPart c.part fun p => { p with interval := p.interval + 1 }
        s.performWrites c.engine (ps.filter fun e => e.1 == c.seqWord.toNat / 128 * 128)
        [{ va := c.seqWord.toNat, n := 8, val := upTo }]

/-- COMMAND_COMPLETE (R341). A broken chain's words are not written again; nor are those of a partition being reset
(R475). -/
def commandComplete (k : Nat) (s : State) : State :=
  match s.cmds.find? k with
  | none => s
  | some c =>
    if c.phase ≠ .effected ∨ c.waiting.isSome then s
    else if (s.part c.part).resetting ∨ (s.chainOf c.tagN c.chain).any ChainRec.broken then s.releaseCmd k c
    else if s.cmdStill c then s
    else match s.writeRecord k c with
    | (none, s) => s
    | (some ok, s) => s.writeWords k c (if ok then c.status else 0x0F)
def execCommandComplete (cmd : Nat) (s : State) : Out := event (commandComplete cmd) s

end Sys2Proof.Machine
end

