-- ==== Sys2Proof/Machine/Resolve.lean ====
section
/-!
DEFINITION. Fault records and their resolution, and error records (R109 to R112, R410 to R412, R450 to R457).
-/
namespace Sys2Proof.Machine

/-! ### Posting fault records (R109, R456) -/

/-- The 32 bytes of a fault record. -/
def FaultRec.bytes (f : FaultRec) : Nat :=
  packBytes [(8, f.va % 2 ^ 60), (2, f.asid), (1, f.kind), (1, f.core), (2, f.cid), (18, 0)]

/-- A record needs no posting any more: it stands in the ring, or cannot be written there. -/
def State.faultSettled (s : State) (f : FaultRec) : State :=
  { s with faults := s.faults.map fun g => if g = f then { g with posted := true } else g }

/-- FAULT_RECORD_POST: the agent writes one outstanding record, or waits while the ring is full (R109). A record that
cannot be written is not posted and is fatal to the partition, in its context 0 (R406, R456). -/
def faultRecordPost (i : Nat) (s : State) : State :=
  match s.faults[i]? with
  | none => s
  | some f =>
    if f.posted then s
    else match s.postRing (agentOf f.va) f.part Part.fq (fun p r => { p with fq := r }) 32 f.bytes with
    | (.done, s) => s.faultSettled f
    | (.full, s) => s
    | (.later, s) => s
    | (.failed, s) => ((s.faultSettled f).meet (agentOf f.va)).fatalPartition f.part 0x07 (f.part * 2048) 0 0 0
def execFaultRecordPost (index : Nat) (s : State) : Out := event (faultRecordPost index) s

/-! ### Applying side-log entries (R111, R112, R453) -/

/-- Key of an entry's page. -/
def LogEntry.pageAt (e : LogEntry) : Nat := pageKey e.tag e.va

/-- Perform an entry at its places as the agent, with the arithmetic it had at its retirement, and at the key it took
there: no lease was granted past it (R135, R140). -/
def State.applyEntry (s : State) (e : LogEntry) (ps : List (Nat × Place)) : State :=
  let src := agentOf e.va
  let done := match e.op with
    | .store => s.performWrites src ps e.writes
    | .atom op ty va b c poison =>
      (s.rmw src ps va (typeWidth (BitVec.ofNat 4 ty) / 8)
        (fun old => atomNew op (BitVec.ofNat 4 ty) old b.toNat c.toNat) poison).2.2
    | .mxadd ty rm va v hi draws poison => s.mxadd src ps va ty rm v hi draws poison
    | .fold va v poison => s.foldAt src ps va v.toNat poison
  { done with leases := (s.leaseAt e.ms (leaseLines ps)).leases }

/-- The agents' milestones when a page becomes present: past its last entry, and past one another, so that whatever finds
the page present follows (R111). -/
def State.present (s : State) (es : List LogEntry) : State :=
  let agents := (List.range 4).map (165 + ·)
  let m := es.foldl (fun m e => max m e.ms) (agents.foldl (fun m a => max m (s.msOf a)) 0) + 2
  agents.foldl (fun s a => s.setMs a m) s

/-- Apply one entry; `false` where the page does not permit it and it is to be discarded. The first deferred application to a page sets D
(R103). -/
def State.settleEntry (s : State) (e : LogEntry) : Bool × State :=
  let w : Who := { source := agentOf e.va, part := e.part, asid := e.asid, priv := e.priv, cid := e.cid }
  match s.place w e.va .store none with
  | (.ok p, s) =>
    let mx : Bool := match e.op with
      | .mxadd _ _ _ _ _ _ _ => true
      | _ => false
    if mx && !p.swm then (false, s)
    else
      let s := s.applyEntry e [(e.va, p)]
      (true, match s.cached (pageKey e.tag e.va) with
      | some x => if s.mem.readN x.entryAt 8 / 2 ^ 9 % 2 = 1 then s else s.orEntry e.va x.entryAt 9
      | none => s)
  | (_, s) => (false, s)

/-- Settle a page's entries in order. -/
def State.settleEntries (s : State) (es : List LogEntry) : State :=
  let r := es.foldl (fun (a : State × List LogEntry) e =>
    let (ok, t) := a.1.settleEntry e
    (t, if ok then a.2 else a.2 ++ [e])) (s, [])
  r.1.discardEntries r.2

/-- Threads, commands and queues held on a page look again. What a thread then does on the page follows the page's present
milestone, which its translation has (R111). -/
def State.wakePage (s : State) (key part : Nat) : State :=
  let s := s.wakeIf fun _ th => th.wait.onPage key || th.wait == .logFull || (th.wait == .ring && th.part == part)
  let go (c : Cmd) : Cmd := if c.waiting = some key then { c with waiting := none } else c
  let free (q : Queue) : Queue := if q.hold = some key then { q with hold := none } else q
  { s with cmds := s.cmds.mapVals go, queues := s.queues.mapVals free }

/-- Scheduler accesses that waited for a page are performed (R54). -/
def State.retryDue (s : State) (key : Nat) : State :=
  let mine (d : Due) : Bool := pageKey (tagOf d.va.toNat d.asid d.part) d.va.toNat == key
  let now := s.due.filter mine
  now.foldl (fun (s : State) d => match d.val with
    | some v => s.schedStore d.part d.asid d.cid d.va v d.refusal
    | none =>
      match s.launches.find? d.cid with
      | some l =>
        if d.level = 4 then
          match s.subtract d.part d.asid d.cid d.va with
          | (none, s) => { s with due := s.due ++ [d] }
          | (_, s) => s
        else s.countDown l d.cid 4 d.level
      | none =>
        match s.subtract d.part d.asid d.cid d.va with
        | (none, s) => { s with due := s.due ++ [d] }
        | (_, s) => s) { s with due := s.due.filter fun d => !mine d }

/-- An address space of a partition exists (R100). -/
def State.spaceExists (s : State) (part space : Nat) : Bool :=
  let root := (s.part part).astab
  root.getLsbD 0 && match s.tableAt part (root.extractLsb' 39 2).toNat (root.extractLsb' 3 36).toNat (root.extractLsb' 1 2).toNat with
    | some t => s.mem.readN (t + 8 * (space % 2048)) 8 / 2 ^ 63 % 2 == 1
    | none => false

/-- The outstanding record that a resolution names: a commons page by its commons bit, else a page of a space that exists
(R457). -/
def State.faultNamed (s : State) (part space page : Nat) : Option FaultRec :=
  let va := page % 2 ^ 44 * 65536
  let commons := regionOf va = .commons
  let tag := if commons then 65536 else part * 2048 + space % 2048
  if (commons ∧ part ≠ 0) ∨ (¬commons ∧ !s.spaceExists part space) then none
  else s.faults.find? fun f => f.tag == tag && f.page == page % 2 ^ 44

/-- The agent as it walks again for a fault record (R110). -/
def FaultRec.who (f : FaultRec) : Who :=
  { source := agentOf f.va, part := f.part, asid := f.asid, priv := true, cid := f.cid, first := f.va }

/-- The held accesses of a page end denied: threads trap PAGE_PERMISSION, commands end with an error status, queues meet a
denied page (R110). -/
def State.denyPage (s : State) (f : FaultRec) : State :=
  let key := pageKey f.tag (f.page * 65536)
  let entries := sortLog (s.log.filter fun e => e.pageAt == key)
  let s := { s.keepLog fun e => e.pageAt != key with faults := s.faults.filter (· != f) }
  let s := { s with threads := s.threads.mapVals fun th => if th.wait.onPage key then { th with denied := some key } else th }
  let s := { s with queues := s.queues.mapVals fun q => if q.hold = some key then { q with denied := some key } else q }
  let stuck := s.cmds.filter fun (c : Nat × Cmd) => c.2.waiting == some key
  let s := stuck.foldl (fun (s : State) (c : Nat × Cmd) =>
    if c.2.phase = CmdPhase.effected then s.breakChain c.1 c.2
    else if c.2.opN = opAPPEND ∧ c.2.engine = 161 then s.failAppend c.1 c.2 apSOURCE
    else s.endCmd c.1 stDENIED) s
  let onPage (d : Due) : Bool := pageKey (tagOf d.va.toNat d.asid d.part) d.va.toNat == key
  let s := (s.due.filter fun d => onPage d && d.refusal).foldl (fun s d => s.reportRefusal d.part d.cid) s
  let s := { s with due := s.due.filter fun d => !onPage d }
  let hold (e : Nat × Nat × Bool) : Nat × Nat × Bool := if e.2.1 = key then (e.1, key, true) else e
  let s := { s with parts := s.parts.mapVals fun p => { p with argHeld := p.argHeld.map hold } }
  -- the signers of a round that waits for the page trap with it (R315)
  let waits (t : Tid) : Bool := match (s.thr t).wait with
    | .signed n => (s.cv (cvKey t n)).held.contains key
    | _ => false
  let s := (s.threads.keys.filter waits).foldl (fun (s : State) t => s.modThr t fun th => { th with denied := some key }) s
  (s.discardEntries entries).wakePage key f.part

/-- The page that a fault record was resolved to is present: its entries are applied in retirement order, and what was held on
it looks again (R111). -/
def State.makePresent (s : State) (f : FaultRec) : State :=
  let va := f.page * 65536
  let key := pageKey f.tag va
  let entries := sortLog (s.log.filter fun e => e.pageAt == key)
  let s := { s.keepLog fun e => e.pageAt != key with faults := s.faults.filter (· != f) }
  let s := s.present entries
  -- accesses through the translation that the walk has cached follow the present milestone
  let s := { s with tlb := Tbl.adjust s.tlb key fun x => { x with since := s.msOf (agentOf va) } }
  ((s.settleEntries entries).wakePage key f.part).retryDue key

/-- FAULT_RESOLVE_MAPPED (R110, R111): the agent walks again. A page still absent has a new record posted; one that maps a
free flash page is denied (R151). -/
def faultResolveMapped (part space page : Nat) (s : State) : State :=
  match s.faultNamed part space page with
  | none => s
  | some f =>
    match s.walkPage f.who (f.page * 65536) with
    | (.absent r, s) =>
      { s with faults := s.faults.map fun g => if g = f then { g with posted := false, kind := if r then 7 else g.access } else g }
    | (.denied, s) => s.makePresent f
    | (.ok x, s) =>
      if x.home = 2 ∧ (Tbl.find? (s.part f.part).published x.frame).isNone then s.denyPage f else s.makePresent f
def execFaultResolveMapped (part space page : Nat) (s : State) : Out := event (faultResolveMapped part space page) s

/-- FAULT_RESOLVE_DENIED (R110). -/
def faultResolveDenied (part space page : Nat) (s : State) : State :=
  match s.faultNamed part space page with
  | none => s
  | some f => s.denyPage f
def execFaultResolveDenied (part space page : Nat) (s : State) : Out := event (faultResolveDenied part space page) s

/-! ### Error records (R411, R412) -/

/-- The 64 bytes of an error record. -/
def ErrRec.bytes (r : ErrRec) (seq : Nat) : Nat :=
  packBytes [(8, seq), (8, r.ms), (1, r.cls), (1, r.kind), (2, r.cid), (1, r.ukind), (1, 0), (2, r.unit), (8, r.addr.toNat),
    (4, r.count), (1, r.flags), (1, r.cause), (2, r.charged), (24, 0)]

/-- ERROR_RECORD_POST: the Chamois pair posts the oldest record waiting; a ring that cannot take it drops it with OVF
(R412, R456). -/
def errorRecordPost (s : State) : State :=
  match s.errs with
  | [] => s
  | r :: rest =>
    let s := { s with errs := rest }
    let seq := (s.part r.part).eqSeq + 1
    let s := s.modPart r.part fun p => { p with eqSeq := seq }
    let s := s.setMs 169 (max (s.msOf 169) r.ms + 1)
    match s.postRing 169 r.part Part.eq (fun p x => { p with eq := x }) 64 (r.bytes seq) with
    | (.done, s) => s
    | (_, s) => s.modPart r.part fun p => { p with eqOvf := true }
def execErrorRecordPost (s : State) : Out := event errorRecordPost s

/-- A corrected error is counted at once in ERR_CCNT. -/
def State.countOnly (s : State) (part : Nat) : State :=
  s.modPart part fun p => { p with ccnt := min (p.ccnt + 1) 0xFFFFFFFF }
/-- A corrected error: counted at once in ERR_CCNT, and coalesced for the window (R412). -/
def State.corrected (s : State) (part kind ukind unit : Nat) : State :=
  s.modPart part fun p =>
    let same (c : CorrCount) : Bool := c.kind == kind && c.ukind == ukind && c.unit == unit
    { p with
      ccnt := min (p.ccnt + 1) 0xFFFFFFFF
      corr := if p.corr.any same then p.corr.map fun c => if same c then { c with count := c.count + 1 } else c
              else p.corr ++ [{ kind, ukind, unit, count := 1 }] }

/-- CORRECTED_SUMMARY: at the end of a 1 s window one record of class 0 per kind and unit (R412). -/
def correctedSummary (part : Nat) (s : State) : State :=
  let rs := (s.part part).corr.map fun c =>
    ({ part, ms := s.msOf 169, cls := 0, kind := c.kind, cid := part * 2048, ukind := c.ukind, unit := c.unit,
       count := c.count, charged := part } : ErrRec)
  { s.modPart part fun p => { p with corr := [] } with errs := s.errs ++ rs }
def execCorrectedSummary (part : Nat) (s : State) : Out := event (correctedSummary part) s

end Sys2Proof.Machine
end

