-- ==== Sys2Proof/Machine/Csr.lean ====
section
/-!
DEFINITION. System registers: CSRR and CSRW, and what a write does in the block that holds the register (R48, R55, R56,
R67, R89, R100, R109, R114, R146, R156 to R159, R320 to R322, R326, R357, R410, R426, R452, R457).
-/
namespace Sys2Proof.Machine

/-! ### Which registers there are, and who may reach them (R320, R321) -/

/-- Levels of a register: the lowest that reads it, and the lowest that writes it; `none` where every CSRW is ignored. In
the full profile level 1 is handler, in the scalar profile kernel. -/
structure CsrLevels where
  read : Nat
  write : Option Nat
  deriving DecidableEq, Repr

def kernelRW : CsrLevels := { read := 1, write := some 1 }
def kernelRO : CsrLevels := { read := 1, write := none }
def kernelMon : CsrLevels := { read := 1, write := some 2 }

/-- Numbers of the table of R321, scalar profile. -/
def csrScalar (n : Nat) : Option CsrLevels :=
  if n ≤ 3 ∨ n = 5 then some kernelRW
  else if n = 4 then some { read := 0, write := some 0 }
  else if n = 8 ∨ n = 0x14 ∨ n = 0x21 then some kernelMon
  else if n = 9 ∨ (0x10 ≤ n ∧ n ≤ 0x13) ∨ n = 0x15 ∨ n = 0x20 ∨ (0x22 ≤ n ∧ n ≤ 0x27) ∨ (0x30 ≤ n ∧ n ≤ 0x32) then
    some kernelRW
  else if (0x40 ≤ n ∧ n ≤ 0x5F) ∨ (0x60 ≤ n ∧ n ≤ 0x63) ∨ n = 0x81 then some kernelRO
  else if (0x70 ≤ n ∧ n ≤ 0x73) ∨ n = 0x80 ∨ (0x82 ≤ n ∧ n ≤ 0x85) ∨ (0x90 ≤ n ∧ n ≤ 0x92) ∨
      (0xA0 ≤ n ∧ n ≤ 0xA3) ∨ (0xB0 ≤ n ∧ n ≤ 0xB2) then some kernelRW
  else none
/-- Numbers that exist in the full profile: the exception registers and RND. -/
def csrFull (n : Nat) : Option CsrLevels :=
  if n ≤ 2 then some kernelRW
  else if n = 3 then some kernelRO
  else if n = 4 then some { read := 0, write := some 0 }
  else none
def csrOf (service : Bool) (n : Nat) : Option CsrLevels := if service then csrScalar n else csrFull n
/-- A thread's own register (R321). -/
def csrOwn (n : Nat) : Bool := decide (n ≤ 5)

/-! ### Fields -/

def bit1 (b : Bool) : Nat := if b then 1 else 0
/-- BASE and SIZE word of a block's ring: SIZE outside 4 to 16 stores 6. -/
def ringWord (v : Dword) : Dword :=
  let n := v.toNat % 32
  BitVec.ofNat 64 (v.toNat / 256 % 2 ^ 52 * 256 + if 4 ≤ n ∧ n ≤ 16 then n else 6)
def low32 (v : Dword) : Word := v.extractLsb' 0 32
/-- A vector: the PC of a handler's entry. -/
def vecField (v : Dword) : Dword := v &&& 0x0FFFFFFFFFFFFFFF

/-- The queue that an index names: physical for the monitor, the partition's own number else. -/
def State.csrQueue (s : State) (part : Nat) (monitor : Bool) (i : Nat) : Option Nat :=
  if monitor then (if i < 256 then some i else none) else s.physQueue part i

/-! ### Reading -/

def Queue.ctl (q : Queue) : Nat := q.err * 2 ^ 32 + q.size * 2 ^ 16 + q.owner * 2 ^ 8 + bit1 q.en
def Part.rdetCtl (p : Part) : Nat := bit1 p.rdetOvf * 256 + p.rdetScope.toNat * 16 + p.rdetMode.toNat * 4 + bit1 p.rdetEn
def Stream.ctl (x : Stream) : Nat := x.wptr * 2 ^ 32 + x.groups.length * 2 ^ 16 + bit1 x.en

/-- A register of a queue, a stream or a ring; one beyond the partition's holdings reads as zero. -/
def State.csrIndexed (s : State) (part : Nat) (monitor : Bool) (n i : Nat) : Nat :=
  let p := s.part part
  if n = 0x22 ∨ (0x10 ≤ n ∧ n ≤ 0x13) then
    match s.csrQueue part monitor i with
    | none => 0
    | some k =>
      let q := s.queue k
      if n = 0x10 then q.ctl else if n = 0x11 then q.base.toNat else if n = 0x12 then q.head.toNat
      else if n = 0x13 then q.tail.toNat else q.space
  else if 0x82 ≤ n ∧ n ≤ 0x85 then
    if p.nstr ≤ i then 0
    else
      let x := s.stream part i
      if n = 0x82 then x.base.toNat else if n = 0x83 then x.lpbase * 2 ^ 32 + x.npages
      else if n = 0x84 then x.ctl else x.serial.toNat
  else if 2 ≤ i then 0
  else
    let r := if i = 0 then p.mc0 else p.mc1
    if n = 0x90 then r.base.toNat else if n = 0x91 then r.head.toNat else r.tail.toNat

/-- A register of a partition. -/
def State.csrPart (s : State) (part n : Nat) : Nat :=
  let p := s.part part
  if 0x40 ≤ n ∧ n ≤ 0x4F then (p.colours >>> (64 * (n - 0x40))).toNat % 2 ^ 64
  else if 0x50 ≤ n ∧ n ≤ 0x5F then (s.cmask >>> (64 * (n - 0x50))).toNat % 2 ^ 64
  else if 0x60 ≤ n ∧ n ≤ 0x63 then (p.carve >>> (24 * (n - 0x60))).toNat % 2 ^ 24
  else match n with
  | 0x08 => p.ctxSave.toNat
  | 0x09 => p.excVec.toNat
  | 0x14 => p.quant * 2 ^ 32 + p.weight
  | 0x15 => p.bal
  | 0x20 => p.astab.toNat
  | 0x21 => s.croot.toNat
  | 0x23 => p.fq.base.toNat
  | 0x24 => p.fq.head.toNat
  | 0x25 => p.fq.tail.toNat
  | 0x27 => p.slWaits * 2 ^ 32 + p.slPeak * 2 ^ 17 + (s.log.filter fun e => e.part == part).length
  | 0x30 => p.spill * 2 ^ 32 + p.res
  | 0x31 => (p.freeFrames true).length * 2 ^ 32 + (p.freeFrames false).length
  | 0x32 => p.pool.lowat
  | 0x70 => p.rdetCtl
  | 0x71 => p.lq.base.toNat
  | 0x72 => p.lq.head.toNat
  | 0x73 => p.lq.tail.toNat
  | 0x80 => p.fwCount * 2 ^ 40 + p.fwMax
  | 0x81 => p.nstr * 2 ^ 32 + p.lpages
  | 0xA0 => p.eq.base.toNat
  | 0xA1 => p.eq.head.toNat
  | 0xA2 => bit1 p.eqOvf * 2 ^ 32 + p.eq.tail.toNat
  | 0xA3 => p.ccnt
  | 0xB1 => p.dbgCtx * 2 ^ 48 + p.dbgCount * 2 ^ 32 + p.dbgState.toNat * 2 ^ 8 + p.dbgResult.toNat
  | 0xB2 => p.dbgDir
  | _ => 0

/-- A thread register of the current thread. -/
def State.csrOwnRead (s : State) (n : Nat) : Nat :=
  let th := s.me
  match n with
  | 0 => th.epc.toNat
  | 1 => th.cause.toNat
  | 2 => th.val.toNat
  | 3 => s.vector.toNat
  | 4 => th.rnd.toNat
  | _ => bit1 th.pend * 16 + th.plvl * 4 + th.level

/-- The register has an index operand. -/
def csrHasIndex (n : Nat) : Bool :=
  decide ((0x10 ≤ n ∧ n ≤ 0x13) ∨ n = 0x22 ∨ (0x82 ≤ n ∧ n ≤ 0x85) ∨ (0x90 ≤ n ∧ n ≤ 0x92))

/-! ### Writes that a block acts on -/

/-- QUEUE_ENABLE_WRITE: a write of SCHED_QCTL (R55, R56). -/
def queueCtlWrite (k : Nat) (v : Dword) (s : State) : State :=
  s.modQueue k fun q =>
    let n := v.toNat / 2 ^ 16 % 32
    let q := if q.en then q else { q with size := if 4 ≤ n ∧ n ≤ 16 then n else 4 }
    if !v.getLsbD 0 then { q with en := false, valid := false, hold := none, denied := none }
    else if q.en then { q with err := 0 }
    else if 2 ^ q.size < (q.tail - q.head).toNat then { q with err := 1 }
    else { q with en := true, err := 0, valid := false, hold := none, denied := none }
def execQueueEnableWrite (queue : Nat) (value : Dword) (s : State) : Out := event (queueCtlWrite queue value) s

/-- OWNER, which only the monitor writes: the queue passes to another partition (R55). One that does not exist holds
nothing, and has none of its resources when it is created (R355). -/
def State.ownQueue (s : State) (k : Nat) (v : Dword) : State :=
  let owner := v.toNat / 2 ^ 8 % 32
  if (s.queue k).owner = owner then s
  else
    let give (e : Nat × Part) : Nat × Part := (e.1, { e.2 with queues := setBit e.2.queues k (decide (e.1 = owner)) })
    { s with parts := s.parts.map give }.modQueue k fun q => { q with owner }

/-- QUEUE_TAIL_WRITE: beyond capacity it stops an enabled queue (R56). -/
def queueTailWrite (k : Nat) (v : Dword) (s : State) : State :=
  s.modQueue k fun q =>
    let q := { q with tail := low32 v }
    if q.en ∧ 2 ^ q.size < (q.tail - q.head).toNat then
      { q with en := false, err := 1, valid := false, hold := none, denied := none }
    else q
def execQueueTailWrite (queue : Nat) (value : Dword) (s : State) : Out := event (queueTailWrite queue value) s

/-- A register of a queue is written. -/
def State.csrwQueue (s : State) (k n : Nat) (monitor : Bool) (v : Dword) : State :=
  if n = 0x10 then queueCtlWrite k v (if monitor then s.ownQueue k v else s)
  else if n = 0x13 then queueTailWrite k v (s.joinQueue s.src k)
  else s.modQueue k fun q =>
    if q.en then q
    else if n = 0x11 then { q with base := v &&& 0x0FFFFFFFFFFFFF00 }
    else if n = 0x12 then { q with head := low32 v, valid := false }
    else { q with space := v.toNat % 2048 }

/-- Shadow entries of a partition's sectors become empty (R146). -/
def rdetClear (part : Nat) (s : State) : State :=
  { s with shadow := s.shadow.filter fun e => e.2.part != part }
def execRdetClear (part : Nat) (s : State) : Out := event (rdetClear part) s
/-- EN from 0 to 1 enables the detector and clears as CLR does (R463). -/
def rdetEnable (part : Nat) (s : State) : State :=
  if (s.part part).rdetEn then s else rdetClear part (s.modPart part fun p => { p with rdetEn := true })
def execRdetEnable (part : Nat) (s : State) : Out := event (rdetEnable part) s

/-- RDET_CTL (R146). -/
def State.csrwRdet (s : State) (part : Nat) (v : Dword) : State :=
  let mode := v.extractLsb' 2 2
  let s := s.modPart part fun p => { p with
    rdetOvf := p.rdetOvf && !v.getLsbD 8, rdetScope := v.extractLsb' 4 2, rdetMode := if mode = 1 then 1 else 0 }
  let s := if v.getLsbD 1 then rdetClear part s else s
  if v.getLsbD 0 then rdetEnable part s else s.modPart part fun p => { p with rdetEn := false }

def fwstatClear (part : Nat) (s : State) : State := s.modPart part fun p => { p with fwCount := 0, fwMax := 0 }
def execFwstatClear (part : Nat) (s : State) : Out := event (fwstatClear part) s
def errCcntClear (part : Nat) (s : State) : State := s.modPart part fun p => { p with ccnt := 0 }
def execErrCcntClear (part : Nat) (s : State) : Out := event (errCcntClear part) s
def slstatClear (part : Nat) (s : State) : State := s.modPart part fun p => { p with slWaits := 0, slPeak := 0 }
def execSlstatClear (part : Nat) (s : State) : Out := event (slstatClear part) s

/-- XLT_FRES: mapped or denied; a commons page is the monitor's to resolve (R109, R110, R457). -/
def State.csrwFres (s : State) (part : Nat) (monitor : Bool) (v : Dword) : State :=
  let act := v.toNat / 2 ^ 62
  let space := v.toNat / 2 ^ 44 % 2 ^ 11
  let page := v.toNat % 2 ^ 44
  if !monitor ∧ regionOf (page * 65536) = .commons then s
  else if act = 0 then faultResolveMapped part space page s
  else if act = 1 then faultResolveDenied part space page s
  else s

/-- A register of a stream (R158, R159). -/
def State.csrwStream (s : State) (part i n : Nat) (v : Dword) : State :=
  if n = 0x84 then if v.getLsbD 0 then streamEnable part i s else streamDisable part i s
  else if (s.stream part i).en then s
  else if n = 0x82 then s.modStream part i fun x => { x with base := v &&& 0x0FFFFFFFFFFF0000 }
  else if n = 0x83 then s.modStream part i fun x => { x with lpbase := v.toNat / 2 ^ 32 % 2 ^ 25, npages := v.toNat % 2 ^ 25 }
  else s

/-- A register of a call ring (R357): HEAD of ring 1 and TAIL are read-only; a moved HEAD lets callers post. -/
def State.csrwCall (s : State) (part i n : Nat) (v : Dword) : State :=
  let r := if i = 0 then (s.part part).mc0 else (s.part part).mc1
  let put (s : State) (r : Ring) : State :=
    s.modPart part fun p => if i = 0 then { p with mc0 := r } else { p with mc1 := r }
  if n = 0x90 then if r.head = r.tail then put s { r with base := ringWord v } else s
  else if n = 0x91 ∧ i = 0 then (put s { r with head := low32 v }).wakeIf fun _ th => th.wait == .ring && th.part == part
  else s

/-- DBG_CMD (R426). -/
def State.csrwDbg (s : State) (part : Nat) (v : Dword) : State :=
  let ctx := v.toNat / 2 ^ 32 % 2 ^ 11
  match v.toNat % 4 with
  | 1 => dbgHalt part ctx s
  | 2 => dbgGo false part ctx s
  | 3 => dbgGo true part ctx s
  | _ => s

/-- A register of a partition is written, in the fields whose Access permits it. -/
def State.csrwPart (s : State) (part n : Nat) (monitor : Bool) (v : Dword) : State :=
  let f (g : Part → Part) : State := s.modPart part g
  match n with
  | 0x08 => f fun p => { p with ctxSave := v &&& 0xFFFFFF0FFFFFFFFF }
  | 0x09 => f fun p => { p with excVec := vecField v }
  | 0x14 => f fun p => { p with quant := max 1 (v.toNat / 2 ^ 32 % 2 ^ 16), weight := max 1 (v.toNat % 2 ^ 8) }
  | 0x15 => f fun p => { p with bal := min 64 (max 1 (v.toNat % 2 ^ 7)) }
  | 0x20 => f fun p => { p with astab := v &&& 0x1FFFFFFFFFF }
  | 0x21 => { s with croot := v &&& 0x1FFFFFFFFFF }
  | 0x23 => f fun p => { p with fq := { p.fq with base := ringWord v } }
  | 0x24 => f fun p => { p with fq := { p.fq with head := low32 v } }
  | 0x26 => s.csrwFres part monitor v
  | 0x27 => if v.getLsbD 16 then slstatClear part s else s
  | 0x32 => f fun p => { p with pool := { p.pool with lowat := v.toNat % 2 ^ 24 } }
  | 0x70 => s.csrwRdet part v
  | 0x71 => f fun p => { p with lq := { p.lq with base := ringWord v } }
  | 0x72 => f fun p => { p with lq := { p.lq with head := low32 v } }
  | 0x80 => if v.getLsbD 32 then fwstatClear part s else s
  | 0xA0 => f fun p => { p with eq := { p.eq with base := ringWord v } }
  | 0xA1 => f fun p => { p with eq := { p.eq with head := low32 v } }
  | 0xA2 => if v.getLsbD 32 then f fun p => { p with eqOvf := false } else s
  | 0xA3 => if v.getLsbD 32 then errCcntClear part s else s
  | 0xB0 => s.csrwDbg part v
  | _ => s

/-- Any register of a block is written. -/
def State.csrwBlock (s : State) (part n i : Nat) (monitor : Bool) (v : Dword) : State :=
  if n = 0x22 ∨ (0x10 ≤ n ∧ n ≤ 0x13) then
    match s.csrQueue part monitor i with
    | none => s
    | some k => s.csrwQueue k n monitor v
  else if 0x82 ≤ n ∧ n ≤ 0x85 then if (s.part part).nstr ≤ i then s else s.csrwStream part i n v
  else if 0x90 ≤ n ∧ n ≤ 0x92 then if 2 ≤ i then s else s.csrwCall part i n v
  else s.csrwPart part n monitor v

/-- A thread register of the current thread is written (R48, R186, R322). -/
def State.csrwOwn (s : State) (n : Nat) (v : Dword) : State :=
  let service := isService s.cur
  s.modMe fun th =>
    match n with
    | 0 => { th with epc := pcField v }
    | 1 => { th with cause := BitVec.ofNat 32 (v.toNat % 2 ^ 11) }
    | 2 => { th with val := v }
    | 3 => if service then { th with vec := vecField v } else th
    | 4 => { th with rnd := rndOf v.toNat }
    | _ => { th with pend := th.pend && !v.getLsbD 4, plvl := v.toNat / 4 % 4 }

/-! ### CSRR and CSRW (R320) -/

/-- Sources of the blocks whose registers CSRR and CSRW reach. -/
def blockSources : List Nat := [161, 163, 164, 165, 166, 167, 168, 169]
/-- A register write takes effect in its block at the writer's milestone (R321). -/
def State.syncBlocks (s : State) : State := blockSources.foldl (fun s b => s.atLeastMs b (s.msOf s.src)) s
/-- A register read follows what the block has done. -/
def State.syncReader (s : State) : State := blockSources.foldl (fun s b => s.atLeastMs s.src (s.msOf b)) s

/-- The level check of a register: ILLEGAL_OPCODE where the profile lacks it, PRIVILEGE below its level. -/
def csrCheck (n : Nat) (write : Bool) : M Unit := do
  let s ← get
  match csrOf (isService s.cur) n with
  | none => illegal
  | some l =>
    let need := if write then (if n = 3 then l.read else l.write.getD 0) else l.read
    if s.me.level < need then trap cPRIVILEGE 0

/-- The index or partition operand: g, zero or none. -/
def csrIndex (opnd : Nat) (x : Spec) : M Nat := do
  if x = .none then return 0
  consume opnd (← readSrc32 opnd x 0)
/-- Below monitor level a partition operand that is not zero traps PRIVILEGE, as a level check (R320, R433 step 4); a poisoned
one is consumed with the other operands. -/
def csrPriv (x : Spec) : M Unit := do
  let s ← get
  let v := s.srcVal x 6 0
  if s.me.level ≠ 2 ∧ !v.poison ∧ v.raw ≠ 0 then trap cPRIVILEGE 0
/-- The partition whose register is meant: the monitor names one, any other level its own (R320). -/
def csrPartition (n : Nat) : M Nat := do
  let s ← get
  return if s.me.level = 2 then n else s.me.part

def csrrBody (w : Fields) : M Unit := do
  let n := w.ext.toNat % 4096
  csrCheck n false
  csrPriv w.b
  unsupportedInTx
  let i ← csrIndex 2 w.a
  let q ← csrIndex 3 w.b
  let part ← csrPartition q
  if csrOwn n then writePair w.d ((← get).csrOwnRead n) false
  else
    upd State.syncReader
    let s ← get
    let v := if !(s.part part).present then 0
      else if csrHasIndex n then s.csrIndexed part (s.me.level == 2) n i else s.csrPart part n
    writePair w.d v false
def execCsrr (w : Fields) (s : State) : Out := runInstr (.csrr w) w (seqBody (csrrBody w)) s

/-- The value is written with its poison discarded (R319). -/
def csrwBody (w : Fields) : M Unit := do
  let n := w.ext.toNat % 4096
  csrCheck n true
  csrPriv w.c
  unsupportedInTx
  let v := BitVec.ofNat 64 (← readPair w.a).raw
  let i ← csrIndex 3 w.b
  let q ← csrIndex 4 w.c
  let part ← csrPartition q
  if csrOwn n then upd fun s => s.csrwOwn n v
  else if ((csrScalar n).bind CsrLevels.write).isNone then return
  else upd fun s =>
    if !(s.part part).present then s else s.syncBlocks.csrwBlock part n i (s.me.level == 2) v
def execCsrw (w : Fields) (s : State) : Out := runInstr (.csrw w) w (seqBody (csrwBody w)) s

end Sys2Proof.Machine
end

