-- ==== Sys2Proof/Machine/Partctl.lean ====
section
/-!
DEFINITION. PARTCTL and partitions: holdings, creation, destruction, reset and start (R332, R352 to R356, R462, R475).
-/
namespace Sys2Proof.Machine

-- Statuses of R332.
def pcOK := 0
def pcBUSY := 1
def pcRANGE := 2
def pcNORES := 3
def pcSTATE := 4
def pcRESERVED := 5

/-- The parameter block, as the number of its 320 bytes (R354). -/
abbrev PartBlock := Nat

def PartBlock.at (b : PartBlock) (off n : Nat) : Nat := imageBytes b off n
def PartBlock.cores (b : PartBlock) : BitVec 32 := BitVec.ofNat 32 (b.at 0x000 4)
def PartBlock.pooled (b : PartBlock) : Bool := b.at 0x008 8 % 2 == 1
def PartBlock.commons (b : PartBlock) : Bool := b.at 0x008 8 / 2 % 2 == 1
def PartBlock.chan (b : PartBlock) : BitVec 256 := BitVec.ofNat 256 (b.at 0x010 32)
def PartBlock.queues (b : PartBlock) : BitVec 256 := BitVec.ofNat 256 (b.at 0x030 32)
def PartBlock.colours (b : PartBlock) : BitVec 1024 := BitVec.ofNat 1024 (b.at 0x050 128)
/-- CARVE0 to CARVE3, 24 way bits a die. -/
def PartBlock.carve (b : PartBlock) : BitVec 96 :=
  (List.range 4).foldl (fun c d => c ||| BitVec.ofNat 96 (b.at (0x0D0 + 4 * d) 4 % 2 ^ 24 * 2 ^ (24 * d))) 0
def PartBlock.res (b : PartBlock) : Nat := b.at 0x0E0 8 % 2 ^ 24
def PartBlock.spill (b : PartBlock) : Nat := b.at 0x0E0 8 / 2 ^ 24 % 2 ^ 24
def PartBlock.lpages (b : PartBlock) : Nat := b.at 0x0E8 8 % 2 ^ 25
def PartBlock.nstr (b : PartBlock) : Nat := b.at 0x0E8 8 / 2 ^ 32 % 2 ^ 5
def PartBlock.weight (b : PartBlock) : Nat := b.at 0x0E8 8 / 2 ^ 40 % 2 ^ 8
def PartBlock.quant (b : PartBlock) : Nat := b.at 0x0E8 8 / 2 ^ 48
def PartBlock.lframes (b : PartBlock) : Nat := b.at 0x0F0 8 % 2 ^ 24
def PartBlock.svc (b : PartBlock) : Nat := b.at 0x0F0 8 / 2 ^ 32 % 2 ^ 7
def PartBlock.entry (b : PartBlock) : Dword := BitVec.ofNat 64 (b.at 0x0F8 8)
def PartBlock.astab (b : PartBlock) : Dword := BitVec.ofNat 64 (b.at 0x100 8)
def PartBlock.gcores (b : PartBlock) : BitVec 96 := BitVec.ofNat 96 (b.at 0x108 12)
/-- Reserved bits of the words that an operation reads (R355). -/
def PartBlock.reservedIn (b : PartBlock) (op : Nat) : Bool :=
  let flags := b.at 0x008 8 / 4 != 0
  let svcw := b.at 0x0F0 8 / 2 ^ 24 % 2 ^ 8 != 0 || b.at 0x0F0 8 / 2 ^ 39 != 0
  match op with
  | 0 => svcw
  | 3 => b.at 0x004 4 != 0 || flags || b.at 0x114 4 != 0
  | 6 => flags
  | 7 => (List.range 4).any fun d => b.at (0x0D3 + 4 * d) 1 != 0
  | 8 => b.at 0x0E6 2 != 0 || b.at 0x0E8 8 / 2 ^ 25 % 2 ^ 7 != 0 || b.at 0x0E8 8 / 2 ^ 37 % 2 ^ 3 != 0 || svcw
  | 9 => b.at 0x0FF 1 / 16 != 0
  | _ => false
/-- Bytes 0x118 to 0x13F, or a reserved bit that the operation reads, are not zero (R354). -/
def PartBlock.reserved (b : PartBlock) (op : Nat) : Bool := b.at 0x118 40 != 0 || b.reservedIn op

/-- Some bit of a vector is set. -/
def anyBit {n : Nat} (x : BitVec n) : Bool := x != 0
/-- Partitions that exist, but for one. -/
def State.others (s : State) (a : Nat) : List (Nat × Part) := s.parts.filter fun e => e.1 != a && e.2.present
/-- A tag belongs to a partition: one of its address spaces, or its carve-out. -/
def tagOfPart (part tag : Nat) : Bool := (decide (tag < 65536) && tag / 2048 == part) || tag == 65537 + part

/-- The checks of every operation, and the block (R355): the answer is a state, or a status that leaves everything as it
is. A poisoned block is RANGE (R414). -/
def partctlBody (op : Nat) (f : State → Nat → PartBlock → Except Nat State) (w : Fields) : M Unit := do
  sysLevel 2
  let a ← consume 2 (← readSrc32 2 w.a 0)
  let va ← consume 3 (← readPair w.b)
  aligned cMISALIGNED 3 va 64
  let secs ← loadSectors 3 va 320
  let s ← get
  let b : PartBlock := imageNat secs
  let p := s.part a
  let answer : Except Nat State :=
    if secs.any SectorLit.poison then .error pcRANGE
    else if 32 ≤ a then .error pcRANGE
    else if b.reserved op then .error pcRESERVED
    else if a = 0 ∧ (op ≤ 2 ∨ op = 9) then .error pcSTATE
    else if op ≠ 0 ∧ !p.present then .error pcSTATE
    else if p.resetting then .error (if op = 9 then pcSTATE else pcBUSY)
    else f s a b
  if secs.any SectorLit.poison then upd fun s => (s.meet s.src).report s.me.part 1 0x08 s.me.cid 0 0 0 0 9
  match answer with
  | .ok s =>
    set s
    writeG w.d pcOK false
  | .error e => writeG w.d e false

/-! ### Create, Destroy, Reset -/

/-- Threads of a core of the service die. -/
def coreTids (core : Nat) : List Tid := [32768 + 2 * core, 32768 + 2 * core + 1]

def partCreate (s : State) (a : Nat) (b : PartBlock) : Except Nat State :=
  let c := b.svc
  if (s.part a).present then .error pcSTATE
  else if 95 < c then .error pcRANGE
  else if s.boot.retGcores.getLsbD c then .error pcNORES
  else if (s.others a).any fun e => e.2.svc == some c || e.2.gcores.getLsbD c then .error pcBUSY
  else
    let th : Thread := { wait := .stopped, part := a, cid := a * 2048, asid := a * 2048, level := 1, plvl := 3 }
    .ok { s with
      parts := Tbl.ins s.parts a
        { present := true, svc := some c, streams := (s.part a).streams, published := (s.part a).published, extents := (s.part a).extents }
      threads := (coreTids c).foldl (fun t k => Tbl.ins t k th) s.threads }

/-- A thread of the partition waits for the reply to a call, on a core or saved. -/
def State.callWaits (s : State) (a : Nat) : Bool :=
  let waits (e : Tid × Thread) : Bool := e.2.part == a && (match e.2.wait with
    | .call _ _ => true
    | _ => false)
  s.threads.any waits || s.saved.any fun x => x.threads.any waits

/-- Translations and lines of a partition leave every cache; dirty lines are written back first (R475). -/
def State.purgeLines (s : State) (a : Nat) : State :=
  let mine (bits k : Nat) : Bool := tagOfPart a (k / 2 ^ bits)
  let s := (s.lines.filter fun l => mine 53 l.1).foldl (fun s l => s.evictLine l.1) (s.dropFlash (mine 53))
  { s with
    l1 := s.l1.map fun e => (e.1, e.2.filter fun l => !mine 53 l.1)
    ipath := s.ipath.map fun e => (e.1, e.2.filter fun l => !mine 54 l.1)
    tlb := s.tlb.filter fun x => !mine 44 x.1
    shadow := s.shadow.filter fun x => x.2.part != a && !mine 55 x.1
    fcache := s.fcache.filter fun e => e.1 / 2 ^ 45 % 128 != a }

/-- Owner records of a partition's frames become free (R107). -/
def State.purgeOwners (s : State) (a : Nat) : State :=
  let phys (k : Nat) : Nat := if k / 2 ^ 48 = 1 then k % 2 ^ 48 - lpBase / 65536 else k % 2 ^ 48
  { s with owners := s.owners.filter fun e => (s.frameIndex a (e.1 / 2 ^ 48) (phys e.1)).isNone }

/-- Side-log entries, fault records and waiting scheduler accesses of a partition's private pages are discarded. -/
def State.purgeFaults (s : State) (a : Nat) : State :=
  { s.keepLog fun e => !tagOfPart a e.tag with
    faults := s.faults.filter fun f => !tagOfPart a f.tag
    due := s.due.filter fun d => d.part != a }

/-- What the partition holds outside its own record goes. -/
def State.purgeWork (s : State) (a : Nat) : State :=
  { s with
    cmds := s.cmds.filter fun c => c.2.part != a
    findings := s.findings.filter fun f => f.part != a
    launches := s.launches.filter fun l => l.2.part != a
    chains := s.chains.filter fun r => !tagOfPart a r.asid
    reqs := s.reqs.filter fun r => r.2.part != a
    selectors := s.selectors.filter fun e => e.part != a
    phaseRuns := s.phaseRuns.filter fun e => e.part != a
    deficits := s.deficits.filter fun e => e.1 % 32 != a
    drrs := s.drrs.mapVals fun d => { d with
      d := Tbl.del d.d a, waited := Tbl.del d.waited a, visit := if d.visit = some a then none else d.visit } }

/-- A launch with units not yet dealt is active (R67). -/
def Launch.active (l : Launch) : Bool :=
  !l.complete && decide (l.dealt < if l.hasReduce then l.r.total else l.r.gridUnits)

def partDestroy (s : State) (a : Nat) (_ : PartBlock) : Except Nat State :=
  let p := s.part a
  let busy := s.units.any (fun e => e.2.part == a) || s.saved.any (fun x => x.unit.part == a) ||
    s.cores.any (fun c => c.2.queue.any fun q => q.cid / 2048 == a) || s.launches.any (fun e => e.2.part == a && e.2.active) ||
    p.streams.any (fun x => !x.2.groups.isEmpty) || !p.trees.isEmpty || s.callWaits a
  if busy then .error pcBUSY
  else
    let s := (((s.purgeLines a).purgeOwners a).purgeFaults a).purgeWork a
    let s := s.leavePool a
    .ok { s with
      parts := Tbl.del s.parts a
      -- a grant that a reset left outstanding is released when it comes, also to a partition created anew (R361)
      lateTrees := s.lateTrees ++ (p.treeReqs.filter TreeReq.dead).map fun r => (a, r.key)
      queues := s.queues.filter fun q => !p.queues.getLsbD q.1
      threads := s.threads.filter fun e => !(isService e.1 && !isOryx e.1 && p.ownsCore (tidCore e.1))
      waiters := s.waiters.filter fun w => !(isService w.tid && !isOryx w.tid && p.ownsCore (tidCore w.tid))
      errs := s.errs.filter fun r => r.part != a
      stops := s.stops.filter fun r => r.part != a
      clearing := s.clearing ++ [(a, p.chans, p.lruns)] }

/-- CHANNEL_CLEARED: the released channels and LPDDR-6 frames of a destroyed partition read as zero sectors (R355). -/
def channelCleared (a : Nat) (s : State) : State :=
  let mine := s.clearing.filter fun e => e.1 == a
  let inRun (runs : List (Nat × Nat)) (f : Nat) : Bool := runs.any fun r => decide (r.1 ≤ f ∧ f < r.1 + r.2)
  let hit (addr : Nat) : Bool := mine.any fun e =>
    (decide (addr < lpBase) && e.2.1.getLsbD (addr / 65536 % 256)) ||
      (decide (lpBase ≤ addr ∧ addr < carveBase) && inRun e.2.2 ((addr - lpBase) / 65536))
  { s with
    clearing := s.clearing.filter fun e => e.1 != a
    mem := if mine.isEmpty then s.mem else { s.mem with
        bytes := s.mem.bytes.filter fun e => !hit e.1
        sides := s.mem.sides.filter fun e => !hit (e.1 * 32)
        poison := s.mem.poison.filter fun e => !hit (e.1 * 32) } }
def execChannelCleared (part : Nat) (s : State) : Out := event (channelCleared part) s

/-- Reset: steps 1 and 2 of R475 at the reset milestone; the rest follows in order. -/
def partReset (s : State) (a : Nat) (_ : PartBlock) : Except Nat State :=
  .ok ((s.stopPartition a).modPart a fun p => { p with resetting := true })

/-! ### Holdings -/

/-- Units of a partition, placed or saved, on some cores. -/
def State.unitsHeld (s : State) (a : Nat) (cores : BitVec 32) : Bool :=
  s.units.any (fun e => e.2.part == a && cores.getLsbD e.2.core) ||
    s.saved.any fun x => x.unit.part == a && cores.getLsbD x.unit.core

/-- A turn of the pool of a set runs. -/
def State.turnRuns (s : State) (c : BitVec 32) : Bool := s.pools.any fun t => t.cores == c && t.till != 0
/-- A partition is, or is to be, a member of the pool of a set. -/
def Part.inPool (p : Part) (c : BitVec 32) : Bool := (p.pooled && p.cores == c) || p.leaving == some (c, true)

/-- The compute and general cores are set. Where that changes the membership of a pool whose turn runs, the compute cores
change at the pool's next turn boundary (R355, R361). DESIGN CHOICE (log 119): no operation requests a pre-emption; cores that
hold units are BUSY (R74). -/
def partCores (s : State) (a : Nat) (b : PartBlock) : Except Nat State :=
  let p := s.part a
  let c := b.cores
  let g := b.gcores
  let pooled := b.pooled && anyBit c
  let isPool := (s.others a).any fun e => e.2.inPool c
  -- a core held by another is no bar where it is a pool's, and that pool is the one named
  let bars (set : BitVec 32) (inPool : Bool) : Bool := anyBit (set &&& c) && !(pooled && isPool && inPool && set == c)
  let barred (e : Nat × Part) : Bool := bars e.2.cores e.2.pooled || (match e.2.leaving with
    | some (set, inPool) => bars set inPool
    | none => false)
  if s.parts.any fun e => e.2.present && (match e.2.svc with
      | some n => g.getLsbD n
      | none => false) then .error pcRANGE
  else if anyBit (c &&& s.boot.retCores) || anyBit (g &&& s.boot.retGcores) then .error pcNORES
  else if (s.others a).any (fun e => anyBit (e.2.gcores &&& g)) || (s.others a).any barred ||
      s.unitsHeld a (p.cores &&& ~~~c) then .error pcBUSY
  else
    let s := s.modPart a fun p => { p with gcores := g }
    let same := p.pooled && pooled && p.cores == c
    let s := if !same && ((p.pooled && s.turnRuns p.cores) || (pooled && s.turnRuns c)) then s.modPart a fun p => { p with leaving := some (c, pooled) }
      else s.holdCores a c pooled
    let lost (t : Tid) : Bool := isService t && p.gcores.getLsbD (tidCore t) && !g.getLsbD (tidCore t)
    .ok (({ s with threads := s.threads.filter fun e => !lost e.1 } : State).dropWaits lost)

/-- A channel holds a KV frame, a save area, or a frame of a unit of the partition. A frame that may only be read can be
any of its units'. -/
def State.channelInUse (s : State) (a ch : Nat) : Bool :=
  let p := s.part a
  let chs := bitsOf p.chans
  let n := chs.length
  let on (i : Nat) : Bool := n != 0 && chs[i % n]? == some ch
  let save := p.ctxSave.toNat
  let frames := save / 2 ^ 40
  let asids := (s.units.vals ++ s.saved.map fun x => x.unit).filterMap fun u => if u.part = a then some u.asid else none
  (List.range (min p.res n)).any on || (List.range (min frames n)).any (fun i => on (save % 2 ^ 36 + i)) ||
    s.owners.any fun e => e.1 / 2 ^ 48 == 0 && e.1 % 256 == ch && (match e.2 with
      | .owned asid _ => asids.contains asid
      | .shared => !asids.isEmpty)

def partChan (s : State) (a : Nat) (b : PartBlock) : Except Nat State :=
  let c := b.chan
  let p := s.part a
  if anyBit (c &&& s.boot.retChans) then .error pcNORES
  else if (s.others a).any (fun e => anyBit (e.2.chans &&& c)) || s.clearing.any (fun e => anyBit (e.2.1 &&& c)) ||
      (bitsOf (p.chans &&& ~~~c)).any (s.channelInUse a) then .error pcBUSY
  else .ok (s.modPart a fun p => { p with chans := c })

def partQueues (s : State) (a : Nat) (b : PartBlock) : Except Nat State :=
  let q := b.queues
  let old := (s.part a).queues
  if (s.others a).any (fun e => anyBit (e.2.queues &&& q)) || (bitsOf (old &&& ~~~q)).any (fun k => (s.queue k).en) then
    .error pcBUSY
  else
    let own (v : Nat) (s : State) (k : Nat) : State := s.modQueue k fun x => { x with owner := v }
    let s := (bitsOf (old &&& ~~~q)).foldl (own 0) s
    let s := (bitsOf q).foldl (own a) s
    .ok (s.modPart a fun p => { p with queues := q })

/-- Lines of some colours leave the LLC: a partition's own, or those of the commons and partition 0 (R88, R355). -/
def State.dropColours (s : State) (commons : Bool) (a : Nat) (gone : BitVec 1024) : State :=
  let hit (k : Nat) : Bool :=
    let tag := k / 2 ^ 53
    let va := k % 2 ^ 53 * 128
    if tag = 65536 then commons && gone.getLsbD (hashColour va 0)
    else decide (tag < 65536) && (if commons then tag / 2048 == 0 else tag / 2048 == a) && gone.getLsbD (hashColour va tag)
  let s := (s.lines.filter fun l => hit l.1).foldl (fun s l => s.evictLine l.1) s
  { s with l1 := s.l1.map fun e => (e.1, e.2.filter fun l => !hit l.1) }

def partColours (s : State) (a : Nat) (b : PartBlock) : Except Nat State :=
  let c := b.colours
  let held (ps : List (Nat × Part)) : Bool := ps.any fun e => anyBit (e.2.colours &&& c)
  let all : List (Nat × Part) := s.parts.filter fun e => e.2.present
  if held (s.others a) || (!b.commons && anyBit (s.cmask &&& c)) || (b.commons && a == 0 && held all) then .error pcBUSY
  else if b.commons ∧ a ≠ 0 then .error pcSTATE
  else if b.commons then .ok { s.dropColours true 0 (s.cmask &&& ~~~c) with cmask := c }
  else .ok ((s.dropColours false a ((s.part a).colours &&& ~~~c)).modPart a fun p => { p with colours := c })

/-- A carve-out way reads as zero. -/
def Mem.zeroWay (m : Mem) (i : Nat) : Mem := m.zeroRange (carveBase + i * 2 ^ 24) (carveBase + (i + 1) * 2 ^ 24)

/-- The lines that a newly carved way caches leave it (R90). -/
def State.clearWay (s : State) (i : Nat) : State :=
  let here (l : Nat × Line) : Bool := (llcSlot l.1).1 == i / sliceWays && l.2.way == i % sliceWays
  (s.lines.filter here).foldl (fun s l => s.evictLine l.1) s

def partCarve (s : State) (a : Nat) (b : PartBlock) : Except Nat State :=
  let old := (s.part a).carve
  let new := b.carve
  let theirs := (s.others a).foldl (fun c e => c ||| e.2.carve) (0 : BitVec 96)
  let die (c : BitVec 96) (d : Nat) : Nat := ((bitsOf c).filter fun i => i / 24 == d).length
  let moves := (bitsOf old).isPrefixOf (bitsOf new)
  let inUse := s.units.any (fun e => e.2.part == a && e.2.carve && !e.2.groups.isEmpty) || s.saved.any (fun x => x.unit.part == a && x.unit.carve) ||
    s.cmds.any fun c => c.2.part == a && !c.2.isAppend && s.inCarve c.2
  if (List.range 4).any fun d => decide (16 < die (theirs ||| new) d) then .error pcNORES
  else if anyBit (theirs &&& new) || (!moves && inUse) then .error pcBUSY
  else
    let s := (bitsOf (new &&& ~~~old)).foldl State.clearWay s
    let changed := bitsOf ((new &&& ~~~old) ||| (old &&& ~~~new))
    let far (k : Nat) : Bool := k / 2 ^ 53 == 65537 + a
    .ok ({ s with
      mem := changed.foldl Mem.zeroWay s.mem
      lines := s.lines.filter fun l => !far l.1
      l1 := s.l1.map fun (e : Nat × Tbl L1Line) => (e.1, e.2.filter fun l => !far l.1) }.modPart a fun p => { p with carve := new })

/-! ### Quotas -/

/-- LPDDR-6 frames that are free: neither held nor being cleared; the lowest of them first. -/
def State.lpddrTaken (s : State) : List (Nat × Nat) :=
  s.parts.flatMap (fun e => e.2.lruns) ++ s.clearing.flatMap fun e => e.2.2
/-- The lowest run of free LPDDR-6 frames from a frame on. -/
def freeRun (taken : List (Nat × Nat)) : Nat → Nat → Option (Nat × Nat)
  | 0, _ => none
  | fuel + 1, f =>
    if Config.lpddrFrames ≤ f then none
    else match taken.find? fun r => decide (r.1 ≤ f ∧ f < r.1 + r.2) with
      | some r => freeRun taken fuel (r.1 + r.2)
      | none =>
        let top := taken.foldl (fun m r => if f < r.1 then min m r.1 else m) Config.lpddrFrames
        some (f, top - f)
/-- Take n free frames, lowest first. -/
def takeRuns (fuel : Nat) (taken : List (Nat × Nat)) (n : Nat) : Option (List (Nat × Nat)) :=
  match fuel with
  | 0 => none
  | fuel + 1 =>
    if n = 0 then some []
    else match freeRun taken (taken.length + 1) 0 with
    | none => none
    | some (f, k) =>
      let m := min k n
      (takeRuns fuel ((f, m) :: taken) (n - m)).map fun r => (f, m) :: r
/-- The first n frames of a list of runs. -/
def keepRuns : List (Nat × Nat) → Nat → List (Nat × Nat)
  | [], _ => []
  | (f, k) :: r, n => if n = 0 then [] else if n < k then [(f, n)] else (f, k) :: keepRuns r (n - k)

/-- Logical flash pages that all partitions together may hold: two retired dies are absorbed (R150, R415). -/
def State.flashBound (s : State) : Nat := Config.flashPageBound - 524288 * (popc s.boot.retDies - 2)

/-- A frame of a partition from `lo` to `hi` has an owner record (R107). -/
def State.framesOwned (s : State) (a home lo hi : Nat) : Bool :=
  let phys (k : Nat) : Nat := if home = 1 then k % 2 ^ 48 - lpBase / 65536 else k % 2 ^ 48
  s.owners.any fun e => e.1 / 2 ^ 48 == home && (match s.frameIndex a home (phys e.1) with
    | some i => decide (lo ≤ i ∧ i < hi)
    | none => false)

/-- Frames of the pool in use lie beyond new bounds, or a handle does. -/
def Part.poolBeyond (p : Part) (res spill : Nat) : Bool :=
  (p.pool.used false).any (fun f => decide (res ≤ f)) || (p.pool.used true).any (fun f => decide (spill ≤ f)) ||
    p.pool.frames.any fun e => decide (res + spill < e.1)

def partQuota (s : State) (a : Nat) (b : PartBlock) : Except Nat State :=
  let p := s.part a
  let others := s.others a
  let runs : Option (List (Nat × Nat)) :=
    if b.lframes ≤ p.lframes then some (keepRuns p.lruns b.lframes)
    else (takeRuns (s.lpddrTaken.length + 2) s.lpddrTaken (b.lframes - p.lframes)).map (p.lruns ++ ·)
  if 16 < b.nstr ∨ b.lframes < b.spill then .error pcRANGE
  else if p.hbmFrames < b.res ∨ s.flashBound < others.foldl (fun n e => n + e.2.lpages) b.lpages then .error pcNORES
  else match runs with
  | none => .error pcNORES
  | some lruns =>
    let held (e : Nat × Stream) : Bool := e.2.en && decide (b.nstr ≤ e.1 ∨ b.lpages < e.2.lpbase + e.2.npages)
    let s' := s.modPart a fun p => { p with
      res := b.res, spill := b.spill, nstr := b.nstr, lpages := b.lpages, lframes := b.lframes, lruns
      weight := max 1 b.weight, quant := max 1 b.quant }
    if p.poolBeyond b.res b.spill || p.streams.any held || s.framesOwned a 0 p.res b.res || s'.framesOwned a 1 p.spill b.spill then
      .error pcBUSY
    else .ok (s'.wakePool a)

/-! ### Start (R356) -/

/-- The service core of a partition has stopped, and may be started. -/
def State.svcStopped (s : State) (c : Nat) : Bool := (coreTids c).all fun t => (s.thr t).wait == .stopped

def partStart (s : State) (a : Nat) (b : PartBlock) : Except Nat State :=
  let p := s.part a
  match p.svc with
  | none => .error pcSTATE
  | some c =>
    if p.fatal ∨ !s.svcStopped c then .error pcSTATE
    else if !b.astab.getLsbD 0 ∨ !pcFormOk b.entry then .error pcRANGE
    else
      let th : Thread :=
        { wait := .ready, entry := s.now + 1, pc := b.entry, level := 1, plvl := 3, part := a, cid := a * 2048, asid := a * 2048 }
      .ok ({ s with
        threads := Tbl.ins (Tbl.ins s.threads (32768 + 2 * c) th) (32768 + 2 * c + 1) { th with wait := .halted }
        }.modPart a fun p => { p with astab := b.astab &&& 0x1FFFFFFFFFF })

/-! ### The instructions -/

def execPartctlCreate (w : Fields) (s : State) : Out := runInstr (.partctlCreate w) w (seqBody (partctlBody 0 partCreate w)) s
def execPartctlDestroy (w : Fields) (s : State) : Out := runInstr (.partctlDestroy w) w (seqBody (partctlBody 1 partDestroy w)) s
def execPartctlReset (w : Fields) (s : State) : Out := runInstr (.partctlReset w) w (seqBody (partctlBody 2 partReset w)) s
def execPartctlCores (w : Fields) (s : State) : Out := runInstr (.partctlCores w) w (seqBody (partctlBody 3 partCores w)) s
def execPartctlChan (w : Fields) (s : State) : Out := runInstr (.partctlChan w) w (seqBody (partctlBody 4 partChan w)) s
def execPartctlQueues (w : Fields) (s : State) : Out := runInstr (.partctlQueues w) w (seqBody (partctlBody 5 partQueues w)) s
def execPartctlColours (w : Fields) (s : State) : Out := runInstr (.partctlColours w) w (seqBody (partctlBody 6 partColours w)) s
def execPartctlCarve (w : Fields) (s : State) : Out := runInstr (.partctlCarve w) w (seqBody (partctlBody 7 partCarve w)) s
def execPartctlQuota (w : Fields) (s : State) : Out := runInstr (.partctlQuota w) w (seqBody (partctlBody 8 partQuota w)) s
def execPartctlStart (w : Fields) (s : State) : Out := runInstr (.partctlStart w) w (seqBody (partctlBody 9 partStart w)) s

/-! ### The end of a reset (R475) -/

/-- A stream after a reset: its serial and its recovery point remain. -/
def Stream.afterReset (x : Stream) : Stream := { serial := x.serial, sealWptr := x.sealWptr }

/-- A partition after a reset: its holdings, its published flash, and every register at its Reset value. A tree that is
still asked for is not taken when it is granted (R361). -/
def Part.afterReset (p : Part) : Part :=
  { present := p.present, cores := p.cores, pooled := p.pooled, leaving := p.leaving, gcores := p.gcores, chans := p.chans, queues := p.queues
    colours := p.colours, carve := p.carve, res := p.res, spill := p.spill, nstr := p.nstr, lpages := p.lpages
    lframes := p.lframes, lruns := p.lruns, svc := p.svc, weight := p.weight, quant := p.quant
    eqSeq := p.eqSeq, published := p.published
    streams := p.streams.foldl (fun (t : Tbl Stream) (e : Nat × Stream) => Tbl.put {} t e.1 e.2.afterReset) []
    extents := p.extents, closed := p.closed, corr := p.corr
    treeReqs := p.treeReqs.map fun r => { r with dead := true } }

/-- A command waits for a page that is not present: with the kernel stopped none resolves it. -/
def State.waitsForKernel (s : State) (c : Cmd) : Bool :=
  s.faults.any fun f => c.waiting == some (pageKey f.tag (f.page * 65536))
/-- A word that a launch's completion writes lies on a page that is not present. -/
def State.wordsWait (s : State) (cid : Nat) (l : Launch) : Bool :=
  let words := [l.r.status, l.r.edge0, l.r.edge1, l.r.graphCnt, l.r.phaseCnt, l.r.jobCnt] ++
    s.due.filterMap fun d => if d.cid = cid then some d.va else none
  let tag (a : Dword) : Nat := tagOf a.toNat l.asid l.part
  s.faults.any fun f => words.any fun a => a != 0 && f.tag == tag a && f.page == a.toNat / 65536
/-- Step 1 of R475 is done: the partition's cancelled launches have written their status words, and the commands issued before
the reset milestone have completed. DEDUCED (log 125): one that waits for a page that is not present is discarded, since its
kernel is stopped. -/
def State.resetReady (s : State) (a : Nat) : Bool :=
  !s.launches.any (fun l => l.2.part == a && !s.wordsWait l.1 l.2) &&
    !s.cmds.any fun c => c.2.part == a && c.2.phase != .queued && !s.waitsForKernel c.2

/-- PARTITION_RESET_COMPLETE: steps 3 to 7 of R475. -/
def partitionResetComplete (a : Nat) (s : State) : State :=
  let p := s.part a
  if !p.resetting ∨ !s.resetReady a then s
  else
    -- step 4: one transport context serves each remote package (R350)
    let open_ := (List.range 144).filter fun k => Tbl.find? p.closed k != some false
    let s := s.modPart a fun p => { p with closed := (List.range 144).map fun k => (k, false) }
    let s := open_.foldl (fun s _ => s.reportLink 170 a (a * 2048) 0) s
    -- step 5
    let s := s.modPart a fun p => { p with astab := p.astab &&& ~~~(1 : Dword) }
    let s := ((s.purgeLines a).purgeOwners a).purgeFaults a
    -- step 6
    let s := { s.purgeWork a with mem := (bitsOf p.carve).foldl Mem.zeroWay s.mem }
    -- step 7
    let clear (q : Nat × Queue) : Nat × Queue := if p.queues.getLsbD q.1 then (q.1, { owner := q.2.owner }) else q
    let idle (t : Tid) : Bool := isService t && !isOryx t && p.gcores.getLsbD (tidCore t)
    let blank : Thread := { wait := .stopped, part := a, cid := a * 2048, asid := a * 2048, level := 1, plvl := 3 }
    let threads := s.threads.filter fun e => !idle e.1
    let threads := match p.svc with
      | some c => (coreTids c).foldl (fun t k => Tbl.ins t k blank) threads
      | none => threads
    let s := { s with threads, queues := s.queues.map clear, stops := s.stops.filter fun r => r.part != a }
    let s := s.modPart a Part.afterReset
    { s with errs := s.errs ++ [({ part := 0, ms := s.msOf 169, cls := 3, kind := 0x10, cid := a * 2048, charged := a } : ErrRec)] }
def execPartitionResetComplete (part : Nat) (s : State) : Out := event (partitionResetComplete part) s

end Sys2Proof.Machine
end

