-- ==== Sys2Proof/Machine/Issue.lean ====
section
/-!
DEFINITION. Instruction issue: marked pairs, bundles, and the fetch of a thread's next instruction (R33 to R36, R192 to
R196, R414, R468).
-/
namespace Sys2Proof.Machine

/-! ### Marked pairs (R196) -/

/-- Registers that a field names, as numbers: g 0-127, v 128-159, p0-p6 160-166. -/
def regsOf (r : Rule) : Spec → List Nat
  | .g n => if r.g then [n.toNat] else [n.toNat, n.toNat + 1]
  | .v n => [128 + n.toNat]
  | .p n => if n = 7 then [] else [160 + n.toNat]
  | _ => []
def allPreds : List Nat := (List.range 7).map (160 + ·)
/-- Registers that an instruction writes. -/
def writesOf (i : Instr) : List Nat :=
  match i, shapeOf i, fieldsOf i with
  | .pmovUnpack _, _, _ => allPreds
  | _, some sh, some w => regsOf sh.d w.d
  | _, _, _ => []
/-- Registers that an instruction reads, its guard among them. -/
def readsOf (i : Instr) : List Nat :=
  match shapeOf i, fieldsOf i with
  | some sh, some w =>
    regsOf sh.a w.a ++ regsOf sh.b w.b ++ regsOf sh.c w.c ++ regsOf rP (.p w.gpred) ++
      (match i with
      | .pmov _ => allPreds
      | _ => [])
  | _, _ => []

def opcOf (x : BitVec 96) : Nat := (x.extractLsb' 0 8).toNat
/-- Condition 1. -/
def pairFamily (o : Nat) : Bool :=
  decide (o ≤ 0x16) || decide (0x70 ≤ o ∧ o ≤ 0x7B) || o == 0x20 || o == 0x21 || decide (0x40 ≤ o ∧ o ≤ 0x43)
/-- LD, ST, LDV or STV. -/
def pairMem (o : Nat) : Bool := decide (0x40 ≤ o ∧ o ≤ 0x43)
/-- A field names a constant window. -/
def namesWindow (x : BitVec 96) : Bool :=
  [20, 28, 36].any fun k => let c := (x.extractLsb' k 8).toNat; decide (0xE0 ≤ c ∧ c ≤ 0xE7)
/-- Conditions 4 and 5, for two instructions. -/
def pairClash (i j : Instr) : Bool :=
  (readsOf j).any (writesOf i).contains || (writesOf j).any (writesOf i).contains
/-- A marked pair breaks a condition of R196. A word that is no instruction keeps its own trap. -/
def pairBroken (x y : BitVec 96) : Bool :=
  !pairFamily (opcOf x) || !pairFamily (opcOf y) || (pairMem (opcOf x) && pairMem (opcOf y)) ||
    namesWindow x || namesWindow y ||
    (match decode x, decode y with
      | .ok i, .ok j => pairClash i j
      | _, _ => false)
/-- First slots of the pairs that a template marks. -/
def pairFirsts (pair : Nat) : List Nat :=
  match pair with
  | 1 => [0]
  | 2 => [1]
  | 3 => [2]
  | 4 => [3]
  | 5 => [0, 2]
  | 6 => [0, 3]
  | 7 => [1, 3]
  | _ => []

/-! ### The instructions at a PC -/

/-- What stands at a PC of a line: the words that issue together, whether they trap as illegal, and whether the line's mask
admits an entry there. -/
structure Slots where
  words : List (Dword × BitVec 96)
  bad : Bool
  entry : Bool
  deriving DecidableEq, Repr

def slotsAt (secs : List SectorLit) (pc : Dword) : Slots :=
  let lw := lineWord secs
  let k := pc.toNat % 8
  let x := slotWord secs k
  if (pairFirsts (lw.extractLsb' 16 3).toNat).contains k then
    let y := slotWord secs (k + 1)
    { words := [(pc, x), (pc + 1, y)], bad := lw.extractLsb' 0 16 != 0 || pairBroken x y, entry := btmOk lw k }
  else { words := [(pc, x)], bad := lw.extractLsb' 0 16 != 0, entry := btmOk lw k }

/-- What a thread's fetch comes to: words, or a state in which the fetch has ended or held the thread. -/
inductive Fetch where
  | ready (x : Slots) (s : State)
  | over (s : State)

/-- Fetch for a thread (R193, R414, R433 step 1). DESIGN CHOICE (log 124): a line with a parity mismatch is
fatal, whatever its reserved bits. -/
def State.fetchFor (s : State) (t : Tid) : Fetch :=
  let th := s.thr t
  let va := lineOf th.pc
  match s.fetch t va with
  | (.denied, s) => .over (({ s with cur := t }).takeTrap cPAGE 0 (BitVec.ofNat 64 va))
  | (.wait w, s) =>
    let fault := match w with
      | .page _ => th.tx.isSome
      | _ => false
    -- a fetch that a fault would hold aborts a transaction (R268)
    .over (if fault then s.abortTx t txFAULT else s.enterWait t w)
  | (.line secs, s) =>
    if secs.any SectorLit.poison then .over (({ s with cur := t }.meet (tidSource t)).fatalContext th.part 0x14 th.cid 0)
    else if !parityOk secs then .over (({ s with cur := t }.meet (tidSource t)).fatalContext th.part 0x0B th.cid 0)
    else match th.unchecked with
    | some cause =>
      -- a trap entry or an ERET outside the mask of its line (R50, R195)
      if (slotsAt secs th.pc).entry then
        .ready (slotsAt secs th.pc) (s.modThr t fun th => { th with reply := none, unchecked := none })
      else if isService t then .over (({ s with cur := t }.meet (tidSource t)).fatalPartition th.part 0x07 th.cid 0 0 cause)
      else .over (({ s with cur := t }.meet (tidSource t)).fatalContext th.part 0x07 th.cid cause)
    | none => .ready (slotsAt secs th.pc) (s.modThr t fun th => { th with reply := none })

/-! ### The scoreboard (R33, R84, R296) -/

/-- Tiles that an instruction of a thread names, other than those of TSET and TQRY. -/
def State.namedTiles (s : State) (t : Tid) (i : Instr) : List Nat :=
  let h (w : Fields) : Nat := w.ext.toNat % 256
  match i with
  | .tld w => [h w]
  | .tst w => [h w]
  | .mma w => [h w]
  | .softstep w => [h w]
  | .aload w => if w.sub.getLsbD 0 then [] else [h w]
  | .adrain w =>
    (if w.sub.getLsbD 0 then [] else [h w]) ++ (if w.sub.toNat / 4 % 4 = 1 then [w.ext.toNat / 256 % 256] else [])
  | .vquant w => if w.sub.toNat % 4 = 1 then [(s.valOf t w.c w.ext).raw % 256] else []
  | _ => []
/-- Accumulators that a row instruction names. -/
def namedAccs : Instr → List Nat
  | .aclr w => [w.d.accNum]
  | .aload w => [w.d.accNum]
  | .adrain w => [w.a.accNum]
  | .arescale w => [w.d.accNum]
  | .smerge w => [w.d.accNum, w.a.accNum]
  | .anorm w => [w.d.accNum]
  | .arow w => [w.a.accNum]
  | _ => []
/-- The instruction at a thread's PC, where its line can be fetched now. -/
def State.nextInstr (s : State) (t : Tid) : Option Instr :=
  let pc := (s.thr t).pc
  match (s.fetch t (lineOf pc)).1 with
  | .line secs => match decode (slotWord secs (pc.toNat % 8)) with
    | .ok i => some i
    | .error _ => none
  | _ => none
/-- TSET, and the instructions that access bytes of a tile, as a thread would perform them now. -/
def State.tileTrial (s : State) : Instr → Option Out
  | .tsetDef w => some (execTsetDef w s)
  | .tsetReady w => some (execTsetReady w s)
  | .tsetEmpty w => some (execTsetEmpty w s)
  | .tld w => some (execTld w s)
  | .tst w => some (execTst w s)
  | .aload w => some (execAload w s)
  | .adrain w => some (execAdrain w s)
  | .vquant w => some (execVquant w s)
  | _ => none
/-- A change of a tile that R83 does not allow yet, or bytes that are busy (R296), for which a thread's next instruction
waits: one for which performing it would only hold the thread. -/
def State.tileWait (s : State) (t : Tid) (i : Instr) : Option Wait :=
  match { s with cur := t }.tileTrial i with
  | some (.next s') => match (s'.thr t).wait with
    | .tset h => some (.tset h)
    | .tile h => some (.tile h)
    | _ => none
  | _ => none
/-- What a thread's next instruction waits for in Scoreboard state: whatever its guard, a tile that is not ready, or an
accumulator that an operation of the group still uses; a tile change that is not allowed yet; busy bytes. -/
def State.scoreWait (s : State) (t : Tid) (th : Thread) : Option Wait :=
  match s.nextInstr t, s.units.find? th.unit with
  | some i, some u =>
    if !staticPass i { s with cur := t } then none
    else match (s.namedTiles t i).find? fun h => tileState (u.tile h) != tileREADY with
    | some h => some (.tile h)
    | none =>
      match u.group th.group with
      | none => none
      | some g =>
        let q := s.quadOf (tidCq t)
        let used (n : Nat) : Bool := match g.acc[n]? with
          | some phys => q.usesAcc th.unit th.group phys
          | none => false
        if (namedAccs i).any used then some .engine else s.tileWait t i
  | _, _ => none
/-- Threads whose next instruction cannot issue yet are in Scoreboard state, and enter Ready when it can. -/
def State.scoreboard (s : State) : State :=
  { s with threads := s.threads.map fun e =>
      if isService e.1 || e.2.wait != .ready then e
      else match s.scoreWait e.1 e.2 with
      | some w => (e.1, { e.2 with wait := w })
      | none => e }

/-- A thread whose next instruction may issue in this cycle. -/
def State.mayGo (s : State) (t : Tid) (th : Thread) : Bool :=
  th.wait == .ready && decide (th.entry ≤ s.now) &&
    (isService t || (match s.units.find? th.unit with
      | some u => u.stopping.isNone && !(u.stepping && th.stepped)
      | none => false))

/-- One is older than the other (R33). -/
def olderThan (a b : Tid × Thread) : Bool :=
  decide (a.2.entry < b.2.entry) || (a.2.entry == b.2.entry && (decide (tidLane a.1 < tidLane b.1) ||
    (tidLane a.1 == tidLane b.1 && decide (tidSlot a.1 < tidSlot b.1))))
def oldest (l : List (Tid × Thread)) : Option (Tid × Thread) :=
  l.foldl (fun b x => match b with
    | none => some x
    | some y => if olderThan x y then some x else some y) none

/-- The thread's group holds a token (R44, R45). -/
def State.holdsToken (s : State) (t : Tid) (th : Thread) : Bool :=
  s.pairs.any fun p => p.core == tidCore t && p.quad == tidQuad t && p.unit == th.unit && p.holder == th.group

/-- Ready threads of a quadrant. -/
def State.readyIn (s : State) (cq : Nat) : List (Tid × Thread) :=
  s.threads.filter fun e => !isService e.1 && tidCq e.1 == cq && s.mayGo e.1 e.2

/-- The leader (R35 step 1). -/
def State.leader (s : State) (cq : Nat) : Option (Tid × Thread) :=
  let ready := s.readyIn cq
  let old := ready.filter fun e => decide (e.2.entry + 2048 ≤ s.now)
  let held := ready.filter fun e => s.holdsToken e.1 e.2
  if !old.isEmpty then oldest old else if !held.isEmpty then oldest held else oldest ready

/-- The member on a lane that step 3 of R35 selects. -/
def State.memberOn (s : State) (lead : Tid × Thread) (ready : List (Tid × Thread)) (lane : Nat) : Option (Tid × Thread) :=
  if lane = tidLane lead.1 then some lead
  else
    let level (th : Thread) : Bool := decide (1 ≤ th.level)
    let here := ready.filter fun e =>
      tidLane e.1 == lane && e.2.pc == lead.2.pc && e.2.cid == lead.2.cid && level e.2 == level lead.2
    let held := here.filter fun e => s.holdsToken e.1 e.2
    if held.isEmpty then oldest here else oldest held

/-- The members of the bundle, in ascending lane: any of those selected may be left out, but not the leader (R36). -/
def State.membersOf (s : State) (lead : Tid × Thread) (ready : List (Tid × Thread)) (left : BitVec 32) :
    List (Tid × Thread) :=
  (List.range 32).filterMap fun lane =>
    match s.memberOn lead ready lane with
    | none => none
    | some e => if e.1 ≠ lead.1 ∧ left.getLsbD lane then none else some e

/-- Issue a bundle of a quadrant: its items stand in the latch (R35). -/
def State.issueIn (s : State) (cq : Nat) (left : BitVec 32) : State :=
  match s.leader cq with
  | none => s
  | some lead =>
    let s := s.modQuad cq fun q => { q with lastIssue := s.now, issued := true }
    match s.fetchFor lead.1 with
    | .over s => s
    | .ready x s =>
      -- a thread that owes a check of the mask joins where it passes
      let may (e : Tid × Thread) : Bool := e.2.unchecked.isNone || x.entry
      let ms := (s.membersOf lead (s.readyIn cq) left).filter may
      let stepping (th : Thread) : Bool := match s.units.find? th.unit with
        | some u => u.stepping
        | none => false
      let words := if ms.any fun e => stepping e.2 then x.words.take 1 else x.words
      let mark (s : State) (e : Tid × Thread) : State := s.modThr e.1 fun th => { th with stepped := th.stepped || stepping th, unchecked := none }
      let s := ms.foldl mark s
      { s with
        bundle := ms.foldl (fun b e => setBit b (tidLane e.1) true) 0, combined := []
        latch := words.flatMap fun w => ms.map fun e => { tid := e.1, pc := w.1, word := w.2, badPair := x.bad } }

/-- A quadrant of the core, this one or one of a higher number, has issued in this cycle. -/
def State.issuePast (s : State) (cq : Nat) : Bool :=
  (List.range (4 - cq % 4)).any fun i => (s.quadOf (cq + i)).issued && (s.quadOf (cq + i)).lastIssue == s.now
/-- Quadrants that may issue in this cycle: each at most once, and those of a core in ascending number (R35, R131). -/
def State.issuable (s : State) : List Nat :=
  let cqs := s.threads.filterMap fun e =>
    if !isService e.1 && s.mayGo e.1 e.2 then some (tidCq e.1) else none
  cqs.eraseDups.filter fun cq => !s.issuePast cq

/-- ISSUE_BUNDLE: a quadrant that has not issued in this cycle issues; `left` are the lanes left out (R35, R36). -/
def issueBundle (core quad : Nat) (left : BitVec 32) (s : State) : State :=
  if s.issuable.contains (core * 4 + quad) ∧ quad < 4 then s.issueIn (core * 4 + quad) left else s
def execIssueBundle (core quad : Nat) (left : BitVec 32) (s : State) : Out := event (issueBundle core quad left) s

end Sys2Proof.Machine
end

