-- ==== Sys2Proof/Machine/Sched.lean ====
section
/-!
DEFINITION. The scheduler: launch records and their validation, acceptance, dealing, placement, balancing and completion
(R54 to R72, R76, R78), milestone synchronisation (R132), and idle cores (R398).
-/
namespace Sys2Proof.Machine

/-! ### Launch records (R57 to R60) -/

def parseRes (v : Nat) : Res :=
  { threads := v % 2 ^ 6, groups := v / 2 ^ 6 % 2 ^ 6, gregs := v / 2 ^ 12 % 2 ^ 8, vregs := v / 2 ^ 20 % 2 ^ 6
    tile4k := v / 2 ^ 26 % 2 ^ 12, bars := v / 2 ^ 38 % 2 ^ 7, acc := v / 2 ^ 45 % 2 ^ 4, raw := BitVec.ofNat 64 v }

def parseLaunch (x : Nat) : LaunchRec :=
  let f (off n : Nat) : Nat := imageBytes x off n
  let d (off : Nat) : Dword := BitVec.ofNat 64 (f off 8)
  let ctrl := f 0x60 8
  { entry := d 0x00, gx := f 0x08 2, gy := f 0x0A 2, gz := f 0x0C 2, res := parseRes (f 0x10 8)
    windows := (List.range 8).map fun k => d (0x18 + 8 * k)
    param := d 0x58, coll := ctrl.testBit 8, nvar := ctrl / 2 ^ 5 % 8, phased := ctrl / 2 ^ 3 % 4 == 1, prio := ctrl % 8
    graph := f 0x68 4, phase := f 0x6C 4, job := f 0x70 4
    launchCnt := d 0x78, graphCnt := d 0x80, phaseCnt := d 0x88, jobCnt := d 0x90, dep := d 0x98, thresh := d 0xA0
    vars := (List.range 4).map fun k => (f (0xA8 + 8 * k) 8 / 2 ^ 6 % 2 ^ 6, f (0xA8 + 8 * k) 8 % 2 ^ 6)
    tree := BitVec.ofNat 32 (f 0xC8 4), collop := BitVec.ofNat 16 (f 0xCC 2), restile := f 0xCE 1
    shift := f 0xD0 8 % 2 ^ 5, nchunk := f 0xD0 8 / 2 ^ 5 % 2 ^ 24, reducePc := d 0xD8
    status := d 0xE0, edge0 := d 0xE8, edge1 := d 0xF0 }

/-- Code 0x01: a reserved field or byte is not zero. -/
def recReserved (x : Nat) : Bool :=
  let f (off n : Nat) : Nat := imageBytes x off n
  let coll := f 0x60 8 |>.testBit 8
  f 0x00 8 / 2 ^ 60 != 0 || f 0x0E 2 != 0 || f 0x10 8 / 2 ^ 49 != 0 ||
    (List.range 8).any (fun k => f (0x18 + 8 * k) 8 / 2 ^ 60 != 0 || f (0x18 + 8 * k) 1 != 0) ||
    f 0x60 8 / 2 ^ 9 != 0 || f 0x74 4 != 0 || (List.range 4).any (fun k => f (0xA8 + 8 * k) 8 / 2 ^ 12 != 0) ||
    (if coll then f 0xCD 1 != 0 || f 0xCF 1 != 0 || f 0xD0 8 / 2 ^ 29 != 0 || f 0xD8 8 / 2 ^ 60 != 0
     else f 0xC8 24 != 0) ||
    f 0xF8 8 != 0

/-- Code 0x02: a field outside its limits. -/
def recRange (x : Nat) (r : LaunchRec) : Bool :=
  let e := r.res
  let bal := imageBytes x 0x60 8 / 2 ^ 3 % 4
  let var (v : Nat × Nat) : Bool := decide (v.1 ≤ 31 ∧ 1 ≤ v.2 ∧ v.2 ≤ 32 ∧ v.1 + v.2 ≤ 32)
  let fmt := r.collop.extractLsb' 4 4
  r.gx == 0 || r.gy == 0 || r.gz == 0 || decide (e.threads < 1 ∨ 32 < e.threads ∨ e.groups < 1 ∨ 32 < e.groups) ||
    decide (e.gregs < 16 ∨ 128 < e.gregs ∨ e.gregs % 8 ≠ 0 ∨ 32 < e.vregs ∨ 2048 < e.tile4k ∨ 64 < e.bars ∨ 8 < e.acc) ||
    decide (1 < bal ∨ 4 < r.nvar) || (!r.phased && r.nvar != 0) || !(r.vars.take r.nvar).all var ||
    r.launchCnt == 0 || (r.graph != 0 && r.graphCnt == 0) || (r.phase != 0 && r.phaseCnt == 0) ||
    (r.job != 0 && r.jobCnt == 0) ||
    (r.coll && (decide (2 < r.collop.toNat % 16) || !(fmt == 1 || fmt == 2 || fmt == 3 || fmt == 4) || r.nchunk == 0))

/-- Code 0x03: an address is not aligned, or an entry PC has no PC's form. -/
def recAlign (r : LaunchRec) : Bool :=
  [r.launchCnt, r.graphCnt, r.phaseCnt, r.jobCnt, r.dep, r.status, r.edge0, r.edge1].any (fun a => a.toNat % 8 != 0) ||
    !pcFormOk r.entry || !pcFormOk r.reducePc

/-- Code 0x05: no empty core takes the unit (R68), or the partition has no core. -/
def recFit (r : LaunchRec) (p : Part) : Bool :=
  let e := r.res
  let per (total need : Nat) : Nat := if need = 0 then 8 else total / need
  let k := min (min (per 512 e.gregs) (per 128 e.vregs)) (min (per 8 e.acc) 8)
  decide (4 * k < e.groups) || p.cores == 0

/-- Words that a launch writes: its counters, STATUS and edges. -/
def LaunchRec.writes (r : LaunchRec) : List Dword :=
  ((List.range 4).map r.counter ++ [r.status, r.edge0, r.edge1]).filter (· != 0)

/-! ### Validation (R56, R63, R64) -/

/-- What a look of the scheduler at a page of a launch comes to. -/
inductive Look where
  | ok (p : Place)
  | denied
  /-- a page or line is awaited, known by a key -/
  | wait (key : Nat)
  deriving DecidableEq, Repr

/-- The scheduler meets a page for one use, posting a fault where it is absent (R63, R64). `denied` is the page whose fault
the kernel denied while the queue was held on it. -/
def State.schedLook (s : State) (w : Who) (va : Nat) (u : Use) (kind : Nat) (denied : Option Nat) : Look × State :=
  let key := pageKey (tagOf va w.asid w.part) va
  if 2 ^ 60 ≤ va then (.denied, s)
  else if denied = some key then (.denied, s)
  else match s.place w va u none with
  | (.ok p, s) => (.ok p, s)
  | (.denied, s) => (.denied, s)
  | (.absent r, s) => (.wait key, s.postFault w va kind r)
  | (.wait (.remote q), s) => (.wait (reqKey q), s)
  | (.wait _, s) => (.wait (lineKey (tagOf va w.asid w.part) va), s)

/-- Whether an entry PC may be entered (R63 code 0x04). -/
def State.entryLook (s : State) (w : Who) (pc : Dword) (denied : Option Nat) : Look × Bool × State :=
  match s.schedLook w (lineOf pc) .fetch 2 denied with
  | (.ok p, s) => (.ok p, btmOk (lineWord (((s.lineAt p).drop (lineOf pc % 128 / 32)).take 2)) (pc.toNat % 8), s)
  | (x, s) => (x, false, s)

/-- A verdict on a record. -/
inductive Verdict where
  | good
  | refuse (code : Nat)
  | wait (key : Nat)
  deriving DecidableEq, Repr

/-- Verdict on one entry PC. -/
def State.judgeEntry (s : State) (w : Who) (pc : Dword) (denied : Option Nat) : Verdict × State :=
  match s.entryLook w pc denied with
  | (.wait k, _, s) => (.wait k, s)
  | (.ok _, true, s) => (.good, s)
  | (_, _, s) => (.refuse 4, s)

/-- Code 0x07: a word the launch names is in a page that denies it. A page not present is no denial. -/
def State.judgeAccess (s : State) (w : Who) (r : LaunchRec) (denied : Option Nat) : Verdict × State :=
  let uses : List (Nat × Use) :=
    r.writes.map (fun a => (a.toNat, Use.store)) ++ (if r.dep = 0 then [] else [(r.dep.toNat, Use.load)])
  uses.foldl (fun (acc : Verdict × State) a =>
    match acc with
    | (.good, s) =>
      let key := pageKey (tagOf a.1 w.asid w.part) a.1
      if 2 ^ 60 ≤ a.1 ∨ denied = some key then (.refuse 7, s)
      else match s.place w a.1 a.2 none with
      | (.denied, s) => (.refuse 7, s)
      | (_, s) => (.good, s)
    | x => x) (.good, s)

/-- The first code of R63 that applies. -/
def State.judge (s : State) (part asid : Nat) (x : Nat) (r : LaunchRec) (denied : Option Nat) : Verdict × State :=
  let w := schedWho part asid
  let p := s.part part
  if recReserved x then (.refuse 1, s)
  else if recRange x r then (.refuse 2, s)
  else if recAlign r then (.refuse 3, s)
  else match s.judgeEntry w r.entry denied with
  | (.good, s) =>
    match if r.reducePc = 0 then (.good, s) else s.judgeEntry w r.reducePc denied with
    | (.good, s) =>
      if recFit r p then (.refuse 5, s)
      else if r.coll && !p.trees.any (fun t => t.id == r.tree) then (.refuse 6, s)
      else s.judgeAccess w r denied
    | v => v
  | v => v

/-- Advance HEAD past the record, after the last access to TAIL (R246). -/
def State.nextRecord (s : State) (k : Nat) : State :=
  let s := s.afterMs 163 (s.queue k).tailMs
  s.modQueue k fun q => { q with head := q.head + 1, headMs := s.msOf 163, valid := false, denied := none }
/-- Stop a queue whose record or dependence word cannot be read (R56). -/
def State.stopQueue (s : State) (k : Nat) : State :=
  s.modQueue k fun q => { q with en := false, err := 2, valid := false, hold := none, denied := none }

/-- The status word of R62. -/
def statusWord (cid var refuse : Nat) (collfail cancelled done : Bool) : Dword :=
  BitVec.ofNat 64 (cid * 2 ^ 32 + var * 2 ^ 16 + refuse * 2 ^ 8 + bit1 collfail * 4 + bit1 cancelled * 2 + bit1 done)

/-- Refuse a record: the status word, or a report where none can be written; HEAD advances (R63). A STATUS that is not
8-byte aligned, which code 0x03 refuses, cannot be written. -/
def State.refuse (s : State) (k part asid : Nat) (r : LaunchRec) (code : Nat) : State :=
  let v := statusWord 0 0 code false false true
  let s :=
    if r.status = 0 ∨ r.status.toNat % 8 ≠ 0 then s.reportRefusal part (part * 2048)
    else s.schedStore part asid (part * 2048) r.status v true
  s.nextRecord k

/-- The partition's launches may move: it is neither fatal nor being reset, and the package runs. -/
def State.partRuns (s : State) (part : Nat) : Bool :=
  let p := s.part part
  p.present && !p.fatal && !p.resetting && s.boot.power == .running

/-- LAUNCH_VALIDATE (R56, R63). -/
def launchValidate (k : Nat) (s : State) : State :=
  let q := s.queue k
  if !q.en ∨ q.valid ∨ q.hold.isSome ∨ q.head = q.tail ∨ !s.partRuns q.owner then s
  else
    let part := q.owner
    let asid := part * 2048 + q.space
    let w := schedWho part asid
    -- the slot is read after the advance of TAIL that passed it (R54)
    let s := s.afterMs 163 q.tailMs
    match s.schedLook w (q.slotAddr q.head) .load 0 q.denied with
    | (.denied, s) => s.stopQueue k
    | (.wait key, s) => s.modQueue k fun q => { q with hold := some key }
    | (.ok _, s) =>
      match s.blockRead w (q.slotAddr q.head) 256 0 with
      | (.ok _, x, poison, s) =>
        if poison then ((s.stopQueue k).meet 163).report part 1 0x08 (part * 2048) 0 0 0 0 9
        else
          let r := parseLaunch x
          match s.judge part asid x r q.denied with
          | (.good, s) => s.modQueue k fun q => { q with valid := true, head_ := r, denied := none }
          | (.refuse c, s) => s.refuse k part asid r c
          | (.wait key, s) => s.modQueue k fun q => { q with hold := some key }
      | (.denied, _, _, s) => s.stopQueue k
      | (_, _, _, s) => s
def execLaunchValidate (queue : Nat) (s : State) : Out := event (launchValidate queue) s

/-! ### Acceptance (R64, R65, R72) -/

/-- Contexts of a partition that no launch carries. -/
def State.freeCtx (s : State) (part : Nat) : List Nat :=
  let used := s.launches.keys
  (List.range 2047).filter fun c => !used.contains (part * 2048 + c + 1)

/-- An accepted launch belongs to the running instance of its phase, which it may begin (R72). -/
def State.joinPhase (s : State) (part : Nat) (r : LaunchRec) : State :=
  let mine (x : PhaseRun) : Bool := x.part == part && x.phase == r.phase
  if r.phase = 0 then s
  else if s.phaseRuns.any mine then
    { s with phaseRuns := s.phaseRuns.map fun x => if mine x then { x with nvar := max x.nvar r.nvar } else x }
  else { s with phaseRuns := s.phaseRuns ++ [{ part, phase := r.phase, start := s.now, nvar := r.nvar }] }

/-- A phased launch uses its phase's selector entry; the least recently used of 256 entries is replaced (R72). -/
def State.enterPhase (s : State) (part : Nat) (r : LaunchRec) : State :=
  let s := s.joinPhase part r
  if r.phase = 0 ∨ !r.phased then s
  else
    let mine (e : Selector) : Bool := e.part == part && e.phase == r.phase
    let base : List Selector :=
      if s.selectors.any mine then s.selectors
      else
        let keep := if s.selectors.length < 256 then s.selectors
          else
            let old := s.selectors.foldl (fun m e => min m e.used) s.now
            match s.selectors.find? fun e => e.used == old with
            | some v => s.selectors.filter (· != v)
            | none => s.selectors
        keep ++ [{ part, phase := r.phase }]
    { s with selectors := base.map fun e => if mine e then { e with used := s.now } else e }

/-- The variant that a launch uses; 0 before a boundary has chosen one. -/
def State.variantOf (s : State) (part : Nat) (r : LaunchRec) : Nat :=
  if !r.phased ∨ r.phase = 0 then 0
  else match s.selectors.find? fun e => e.part == part && e.phase == r.phase with
    | some e => if e.chosen < r.nvar then e.chosen else 0
    | none => 0

/-- The dependence condition of a record: eligible, or not, or what it meets (R64). -/
inductive Eligible where
  | yes | no | denied | poisoned
  | wait (key : Nat)
  deriving DecidableEq, Repr
def State.eligible (s : State) (w : Who) (r : LaunchRec) (denied : Option Nat) : Eligible × State :=
  if r.dep = 0 then (.yes, s)
  else match s.schedLook w r.dep.toNat .load 0 denied with
  | (.denied, s) => (.denied, s)
  | (.wait k, s) => (.wait k, s)
  | (.ok _, s) =>
    match s.blockRead w r.dep.toNat 8 0 with
    | (.ok _, v, poison, s) => (if poison then .poisoned else if v ≤ r.thresh.toNat then .yes else .no, s)
    | (_, _, _, s) => (.no, s)

/-- Accept the record at HEAD at one milestone (R65). -/
def State.accept (s : State) (k part asid cid : Nat) (r : LaunchRec) : State :=
  let s := s.setMs 163 (s.msOf 163 + 1)
  let s := s.enterPhase part r
  let variant := s.variantOf part r
  let l : Launch :=
    { part, asid, r, order := s.nextOrder, acceptMs := s.msOf 163, variant, arrivals := if r.coll then r.nchunk else 0 }
  let s := { s with launches := Tbl.ins s.launches cid l, nextOrder := s.nextOrder + 1 }
  let s := s.modPart part fun p => { p with interval := p.interval + 1 }
  let s := s.schedStore part asid cid r.launchCnt (BitVec.ofNat 64 r.total)
  let var := if r.nvar = 0 then 0 else variant
  let s := if r.status = 0 then s else s.schedStore part asid cid r.status (statusWord cid var 0 false false false)
  s.nextRecord k

/-- LAUNCH_ACCEPT: the validated record at HEAD, once eligible. It waits while a page that it writes is absent. -/
def launchAccept (k : Nat) (s : State) : State :=
  let q := s.queue k
  if !q.en ∨ !q.valid ∨ q.hold.isSome ∨ !s.partRuns q.owner then s
  else
    let part := q.owner
    let asid := part * 2048 + q.space
    let w := schedWho part asid
    let r := q.head_
    match s.eligible w r q.denied with
    | (.no, s) => s
    | (.denied, s) => s.refuse k part asid r 7
    | (.poisoned, s) => ((s.stopQueue k).meet 163).report part 1 0x08 (part * 2048) 0 0 0 0 9
    | (.wait key, s) => s.modQueue k fun q => { q with hold := some key }
    | (.yes, s) =>
      let look (acc : Option Nat × State) (a : Dword) : Option Nat × State :=
        match acc with
        | (some key, s) => (some key, s)
        | (none, s) => match s.schedLook w a.toNat .store 1 q.denied with
          | (.wait key, s) => (some key, s)
          | (_, s) => (none, s)
      match ([r.launchCnt, r.status].filter (· != 0)).foldl look (none, s) with
      | (some key, s) => s.modQueue k fun q => { q with hold := some key }
      | (none, s) =>
        match s.freeCtx part with
        | [] => s
        | c :: _ => s.accept k part asid (part * 2048 + c + 1) r
def execLaunchAccept (queue : Nat) (s : State) : Out := event (launchAccept queue) s

/-! ### Placing (R68, R76, R78) -/

/-- A core serves a partition now: its fixed core, or a pool's in the partition's turn, with no stop under way. -/
def State.serves (s : State) (core part : Nat) : Bool :=
  let p := s.part part
  s.partRuns part && p.cores.getLsbD core &&
    (!p.pooled || s.pools.any fun t => t.cores == p.cores && t.holder == part) &&
    !s.stops.any fun r => r.reqs.any fun q => q.2.getLsbD core && (q.1 != .debug || r.part == part)
/-- The partition that a core serves now. -/
def State.servedBy (s : State) (core : Nat) : Option Nat := s.parts.keys.find? fun p => s.serves core p
/-- A clock in which no core serves a partition does not count for its running instances (R52, R72). -/
def State.pauseSelectors (s : State) : State :=
  { s with phaseRuns := s.phaseRuns.map fun e =>
      if (List.range 32).any fun c => s.serves c e.part then e else { e with start := e.start + 1 } }

/-- A unit of a launch by its linear index, not yet placed. -/
def unitRecOf (cid : Nat) (l : Launch) (linear : Nat) : UnitRec :=
  let r := l.r
  { core := 0, part := l.part, cid, asid := l.asid, linear, x := linear % r.gx, y := linear / r.gx % r.gy
    z := linear / (r.gx * r.gy), res := r.res, tileBase := 0, barBase := 0, windows := r.windows, groups := []
    reduce := r.coll && linear == r.gridUnits }
/-- Place a unit of a launch on a core, after what the scheduler and the collective engine have done (R65, R346). -/
def State.placeLinear (s : State) (core cid : Nat) (l : Launch) (linear : Nat) : Option State :=
  let u := unitRecOf cid l linear
  (s.placeUnit core u (if u.reduce then l.r.reducePc else l.r.entry) l.r.param).map fun s =>
    let s := s.atLeastMs core (s.msOf 163)
    let s := if u.reduce then s.atLeastMs core (s.msOf 162) else s
    { s with boot := { s.boot with idle := setBit s.boot.idle core false } }

/-- Saved units of a partition that may be placed, oldest first. -/
def State.savedOf (s : State) (part : Nat) : List SavedUnit :=
  s.saved.filter fun x => x.unit.part == part && s.placeable x
/-- A halted launch's units stay where they are (R427). -/
def State.haltedCid (s : State) (cid : Nat) : Bool := (s.launches.find? cid).any Launch.halted
/-- Entries of a partition in a core's unit queue that may move on, in order. -/
def State.queueOf (s : State) (core part : Nat) : List QEntry :=
  (s.coreRec core).queue.filter fun q => q.cid / 2048 == part && !s.haltedCid q.cid

/-- UNIT_PLACE: a saved unit first, then the head of the core's unit queue (R70, R76). -/
def unitPlace (core : Nat) (s : State) : State :=
  match s.servedBy core with
  | none => s
  | some part =>
    match s.savedOf part with
    | x :: xs => ((x :: xs).findSome? fun x => s.restoreUnit x core).getD s
    | [] =>
      match s.queueOf core part with
      | [] => s
      | q :: _ =>
        let s' := s.modCore core fun c => { c with queue := c.queue.filter (· != q) }
        match s.launches.find? q.cid with
        | none => s'
        | some l => (s'.placeLinear core q.cid l q.linear).getD s
def execUnitPlace (core : Nat) (s : State) : Out := event (unitPlace core) s

/-! ### Dealing (R67, R69, R70) -/

/-- The next unit of a launch to deal: ascending linear index, cancelled ones passed over; then the reduce unit when its
time has come (R61, R67). -/
def Launch.next (l : Launch) : Option Nat :=
  if l.complete ∨ l.halted then none
  else match (List.range (l.skip.length + 1)).find? fun i => !l.skip.contains (l.dealt + i) with
    | none => none
    | some i =>
      let n := l.dealt + i
      if n < l.r.gridUnits then some n
      else if n = l.r.gridUnits && l.r.coll && l.reduced && l.r.reducePc != 0 && !l.collfail then some n
      else none

/-- Cores that a variant gives a launch; all of the partition's where it gives none (R60, R69). -/
def State.shareSet (s : State) (l : Launch) : List Nat :=
  let cs := bitsOf (s.part l.part).cores
  let c := cs.length
  match if l.r.nvar = 0 then none else l.r.vars[l.variant]? with
  | none => cs
  | some (first, share) =>
    let set := (List.range c).filterMap fun i =>
      if first ≤ 32 * i / c ∧ 32 * i / c < first + share then cs[i]? else none
    if set.isEmpty then cs else set

/-- A core can take a new unit of a partition now: no saved unit goes before it. -/
def State.takesNew (s : State) (core part : Nat) : Bool := s.serves core part && (s.savedOf part).isEmpty
/-- Depth of a core's unit queue for a partition. -/
def State.depth (s : State) (core part : Nat) : Nat := ((s.coreRec core).queue.filter fun q => q.cid / 2048 == part).length

/-- Where a unit can be dealt. -/
inductive Deal where
  | place (s : State)
  | queue (core : Nat)

/-- How the next unit of a launch is dealt, if it can be now. -/
def State.dealTo (s : State) (cid : Nat) (l : Launch) (n : Nat) : Option Deal :=
  let p := s.part l.part
  let cs := bitsOf p.cores
  if !s.partRuns l.part then none
  else if n = l.r.gridUnits then
    -- the reduce unit goes onto any idle core
    let idle := cs.filter fun c => s.takesNew c l.part && (s.unitsOn c).isEmpty && s.depth c l.part == 0
    match idle with
    | [] => none
    | c :: rest =>
      let (k, s) := s.pickOf (rest.length + 1)
      (s.placeLinear ((c :: rest).getD k c) cid l n).map .place
  else if l.r.phased then
    (s.shareSet l).findSome? fun c =>
      if s.takesNew c l.part then (s.placeLinear c cid l n).map .place else none
  else
    let order := cs.filter (fun c => decide (p.dealPos ≤ c)) ++ cs.filter fun c => decide (c < p.dealPos)
    (order.find? fun c => decide (0 < s.queueRoom c)).map .queue

/-- The oldest launch of a priority and partition with a dealable unit. -/
def State.dealable (s : State) (prio part : Nat) : Option (Nat × Launch × Nat × Deal) :=
  let ls := s.launches.filter fun e => e.2.part == part && e.2.r.prio == prio
  let sorted := ls.foldl (fun acc e =>
    (acc.filter fun (x : Nat × Launch) => decide (x.2.order < e.2.order)) ++ e ::
      acc.filter fun (x : Nat × Launch) => decide (e.2.order < x.2.order)) []
  sorted.findSome? fun e => match e.2.next with
    | none => none
    | some n => (s.dealTo e.1 e.2 n).map fun d => (e.1, e.2, n, d)

/-- Perform a deal. -/
def State.deal (s : State) (cid : Nat) (l : Launch) (n : Nat) (d : Deal) : State :=
  let mark (s : State) : State := s.modLaunch cid fun x => { x with dealt := n + 1, skip := x.skip.filter fun i => decide (n < i) }
  match d with
  | .place s' => mark s'
  | .queue c =>
    let e : QEntry := { cid, linear := n, prio := l.r.prio, order := s.nextOrder }
    let s := s.modCore c fun r => { r with queue := insertEntry r.queue e }
    mark ({ s with nextOrder := s.nextOrder + 1 }.modPart l.part fun p => { p with dealPos := c + 1 })

/-- Key of a (priority, partition) pair. -/
def deficitKey (prio part : Nat) : Nat := prio * 32 + part

/-- A pair without a dealable unit loses its deficit, whenever that is so (R67). -/
def State.resetDeficits (s : State) : State :=
  { s with deficits := s.deficits.filter fun e => (s.dealable (e.1 / 32) (e.1 % 32)).isSome }

/-- UNIT_DEAL: the highest priority with a dealable unit; deficit round robin over its partitions (R67). -/
def unitDeal (s : State) : State :=
  let parts := s.parts.keys
  let open_ (prio : Nat) : List Nat := parts.filter fun p => (s.dealable prio p).isSome
  let s := s.resetDeficits
  match ([7, 6, 5, 4, 3, 2, 1, 0] : List Nat).find? fun prio => !(open_ prio).isEmpty with
  | none => s
  | some prio =>
    let ps := open_ prio
    let cost (p : Nat) : Nat := match s.dealable prio p with
      | some (_, l, _, _) => l.r.res.threads * l.r.res.groups
      | none => 0
    let d (p : Nat) : Nat := s.deficits.get 0 (deficitKey prio p)
    let stay := match Tbl.find? s.visits prio with
      | some p => if ps.contains p ∧ cost p ≤ d p then some p else none
      | none => none
    let (p, have_) := match stay with
      | some p => (p, d p)
      | none =>
        let next := match Tbl.find? s.visits prio with
          | some v => (ps.find? fun p => decide (v < p)).getD (ps.headD 0)
          | none => ps.headD 0
        (next, d next + 1024 * (s.part next).weight)
    let s := { s with
      visits := Tbl.ins s.visits prio p, deficits := Tbl.put 0 s.deficits (deficitKey prio p) (have_ - cost p) }
    match s.dealable prio p with
    | some (cid, l, n, t) => s.deal cid l n t
    | none => s
def execUnitDeal (s : State) : Out := event unitDeal s

/-! ### Balancing (R71) -/

/-- BALANCE_EXCHANGE: all moves are computed from the sampled depths, then applied together. -/
def balanceExchange (part : Nat) (s : State) : State :=
  let p := s.part part
  let cs := bitsOf p.cores
  let n := cs.length
  let at_ (i : Nat) : Nat := cs.getD (i % n) 0
  let moveOf (i : Nat) : List QEntry :=
    let a := s.depth (at_ i) part
    let b := s.depth (at_ (i + 1)) part
    if p.bal < a - b then
      let mine := (s.coreRec (at_ i)).queue.filter fun q => q.cid / 2048 == part
      let byAge := mine.foldl (fun acc e =>
        (acc.filter fun (x : QEntry) => decide (e.order < x.order)) ++ e ::
          acc.filter fun (x : QEntry) => decide (x.order < e.order)) []
      byAge.take (min 16 ((a - b) / 2))
    else []
  let moves := (List.range n).map fun i => (at_ i, at_ (i + 1), moveOf i)
  let leave (s : State) (m : Nat × Nat × List QEntry) : State :=
    s.modCore m.1 fun c => { c with queue := c.queue.filter fun q => !m.2.2.contains q }
  -- entries for which another partition's leave no room stay on their core
  let join (s : State) (m : Nat × Nat × List QEntry) : State :=
    let take := m.2.2.take (s.queueRoom m.2.1)
    let s := s.modCore m.2.1 fun c => { c with queue := take.foldl insertEntry c.queue }
    let s := s.modCore m.1 fun c => { c with queue := (m.2.2.drop take.length).foldl insertEntry c.queue }
    if take.isEmpty then s else { s with boot := { s.boot with idle := setBit s.boot.idle m.2.1 false } }
  if n < 2 then s else moves.foldl join (moves.foldl leave s)
def execBalanceExchange (part : Nat) (s : State) : Out := event (balanceExchange part) s

/-! ### Completion (R66) -/

/-- A member of a cancelled instance has performed its completion accesses: after the last member's, the instance's
enclosing level counts one (R30). -/
def State.endInstance (s : State) (cid : Nat) (l : Launch) : State :=
  match l.closing with
  | none => s
  | some (lvl, serial) =>
    if s.launches.any fun e => e.2.closing == some (lvl, serial) then s
    else match l.r.enclosing (lvl - 1) with
      | some e => s.countDown l cid 4 e
      | none => s

/-- LAUNCH_COMPLETION: the status word, the edges, and the enclosing counter, in order; nothing of it while a page that it
writes is absent. Units that have not completed, when software has lowered the counter (R29), stop here, and those not yet
dealt never are. -/
def launchCompletion (cid : Nat) (s : State) : State :=
  match s.launches.find? cid with
  | none => s
  | some l =>
    if !l.complete ∨ s.due.any (fun d => d.cid == cid) then s
    else
      let w := schedWho l.part l.asid cid
      let levels := ([1, 2, 3].map l.r.counter).filter (· != 0)
      let words := ([l.r.status, l.r.edge0, l.r.edge1].filter (· != 0)) ++ levels
      let look (acc : Bool × State) (a : Dword) : Bool × State :=
        match acc.2.schedLook w a.toNat .store 1 none with
        | (.wait _, s) => (true, s)
        | (_, s) => (acc.1, s)
      match words.foldl look (false, s) with
      | (true, s) => s
      | (false, s) =>
        let s := s.removeUnits cid
        let var := if l.r.nvar = 0 then 0 else l.variant
        let s := s.setMs 163 (s.msOf 163 + 1)
        let s := if l.r.status = 0 then s
          else s.schedStore l.part l.asid cid l.r.status (statusWord cid var 0 l.collfail l.cancelled true)
        let s := ([l.r.edge0, l.r.edge1].filter (· != 0)).foldl (fun s a => (s.subtract l.part l.asid cid a).2) s
        let s := if l.uncounted then s
          else match l.r.enclosing 0 with
          | some e => s.countDown l cid 4 e
          | none => s
        ({ s with launches := Tbl.del s.launches cid } : State).endInstance cid l
def execLaunchCompletion (cid : Nat) (s : State) : Out := event (launchCompletion cid) s

/-! ### Milestones (R132), and idle cores (R398) -/

/-- MILESTONE_SYNC: every source reaches at least the largest milestone of the previous such instant. -/
def milestoneSync (s : State) : State :=
  let top := s.ms.foldl (fun m e => max m e.2) 0
  { (List.range 171).foldl (fun s k => s.atLeastMs k s.msSync) s with msSync := top }
def execMilestoneSync (s : State) : Out := event milestoneSync s
/-- MILESTONE_ADVANCE: a source's milestone rises by 1. -/
def milestoneAdvance (source : Nat) (s : State) : State :=
  if source ≤ 170 then s.setMs source (s.msOf source + 1) else s
def execMilestoneAdvance (source : Nat) (s : State) : Out := event (milestoneAdvance source) s

/-- A compute core has no placed unit, and no engine command. -/
def State.coreQuiet (s : State) (core : Nat) : Bool :=
  (s.unitsOn core).isEmpty && !s.cmds.any fun c => c.2.engine == 32 + core
/-- Note since when cores are quiet. -/
def State.noteQuiet (s : State) : State :=
  let busy := s.units.map (fun e => e.2.core) ++ s.cmds.filterMap fun c =>
    if 32 ≤ c.2.engine ∧ c.2.engine < 64 then some (c.2.engine - 32) else none
  busy.eraseDups.foldl (fun s c => s.modCore c fun r => { r with idleSince := s.now }) s
/-- CORE_IDLE_ENTRY: a core that has been quiet for 4,096 clocks gates its clock. -/
def coreIdleEntry (core : Nat) (s : State) : State :=
  if core < 32 ∧ s.coreQuiet core ∧ (s.coreRec core).idleSince + 4096 ≤ s.now then
    { s with boot := { s.boot with idle := setBit s.boot.idle core true } }
  else s
def execCoreIdleEntry (core : Nat) (s : State) : Out := event (coreIdleEntry core) s

end Sys2Proof.Machine
end

