-- ==== Sys2Proof/Machine/Fabric.lean ====
section
/-!
DEFINITION. The fabric: PUTs and reads from other packages, remote lines, transport contexts and ports (R139, R145, R348 to
R350, R471 to R473), and the collective engine (R344 to R347, R474).
-/
namespace Sys2Proof.Machine

/-! ### The collective engine (R345 to R347, R474) -/

/-- Units of a chunk of a launch. -/
def LaunchRec.chunkUnits (r : LaunchRec) (c : Nat) : Nat :=
  min r.gridUnits ((c + 1) * 2 ^ r.shift) - c * 2 ^ r.shift

/-- One element combined with another (R345): format by tag code, operation 0 sum, 1 maximum, 2 minimum. -/
def combineElem (fmt op : Nat) (a b : Nat) : Nat :=
  let flt (F : Fmt) : Nat :=
    if op = 0 then roundRne ((F.value a).add false (F.value b)) F else pickMinMax F (op == 1) a b
  match fmt with
  | 1 => flt fFP32
  | 2 => flt fBF16
  | 3 => flt fFP16
  | _ =>
    let x := (BitVec.ofNat 32 a).toInt
    let y := (BitVec.ofNat 32 b).toInt
    if op = 0 then (a + b) % 2 ^ 32
    else if op = 1 then (if x < y then b else a) else if y < x then b else a
/-- One sector combined with another; poison travels. The sum is no copy, and keeps the first side word. -/
def combineSector (collop : BitVec 16) (x y : SectorLit) : SectorLit :=
  let fmt := collFormat collop
  let op := (collop.extractLsb' 0 4).toNat
  let w := if fmt = 2 ∨ fmt = 3 then 16 else 32
  let elem (k : Nat) : Nat :=
    combineElem fmt op (x.data.toNat / 2 ^ (w * k) % 2 ^ w) (y.data.toNat / 2 ^ (w * k) % 2 ^ w)
  let data := (List.range (256 / w)).foldr (fun k acc => elem k + 2 ^ w * acc) 0
  { data := BitVec.ofNat 256 data, side := x.side, poison := x.poison || y.poison }
/-- A chunk: its units' tiles combined in ascending linear index. -/
def combineAll (collop : BitVec 16) : List Contribution → List SectorLit
  | [] => []
  | c :: r => r.foldl (fun acc x => (acc.zip x.data).map fun e => combineSector collop e.1 e.2) c.data

/-- Contributions in ascending linear index. -/
def sortContrib (l : List Contribution) : List Contribution :=
  l.foldl (fun acc e =>
    (acc.filter fun (x : Contribution) => decide (x.linear < e.linear)) ++ e ::
      acc.filter fun (x : Contribution) => decide (e.linear < x.linear)) []

/-- The chunk of a unit whose tile has been read fires when it is the chunk's last; one with a failed contribution is
fired as one, and the collective fails (R345, R474). -/
def State.tryFire (s : State) (cid c : Nat) : State :=
  match s.launches.find? cid with
  | none => s
  | some l =>
    let mine (x : Contribution) : Bool := x.linear / 2 ^ l.r.shift == c
    let xs := sortContrib (l.contributions.filter mine)
    let failed := xs.any Contribution.failed
    if xs.length < l.r.chunkUnits c then s
    else
      let data := if failed then [] else combineAll l.r.collop xs
      let s := (s.send (.chunk l.part cid c l.r.tree (collFormat l.r.collop) failed data)).modLaunch cid fun x => { x with
        contributions := x.contributions.filter fun y => !mine y, fired := Tbl.ins x.fired c data }
      if failed then s.collFail cid else s

/-- CHUNK_FIRE: the result tile of a unit that has exited is read, and its tile store released (R345). -/
def chunkFire (uid : Nat) (s : State) : State :=
  match s.units.find? uid with
  | none => s
  | some u =>
    match s.launches.find? u.cid with
    | none => s
    | some l =>
      let e := u.tile l.r.restile
      let bytes := tileSize e * 4096
      if !u.groups.isEmpty ∨ !l.r.coll ∨ l.complete ∨ l.collfail ∨ tileState e = tileFILLING then s
      else
        let failed := tileState e != tileREADY || bytes == 0 || decide (2 ^ 20 < bytes) ||
          (l.chunkBytes != 0 && l.chunkBytes != bytes)
        let lo := tileAddr u.core (u.tileRange l.r.restile).1
        let data := if failed then [] else (List.range (bytes / 32)).map fun i => s.mem.sector (lo + 32 * i)
        let s := s.atLeastMs 162 (s.msOf u.core + 1)
        let s := (s.dropUnit uid).modLaunch u.cid fun x => { x with
          chunkBytes := if failed then x.chunkBytes else bytes
          contributions := x.contributions ++ [{ linear := u.linear, failed, data }] }
        s.tryFire u.cid (u.linear / 2 ^ l.r.shift)
def execChunkFire (unit : Nat) (s : State) : Out := event (chunkFire unit) s

/-- The last chunk has arrived: the reduce unit may be dealt, or LAUNCH_CNT goes down in its place (R61, R346). -/
def State.lastArrival (s : State) (cid : Nat) (l : Launch) : State :=
  let s := s.modLaunch cid fun x => { x with reduced := true }
  if l.r.reducePc = 0 then s.countUnit cid else s

/-- Write a chunk that has come from the tree, as one write of source 162 (R346), unless the launch has been cancelled or its
collective has failed meanwhile (R347, R474). It waits for a page that is not present; what a denied page does with it the manual
does not say: it is not written. -/
def State.deliver (s : State) (cid c : Nat) : State :=
  match s.launches.find? cid with
  | none => s
  | some l =>
    if l.complete ∨ l.collfail then s
    else match l.inbox.find? c, (s.part l.part).trees.find? fun t => t.id == l.r.tree with
    | some data, some t =>
      let w : Who := { source := 162, part := l.part, asid := l.part * 2048 + t.space, priv := false, cid }
      let va := t.rb + c * l.chunkBytes
      let secs := (List.range (l.chunkBytes / 32)).map fun i => data.getD i zeroLit
      let done (s : State) : State :=
        let s := s.modLaunch cid fun x => { x with
          inbox := Tbl.del x.inbox c, arrived := Tbl.ins x.arrived c (), arrivals := x.arrivals - 1 }
        if l.arrivals ≤ 1 then s.lastArrival cid l else s
      match s.blockPlaces w .store va l.chunkBytes with
      | (.ok ps, s) =>
        let s := s.setMs 162 (s.msOf 162 + 1)
        done (s.performWrites 162 ps (sectorWrites ((List.range secs.length).map fun i => va + 32 * i) secs))
      | (.denied, s) => done s
      | (.absent a r, s) => s.postFault w a 3 r
      | (.wait _, s) => s
    | _, _ => s

/-- CHUNK_ARRIVAL: a reduced chunk comes from the tree, which every replica has then fired (R346); after a cancel or a
failure it is discarded (R347, R474). One without data is the notice that some replica has fired a failed contribution,
and the collective fails (R345). -/
def chunkArrival (cid c : Nat) (data : List SectorLit) (s : State) : State :=
  match s.launches.find? cid with
  | none => s
  | some l =>
    if !l.r.coll ∨ l.complete ∨ l.collfail ∨ l.r.nchunk ≤ c then s
    else if data.isEmpty then s.collFail cid
    else if (Tbl.find? l.fired c).isNone ∨ (Tbl.find? l.arrived c).isSome ∨
        (Tbl.find? l.inbox c).isSome then s
    else (s.modLaunch cid fun x => { x with inbox := Tbl.ins x.inbox c data }).deliver cid c
def execChunkArrival (cid chunk : Nat) (data : List SectorLit) (s : State) : Out := event (chunkArrival cid chunk data) s

/-- The collectives bound to a tree of some partitions fail. -/
def State.failTree (s : State) (tree : Word) (part : Nat → Bool) : State :=
  let bound (l : Launch) : Bool := l.r.coll && l.r.tree == tree && part l.part
  (s.launches.filter fun e => bound e.2).foldl (fun s e => s.collFail e.1) s

/-- Change every partition. -/
def State.mapParts (s : State) (f : Part → Part) : State := { s with parts := s.parts.map fun e => (e.1, f e.2) }

/-- TREE_REVOKE: no partition holds the tree any more, and its bound collectives fail (R474). -/
def treeRevoke (tree : Nat) (s : State) : State :=
  let id : Word := BitVec.ofNat 32 tree
  (s.failTree id fun _ => true).mapParts fun p => { p with trees := p.trees.filter fun t => t.id != id }
def execTreeRevoke (tree : Nat) (s : State) : Out := event (treeRevoke tree) s

/-! ### Accesses of other packages (R139, R348, R349) -/

/-- LLC keys that a frame's line is known under: pages whose cached translation names the frame. -/
def State.keysAt (s : State) (part home frame off : Nat) : List Nat :=
  s.tlb.filterMap fun e =>
    let tag := e.1 / 2 ^ 44
    if (tagOfPart part tag || (part == 0 && tag == 65536)) ∧ e.2.home = home ∧ e.2.frame = frame then
      some (tag * 2 ^ 53 + (e.1 % 2 ^ 44 * 65536 + off) / 128)
    else none
/-- The side words of a frame are stored: the mode of the page that owns it, or of one known to name it (R97). -/
def State.frameSwm (s : State) (part home frame phys : Nat) : Bool :=
  match s.owners.find? (ownerKey home phys) with
  | some (.owned asid page) => match s.walk asid part (page * 65536) with
    | .leaf pte at_ => (xlateOf pte at_).swm
    | _ => true
  | _ =>
    let names (e : Nat × Xlate) : Bool :=
      (tagOfPart part (e.1 / 2 ^ 44) || (part == 0 && e.1 / 2 ^ 44 == 65536)) && e.2.home == home && e.2.frame == frame
    match List.find? names s.tlb with
    | some e => e.2.swm
    | none => true
/-- A frame of a partition that another package may reach: one that exists, outside the KV pool. -/
def State.remoteFrame (s : State) (part home frame off : Nat) : Option Nat :=
  let p := s.part part
  if p.present && !p.resetting && !s.kvFrame part home frame && decide (home < 2) && decide (off < 65536) then
    (s.frameAddr part home frame).map (· + off)
  else none

/-- FABRIC_INGRESS_PUT: whole sectors, at source 170, with an acknowledgement once they are performed (R139). A page whose
side words are not stored discards theirs (R98). -/
def fabricIngressPut (part home frame off : Nat) (data : List SectorLit) (s : State) : State :=
  match s.remoteFrame part home frame (off / 32 * 32) with
  | none => s
  | some a =>
    let n := min data.length ((65536 - off / 32 * 32) / 32)
    let swm := s.frameSwm part home frame a
    let lines := (List.range ((off % 128 / 32 * 32 + 32 * n + 127) / 128)).map fun i => 128 * i
    let s := (s.setMs 170 (s.msOf 170 + 1)).leaseStore 170 (lines.map fun i => a / 128 + i / 128)
    let put (m : Mem) (e : Nat × SectorLit) : Mem :=
      m.setSector (a + 32 * e.1) (if swm then e.2 else { e.2 with side := 0 })
    let keys := lines.flatMap fun i => s.keysAt part home frame (off / 128 * 128 + i)
    let touch (s : State) (k : Nat) : State :=
      { s with lines := Tbl.adjust s.lines k fun l => { l with dirty := true }, shadow := s.shadow.filter fun x => x.1 / 4 != k }
    let s := keys.foldl touch { s.frameDead 170 part (part * 2048) home frame with mem := ((List.range n).zip data).foldl put s.mem }
    (s.wakeWaiters (s.msOf 170)).send (.ack part (part * 2048) home frame off)
def execFabricIngressPut (part home frame offset : Nat) (data : List SectorLit) (s : State) : Out :=
  event (fabricIngressPut part home frame offset data) s

/-- REMOTE_READ_SERVE: a line is read for another package in this package's order, and goes back with its side words and
poison bits (R349). -/
def remoteReadServe (part home frame off : Nat) (s : State) : State :=
  let off := off / 128 * 128
  match s.remoteFrame part home frame off with
  | none => s
  | some a =>
    let s := ((s.setMs 170 (s.msOf 170 + 1)).leaseLoad 170 [a / 128]).frameDead 170 part (part * 2048) home frame
    let swm := s.frameSwm part home frame a
    s.send (.line part (part * 2048) home frame off ((s.mem.line a).map fun v => if swm then v else { v with side := 0 }))
def execRemoteReadServe (part home frame offset : Nat) (s : State) : Out :=
  event (remoteReadServe part home frame offset) s

/-- GSUM_LINE_REQUEST: this replica's line of a replicated region is read as it stands, as a load of source 170, and goes
into the tree (R348). While its page is absent nothing is sent. -/
def gsumLineRequest (part tree off : Nat) (s : State) : State :=
  match (s.part part).trees.find? fun t => t.id == BitVec.ofNat 32 tree with
  | none => s
  | some t =>
    let va := (t.gb + off) / 128 * 128
    let w : Who := { source := 170, part, asid := part * 2048 + t.space, priv := true, cid := part * 2048 }
    if t.gs ≤ off then s
    else match (s.setMs 170 (s.msOf 170 + 1)).blockPlaces w .load va 128 with
    | (.ok ps, s) =>
      let s := s.leaseLoad 170 (leaseLines ps)
      s.send (.gsum part (part * 2048) tree off (ps.flatMap fun p => s.lineAt p.2))
    | (.absent a r, s) => s.postFault w a 0 r
    | (_, s) => s
def execGsumLineRequest (part tree offset : Nat) (s : State) : Out := event (gsumLineRequest part tree offset) s

/-! ### Remote lines (R96, R145) -/

/-- Key under which the line of a request is kept. -/
def RemoteReq.lineKey (r : RemoteReq) : Nat :=
  if r.gsum then 2 ^ 52 * (1 + r.tree.toNat * 2 ^ 57 + r.frame) + r.part * 2 ^ 45
  else (r.part * 2 ^ 36 + r.frame) * 512 + r.offset / 128

/-- Threads that wait for a request receive a line. -/
def State.giveLine (s : State) (q : Nat) (r : RemoteReq) (data : List SectorLit) : State :=
  let give (e : Tid × Thread) : Tid × Thread :=
    if e.2.wait = .remote q then (e.1, { e.2.wake s.now with reply := some { key := r.lineKey, data } }) else e
  { s with threads := s.threads.map give }

/-- REMOTE_LINE_RETURN: the line fills the fabric cache, or goes to the command that reads it. -/
def remoteLineReturn (q : Nat) (data : List SectorLit) (s : State) : State :=
  match s.reqs.find? q with
  | none => s
  | some r =>
    let line := (List.range 4).map fun i => data.getD i zeroLit
    let s := { s with reqs := Tbl.del s.reqs q }
    match r.cmd with
    | some k => s.modCmd k fun c => { c with
        lines := Tbl.ins c.lines r.lineKey line, waiting := if c.waiting = some (reqKey q) then none else c.waiting }
    | none =>
      let s := s.keepRemote r.lineKey { data := line, cid := r.cid }
      let free (x : Queue) : Queue := if x.hold = some (reqKey q) then { x with hold := none } else x
      { s with queues := s.queues.mapVals free }.giveLine q r line
def execRemoteLineReturn (request : Nat) (data : List SectorLit) (s : State) : Out := event (remoteLineReturn request data) s

/-! ### Failures (R471, R472, R474) -/

/-- Fail one line request: poisoned sectors for a thread, REMOTE for a command; the line is not kept (R471). -/
def State.failReq (s : State) (q : Nat) (r : RemoteReq) : State :=
  let s := { s with reqs := Tbl.del s.reqs q }
  match r.cmd with
  | some k => (s.endCmd k stREMOTE).reportLink 170 r.part r.cid 1
  | none =>
    let free (x : Queue) : Queue := if x.hold = some (reqKey q) then { x with hold := none } else x
    ({ s with queues := s.queues.mapVals free }.giveLine q r lostLine).reportLink 170 r.part r.cid 1
/-- Fail a PUT (R471). -/
def State.failPut (s : State) (k : Nat) (c : Cmd) : State :=
  ((s.modCmd k fun c => { c with unacked := false }).endCmd k stREMOTE).reportLink c.engine c.part c.cid 1

/-- A transport context closes: its requests fail, and the collectives whose tree has the package (R472, R474). -/
def State.closeContext (s : State) (part pkg : Nat) : State :=
  if Tbl.find? (s.part part).closed pkg = some false then s
  else
    let s := (s.modPart part fun p => { p with closed := Tbl.ins p.closed pkg false }).reportLink 170 part (part * 2048) 0
    let s := (s.reqs.filter fun e => e.2.part == part && !e.2.gsum && e.2.pkg == pkg).foldl (fun s e => s.failReq e.1 e.2) s
    let puts := s.cmds.filter fun (e : Nat × Cmd) => e.2.part == part && e.2.unacked && e.2.pkgs.contains pkg
    let s := puts.foldl (fun s e => s.failPut e.1 e.2) s
    let hit := (s.part part).trees.filter fun t => Config.treeMember t.id.toNat pkg
    hit.foldl (fun s t => s.failTree t.id fun p => p == part) s

/-- 100 ms in femtoseconds. -/
def timeoutFs : Nat := 100 * msFs

/-- REMOTE_REQUEST_TIMEOUT: 100 ms without an acknowledgement. Requests from 2^91 on are the PUTs of commands (R471). -/
def remoteRequestTimeout (q : Nat) (s : State) : State :=
  if 2 ^ 91 ≤ q then
    match s.cmds.find? (q - 2 ^ 91) with
    | none => s
    | some c =>
      if c.unacked ∧ c.sentAt + timeoutFs ≤ s.rt then
        c.pkgs.eraseDups.foldl (fun s p => s.closeContext c.part p) (s.failPut (q - 2 ^ 91) c)
      else s
  else match s.reqs.find? q with
  | none => s
  | some r =>
    if s.rt < r.sentAt + timeoutFs then s
    else if r.gsum then s.failReq q r
    else (s.failReq q r).closeContext r.part r.pkg
def execRemoteRequestTimeout (request : Nat) (s : State) : Out := event (remoteRequestTimeout request) s

/-- TRANSPORT_CLOSE_NOTICE (R472). -/
def transportCloseNotice (part pkg : Nat) (s : State) : State :=
  if (s.part part).present ∧ pkg ≤ 143 then s.closeContext part pkg else s
def execTransportCloseNotice (part pkg : Nat) (s : State) : Out := event (transportCloseNotice part pkg) s

/-- TRANSPORT_PROBE: a closed context may reopen once its peer has answered (R472). -/
def transportProbe (part pkg : Nat) (answered : Bool) (s : State) : State :=
  if answered ∧ (Tbl.find? (s.part part).closed pkg).isSome then
    s.modPart part fun p => { p with closed := Tbl.ins p.closed pkg true }
  else s
def execTransportProbe (part pkg : Nat) (answered : Bool) (s : State) : Out := event (transportProbe part pkg answered) s

/-- PORT_FAILURE: the lane's port of four lanes leaves service; packets go over the others (R415, R471). -/
def portFailure (lane : Nat) (s : State) : State :=
  if lane < 32 then
    let port := lane / 4
    let down := (List.range 4).foldl (fun b i => setBit b (4 * port + i) true) s.boot.laneDown
    { s with boot := { s.boot with laneDown := down, ports := setBit s.boot.ports port false } }
  else s
def execPortFailure (lane : Nat) (s : State) : Out := event (portFailure lane) s

end Sys2Proof.Machine
end

