-- ==== Sys2Proof/Machine/Flash.lean ====
section
/-!
DEFINITION. Flash reads: wait notices, arrivals, prefetches and their limits, and Ibex's background work (R151 to R157,
R466 to R469).
-/
namespace Sys2Proof.Machine

/-- The address of a line, and the tag of its space, in a key. -/
def keyVa (key : Nat) : Nat := key % 2 ^ 53 * 128
def keyTag (key : Nat) : Nat := key / 2 ^ 53

def State.flashOf (s : State) (key : Nat) : Option FlashRead := s.flash.find? fun f => f.key == key
/-- Physical address of the line that a read fetches. -/
def FlashRead.phys (f : FlashRead) : Nat := hbfBase + (f.part * 2 ^ 25 + f.page) * 65536 + keyVa f.key % 65536
/-- The publication that a read began under still stands. -/
def State.stillPublished (s : State) (f : FlashRead) : Bool := Tbl.find? (s.part f.part).published f.page == some f.pub
/-- ADDR of a record that names a frame: HOME in bits 41:40, FRAME in bits 35:0 (R411). -/
def frameWord (home frame : Nat) : Dword := BitVec.ofNat 64 (home * 2 ^ 40 + frame)

/-- FLASH_WAIT_NOTICE: Ibex reports a line busy; each thread that waits for it enters Flash state (R153). -/
def flashWaitNotice (tag line : Nat) (s : State) : State :=
  let key := tag * 2 ^ 53 + line
  match s.flashOf key with
  | none => s
  | some f =>
    if f.notice.isSome then s
    else
      let s := { s with flash := s.flash.map fun (f : FlashRead) => if f.key = key then { f with notice := some s.rt } else f }
      let here := s.threads.filterMap fun e => if e.2.wait = .line key then some e.1 else none
      here.foldl (fun s t => s.enterWait t (.line key)) s
def execFlashWaitNotice (tag line : Nat) (s : State) : Out := event (flashWaitNotice tag line) s

/-- Sectors found damaged are poisoned for as long as the page stays published (R467). -/
def Mem.damage (m : Mem) (phys : Nat) (damaged : BitVec 4) : Mem :=
  (bitsOf damaged).foldl (fun m i => m.setPois (phys + 32 * i) true) m

/-- The data of the line that a read fetches, as it stood when the read began, with its side words where the page stores
them. -/
def FlashRead.line (f : FlashRead) : List SectorLit := f.data.map fun v => if f.swm then v else { v with side := 0 }
/-- Sectors of a read's line found damaged on the way. -/
def FlashRead.damaged (f : FlashRead) (bad : BitVec 4) : FlashRead :=
  { f with data := (List.range f.data.length).zip f.data |>.map fun e => if bad.getLsbD e.1 then { e.2 with poison := true } else e.2 }
/-- The CID of the threads or command that a read serves: the partition's own where it serves none (R406). -/
def State.lineCid (s : State) (f : FlashRead) : Nat :=
  match List.find? (fun (e : Nat × Thread) => e.2.wait == .line f.key || e.2.wait == .flash f.key) s.threads with
  | some e => e.2.cid
  | none => ((f.cmds.findSome? fun k => s.cmds.find? k).map Cmd.cid).getD (f.part * 2048)
/-- Place a flash line in the LLC; without the colour it was allocated in, it is dropped (R88, R95). -/
def State.keepFlash (s : State) (f : FlashRead) : State :=
  let tag := keyTag f.key
  if s.colourOk (keyVa f.key) (if tag < 65536 then tag else 0) f.part then s.allocLine f.key { copy := f.line, cid := s.lineCid f } else s
/-- Threads and commands that wait for a flash line receive it: their reads began while its page was published (R170). -/
def State.giveFlash (s : State) (f : FlashRead) : State :=
  let data := f.line
  let give (e : Tid × Thread) : Tid × Thread :=
    if e.2.wait == .line f.key || e.2.wait == .flash f.key then
      (e.1, { e.2 with reply := some { key := f.key, data, flash := true } })
    else e
  let hand (c : Cmd) : Cmd := { c with lines := Tbl.ins c.lines (flashKey f.key) data }
  f.cmds.foldl (fun s k => s.modCmd k hand) { s with threads := s.threads.map give }

/-- A flash wait that has lasted 2 ms and has not been reported (R466). -/
def State.waitedLong (s : State) (f : FlashRead) : Bool :=
  !f.reported && (match f.notice with
    | some n => decide (n + 2 * 10 ^ 12 ≤ s.rt)
    | none => false)
/-- The report of a flash wait beyond 2 ms (R154, R466). -/
def State.reportWait (s : State) (f : FlashRead) (die : Nat) : State :=
  (s.meet 161).report f.part 0 0x0C (s.lineCid f) 4 die 0 0 0

/-- A line arrives: damaged sectors are poisoned and reported, the line is kept, and what waits for it goes on with it. The
line of a page that is published no longer goes to those alone (R152, R170, R467). A wait of 2 ms or more that ends here is
reported, if it has not been (R466). -/
def State.lineArrives (s : State) (f : FlashRead) (damaged : BitVec 4) (die : Nat) : State :=
  let s := if s.waitedLong f then s.reportWait f die else s
  let s := s.endWaits f
  let s := { s with flash := s.flash.filter fun g => g.key != f.key }
  let s := if damaged = 0 then s
    else
      let first := (bitsOf damaged).headD 0
      let s := if s.stillPublished f then { s with mem := s.mem.damage f.phys damaged } else s
      (s.meet 161).report f.part 1 0x04 (s.lineCid f) 4 die (BitVec.ofNat 64 (keyVa f.key + 32 * first)) 2 0
  let f := f.damaged damaged
  let s := s.giveFlash f
  (if s.stillPublished f then s.keepFlash f else s).wakeLine f.key

/-- FLASH_LINE_ARRIVAL. The event does not name the die; a record of damage names a free one. -/
def flashLineArrival (tag line : Nat) (damaged : BitVec 4) (s : State) : State :=
  match s.flashOf (tag * 2 ^ 53 + line) with
  | none => s
  | some f => ({ s with free := s.free + 1 } : State).lineArrives f damaged ((Config.freeDword s.free).toNat % 64)
def execFlashLineArrival (tag line : Nat) (damaged : BitVec 4) (s : State) : Out := event (flashLineArrival tag line damaged) s

/-- FLASH_PREFETCH_LINE: a further line of a page of which the LLC holds a line, unless it is there or a demand access to it
is outstanding, or its page is published no longer (R152). -/
def flashPrefetchLine (tag line : Nat) (s : State) : State :=
  let key := tag * 2 ^ 53 + line
  let va := line % 2 ^ 53 * 128
  let part := if tag < 65536 then tag / 2048 else 0
  match s.cached (pageKey tag va) with
  | none => s
  | some x =>
    let begun := s.lines.any fun (e : Nat × Line) => e.1 / 512 == key / 512
    let f : FlashRead := { key, part, page := x.frame, swm := x.swm, pub := ((s.part part).published.find? x.frame).getD 0 }
    let f := { f with data := s.mem.line f.phys }
    if x.home ≠ 2 ∨ tag = 65537 + part ∨ !begun ∨ (s.lines.find? key).isSome ∨ (s.flashOf key).isSome ∨ !s.stillPublished f then s
    else s.keepFlash f
def execFlashPrefetchLine (tag line : Nat) (s : State) : Out := event (flashPrefetchLine tag line) s

/-- FLASH_WAIT_REPORT: once, when a flash wait reaches 2 ms (R466). -/
def flashWaitReport (tag line die : Nat) (s : State) : State :=
  let key := tag * 2 ^ 53 + line
  match s.flashOf key with
  | none => s
  | some f =>
    if !s.waitedLong f then s
    else
      let s := { s with flash := s.flash.map fun (f : FlashRead) => if f.key = key then { f with reported := true } else f }
      s.reportWait f die
def execFlashWaitReport (tag line die : Nat) (s : State) : Out := event (flashWaitReport tag line die) s

/-- FLASH_WAIT_TIMEOUT: 100 ms after its notice a line completes as an uncorrectable one (R466, R467). -/
def flashWaitTimeout (tag line die : Nat) (s : State) : State :=
  match s.flashOf (tag * 2 ^ 53 + line) with
  | none => s
  | some f =>
    match f.notice with
    | none => s
    | some n => if s.rt < n + 100 * 10 ^ 12 then s else s.lineArrives f 0xF die
def execFlashWaitTimeout (tag line die : Nat) (s : State) : Out := event (flashWaitTimeout tag line die) s

/-- What Ibex's background work meets (R157, R467, R469). -/
def State.ibexMeets (s : State) (part : Nat) (e : IbexEvent) : State :=
  match e with
  | .relocate _ => s
  | .programFailure die => (s.meet 161).report part 0 0x05 (part * 2048) 4 die 0 0 0
  | .eraseFailure die => (s.meet 161).report part 0 0x05 (part * 2048) 4 die 0 0 0
  | .uncorrectable page offset =>
    if (Tbl.find? (s.part part).published page).isNone ∨ 65536 ≤ offset then s
    else
      let phys := hbfBase + (part * 2 ^ 25 + page) * 65536 + offset
      let s := { s with mem := s.mem.setPois phys true, free := s.free + 1 }
      (s.meet 161).report part 1 0x04 (part * 2048) 4 ((Config.freeDword (s.free - 1)).toNat % 64) (frameWord 2 page) 4 0

/-- IBEX_MAINTENANCE: nothing that Ibex moves changes what a program reads; its failures are reported, and an
uncorrectable sector found without an access is poisoned. -/
def ibexMaintenance (part : Nat) (e : IbexEvent) (s : State) : State :=
  if (s.part part).present then s.ibexMeets part e else s
def execIbexMaintenance (part : Nat) (event' : IbexEvent) (s : State) : Out := event (ibexMaintenance part event') s

end Sys2Proof.Machine
end

