-- ==== Sys2Proof/Machine/Service.lean ====
section
/-!
DEFINITION. The service processors' ring-1 calls: Nuhan's tree requests and Ibex's extent scans (R172, R344, R357 to
R361).
-/
namespace Sys2Proof.Machine

/-- Statuses of a reply, bits 7:0 (R358). -/
def svOK := 0
def svNOSLOT := 1
def svRANGE := 2
def svUNKNOWN := 3
def svBUSY := 4
def svACCESS := 5

/-- A call record of ring 1, by its place in the ring (R323). -/
structure CallRec where
  index : Word
  call : Nat
  arg0 : Nat
  arg1 : Nat
  tag : Dword
  poison : Bool
  deriving DecidableEq, Repr

/-- What a server finds next in a partition's ring. -/
inductive Pending where
  | empty
  /-- the record's page is not present -/
  | blocked (va : Nat) (reserved : Bool)
  | call (r : CallRec)
  deriving DecidableEq, Repr

/-- Source of a server: Nuhan 0, Ibex 1. DESIGN CHOICE (log 121): R130 numbers Nuhan and the append engine, and gives Ibex's
own accesses no number; they have the append engine's. -/
def serverSource (server : Nat) : Nat := 160 + server
/-- The server of a CALL (R357). -/
def serverOf (call : Nat) : Nat := if call < 0x100 then 0 else 1

/-- Address of the record at an index. -/
def Ring.at_ (r : Ring) (i : Word) (recBytes : Nat) : Nat :=
  (r.base.extractLsb' 8 52).toNat * 256 + recBytes * (i.toNat % 2 ^ r.size)

/-- What reading the record at an index comes to, without any effect: `none` when its page denies the server. -/
def State.callRec (s : State) (part : Nat) (i : Word) : Option Pending :=
  let va := (s.part part).mc1.at_ i 32
  match s.blockRead (blockWho 160 part) va 32 0 with
  | (.ok _, v, poison, _) =>
    some (.call { index := i, call := v % 2 ^ 16, arg0 := v / 2 ^ 64 % 2 ^ 64, arg1 := v / 2 ^ 128 % 2 ^ 64,
                  tag := BitVec.ofNat 64 (v / 2 ^ 192), poison })
  | (.denied, _, _, _) => none
  | (.absent va r, _, _, _) => some (.blocked va r)
  | (.wait _, _, _, _) => some .empty

/-- The first record of a server from an index on. -/
def State.seekCall (s : State) (server part : Nat) : Nat → Word → Pending
  | 0, _ => .empty
  | n + 1, i => match s.callRec part i with
    | none => s.seekCall server part n (i + 1)
    | some (.call r) => if serverOf r.call = server then .call r else s.seekCall server part n (i + 1)
    | some x => x

/-- The index a server looks from: its own, or HEAD once that has passed it. -/
def Part.lookFrom (p : Part) (server : Nat) : Word :=
  let next := if server = 0 then p.nuhanNext else p.ibexNext
  if (next - p.mc1.head).toNat ≤ (p.mc1.tail - p.mc1.head).toNat then next else p.mc1.head
/-- The record of a partition that a server serves next. -/
def State.pendingCall (s : State) (server part : Nat) : Pending :=
  let p := s.part part
  let i := p.lookFrom server
  s.seekCall server part (p.mc1.tail - i).toNat i

/-- Extent records of a stream, from a SERIAL on, in ascending SERIAL and then append order. -/
def State.extentsFrom (s : State) (part stream serial : Nat) : List Extent :=
  let mine := (s.part part).extents.filter fun e => e.stream == stream && decide (serial ≤ e.serial)
  mine.foldl (fun acc e => (acc.filter fun x => decide (x.serial ≤ e.serial)) ++ e :: acc.filter fun x => decide (e.serial < x.serial)) []
/-- Bytes of the argument block of a call, and of the buffer that an IBXSCAN writes; none where no block is used (R358). -/
def State.argBytes (s : State) (part : Nat) (r : CallRec) : Nat :=
  if r.call = 0x1 then 64
  else if r.call = 0x100 ∧ r.arg1 % 16 < (s.part part).nstr then
    max 1 (32 * ((s.extentsFrom part (r.arg1 % 16) (r.arg1 / 16)).take 4096).length)
  else 0
/-- A call's argument block meets a page whose fault is outstanding: its server goes on to other partitions meanwhile. -/
def State.argBlocked (s : State) (part : Nat) (r : CallRec) : Bool :=
  let n := s.argBytes part r
  n != 0 && s.faults.any fun f => f.tag == tagOf r.arg0 (part * 2048) part &&
    decide (r.arg0 / 65536 ≤ f.page ∧ f.page < (r.arg0 + n + 65535) / 65536)
/-- Partitions with a pending record that a server can serve, in ascending number. -/
def State.pendingParts (s : State) (server : Nat) : List Nat :=
  s.parts.keys.filter fun p => match s.pendingCall server p with
    | .call r => !s.argBlocked p r
    | _ => false
/-- Partitions with a pending record at a server. -/
def State.hasRecord (s : State) (server part : Nat) : Bool := match s.pendingCall server part with
  | .empty => false
  | _ => true

/-- HEAD moves past records that their servers have taken up. -/
def State.ringHead (s : State) (part : Nat) : Nat → Word → Word
  | 0, i => i
  | n + 1, i =>
    let p := s.part part
    let passed (server : Nat) : Bool := decide ((i - p.mc1.head).toNat < (p.lookFrom server - p.mc1.head).toNat)
    match s.callRec part i with
    | some (.call r) => if passed (serverOf r.call) then s.ringHead part n (i + 1) else i
    | none => if passed 0 || passed 1 then s.ringHead part n (i + 1) else i
    | _ => i

/-- A record has been taken up by its server. Callers that waited for room look again (R323). -/
def State.callTaken (s : State) (server part : Nat) (r : CallRec) : State :=
  let s := s.modPart part fun p => if server = 0 then { p with nuhanNext := r.index + 1 } else { p with ibexNext := r.index + 1 }
  let s := s.modPart part fun p => { p with argHeld := p.argHeld.filter fun e => e.1 != server }
  let p := s.part part
  let head := s.ringHead part (p.mc1.tail - p.mc1.head).toNat p.mc1.head
  (s.modPart part fun p => { p with mc1 := { p.mc1 with head } }).wakeIf fun _ th => th.wait == .ring && th.part == part

/-- The kernel's caller of a tag receives status and result at a milestone of the server (R324, R358). -/
def State.serviceReply (s : State) (server part : Nat) (tag : Dword) (status result : Nat) : State :=
  let src := serverSource server
  let s := s.setMs src (s.msOf src + 1)
  let waits (e : Tid × Thread) : Bool := isService e.1 && e.2.part == part && e.2.level == 1 && match e.2.wait with
    | .call g _ => decide (g = tag.toNat)
    | _ => false
  match List.find? waits s.threads with
  | some (t, th) =>
    match th.wait with
    | .call _ d => (s.answer t d (status + 2 ^ 32 * (result % 2 ^ 32))).atLeastMs (tidSource t) (s.msOf src)
    | _ => s
  | none => s

/-- What serving a record comes to. -/
inductive Served where
  | reply (status result : Nat)
  /-- forwarded: the reply comes later -/
  | forwarded
  /-- a page is not present: the record is taken up later -/
  | later

/-- The deficits of every server, where nothing is pending (R360, R477). -/
def State.settleDrrs (s : State) : State :=
  ((s.settleDrr 0 (s.hasRecord 0)).settleDrr 1 (s.hasRecord 1)).settleDrr 2 s.hasAppend

/-- Serve the next record of a partition, in its slot (R360), when it is of the kind wanted. A poisoned record is
answered RANGE and reported (R414). -/
def State.serveCall (s : State) (server part : Nat) (want : Nat → Bool) (act : CallRec → State → Served × State) : State :=
  if s.boot.power ≠ .running then s
  else match s.pendingCall server part with
  | .empty => s
  | .blocked va r => s.postFault (blockWho (serverSource server) part) va 0 r
  | .call r =>
    if !want r.call then s
    else match s.serveSlot server (s.pendingParts server) with
    | none => s
    | some (p, slot) =>
      if p ≠ part then s
      else
        let (out, s) := if r.poison then (Served.reply svRANGE 0, (s.meet (serverSource server)).report part 1 0x08 (part * 2048) 0 0 0 0 9) else act r s
        match out with
        | .later => s
        | .forwarded => ({ s with drrs := slot.drrs }).callTaken server part r
        | .reply status result => (({ s with drrs := slot.drrs }).callTaken server part r).serviceReply server part r.tag status result

/-! ### Nuhan (R344, R359) -/

/-- A range of an address space lies in HBM4E-home pages. -/
def State.inHbm (s : State) (part space va n : Nat) : Bool :=
  let w : Who := { source := 160, part, asid := part * 2048 + space, priv := true, cid := part * 2048 }
  decide (va + n ≤ 2 ^ 60) && (List.range ((va % 65536 + max n 1 + 65535) / 65536)).all fun i =>
    match (s.translate w (va / 65536 * 65536 + i * 65536)).1 with
    | .ok x => x.home == 0 && regionOf va == .priv
    | _ => false

/-- The tree that a request block names, or `none` where a field is outside its limits (R359). With no region base there is
no region, whatever size is given. -/
def State.treeWanted (s : State) (part v : Nat) : Option Tree :=
  let f (off n : Nat) : Nat := v / 256 ^ off % 256 ^ n
  let npkg := f 8 2
  let space := f 10 2
  let rb := f 16 8
  let gb := f 24 8
  let gs := f 32 8
  if npkg < 2 ∨ 144 < npkg ∨ 2048 ≤ space ∨ f 12 4 ≠ 0 ∨ rb % 128 ≠ 0 ∨ gb % 128 ≠ 0 ∨ gs % 128 ≠ 0 ∨ 8192 < gs ∨ f 40 24 ≠ 0 ∨
      !s.inHbm part space rb 128 ∨ (gb ≠ 0 ∧ !s.inHbm part space gb gs) then none
  else some { id := 0, space, rb, gb, gs := if gb = 0 then 0 else gs }

/-- An argument block that the kernel can read and write (R358). A page that is not present is waited for, until the kernel
resolves it as denied (R110). -/
def State.argBlock (s : State) (server part va n : Nat) : BlockRes × State :=
  let w := blockWho (serverSource server) part
  if va % 64 ≠ 0 then (.denied, s)
  else
    let (out, s) := match s.blockPlaces w .load va n with
      | (.ok _, s) => s.blockPlaces w .store va n
      | x => x
    match out with
    | .absent a r =>
      let key := pageKey (tagOf a (part * 2048) part) a
      if (s.part part).argHeld.contains (server, key, true) then (.denied, s)
      else
        let e := (server, key, false)
        (.absent a r, s.modPart part fun p => { p with argHeld := if p.argHeld.contains e then p.argHeld else p.argHeld ++ [e] })
    | out => (out, s)

/-- TREEREQ: Nuhan forwards the request to the fabric manager (R359). -/
def treeReqAct (part : Nat) (r : CallRec) (s : State) : Served × State :=
  match s.argBlock 0 part r.arg0 64 with
  | (.denied, s) => (.reply svACCESS 0, s)
  | (.absent va q, s) => (.later, s.postFault (blockWho 160 part) va 0 q)
  | (.wait _, s) => (.later, s)
  | (.ok _, s) =>
    match s.blockRead (blockWho 160 part) r.arg0 64 0 with
    | (.ok _, v, poison, s) =>
      if poison then (.reply svRANGE 0, (s.meet (serverSource 0)).report part 1 0x08 (part * 2048) 0 0 0 0 9)
      else match s.treeWanted part v with
        | none => (.reply svRANGE 0, s)
        | some t =>
          let key := BitVec.ofNat 64 v
          (.forwarded, (s.modPart part fun p => { p with treeReqs := p.treeReqs ++ [{ tag := r.tag, key, tree := t }] }).send
            (.treeReq part (v / 256 ^ 8 % 256 ^ 2) key))
    | (_, _, _, s) => (.later, s)
def execTreereq (part : Nat) (s : State) : Out := event (fun s => s.serveCall 0 part (· == 1) (treeReqAct part)) s

/-- A tree is granted to a partition. A grant that an active launch is bound to does not change (R344). -/
def State.grantTree (s : State) (part : Nat) (t : Tree) : State :=
  let bound := s.launches.any fun e => e.2.part == part && e.2.r.coll && e.2.r.tree == t.id
  if bound && (s.part part).trees.any fun x => x.id == t.id then s
  else s.modPart part fun p => { p with trees := (p.trees.filter fun x => x.id != t.id) ++ [t] }

/-- TREE_GRANT_REPLY: the fabric manager answers the oldest request with a key that it holds of a partition (R359). A
grant that comes after a reset, or after the partition was destroyed, is released (R361). -/
def treeGrantReply (part : Nat) (reply : TreeReply) (s : State) : State :=
  if s.lateTrees.contains (part, reply.key) then { s with lateTrees := s.lateTrees.erase (part, reply.key) }
  else match (s.part part).treeReqs.find? fun r => r.key == reply.key with
  | none => s
  | some r =>
    let s := s.modPart part fun p => { p with treeReqs := p.treeReqs.erase r }
    if r.dead then s
    else match reply.tree with
    | none => s.serviceReply 0 part r.tag svNOSLOT 0
    | some id => (s.grantTree part { r.tree with id }).serviceReply 0 part r.tag svOK id.toNat
def execTreeGrantReply (part : Nat) (reply : TreeReply) (s : State) : Out :=
  event (treeGrantReply part reply) s

/-- TREEREL: a tree that the partition does not hold is out of range; one with an active launch is busy (R344, R358). -/
def treeRelAct (part : Nat) (r : CallRec) (s : State) : Served × State :=
  let held (t : Tree) : Bool := decide (t.id.toNat = r.arg0)
  if !(s.part part).trees.any held then (.reply svRANGE 0, s)
  else if s.launches.any fun e => e.2.part == part && e.2.r.coll && decide (e.2.r.tree.toNat = r.arg0) then
    (.reply svBUSY 0, s)
  else (.reply svOK 0, s.modPart part fun p => { p with trees := p.trees.filter fun t => !held t })
def execTreerel (part : Nat) (s : State) : Out := event (fun s => s.serveCall 0 part (· == 2) (treeRelAct part)) s

/-! ### Ibex (R172, R358) -/

/-- The 32 bytes of an extent record (R172). -/
def Extent.bytes (e : Extent) : Nat :=
  packBytes [(8, e.va), (4, e.lpage), (4, e.length), (2, e.tag), (1, e.stream), (5, 0), (8, e.serial)]

/-- IBXSCAN: at most 4,096 records, as one access, before the reply. -/
def ibxScanAct (part : Nat) (r : CallRec) (s : State) : Served × State :=
  let stream := r.arg1 % 16
  if (s.part part).nstr ≤ stream then (.reply svRANGE 0, s)
  else
    let es := (s.extentsFrom part stream (r.arg1 / 16)).take 4096
    match s.argBlock 1 part r.arg0 (max 1 (32 * es.length)) with
    | (.denied, s) => (.reply svACCESS 0, s)
    | (.absent va q, s) => (.later, s.postFault (blockWho 161 part) va 1 q)
    | (.wait _, s) => (.later, s)
    | (.ok ps, s) =>
      let s := s.setMs 161 (s.msOf 161 + 1)
      let ws := (List.range es.length).zip es |>.flatMap fun e => splitBytes 33 (r.arg0 + 32 * e.1) 32 e.2.bytes
      (.reply svOK es.length, s.performWrites 161 ps ws)
def execIbxscan (part : Nat) (s : State) : Out := event (fun s => s.serveCall 1 part (· == 0x100) (ibxScanAct part)) s

/-- IBXLEN: extent records of a stream. -/
def ibxLenAct (part : Nat) (r : CallRec) (s : State) : Served × State :=
  let stream := r.arg0 % 16
  if (s.part part).nstr ≤ stream then (.reply svRANGE 0, s)
  else (.reply svOK (s.extentsFrom part stream 0).length, s)
def execIbxlen (part : Nat) (s : State) : Out := event (fun s => s.serveCall 1 part (· == 0x101) (ibxLenAct part)) s

/-- A CALL that R358 does not list. -/
def unlistedCall (c : Nat) : Bool := !(c == 1 || c == 2 || c == 0x100 || c == 0x101)
/-- UNKNOWN_CALL: answered UNKNOWN by the server of its number. -/
def unknownCall (part : Nat) (s : State) : State :=
  let no (_ : CallRec) (s : State) : Served × State := (.reply svUNKNOWN 0, s)
  match s.pendingCall 0 part with
  | .call r => if unlistedCall r.call then s.serveCall 0 part unlistedCall no else s.serveCall 1 part unlistedCall no
  | _ => s.serveCall 1 part unlistedCall no
def execUnknownCall (part : Nat) (s : State) : Out := event (unknownCall part) s

end Sys2Proof.Machine
end

