-- ==== Sys2Proof/Machine/Boot.lean ====
section
/-!
DEFINITION. Boot slots, measurements and cold boot; recovery; loss of power (R166, R171, R392 to R394, R397, R400, R402,
R480).
-/
namespace Sys2Proof.Machine

/-! ### The boot slot (R393, R397) -/

def BootSlot.word (b : BootSlot) (off n : Nat) : Nat :=
  ((b.drop off).take n).foldr (fun (x : Byte) acc => x.toNat + 256 * acc) 0
def BootSlot.version (b : BootSlot) : Nat := BootSlot.word b 4 4
def BootSlot.imageLen (b : BootSlot) : Nat := BootSlot.word b 8 8
def BootSlot.loadVa (b : BootSlot) : Nat := BootSlot.word b 0x10 8
def BootSlot.entry (b : BootSlot) : Nat := BootSlot.word b 0x18 8
def BootSlot.image (b : BootSlot) : List Byte := (b.drop 256).take (BootSlot.imageLen b)
/-- The signature is over the digest of header bytes 0x00 to 0x7B and the image (R393). -/
def BootSlot.signed (b : BootSlot) : Bool :=
  Config.slotVerifies (sha512 (b.take 0x7C ++ BootSlot.image b)) ((b.drop 0x7C).take 132)

/-- A configuration record: its type, its body, and all its bytes. -/
structure ConfigRec where
  type : Nat
  body : List Byte
  bytes : List Byte
  deriving DecidableEq, Repr

/-- The records of a slot; `none` where one does not end within the bytes given (R397). -/
def parseRecords : Nat → List Byte → Option (List ConfigRec)
  | 0, _ => none
  | n + 1, l =>
    if l.isEmpty then some []
    else
      let len := BootSlot.word l 4 4
      if l.length < 148 + len ∨ BootSlot.word l 2 2 ≠ 0 then none
      else (parseRecords n (l.drop (148 + len))).map fun r =>
        { type := BootSlot.word l 0 2, body := (l.drop 16).take len, bytes := l.take (148 + len) } :: r

def BootSlot.records (b : BootSlot) : Option (List ConfigRec) :=
  let n := BootSlot.word b 0x28 4
  let l := (b.drop (BootSlot.word b 0x20 8)).take n
  if l.length < n then none else parseRecords (n + 1) l

/-- The clocks of a table: 1 to 16 entries, strictly descending from 2,700 MHz. -/
def clocksOf (body : List Byte) : List Nat := (List.range (body.length / 4)).map fun i => BootSlot.word body (4 * i) 2
/-- The voltages of a table, in millivolts. -/
def voltsOf (body : List Byte) : List Nat := (List.range (body.length / 4)).map fun i => BootSlot.word body (4 * i + 2) 2
def descending : List Nat → Bool
  | x :: y :: r => decide (y < x) && descending (y :: r)
  | _ => true

/-- The 132-byte signature is over the digest of header and body (R397). -/
def ConfigRec.signed (r : ConfigRec) (image : List Byte) : Bool :=
  let n := r.bytes.length - 132
  Config.recordVerifies image (sha512 (r.bytes.take n)) (r.bytes.drop n)
/-- A block of the partition defaults has a reserved byte, or a reserved bit of any field, that is not zero (R9, R354, R397). -/
def defaultsReserved (b : PartBlock) : Bool := (List.range 10).any fun op => b.reserved op
/-- A record of a slot with this image is accepted (R397). -/
def ConfigRec.ok (image : List Byte) (r : ConfigRec) : Bool :=
  r.signed image && match r.type with
  | 1 => r.body.length == 60
  | 2 => r.body.length % 4 == 0 && decide (4 ≤ r.body.length ∧ r.body.length ≤ 64) && (clocksOf r.body).head? == some 2700 &&
      descending (clocksOf r.body)
  | 3 => r.body.length % 320 == 0 && (List.range (r.body.length / 320)).all fun i => !defaultsReserved (BootSlot.word r.body (320 * i) 320)
  | 4 => r.body.length == 9 && BootSlot.word r.body 0 8 % 4096 == 0 &&
      decide (4 ≤ BootSlot.word r.body 8 1 ∧ BootSlot.word r.body 8 1 ≤ 10)
  | 5 => r.body.length == 4 && decide (32768 ≤ BootSlot.word r.body 0 4 ∧ BootSlot.word r.body 0 4 ≤ 4194304)
  | _ => false

def recordOf (rs : List ConfigRec) (type : Nat) : Option ConfigRec := rs.find? fun r => r.type == type
/-- MLF (R480). -/
def mlfOf (rs : List ConfigRec) : Nat := ((recordOf rs 5).map fun r => BootSlot.word r.body 0 4).getD Config.mlfDefault
/-- Frames of the image, and with the tables. -/
def BootSlot.frames (b : BootSlot) : Nat := (BootSlot.imageLen b + 65535) / 65536
def BootSlot.allFrames (b : BootSlot) : Nat :=
  BootSlot.frames b + (tablesFor (BootSlot.loadVa b / 65536) (BootSlot.frames b) + 3) / 4

/-- The records of a slot that verifies: its format, limits, reserved bytes, signature, version and records (R393,
R480). -/
def BootSlot.accepted (b : BootSlot) (minVersion : Nat) : Option (List ConfigRec) :=
  let len := BootSlot.imageLen b
  let ok := BootSlot.word b 0 4 == 1 && decide (65536 ≤ len ∧ len ≤ 2 ^ 30) && BootSlot.loadVa b % 65536 == 0 &&
    decide (BootSlot.loadVa b + len ≤ 2 ^ 60) && pcFormOk (BitVec.ofNat 64 (BootSlot.entry b)) && BootSlot.word b 0x2C 80 == 0 &&
    decide (256 + len ≤ b.length) && decide (minVersion ≤ BootSlot.version b) && BootSlot.signed b
  if !ok then none
  else match BootSlot.records b with
  | none => none
  | some rs =>
    if rs.all (ConfigRec.ok (BootSlot.image b)) && (rs.map ConfigRec.type).eraseDups.length == rs.length && (recordOf rs 2).isSome &&
        (recordOf rs 4).isSome && decide (BootSlot.allFrames b ≤ mlfOf rs) then some rs
    else none

/-- The slot taken: the higher version that verifies, and otherwise the other (R392 step 2). -/
def Boot.choose (b : Boot) : Option (BootSlot × List ConfigRec) :=
  let a := (BootSlot.accepted b.slotA b.minVersion).map fun r => (b.slotA, r)
  let c := (BootSlot.accepted b.slotB b.minVersion).map fun r => (b.slotB, r)
  match a, c with
  | some x, some y => if BootSlot.version x.1 < BootSlot.version y.1 then some y else some x
  | some x, none => some x
  | none, y => y

/-! ### Measurements (R394) -/

/-- M := SHA-512(M ‖ data) for one value. -/
def extendMeasure (ms : List (List Byte)) (i : Nat) (data : List Byte) : List (List Byte) :=
  (List.range ms.length).zip ms |>.map fun e => if e.1 = i then sha512 (e.2 ++ data) else e.2

/-- The unit map in force, laid out as its record's body (R397). -/
def Boot.unitMap (b : Boot) : List Byte :=
  bytesLE 4 b.retCores.toNat ++ bytesLE 32 b.retChans.toNat ++ bytesLE 4 b.retLanes.toNat ++ bytesLE 8 b.retDies.toNat ++
    bytesLE 12 b.retGcores.toNat

/-- The retired units: the map's, and the sealed list's (R396, R397, R415). -/
def Boot.retireOne (b : Boot) (u : Nat × Nat) : Boot :=
  match u.1 with
  | 1 => { b with retCores := setBit b.retCores u.2 true }
  | 2 => { b with retChans := setBit b.retChans u.2 true }
  | 3 => { b with retGcores := setBit b.retGcores u.2 true }
  | 4 => { b with retDies := setBit b.retDies u.2 true }
  | 5 => { b with retLanes := setBit b.retLanes u.2 true }
  | _ => b
def Boot.withMap (b : Boot) (body : List Byte) : Boot :=
  { b with
    retCores := BitVec.ofNat 32 (BootSlot.word body 0 4), retChans := BitVec.ofNat 256 (BootSlot.word body 4 32)
    retLanes := BitVec.ofNat 32 (BootSlot.word body 36 4), retDies := BitVec.ofNat 64 (BootSlot.word body 40 8)
    retGcores := BitVec.ofNat 96 (BootSlot.word body 48 12) }

/-! ### Streams after a loss of power (R166, R171) -/

/-- Groups past their durability point survive whole and published; the others are discarded. DESIGN CHOICE (log 122): without a
surviving SEAL, WPTR is 0 (`sealWptr` at first). -/
def Stream.recover (x : Stream) : Stream × List Extent :=
  x.groups.foldl (fun (acc : Stream × List Extent) g =>
    if g.durable then
      let y := acc.1
      ({ y with serial := y.serial + 1, sealWptr := g.wptr },
        acc.2 ++ g.extents.map fun e => { e with serial := (y.serial + 1).toNat })
    else acc) ({ x with groups := [], chain := none, barrier := [] }, [])

/-- What of a partition outlives a loss of power: its streams and its published flash. Milestones begin again. -/
def Part.recover (p : Part) : Part :=
  let rs := p.streams.map fun e => (e.1, e.2.recover)
  let more := rs.flatMap fun (e : Nat × (Stream × List Extent)) => e.2.2
  { streams := rs.foldl (fun (t : Tbl Stream) (e : Nat × (Stream × List Extent)) =>
      Tbl.put {} t e.1 { e.2.1 with wptr := e.2.1.sealWptr }) []
    published := (more.flatMap Extent.pages).foldl (fun t k => Tbl.ins t k 0) (p.published.mapVals fun _ => 0)
    extents := p.extents ++ more }

/-! ### Cold boot (R392, R480) -/

/-- The package with nothing powered but the Chamois pair: what the flash keeps, what the Chamois pair keeps, and what the
outside world will do. -/
def State.cold (s : State) : State :=
  let flash (a : Nat) : Bool := decide (hbfBase ≤ a)
  let parts := s.parts.foldl (fun (t : Tbl Part) (e : Nat × Part) => Tbl.put {} t e.1 e.2.recover) []
  { parts
    mem := {
      bytes := s.mem.bytes.filter fun e => flash e.1
      sides := s.mem.sides.filter fun e => flash (e.1 * 32)
      poison := s.mem.poison.filter fun e => flash (e.1 * 32) }
    cmask := State.reset.cmask, cur := oryx
    boot := { power := .off, slotA := s.boot.slotA, slotB := s.boot.slotB, minVersion := s.boot.minVersion
              retList := s.boot.retList, kept := s.boot.kept }
    inputs := s.inputs, free := s.free }

/-- The ports whose lanes the unit map leaves in service (R404, R471). -/
def Boot.portsOf (b : Boot) : BitVec 8 :=
  (List.range 8).foldl (fun m p => setBit m p ((List.range 4).all fun i => !b.retLanes.getLsbD (4 * p + i))) 0
/-- Recovery brings up the port that MGMT_PORT names, and no other (R393). -/
def Boot.recover (b : Boot) : Boot :=
  { b with power := .recovery, mgmtPort := Config.mgmtPort, ports := setBit 0 Config.mgmtPort.toNat true }
/-- The state of the Chamois pair after a slot has been taken: records, unit map, measurements. -/
def Boot.taken (b : Boot) (slot : BootSlot) (rs : List ConfigRec) : Boot :=
  let b := match recordOf rs 1 with
    | some r => b.withMap r.body
    | none => b
  let b := b.retList.foldl Boot.retireOne b
  let body (t : Nat) : List Byte := ((recordOf rs t).map ConfigRec.body).getD []
  let m := extendMeasure b.measures 0 ((List.range 64).map Config.romDigest)
  let m := extendMeasure m 1 (slot.take 256 ++ BootSlot.image slot)
  let m := rs.foldl (fun m r => extendMeasure m 2 r.bytes) m
  { b with
    power := .running, mgmtPort := Config.mgmtPort, version := BootSlot.version slot, minVersion := max b.minVersion (BootSlot.version slot)
    measures := extendMeasure m 3 b.unitMap, clocks := clocksOf (body 2), volts := voltsOf (body 2), clockAt := 0,
    ports := b.portsOf, mlf := mlfOf rs
    mboxBase := BitVec.ofNat 64 (BootSlot.word (body 4) 0 8), mboxSize := BootSlot.word (body 4) 8 1, laneDown := b.retLanes }

/-- Start the Oryx core on a slot's image (R392 step 6, R480). -/
def State.startImage (s : State) (slot : BootSlot) (rs : List ConfigRec) : State :=
  let n := BootSlot.frames slot
  let mlf := mlfOf rs
  let p := s.part 0
  let mem := (s.mem.writeBytes lpBase (BootSlot.image slot)).mapImage (BootSlot.loadVa slot / 65536) n n
  { s with
    mem
    boot := { s.boot.taken slot rs with kept := [] }
    errs := s.boot.kept
    parts := Tbl.ins s.parts 0 { Part.zeroReset with
      lframes := mlf, lruns := [(0, mlf)], astab := bootAstab n
      -- what its flash keeps (R171)
      streams := p.streams, published := p.published, extents := p.extents }
    threads := [(oryx, { Thread.oryxReset with pc := BitVec.ofNat 64 (BootSlot.entry slot) })] }

/-- Boot from the slots; where both are refused, recovery (R393). -/
def State.bootFrom (s : State) : State :=
  let s := s.cold
  match s.boot.choose with
  | some (slot, rs) => s.startImage slot rs
  | none =>
    let bad (x : BootSlot) : Bool := (BootSlot.accepted x s.boot.minVersion).isNone
    { s with boot := { s.boot.recover with refusedA := bad s.boot.slotA, refusedB := bad s.boot.slotB } }

/-- COLD_BOOT: `recoverN` is the level of the RECOVER_N strap (R404). A failed self-test is a lock-step mismatch (R409). -/
def coldBoot (lockstepOk recoverN : Bool) (s : State) : State :=
  if s.boot.power ≠ .off then s
  else if !lockstepOk then s.fatalDevice 0x12 0 0 0 0
  else if !recoverN then { s.cold with boot := s.cold.boot.recover }
  else s.bootFrom
def execColdBoot (lockstepOk recoverN : Bool) (s : State) : Out := eventAny (coldBoot lockstepOk recoverN) s

/-- RECOVERY_IMAGE: a signed slot image is written to the refused slot, and the package boots again (R393). -/
def recoveryImage (slot : BootSlot) (s : State) : State :=
  -- it comes over the management port
  if s.boot.power ≠ .recovery ∨ !s.boot.ports.getLsbD s.boot.mgmtPort.toNat ∨ (BootSlot.accepted slot s.boot.minVersion).isNone then s
  else
    let b := s.boot
    ({ s with boot := if b.refusedA ∨ !b.refusedB then { b with slotA := slot } else { b with slotB := slot } } : State).bootFrom
def execRecoveryImage (slot : BootSlot) (s : State) : Out := eventAny (recoveryImage slot) s

/-- Power goes, with the resume record; the next boot finds what the flash keeps. -/
def State.powerOff (s : State) : State := { s with boot := { s.boot with power := .off, resume := none } }
def execPowerLoss (s : State) : Out := eventAny State.powerOff s
def execResetNAssert (s : State) : Out := eventAny State.powerOff s

/-! ### Clock and temperature (R401, R402, R409) -/

def clockStepDown (s : State) : State :=
  if s.boot.clockAt + 1 < s.boot.clocks.length then { s with boot := { s.boot with clockAt := s.boot.clockAt + 1 } } else s
def execClockStepDown (s : State) : Out := event clockStepDown s
def clockStepUp (s : State) : State := { s with boot := { s.boot with clockAt := s.boot.clockAt - 1 } }
def execClockStepUp (s : State) : Out := event clockStepUp s

/-- A fault that is fatal to the device finds the Chamois pair powered. -/
def chamoisFault (kind : Nat) (s : State) : State := if s.boot.power = .off then s else s.fatalDevice kind 0 0 0 0
def execThermalTrip (_die : Nat) (s : State) : Out := eventAny (chamoisFault 0x10) s
def execLockstepMismatch (s : State) : Out := eventAny (chamoisFault 0x12) s
/-- At 95 °C ALERT_N is asserted, whatever of the package the Chamois pair has powered (R402). -/
def execThermalAlert (s : State) : Out :=
  eventAny (fun s => if s.boot.power = .off then s else { s with boot := { s.boot with alert := true } }) s

end Sys2Proof.Machine
end

