-- ==== Sys2Proof/Machine/Load.lean ====
section
/-!
DEFINITION. Placing an instruction for the Oryx core: a one-page image, as the Chamois pair places an image at boot (R392
step 6, R480), with the instruction in slot 0 of its first line (R192 to R195).
-/
namespace Sys2Proof.Machine

/-- Address of the page: its colour with ASID 0 is 960, a colour of the commons (R87, R88, R480). -/
def loadVa : Nat := 0x03C00000

/-- A line whose slot 0 holds a word, its branch-target mask admitting slot 0, with its parity (R193). -/
def lineOfWord (x : Nat) : Nat :=
  let low := x % 2 ^ 96 + 2 ^ 480 * 2 ^ 19
  low + 2 ^ 504 * (List.range 60).foldl (fun p i => p ^^^ (x % 2 ^ 96 / 2 ^ (8 * i) % 256)) 0

/-- Place an instruction: its line in frame 0 of partition 0's LPDDR-6, tables in the frames that follow, and the Oryx thread
at it. -/
def placeWord (nbits w : Nat) (s : State) : State :=
  let mem := (s.mem.writeN lpBase 64 (lineOfWord (w % 2 ^ nbits))).mapImage (loadVa / 65536) 1 1
  let s := s.modPart 0 fun p => { p with astab := bootAstab 1 }
  { s with
    mem, cur := oryx, latch := [], inputs := []
    threads := Tbl.ins s.threads oryx { s.thr oryx with pc := BitVec.ofNat 64 loadVa, wait := .ready, entry := s.now, asid := 0, part := 0 } }

end Sys2Proof.Machine
end

