-- ==== Sys2Proof/Machine/IntAlu.lean ====
section
/-!
DEFINITION. Integer and logic instructions (R219 to R228).
-/
namespace Sys2Proof.Machine

/-! ### The values, exact until written -/

/-- Saturate when SAT is set. -/
def satIf (ty : BitVec 4) (sat : Bool) (v : Int) : Int := if sat then satTo ty v else v
/-- DIV: quotient and remainder, truncated toward zero; a zero divisor gives all ones and the dividend (R224). -/
def divVal (rem : Bool) (a b : Int) : Int :=
  if b = 0 then (if rem then a else -1)
  else if rem then a - b * Int.tdiv a b else Int.tdiv a b
/-- Unsigned reading of a raw operand at the type's width. -/
def unsOf (ty : BitVec 4) (raw : Nat) : Nat := raw % 2 ^ typeWidth ty
def shlVal (ty : BitVec 4) (a n : Nat) : Int :=
  if typeWidth ty ≤ n then 0 else ((unsOf ty a * 2 ^ n : Nat) : Int)
/-- SHR: sign or zero fill; a count at or above the width shifts by the width (R223). -/
def shrVal (ty : BitVec 4) (a n : Nat) : Int := srcOf ty a / 2 ^ (min n (typeWidth ty))
def fshVal (ty : BitVec 4) (left clamp : Bool) (a b c : Nat) : Int :=
  let w := typeWidth ty
  let x := unsOf ty a + unsOf ty b * 2 ^ w
  let n := if clamp then min c w else c % w
  (((if left then x * 2 ^ n / 2 ^ w else x / 2 ^ n) % 2 ^ w : Nat) : Int)
def popcVal (ty : BitVec 4) (a : Nat) : Nat :=
  ((List.range (typeWidth ty)).filter fun i => (unsOf ty a).testBit i).length
def clzVal (ty : BitVec 4) (a : Nat) : Nat :=
  let x := unsOf ty a
  if x = 0 then typeWidth ty else typeWidth ty - 1 - Nat.log2 x
def brevVal (ty : BitVec 4) (a : Nat) : Nat :=
  let w := typeWidth ty
  (List.range w).foldl (fun acc i => if (unsOf ty a).testBit (w - 1 - i) then acc + 2 ^ i else acc) 0
/-- BFX: position bits 7:0 and length bits 15:8 of the field operand (R227). -/
def bfxVal (ty : BitVec 4) (a f : Nat) : Int :=
  let w := typeWidth ty
  let p := f % 256
  let n := min (f / 256 % 256) w
  if n = 0 then 0
  else
    let x := (srcOf ty a / 2 ^ p) % 2 ^ n
    if tySigned ty && decide (2 ^ (n - 1) ≤ x) then x - 2 ^ n else x
def bfiVal (ty : BitVec 4) (a b f : Nat) : Nat :=
  let w := typeWidth ty
  let p := f % 256
  let n := f / 256 % 256
  let k := ((2 ^ n - 1) * 2 ^ p) % 2 ^ w
  let keep := 2 ^ w - 1 - k
  (unsOf ty a &&& keep) ||| ((unsOf ty b * 2 ^ p) &&& k)

/-! ### Bodies -/

/-- Two sources of the type, one result. -/
def int2 (w : Fields) (f : Int → Int → Int) : M Unit := do
  let a ← readSrc 2 w.a w.ty w.ext
  let b ← readSrc 3 w.b w.ty w.ext
  writeDst w.d w.ty (f (srcOf w.ty a.raw) (srcOf w.ty b.raw)) (a.poison || b.poison)
/-- One source of the type. -/
def int1 (w : Fields) (f : Nat → Int) : M Unit := do
  let a ← readSrc 2 w.a w.ty w.ext
  writeDst w.d w.ty (f a.raw) a.poison
/-- A source of the type and a 32-bit count or field (R222). -/
def intCount (w : Fields) (f : Nat → Nat → Int) : M Unit := do
  let a ← readSrc 2 w.a w.ty w.ext
  let b ← readSrc32 3 w.b w.ext
  writeDst w.d w.ty (f a.raw b.raw) (a.poison || b.poison)

def execAdd (w : Fields) (s : State) : Out :=
  runInstr (.add w) w (seqBody (int2 w fun a b => satIf w.ty (w.sub.getLsbD 0) (a + b))) s
def execSub (w : Fields) (s : State) : Out :=
  runInstr (.sub w) w (seqBody (int2 w fun a b => satIf w.ty (w.sub.getLsbD 0) (a - b))) s
def execMul (w : Fields) (s : State) : Out := runInstr (.mul w) w (seqBody (int2 w fun a b => a * b)) s
/-- MULH: the high half of the signed or unsigned product. -/
def execMulh (w : Fields) (s : State) : Out :=
  runInstr (.mulh w) w (seqBody (int2 w fun a b => a * b / 2 ^ typeWidth w.ty)) s
/-- MAD; WIDE reads 32-bit a and b, and c and d are pairs (R223). -/
def madBody (w : Fields) : M Unit := do
  let wide := w.sub.getLsbD 0
  let ty2 : BitVec 4 := if wide then w.ty ||| 1 else w.ty
  let a ← readSrc 2 w.a w.ty w.ext
  let b ← readSrc 3 w.b w.ty w.ext
  let c ← readSrc 4 w.c ty2 w.ext
  writeDst w.d ty2 (srcOf w.ty a.raw * srcOf w.ty b.raw + srcOf ty2 c.raw) (a.poison || b.poison || c.poison)
def execMad (w : Fields) (s : State) : Out := runInstr (.mad w) w (seqBody (madBody w)) s
def execDiv (w : Fields) (s : State) : Out :=
  runInstr (.div w) w (seqBody (int2 w (divVal (w.sub.getLsbD 0)))) s
def execMin (w : Fields) (s : State) : Out := runInstr (.min w) w (seqBody (int2 w fun a b => min a b)) s
def execMax (w : Fields) (s : State) : Out := runInstr (.max w) w (seqBody (int2 w fun a b => max a b)) s
def execAbs (w : Fields) (s : State) : Out :=
  runInstr (.abs w) w (seqBody (int1 w fun a => satIf w.ty (w.sub.getLsbD 0) (srcOf w.ty a).natAbs)) s
/-- LOP3 (R225). -/
def lop3Body (w : Fields) : M Unit := do
  let a ← readSrc 2 w.a w.ty w.ext
  let b ← readSrc 3 w.b w.ty w.ext
  let c ← readSrc 4 w.c w.ty w.ext
  writeDst w.d w.ty (lop3Bits w.fn (typeWidth w.ty) a.raw b.raw c.raw) (a.poison || b.poison || c.poison)
def execLop3 (w : Fields) (s : State) : Out := runInstr (.lop3 w) w (seqBody (lop3Body w)) s
def execShl (w : Fields) (s : State) : Out := runInstr (.shl w) w (seqBody (intCount w (shlVal w.ty))) s
def execShr (w : Fields) (s : State) : Out := runInstr (.shr w) w (seqBody (intCount w (shrVal w.ty))) s
/-- FSH (R226). -/
def fshBody (w : Fields) : M Unit := do
  let a ← readSrc 2 w.a w.ty w.ext
  let b ← readSrc 3 w.b w.ty w.ext
  let c ← readSrc32 4 w.c w.ext
  writeDst w.d w.ty (fshVal w.ty (w.sub.getLsbD 0) (w.sub.getLsbD 1) a.raw b.raw c.raw)
    (a.poison || b.poison || c.poison)
def execFsh (w : Fields) (s : State) : Out := runInstr (.fsh w) w (seqBody (fshBody w)) s
def execPopc (w : Fields) (s : State) : Out := runInstr (.popc w) w (seqBody (int1 w fun a => popcVal w.ty a)) s
def execClz (w : Fields) (s : State) : Out := runInstr (.clz w) w (seqBody (int1 w fun a => clzVal w.ty a)) s
def execBrev (w : Fields) (s : State) : Out := runInstr (.brev w) w (seqBody (int1 w fun a => brevVal w.ty a)) s
def execBfx (w : Fields) (s : State) : Out := runInstr (.bfx w) w (seqBody (intCount w (bfxVal w.ty))) s
/-- BFI (R227). -/
def bfiBody (w : Fields) : M Unit := do
  let a ← readSrc 2 w.a w.ty w.ext
  let b ← readSrc 3 w.b w.ty w.ext
  let c ← readSrc32 4 w.c w.ext
  writeDst w.d w.ty (bfiVal w.ty a.raw b.raw c.raw) (a.poison || b.poison || c.poison)
def execBfi (w : Fields) (s : State) : Out := runInstr (.bfi w) w (seqBody (bfiBody w)) s
/-- SEL carries the poison of the chosen source only (R223). Both sources are read. -/
def selBody (w : Fields) : M Unit := do
  let a ← readSrc 2 w.a w.ty w.ext
  let b ← readSrc 3 w.b w.ty w.ext
  let v := if (← get).predOf w.c then a else b
  writeDst w.d w.ty (srcOf w.ty v.raw) v.poison
def execSel (w : Fields) (s : State) : Out := runInstr (.sel w) w (seqBody (selBody w)) s
def execMov (w : Fields) (s : State) : Out := runInstr (.mov w) w (seqBody (int1 w fun a => srcOf w.ty a)) s
/-- MOVI; HI writes the odd register of the pair and leaves the even one (R223). -/
def moviBody (w : Fields) : M Unit := do
  if w.sub.getLsbD 0 then
    match w.d with
    | .g n => upd fun s => s.setG (n.toNat + 1) { val := w.ext, poison := false }
    | _ => pure ()
  else
    let v ← readSrc 2 w.a w.ty w.ext
    writeDst w.d w.ty (srcOf w.ty v.raw) false
def execMovi (w : Fields) (s : State) : Out := runInstr (.movi w) w (seqBody (moviBody w)) s
/-- ADDR: no access, and no check of bits 63:60; poison is carried (R223). -/
def addrBody (w : Fields) : M Unit := do
  let a ← readPair w.a
  writePair w.d (BitVec.ofNat 64 a.raw + w.ext.signExtend 64).toNat a.poison
def execAddr (w : Fields) (s : State) : Out := runInstr (.addr w) w (seqBody (addrBody w)) s
/-- CMP: poison reaching the predicate is consumed (R221, R228). -/
def cmpBody (w : Fields) : M Unit := do
  regsClean [(2, w.a, is64 w.ty), (3, w.b, is64 w.ty)]
  let a ← consume 2 (← readSrc 2 w.a w.ty w.ext)
  let b ← consume 3 (← readSrc 3 w.b w.ty w.ext)
  let r := cond (w.sub.toNat % 8) (cmpInt (srcOf w.ty a) (srcOf w.ty b))
  writeP w.d (comb (w.sub.toNat / 8) r ((← get).predOf w.c))
def execCmp (w : Fields) (s : State) : Out := runInstr (.cmp w) w (seqBody (cmpBody w)) s

end Sys2Proof.Machine
end

