-- ==== Sys2Proof/Machine/Memory.lean ====
section
/-!
DEFINITION. Loads and stores: LD, ST, LDV, STV, LDC and PREF (R247 to R253, R440).
-/
namespace Sys2Proof.Machine

/-- Bytes of an element of a type code; the float codes have their width (R249). -/
def tyBytes (ty : BitVec 4) : Nat := typeWidth ty / 8

/-- The memory value of a load, written as R219 and R250 state. -/
def writeLoaded (w : Fields) (v : Nat) (poison : Bool) : M Unit :=
  writeDst w.d w.ty (srcOf w.ty v) poison

def ldBody (w : Fields) : M Unit := do
  let va ← addrM w
  aligned cMISALIGNED 2 va (tyBytes w.ty)
  let (v, p) ← loadBytes 2 va (tyBytes w.ty)
  writeLoaded w v p
def execLd (w : Fields) (s : State) : Out := runInstr (.ld w) w (seqBody (ldBody w)) s

/-- ST stores the low bits of b; a poisoned b poisons the sector, an unpoisoned one leaves its poison bit (R248). -/
def stBody (w : Fields) : M Unit := do
  let va ← addrM w
  let b ← readSrc 3 w.b w.ty 0
  aligned cMISALIGNED 2 va (tyBytes w.ty)
  storeBytes 2 va (tyBytes w.ty) b.raw b.poison
def execSt (w : Fields) (s : State) : Out := runInstr (.st w) w (seqBody (stBody w)) s

/-- LDV: a sector with its side word and poison bit; the tag is TYPE and no content is checked (R251). -/
def ldvBody (w : Fields) : M Unit := do
  let va ← addrM w
  aligned cMISALIGNED 2 va 32
  let secs ← loadSectors 2 va 32
  let x := secs.headD { data := 0, side := 0, poison := false }
  writeV w.d { sec := x.data, side := x.side, tag := w.ty, poison := x.poison }
def execLdv (w : Fields) (s : State) : Out := runInstr (.ldv w) w (seqBody (ldvBody w)) s

def stvBody (w : Fields) : M Unit := do
  let va ← addrM w
  aligned cMISALIGNED 2 va 32
  let b := (← get).readV w.b 0
  storeSectors 2 va [{ data := b.sec, side := b.side, poison := b.poison }] true
def execStv (w : Fields) (s : State) : Out := runInstr (.stv w) w (seqBody (stvBody w)) s

/-- LDC: a load at the window's base plus the computed offset (R85, R252). -/
def ldcBody (w : Fields) : M Unit := do
  let o ← addrM w
  let base := (← get).window (w.sub.toNat % 8)
  let n := tyBytes w.ty
  if base = 0 then illegal
  aligned cMISALIGNED 2 (base + o) n
  if 524288 - n < o then trap cPAGE 2 (BitVec.ofNat 64 (base + o))
  let (v, p) ← loadBytes 2 (base + o) n
  writeLoaded w v p
def execLdc (w : Fields) (s : State) : Out := runInstr (.ldc w) w (seqBody (ldcBody w)) s

/-- PREF: bring a line to the LLC, or into the core's L1; whatever would fault, trap or be refused is dropped, and no key
is taken (R253). A flash line's read begins, and no thread waits for it (R152). -/
def State.prefetch (s : State) (toL1 : Bool) (va : Nat) : State :=
  let me := s.me
  let keyless (t : State) : State := t.setMs s.src (s.msOf s.src)
  if 2 ^ 60 ≤ va then s
  else if s.lockedBy (tagOf va me.asid me.part) (va / 32 * 32) (va / 32 * 32 + 32) false then s
  else match s.place s.who va .load none with
  | (.ok p, s') =>
    if p.home = 3 then s
    else keyless (if toL1 && !isService s.cur then s'.fillL1 s.src p else s')
  | (.wait (.line key), s') =>
    keyless (if s.flash.any (fun f => f.key == key) then s'
      else { s' with flash := s'.flash.map fun f => if f.key == key then { f with pref := true } else f })
  | _ => s

def prefBody (w : Fields) : M Unit := do
  let va ← addrM w
  upd fun s => s.prefetch (!w.sub.getLsbD 0) va
def execPref (w : Fields) (s : State) : Out := runInstr (.pref w) w (seqBody (prefBody w)) s

end Sys2Proof.Machine
end

