-- ==== Sys2Proof/Machine/Damage.lean ====
section
/-!
DEFINITION. Errors that the hardware detects in state other than a memory's sectors: what each kind of damage does (R409,
R453, R455, R463, R464), and units that fail at a resume (R479).
-/
namespace Sys2Proof.Machine

/-- The partition that holds a physical frame, and its own number of it. -/
def State.holderOf (s : State) (home phys : Nat) : Option (Nat × Nat) :=
  s.parts.keys.findSome? fun p =>
    if (s.part p).present then (s.frameIndex p home phys).map fun i => (p, i) else none

/-- Where an LLC line's data stands, by its cached translation. -/
def State.linePhys (s : State) (key : Nat) : Option Nat :=
  let tag := keyTag key
  match s.cached (pageKey tag (keyVa key)) with
  | some x => (s.frameAddr (if tag < 65536 then tag / 2048 else 0) x.home x.frame).map (· + keyVa key % 65536)
  | none => none
/-- The partition of a line's address space; commons lines are the monitor's. -/
def linePart (key : Nat) : Nat := if keyTag key < 65536 then keyTag key / 2048 else 0

/-- The sector of a physical address is poisoned at one milestone of the Chamois pair, past every lease on its line: a load
after it sees the poison, one before it does not (R465). -/
def State.poisonSector (s : State) (at_ : Nat) : State :=
  let s := s.leaseStore 169 [at_ / 128]
  { s with mem := s.mem.setPois at_ true }

/-- An uncorrectable error in an LLC line: a clean line is fetched again; a dirty one is poisoned and written back, or, where
its tag or lease state is lost, is lost with the partition that owns its colour (R464). The record gives the CID that the line
carries (R406). -/
def State.lineError (s : State) (key offset : Nat) (inTag : Bool) : State :=
  let va := keyVa key
  let part := linePart key
  match s.lines.find? key with
  | none => s
  | some l =>
    if !l.dirty then (s.evictLine key).corrected part 0x01 7 (hashSlice va)
    else if inTag then
      ({ s with lines := Tbl.del s.lines key }.meet 169).fatalPartition part 0x01 (part * 2048) 7 (hashSlice va) 0
    else
      let s := match s.linePhys key with
        | some a => s.poisonSector (a + offset)
        | none => s
      (s.evictLine key).report part 1 0x01 l.cid 7 (hashSlice va) (BitVec.ofNat 64 (va + offset / 32 * 32)) 2 0

/-- A side-log entry whose data is damaged poisons what it writes (R453). -/
def LogEntry.poisoned (e : LogEntry) : LogEntry :=
  { e with
    writes := e.writes.map fun w => { w with poison := some true }
    op := match e.op with
      | .store => .store
      | .atom op ty va b c _ => .atom op ty va b c true
      | .mxadd fmt rm va src hi draws _ => .mxadd fmt rm va src hi draws true
      | .fold va v _ => .fold va v true }
/-- An uncorrectable error in a side-log entry: in its data; in its address or mask, which is fatal to its context; or in
its CID too, which is fatal to the partition whose page it is (R453). -/
def State.logError (s : State) (i place : Nat) : State :=
  match s.log[i]? with
  | none => s
  | some e =>
    let s := s.meet e.core
    let gone : State := (s.keepLog (· != e)).meet e.core
    match place with
    | 0 => ({ s with log := s.log.set i e.poisoned } : State).report e.part 1 0x01 e.cid 1 e.core 0 0 0
    | 1 => gone.fatalContext e.part 0x0F e.cid 0
    | _ =>
      let owner := ownerPart e.va e.part
      gone.fatalPartition owner 0x0F (owner * 2048) 1 e.core 0

/-- An uncorrectable error in an owner record: the frame counts as shared (R455). -/
def State.ownerError (s : State) (home frame : Nat) : State :=
  let key := ownerKey home (frame * 65536 + if home = 1 then lpBase else 0)
  let (p, i) := (s.holderOf home frame).getD (0, 0)
  ({ s with owners := Tbl.ins s.owners key .shared }.meet 169).report p 1 0x07 (p * 2048) 0 0 (frameWord home i) 4 0

/-- An uncorrectable error in a register, an accumulator row or an operand latch: it is poisoned (R409). -/
def State.registerError (s : State) (t : Tid) (n : Nat) : State :=
  let th := s.thr t
  if !th.live then s
  else
    let s := if n < 128 then s.setGOf t n { Tbl.get {} (if s.handlerReg t n then th.h else th.g) (if s.handlerReg t n then n - 124 else n) with poison := true }
      else s.modThr t fun th => { th with v := Tbl.put {} th.v (n - 128) { Tbl.get {} th.v (n - 128) with poison := true } }
    (s.meet (tidSource t)).report th.part 1 0x07 th.cid (if isService t then 3 else 1) (tidCore t) 0 0 0
def State.rowError (s : State) (uid k row : Nat) : State :=
  match s.units.find? uid with
  | none => s
  | some u =>
    (s.setAcc k (AccTile.setRow (s.accTile k) row { AccTile.row (s.accTile k) row with poison := true })).meet u.core |>.report u.part 1 0x07
      u.cid 1 u.core 0 0 0
def State.latchError (s : State) (uid group : Nat) : State :=
  match s.units.find? uid with
  | none => s
  | some u =>
    let bad (g : Group) : Group := { g with latch := g.latch.map fun l =>
      (l.1, (List.range 256).foldl (fun t i => Tbl.ins t i { Tbl.get zeroLit t i with poison := true }) l.2) }
    (s.modUnit uid fun u => u.modGroup group bad).meet u.core |>.report u.part 1 0x07 u.cid 1 u.core 0 0 0

/-- Control state of a unit or of a thread's PC and level is fatal to the context (R409). -/
def State.unitError (s : State) (uid : Nat) : State :=
  match s.units.find? uid with
  | none => s
  | some u => (s.meet u.core).fatalContext u.part 0x07 u.cid 0

/-- A unit that fails training at a resume is retired as at run time (R479). -/
def State.trainingFailed (s : State) (retire : State → State) (kind n : Nat) : State :=
  if s.boot.power ≠ .resuming ∨ s.boot.retList.contains (kind, n) then s
  else retire { s with boot := { s.boot.retireOne (kind, n) with retList := s.boot.retList ++ [(kind, n)] } }

/-- Kinds of damaged state beyond the memories that PATROL_SCRUB names. -/
inductive Damaged where
  /-- a sector of an LLC line; its tag or lease state -/
  | line | lineTag
  /-- an owner record, a shadow entry, a side-log entry -/
  | owner | shadow | log
  /-- a g or v register, an accumulator row, an operand latch -/
  | register | row | latch
  /-- tile table, convergence register, barrier, pair record, PC or level -/
  | control
  /-- scheduler, launch-queue or chain state of a partition -/
  | scheduler
  /-- a die-fabric message that retries do not repair -/
  | message
  /-- a clean copy: an L1 line, a line of the instruction path, of the fabric cache, a cached translation -/
  | copy
  /-- an entry of the PC table of an issue-group builder -/
  | pcTable
  /-- a sector of memory, met by the access of a thread -/
  | met
  deriving DecidableEq, Repr

/-- A clean copy of a kind: 0 a line of a core's L1, 1 of its instruction path, 2 of the fabric cache, 3 a cached
translation. -/
inductive Copy where
  | l1 (core key : Nat)
  | code (core key : Nat)
  | fabric (key : Nat)
  | xlate (key : Nat)
  deriving DecidableEq, Repr
/-- The copy that the operands of the event name. -/
def copyAt (at_ offset : Nat) : Copy :=
  match offset % 4 with
  | 0 => .l1 (at_ % 32) (at_ / 32)
  | 1 => .code (at_ % 128) (at_ / 128)
  | 2 => .fabric at_
  | _ => .xlate at_
/-- A damaged clean copy goes: it is fetched, or walked, again (R409, R464). -/
def State.dropCopy (s : State) : Copy → State
  | .l1 core key => { s with l1 := Tbl.adjust s.l1 core fun t => Tbl.del t key }
  | .code core key => { s with ipath := Tbl.adjust s.ipath core fun t => Tbl.del t key }
  | .fabric key => { s with fcache := Tbl.del s.fcache key }
  | .xlate key => { s with tlb := Tbl.del s.tlb key }
/-- The partition that holds a compute core: of a pool, the one whose turn runs (R409). -/
def State.coreHolder (s : State) (core : Nat) : Nat :=
  match s.pools.find? fun t => t.cores.getLsbD core with
  | some t => t.holder
  | none => (s.parts.keys.find? fun p => (s.part p).present && (s.part p).cores.getLsbD core).getD 0
/-- The partition that a source of instructions is charged for: a compute core's holder, a service or general core's owner. -/
def State.sourceHolder (s : State) (src : Nat) : Nat :=
  if src < 32 then s.coreHolder src
  else (s.parts.keys.find? fun p => (s.part p).present && (s.part p).ownsCore (src - 64)).getD 0

/-- The partition that a correctable error is charged to. -/
def State.chargedFor (s : State) (d : Damaged) (at_ offset : Nat) : Nat :=
  match d with
  | .line | .lineTag => linePart at_
  | .log => ((s.log[at_]?).map LogEntry.part).getD 0
  | .register => (s.thr at_).part
  | .row | .latch | .control => ((s.units.find? at_).map UnitRec.part).getD 0
  | .scheduler => at_
  | .message => at_ / 2048
  | .owner => ((s.holderOf (offset % 2) at_).map Prod.fst).getD 0
  | .shadow => linePart (at_ / 4)
  | .pcTable => (s.thr at_).part
  | .met => (s.thr at_).part
  | .copy => match copyAt at_ offset with
    | .l1 core _ => s.coreHolder core
    | .code core _ => s.sourceHolder core
    | .fabric key => key / 2 ^ 45 % 128
    | .xlate key => let tag := key / 2 ^ 44
                    if tag < 65536 then tag / 2048 else 0
/-- KIND of a correctable error. -/
def Damaged.kind : Damaged → Nat
  | .line | .lineTag | .log | .copy | .shadow | .owner => 0x01
  | .message => 0x09
  | _ => 0x07
/-- UKIND and UNIT of a correctable error (R411): a slice, a core, or none. -/
def State.damagedUnit (s : State) (d : Damaged) (at_ offset : Nat) : Nat × Nat :=
  match d with
  | .line | .lineTag => (7, hashSlice (keyVa at_))
  | .shadow => (7, hashSlice (keyVa (at_ / 4)))
  | .log => (1, ((s.log[at_]?).map LogEntry.core).getD 0)
  | .register | .pcTable => (if isService at_ then 3 else 1, tidCore at_)
  | .row | .latch | .control => (1, ((s.units.find? at_).map UnitRec.core).getD 0)
  | .copy => match copyAt at_ offset with
    | .l1 core _ => (1, core)
    | .code core _ => if core < 32 then (1, core) else (3, core - 64)
    | _ => (0, 0)
  | _ => (0, 0)

/-- Record kind, UKIND and UNIT of a sector of a memory, by its physical address (R411, R464). -/
def memUnit (at_ : Nat) : Nat × Nat × Nat :=
  if at_ < lpBase then (0x02, 2, at_ / 65536 % 256)
  else if at_ < carveBase then (0x03, 0, 0)
  else if at_ < tileStoreBase then (0x01, 0, 0)
  else (0x01, 1, (at_ - tileStoreBase) / 2 ^ 23)
/-- A thread's access meets an uncorrectable sector: it is poisoned, and the record names the thread's context and the
sector's VA (R409, R411, R414). -/
def State.metError (s : State) (t : Tid) (va : Nat) : State :=
  let th := s.thr t
  let w : Who := { source := tidSource t, part := th.part, asid := th.asid, priv := decide (1 ≤ th.level), cid := th.cid }
  if !th.live ∨ 2 ^ 60 ≤ va then s
  else match (s.place w va .load none).1 with
  | .ok p =>
    if p.copy.isSome then s
    else
      let at_ := p.phys + va % 128 / 32 * 32
      let s := s.leaseStore w.source [at_ / 128]
      let s := { s with mem := s.mem.setPois at_ true }.meet w.source
      s.report th.part 1 (memUnit at_).1 th.cid (memUnit at_).2.1 (memUnit at_).2.2 (BitVec.ofNat 64 (va / 32 * 32)) 2 0
  | _ => s

/-- Damage at a place, which `at_` and `offset` name as its kind needs: a line's key and byte; a frame and its home; a
sector's key; an entry's index and field; a thread and register (v registers from 128); a unit with an accumulator (offset / 64)
and row or with a group; a partition; a CID; a clean copy (`copyAt`); a thread; a thread and the VA it accesses. -/
def State.damage (s : State) (d : Damaged) (at_ offset : Nat) : State :=
  match d with
  | .line => s.lineError at_ (offset % 128) false
  | .lineTag => s.lineError at_ 0 true
  | .owner => s.ownerError (offset % 2) at_
  | .shadow => { s with shadow := s.shadow.filter fun e => e.1 != at_ }
  | .log => s.logError at_ offset
  | .register => s.registerError at_ (offset % 160)
  | .row => s.rowError at_ (offset / 64) (offset % 64)
  | .latch => s.latchError at_ offset
  | .control => s.unitError at_
  | .scheduler => (s.meet 163).fatalPartition (at_ % 32) 0x07 (at_ % 32 * 2048) 0 0 0
  | .message => (s.meet 169).fatalContext (at_ / 2048 % 32) 0x09 (at_ % 65536) 0
  | .copy => (s.dropCopy (copyAt at_ offset)).corrected (s.chargedFor d at_ offset) 0x01 (s.damagedUnit d at_ offset).1
      (s.damagedUnit d at_ offset).2
  -- the thread is left out of a bundle: counted, and no record (R36, R432)
  | .pcTable => s.countOnly (s.thr at_).part
  | .met => s.metError at_ offset

/-- An error that the hardware detects there: a correctable one is counted. -/
def State.errorIn (s : State) (d : Damaged) (at_ offset : Nat) (correctable : Bool) : State :=
  if d = .pcTable ∨ !correctable then s.damage d at_ offset
  else
    let (ukind, unit) := s.damagedUnit d at_ offset
    let s := if d = .copy then s.dropCopy (copyAt at_ offset) else s
    s.corrected (s.chargedFor d at_ offset) d.kind ukind unit

/-- The kinds in the order in which the event's operand numbers them, from 5. -/
def damagedKinds : List Damaged :=
  [.line, .lineTag, .owner, .shadow, .log, .register, .row, .latch, .control, .scheduler, .message, .copy]

end Sys2Proof.Machine
end

