-- ==== Sys2Proof/Machine/Power.lean ====
section
/-!
DEFINITION. Suspend, Retention and resume, the mailbox, retirement and patrol scrubbing (R19 to R23, R395, R396, R398 to
R400, R415, R459, R465, R478, R479).
-/
namespace Sys2Proof.Machine

/-! ### The mailbox (R396) -/

/-- The Chamois pair in partition 0's address space 0 (R100). -/
def mboxWho : Who := blockWho 169 0
def mbOK := 0
def mbBUSY := 1
def mbRANGE := 2
def mbUNKNOWN := 0xFF

/-- A block of partition 0's memory: its bytes, and whether a sector is poisoned. -/
inductive Block where
  | ok (v : Nat) (poison : Bool)
  | denied
  | absent
  deriving DecidableEq, Repr
def State.mboxRead (s : State) (va n : Nat) : Block × State :=
  match s.blockRead mboxWho va n 0 with
  | (.ok _, v, p, s) => (.ok v p, s)
  | (.absent _ _, _, _, s) => (.absent, s)
  | (_, _, _, s) => (.denied, s)
/-- HEAD and TAIL of the control block, which lie in one sector. -/
def State.mboxIndices (s : State) : Block × State := s.mboxRead s.boot.mboxBase.toNat 16
/-- Address of the record at an index of the ring, which follows the 64-byte control block. -/
def State.mboxRec (s : State) (i : Nat) : Nat := s.boot.mboxBase.toNat + 64 + 64 * (i % 2 ^ s.boot.mboxSize)

/-- The next request: its index and its record. Requests are served one at a time: while one waits for a suspend there is
no next one. A poisoned index is not used (R414). -/
def State.mboxNext (s : State) : Option (Nat × Nat × Bool) :=
  if s.boot.mboxSize = 0 ∨ s.boot.mboxReply ≠ [] then none
  else match s.mboxIndices.1 with
  | .ok v false =>
    if v % 2 ^ 64 = v / 2 ^ 64 then none
    else match (s.mboxRead (s.mboxRec (v % 2 ^ 64)) 64).1 with
    | .ok x p => some (v % 2 ^ 64, x, p)
    | _ => none
  | _ => none
/-- The Chamois pair looks at a mailbox that gives no request: an absent page posts its fault (R109), and poison of HEAD or TAIL
is reported, once until a request is served (R414). -/
def State.mboxLook (s : State) : State :=
  if s.boot.mboxSize = 0 ∨ s.boot.mboxReply ≠ [] then s
  else match s.mboxIndices with
  | (.absent, t) => t
  | (.ok _ true, _) =>
    if s.boot.mboxEaten then s
    else ({ s with boot := { s.boot with mboxEaten := true } } : State).report 0 1 0x08 0 0 0 0 0 9
  | (.ok v false, _) =>
    if v % 2 ^ 64 = v / 2 ^ 64 then s
    else match s.mboxRead (s.mboxRec (v % 2 ^ 64)) 64 with
    | (.absent, t) => t
    | _ => s
  | (.denied, _) => s

/-- Write a status into a request, and then HEAD, at milestones of source 169. -/
def State.mboxAnswer (s : State) (i status : Nat) : State :=
  let s := ({ s with boot := { s.boot with mboxEaten := false } } : State).setMs 169 (s.msOf 169 + 1)
  let s := (s.blockWrite mboxWho (s.mboxRec i + 1) 1 status 1).2
  let s := s.setMs 169 (s.msOf 169 + 1)
  (s.blockWrite mboxWho s.boot.mboxBase.toNat 8 ((i + 1) % 2 ^ 64) 1).2

/-- Serve the next request when its OP is wanted; a poisoned one has status RANGE (R414). -/
def State.mailbox (s : State) (want : Nat → Bool) (act : Nat → Nat → Nat → State → Option Nat × State) : State :=
  match s.mboxNext with
  | none => s.mboxLook
  | some (i, v, p) =>
    if !want (v % 256) then s
    else if p then (s.report 0 1 0x08 0 0 0 0 0 9).mboxAnswer i mbRANGE
    else match act i (v / 2 ^ 64 % 2 ^ 64) (v / 2 ^ 128 % 2 ^ 64) s with
      | (some status, s) => s.mboxAnswer i status
      | (none, s) => s

/-! ### Suspend (R21, R399, R400) -/

/-- One second in femtoseconds. -/
def secFs : Nat := 10 ^ 15

/-- Sleeps of service threads count no clock of a suspend or a resume: their remaining counts stand from its command to its
end (R52, R245). -/
def State.freezeSleeps (s : State) : State :=
  { s with threads := s.threads.map fun e => if isService e.1 then (e.1, e.2.freeze (s.clockOf e.1)) else e }
def State.thawSleeps (s : State) : State :=
  { s with threads := s.threads.map fun e => if isService e.1 then (e.1, e.2.thaw (s.clockOf e.1)) else e }

/-- A suspend command: every partition's units stop. A second one joins the first. -/
def State.beginSuspend (s : State) (secs : Nat) : State :=
  if s.boot.power ≠ .running then s
  else
    let s := s.freezeSleeps
    let s := { s with boot := { s.boot with power := .suspending, cmdAt := s.rt, wakeSecs := secs, wakePending := false } }
    s.parts.keys.foldl (fun (s : State) p =>
      if (s.part p).present then preemptionStop p (s.part p).cores .suspend s else s) s

def execSuspN (s : State) : Out := event (fun s => s.beginSuspend 0) s
def execManagementSuspend (s : State) : Out := event (fun s => s.beginSuspend 0) s

/-- The SUSPEND request: it is answered when the suspend has ended. -/
def suspendAct (i secs _ : Nat) (s : State) : Option Nat × State :=
  let s := s.beginSuspend secs
  (none, { s with boot := { s.boot with mboxReply := s.boot.mboxReply ++ [i] } })
def execSuspend (s : State) : Out := event (fun s => s.mailbox (· == 1) suspendAct) s

/-- Answer the requests that wait for the suspend. -/
def State.answerSuspend (s : State) (status : Nat) : State :=
  let is := s.boot.mboxReply
  is.foldl (fun s i => s.mboxAnswer i status) { s with boot := { s.boot with mboxReply := [] } }

/-- What remote pages answered is used no longer: fabric caches and lines given to threads (R22). -/
def State.dropReplies (s : State) : State :=
  { s with fcache := [], threads := s.threads.mapVals fun th => { th with reply := none } }
/-- The suspend is abandoned: the package runs again, and saved units, those that still stop among them, are placed again
(R478): their pre-emption goes on as one of running. -/
def State.abandon (s : State) : State :=
  let again (r : StopRec) : StopRec :=
    if r.has .suspend then
      { r with reqs := r.reqs.map fun q => (if q.1 = .suspend then .partctl else q.1, q.2), startAt := s.rt }
    else r
  let s := { s.dropReplies with
    stops := s.stops.map again, boot := { s.boot with power := .running, wakePending := false } }
  (s.thawSleeps.answerSuspend mbBUSY).report 0 0 0x10 0 0 0 0 0 0

/-- What a side-log entry holds (R450), with its source core. -/
def LogEntry.words (e : LogEntry) : List Nat :=
  let b (x : Bool) : Nat := bit1 x
  let op : List Nat := match e.op with
    | .store => [0]
    | .atom op ty va x y poison => [1, op, ty, va, x.toNat, y.toNat, b poison]
    | .mxadd fmt rm va src hi draws poison =>
      [2, fmt, rm, va, src.sec.toNat, src.side.toNat, src.tag.toNat, b src.poison, b hi, b poison] ++ draws
    | .fold va v poison => [3, va, v.toNat, b poison]
  let write (w : SecWrite) : List Nat :=
    [w.va, w.n, w.val] ++ (match w.side with
      | some x => [1, x.toNat]
      | none => [0]) ++ (match w.poison with
      | some x => [1, b x]
      | none => [0])
  [e.core, e.tag, e.va, e.ms, e.source, e.seq, e.cid, e.part, e.asid, b e.priv, e.writes.length] ++ op ++ e.writes.flatMap write
/-- The eight sectors of an entry in a save area. -/
def LogEntry.image (e : LogEntry) : List SectorLit :=
  let word (k : Nat) : Dword := Config.logWord e.words k
  (List.range 8).map fun i => { data := word (4 * i + 3) ++ word (4 * i + 2) ++ word (4 * i + 1) ++ word (4 * i), side := 0, poison := false }

/-- The unresolved side-log entries of a partition go into its save area, after its unit images, 256 bytes each, in ascending retirement key (R21,
R326). -/
def State.saveLog (s : State) (part : Nat) : Option State :=
  let mine := sortLog (s.log.filter fun e => e.part == part)
  if mine = [] then some s
  else (s.roomAfter part (256 * mine.length)).map fun (off, s) => s.saveSectors part (part * 2048) off (mine.flatMap LogEntry.image)

/-- A partition's side-log entries go into its save area; too small an area is fatal to it, and its units and entries are
discarded (R478). -/
def State.savePart (s : State) (part : Nat) : State :=
  match s.saveLog part with
  | some s => s
  | none => (s.dropLog part).fatalPartition part 0x10 (part * 2048) 0 0 0

/-- A tag of the carve-out, whose sectors lie in no cache. -/
def tagOfCarve (tag : Nat) : Bool := decide (65537 ≤ tag)
/-- Caches lose their contents after write-back (R21): L1, LLC, instruction paths, translations, fabric cache, and the
reads of flash in progress. -/
def State.dropCaches (s : State) : State :=
  let s := (s.lines.filter fun l => l.2.dirty).foldl (fun (s : State) (l : Nat × Line) => s.writeBack l.1) s
  let s := s.flash.foldl (fun (s : State) f => s.wakeLine f.key) s
  let s := { s with parts := s.parts.mapVals fun p => { p with pool := { p.pool with cached := [] } } }
  { s with lines := [], l1 := [], ipath := [], tlb := [], fcache := [], flash := [], shadow := s.shadow.filter fun e => tagOfCarve (e.1 / 2 ^ 55) }

/-- A resume: the dies are powered, every source's milestone is at least the largest saved, the side logs are loaded back,
transport contexts reopen (R399, R473). -/
def State.beginResume (s : State) : State :=
  match s.boot.resume with
  | none => s
  | some r =>
    let s := (List.range 171).foldl (fun (s : State) src => s.atLeastMs src r.ms) s
    { s.dropReplies with
      log := r.side, msSync := r.ms
      parts := s.parts.mapVals fun p => { p with closed := [] }
      cmds := s.cmds.mapVals fun c => if c.unacked then { c with sentAt := s.rt } else c
      reqs := s.reqs.mapVals fun q => { q with sentAt := s.rt }
      boot := { s.boot with
        power := .resuming, resume := none, resumedAt := some s.rt, cmdAt := s.rt, late := false, wakeAt := none, wakePending := false } }

/-- SUSPEND_SAVE: once every stop is done, the save areas are filled, caches written back, memories refreshed, and power
removed (R21). -/
def suspendSave (selfRefreshOk : Bool) (s : State) : State :=
  if s.boot.power ≠ .suspending ∨ s.stops.any fun r => r.has .suspend then s
  else if !selfRefreshOk then s.abandon
  else
    let s := (s.parts.keys.foldl State.savePart s).dropCaches
    if s.boot.power ≠ .suspending then s
    else
      let r : Resume :=
        { ms := s.ms.foldl (fun m e => max m e.2) 0, clock := s.now, marked := s.parts.keys.filter fun p => (s.part p).fatal
          side := s.log }
      let s := { s with boot := { s.boot with
        power := .retention, resume := some r
        wakeAt := if s.boot.wakeSecs = 0 then none else some (s.rt + s.boot.wakeSecs * secFs) } }
      if s.boot.wakePending then s.beginResume else s
def execSuspendSave (selfRefreshOk : Bool) (s : State) : Out := event (suspendSave selfRefreshOk) s

/-- SUSPEND_COLLECTOR_TIMEOUT: at 1.5 s a partition that still has an engine at work is fatal (R478). -/
def suspendCollectorTimeout (s : State) : State :=
  if s.boot.power ≠ .suspending ∨ s.rt < s.boot.cmdAt + 3 * secFs / 2 then s
  else
    (s.parts.keys.filter fun p => s.collecting p).foldl (fun (s : State) p =>
      let s := s.fatalPartition p 0x13 (p * 2048) 0 0 0
      { s with stops := s.stops.filter fun r => r.part != p }) s
def execSuspendCollectorTimeout (s : State) : Out := event suspendCollectorTimeout s

/-- SUSPEND_DEADLINE: Retention not reached at 2.0 s (R478). -/
def suspendDeadline (s : State) : State :=
  if s.boot.power ≠ .suspending ∨ s.rt < s.boot.cmdAt + 2 * secFs then s else s.abandon
def execSuspendDeadline (s : State) : Out := event suspendDeadline s

/-! ### Resume (R399, R479) -/

/-- WAKE_N, and the wake timer: a damaged resume record leads to a cold boot. -/
def wake (recordOk : Bool) (s : State) : State := if recordOk then s.beginResume else s.powerOff.bootFrom
def wakeN (recordOk : Bool) (s : State) : State :=
  match s.boot.power with
  | .retention => wake recordOk s
  | .suspending => { s with boot := { s.boot with wakePending := true } }
  | _ => s
def execWakeN (recordOk : Bool) (s : State) : Out := eventAny (wakeN recordOk) s
def wakeTimerExpiry (recordOk : Bool) (s : State) : State :=
  if s.boot.power = .retention ∧ s.boot.wakeAt.isSome then wake recordOk s else s
def execWakeTimerExpiry (recordOk : Bool) (s : State) : Out := eventAny (wakeTimerExpiry recordOk) s

/-- The package runs again; the suspend's requests are answered. -/
def State.endResume (s : State) : State :=
  ({ s.thawSleeps with boot := { s.boot with power := .running } } : State).answerSuspend mbOK

/-- RESUME_DEADLINE: Running not reached within 2.5 s is reported, once (R479). -/
def resumeDeadline (s : State) : State :=
  if s.boot.power ≠ .resuming ∨ s.boot.late ∨ s.rt < s.boot.cmdAt + 5 * secFs / 2 then s
  else ({ s with boot := { s.boot with late := true } } : State).report 0 0 0x10 0 0 0 0 0 0
def execResumeDeadline (s : State) : Out := event resumeDeadline s

/-- RESUME_PARTICIPANT_TIMEOUT: a tree is held no longer, or a package of it has not resumed within 10 s (R479). -/
def resumeParticipantTimeout (tree : Nat) (s : State) : State :=
  match s.boot.resumedAt with
  | some t => if s.rt < t + 10 * secFs then s else s.failTree (BitVec.ofNat 32 tree) fun _ => true
  | none => s
def execResumeParticipantTimeout (tree : Nat) (s : State) : Out := event (resumeParticipantTimeout tree) s

/-! ### Quotes and measurements (R394, R395) -/

/-- The 1,024 bytes of a quote. -/
def State.quote (s : State) (nonce : List Byte) : List Byte :=
  let zeros := List.replicate 124 (0 : Byte)
  let head := (List.range 64).map (fun i => nonce.getD i 0) ++ s.boot.measures.flatMap id ++
    (List.range 64).map Config.deviceKeyDigest ++ bytesLE 4 s.boot.version ++ zeros
  head ++ (List.range 132).map (Config.deviceSignature head) ++ zeros

/-- A number as bytes, and back. -/
def natOfBytes (l : List Byte) : Nat := l.foldr (fun (x : Byte) acc => x.toNat + 256 * acc) 0

/-- QUOTE. -/
def quoteAct (_ src dst : Nat) (s : State) : Option Nat × State :=
  match s.mboxRead src 64 with
  | (.absent, s) => (none, s)
  | (.denied, s) => (some mbRANGE, s)
  | (.ok v p, s) =>
    if p then (some mbRANGE, s.report 0 1 0x08 0 0 0 0 0 9)
    else
      match (s.setMs 169 (s.msOf 169 + 1)).blockWrite mboxWho dst 1024 (natOfBytes (s.quote (bytesLE 64 v))) 1 with
      | (.ok _, s) => (some mbOK, s)
      | (.absent _ _, s) => (none, s)
      | (_, s) => (some mbRANGE, s)
def execQuote (s : State) : Out := event (fun s => s.mailbox (· == 2) quoteAct) s

def execManagementQuote (nonce : List Byte) (s : State) : Out :=
  event (fun s => { s with boot := { s.boot with mgmtOut := s.quote nonce :: s.boot.mgmtOut } }) s

/-- EXTEND. -/
def extendAct (_ src arg : Nat) (s : State) : Option Nat × State :=
  let i := arg % 8
  let n := arg / 2 ^ 32
  if i < 4 ∨ n = 0 ∨ 4096 < n then (some mbRANGE, s)
  else match s.mboxRead src n with
  | (.absent, s) => (none, s)
  | (.denied, s) => (some mbRANGE, s)
  | (.ok v p, s) =>
    if p then (some mbRANGE, s.report 0 1 0x08 0 0 0 0 0 9)
    else (some mbOK, { s with boot := { s.boot with measures := extendMeasure s.boot.measures i (bytesLE n v) } })
def execExtend (s : State) : Out := event (fun s => s.mailbox (· == 4) extendAct) s

/-- MAILBOX_UNKNOWN. -/
def execMailboxUnknown (s : State) : Out :=
  event (fun s => s.mailbox (fun op => op == 0 || decide (4 < op)) fun _ _ _ s => (some mbUNKNOWN, s)) s

/-! ### Retirement (R415) -/

/-- A compute core: its units are saved, and its partitions lose it. -/
def State.retireCore (s : State) (k : Nat) : State :=
  let bit : BitVec 32 := BitVec.ofNat 32 (2 ^ k)
  let parts := s.parts.keys.filter fun p => (s.part p).cores.getLsbD k
  let s := parts.foldl (fun (s : State) p =>
    let s := if s.onCores p bit then preemptionStop p bit .partctl s else s
    (s.modPart p fun p => { p with cores := p.cores &&& ~~~bit }).requeue p) s
  let s := s.mapParts fun p => { p with leaving := p.leaving.map fun l => (l.1 &&& ~~~bit, l.2) }
  { s with pools := s.pools.map fun t => { t with cores := t.cores &&& ~~~bit } }

/-- A KV frame with an uncorrectable sector: PSN, prefix entries, references (R459). -/
def State.poisonKv (s : State) (part h : Nat) : State :=
  let s := s.setMs 164 (s.msOf 164 + 1)
  let s := s.modFrame part h fun f => { f with psn := true }
  let gone := (s.pool part).pfx.filter fun e => e.2.handle == h
  let s := s.modPool part fun k => { k with pfx := k.pfx.filter fun e => e.2.handle != h }
  (gone.foldl (fun s _ => s.dropRef part h) s).freeIfUnused part h

/-- The record of an uncorrectable error in a KV frame: the channel that holds the data, if any, and the partition frame. -/
def State.reportKv (s : State) (part home i owner phys : Nat) : State :=
  let kind := if home = 0 then 0x02 else 0x03
  let (ukind, unit) := if home = 0 then (2, phys % 256) else (0, 0)
  (s.meet 169).report part 1 kind owner ukind unit (BitVec.ofNat 64 (home * 2 ^ 40 + i)) 4 0

/-- An HBM4E channel: its sectors read poisoned, and KV frames whose data lies on it take PSN, with all that R459 does to a
frame with an uncorrectable error. -/
def State.retireChan (s : State) (k : Nat) : State :=
  let s := { s with mem := { s.mem with dead := setBit s.mem.dead k true } }
  let lost : List (Nat × Nat × Frame) := s.parts.flatMap fun e => e.2.pool.frames.filterMap fun f =>
    match if f.2.spilled then none else s.frameAddr e.1 0 f.2.frame with
    | some a => if a / 65536 % 256 = k then some (e.1, f.1, f.2) else none
    | none => none
  lost.foldl (fun s x => (s.poisonKv x.1 x.2.1).reportKv x.1 0 x.2.2.frame x.2.2.owner k) s

/-- A general core: its processes stop; a service core is fatal to its partition. -/
def State.retireGcore (s : State) (k : Nat) : State :=
  match List.find? (fun (e : Nat × Part) => e.2.present && e.2.svc == some k) s.parts with
  | some (p, _) => s.fatalPartition p 0x11 (p * 2048) 3 k 0
  | none =>
    let stop (e : Tid × Thread) : Tid × Thread :=
      if isService e.1 && !isOryx e.1 && tidCore e.1 == k then (e.1, { e.2 with wait := .stopped }) else e
    { s.dropWaits (fun t => isService t && !isOryx t && tidCore t == k) with
      threads := s.threads.map stop
      parts := s.parts.mapVals fun p => { p with gcores := setBit p.gcores k false } }

/-- The APPEND of an extent has not completed: its pages can be programmed again from the source (R469). -/
def State.appending (s : State) (part : Nat) (e : Extent) : Bool :=
  s.cmds.any fun c => c.2.part == part && c.2.engine == 161 && c.2.phase == .issued && c.2.extent == some e
/-- An HBF die: which extents have pages on it is free. An open group is marked failed where one of them is of a completed
APPEND (R469). A durable group survives whole (R166). -/
def State.retireDie (s : State) : State :=
  let fail (part : Nat) (acc : List OpenGroup × Nat) (g : OpenGroup) : List OpenGroup × Nat :=
    let lost := !g.durable && (g.extents.any fun e => !s.appending part e) && Config.freeChoice acc.2
    (acc.1 ++ [{ g with failed := g.failed || lost }], acc.2 + 1)
  let stream (part : Nat) (acc : Tbl Stream × Nat) (e : Nat × Stream) : Tbl Stream × Nat :=
    let r := e.2.groups.foldl (fail part) ([], acc.2)
    (acc.1 ++ [(e.1, { e.2 with groups := r.1 })], r.2)
  let part (acc : Tbl Part × Nat) (e : Nat × Part) : Tbl Part × Nat :=
    let r := e.2.streams.foldl (stream e.1) ([], acc.2)
    (acc.1 ++ [(e.1, { e.2 with streams := r.1 })], r.2)
  let r := s.parts.foldl part ([], s.free)
  { s with parts := r.1, free := r.2 }

/-- Units of each kind (R14). -/
def unitsOfKind : Nat → Nat
  | 1 => 32
  | 2 => 256
  | 3 => 96
  | 4 => 64
  | 5 => 32
  | _ => 0

/-- RETIRE. -/
def retireAct (_ unit _ : Nat) (s : State) : Option Nat × State :=
  let kind := unit / 2 ^ 56
  let n := unit % 2 ^ 16
  if unitsOfKind kind ≤ n then (some mbRANGE, s)
  else if s.boot.retList.contains (kind, n) then (some mbOK, s)
  else
    let s := { s with boot := { s.boot.retireOne (kind, n) with retList := s.boot.retList ++ [(kind, n)] } }
    (some mbOK, match kind with
      | 1 => s.retireCore n
      | 2 => s.retireChan n
      | 3 => s.retireGcore n
      | 4 => s.retireDie
      | _ => portFailure n s)
def execRetire (s : State) : Out := event (fun s => s.mailbox (· == 3) retireAct) s

/-! ### Patrol scrubbing (R459, R465) -/

/-- The pool frame whose data lies in a frame of a partition. -/
def State.kvHandleAt (s : State) (part home frame : Nat) : Option (Nat × Frame) :=
  List.find? (fun (e : Nat × Frame) => e.2.spilled == (home == 1) && e.2.frame == frame) (s.pool part).frames

/-- An uncorrectable sector of a frame of HBM4E or LPDDR-6. -/
def State.scrubFrame (s : State) (home frame addr : Nat) : State :=
  let s := (s.setMs 169 (s.msOf 169 + 1)).poisonSector addr
  let kind := if home = 0 then 0x02 else 0x03
  let (ukind, unit) := if home = 0 then (2, frame % 256) else (0, 0)
  match s.holderOf home frame with
  | none => s.report 0 1 kind 0 ukind unit 0 0 0
  | some (p, i) =>
    match if s.kvFrame p home i then s.kvHandleAt p home i else none with
    | some (h, f) => (s.poisonKv p h).reportKv p home i f.owner frame
    | none => s.report p 1 kind (p * 2048) ukind unit (frameWord home i) 4 0

/-- The partition that holds a block of SRAM: a carved way, or a core's tile store. -/
def State.sramHolder (s : State) (home frame : Nat) : Nat :=
  let has (p : Part) : Bool := p.present && (if home = 3 then p.carve.getLsbD frame else p.cores.getLsbD frame)
  match List.find? (fun (e : Nat × UnitRec) => home == 4 && e.2.core == frame) s.units with
  | some e => e.2.part
  | none => (s.parts.keys.find? fun p => has (s.part p)).getD 0

/-- An error in a sector of a memory: `home` is 0 for HBM4E, 1 for LPDDR-6, 3 for a carved way, 4 for a tile store; `frame`
is physical. -/
def State.scrubSector (s : State) (home frame offset : Nat) (correctable : Bool) : State :=
  let size := if home = 3 then 2 ^ 24 else if home = 4 then 2 ^ 23 else 65536
  let count := match home with
    | 0 => Config.hbmChannels * Config.framesPerChannel
    | 1 => Config.lpddrFrames
    | 3 => 96
    | 4 => 32
    | _ => 0
  if count ≤ frame ∨ size ≤ offset then s
  else
    let base := match home with
      | 0 => 0
      | 1 => lpBase
      | 3 => carveBase
      | _ => tileStoreBase
    let addr := base + frame * size + offset
    let part := if home < 2 then ((s.holderOf home frame).map Prod.fst).getD 0 else s.sramHolder home frame
    let kind := if home = 0 then 0x02 else if home = 1 then 0x03 else 0x01
    let (ukind, unit) := if home = 0 then (2, frame % 256) else if home = 4 then (1, frame) else (0, 0)
    if correctable then s.corrected part kind ukind unit
    else if home < 2 then s.scrubFrame home frame addr
    else
      ((s.setMs 169 (s.msOf 169 + 1)).poisonSector addr).report part 1 kind (part * 2048) ukind unit 0 0 0
/-- PATROL_SCRUB: a sector in error; from 5 on, `home` names another kind of state in which an error is detected (R409, R464),
17 and 18 a core and a channel that fail training at a resume (R479), 19 a memory sector in error that a thread's access meets, 20
an entry of a PC table (R432) and 21 the loss of a rail (R409). -/
def patrolScrub (home frame offset : Nat) (correctable : Bool) (s : State) : State :=
  match damagedKinds[home - 5]? with
  | some d => if home < 5 then s.scrubSector home frame offset correctable else s.errorIn d frame offset correctable
  | none =>
    if home = 17 ∧ frame < unitsOfKind 1 then s.trainingFailed (fun s => s.retireCore frame) 1 frame
    else if home = 18 ∧ frame < unitsOfKind 2 then s.trainingFailed (fun s => s.retireChan frame) 2 frame
    else if home = 19 then s.errorIn .met frame offset correctable
    else if home = 20 then s.errorIn .pcTable frame offset correctable
    else if home = 21 then chamoisFault 0x10 s
    else s
def execPatrolScrub (home frame offset : Nat) (correctable : Bool) (s : State) : Out :=
  event (patrolScrub home frame offset correctable) s

end Sys2Proof.Machine
end

