-- ==== Sys2Proof/Machine/Pred.lean ====
section
/-!
DEFINITION. Predicate instructions: PLOP3 and the two forms of PMOV (R229, R230).
-/
namespace Sys2Proof.Machine

def plop3Body (w : Fields) : M Unit := do
  let s ← get
  writeP w.d (lutBit w.fn (s.predOf w.a) (s.predOf w.b) (s.predOf w.c))
def execPlop3 (w : Fields) (s : State) : Out := runInstr (.plop3 w) w (seqBody (plop3Body w)) s
/-- p0 to p6 in bits 6:0, bit 7 set, poison clear. -/
def pmovBody (w : Fields) : M Unit := do
  writeG w.d ((← get).me.p.toNat + 128) false
def execPmov (w : Fields) (s : State) : Out := runInstr (.pmov w) w (seqBody (pmovBody w)) s
/-- Predicates whose mask bit is set take the bits of a; poison is consumed. -/
def pmovUnpackBody (w : Fields) : M Unit := do
  let a ← consume 2 (← readSrc32 2 w.a w.ext)
  let m ← consume 3 (← readSrc32 3 w.b w.ext)
  upd fun s => s.modMe fun th =>
    { th with p := (th.p &&& ~~~(BitVec.ofNat 7 m)) ||| (BitVec.ofNat 7 a &&& BitVec.ofNat 7 m) }
def execPmovUnpack (w : Fields) (s : State) : Out :=
  runInstr (.pmovUnpack w) w (seqBody (pmovUnpackBody w)) s

end Sys2Proof.Machine
end

