-- ==== Sys2Proof/Machine/Dispatch.lean ====
section
/-! DEFINITION. The meaning of every constructor of Instr, one direct call each. -/
namespace Sys2Proof.Machine

def exec (i : Instr) (s : State) : Host.Outcome State Fault Refusal :=
  match i with
  | .issueBundle core quad left => Sys2Proof.Machine.execIssueBundle core quad left s
  | .add w => Sys2Proof.Machine.execAdd w s
  | .sub w => Sys2Proof.Machine.execSub w s
  | .mul w => Sys2Proof.Machine.execMul w s
  | .mulh w => Sys2Proof.Machine.execMulh w s
  | .mad w => Sys2Proof.Machine.execMad w s
  | .div w => Sys2Proof.Machine.execDiv w s
  | .min w => Sys2Proof.Machine.execMin w s
  | .max w => Sys2Proof.Machine.execMax w s
  | .abs w => Sys2Proof.Machine.execAbs w s
  | .lop3 w => Sys2Proof.Machine.execLop3 w s
  | .shl w => Sys2Proof.Machine.execShl w s
  | .shr w => Sys2Proof.Machine.execShr w s
  | .fsh w => Sys2Proof.Machine.execFsh w s
  | .popc w => Sys2Proof.Machine.execPopc w s
  | .clz w => Sys2Proof.Machine.execClz w s
  | .brev w => Sys2Proof.Machine.execBrev w s
  | .bfx w => Sys2Proof.Machine.execBfx w s
  | .bfi w => Sys2Proof.Machine.execBfi w s
  | .sel w => Sys2Proof.Machine.execSel w s
  | .mov w => Sys2Proof.Machine.execMov w s
  | .movi w => Sys2Proof.Machine.execMovi w s
  | .addr w => Sys2Proof.Machine.execAddr w s
  | .cmp w => Sys2Proof.Machine.execCmp w s
  | .plop3 w => Sys2Proof.Machine.execPlop3 w s
  | .pmov w => Sys2Proof.Machine.execPmov w s
  | .pmovUnpack w => Sys2Proof.Machine.execPmovUnpack w s
  | .lxch w => Sys2Proof.Machine.execLxch w s
  | .vote w => Sys2Proof.Machine.execVote w s
  | .trap w => Sys2Proof.Machine.execTrap w s
  | .bkpt w => Sys2Proof.Machine.execBkpt w s
  | .bra w => Sys2Proof.Machine.execBra w s
  | .brx w => Sys2Proof.Machine.execBrx w s
  | .call w => Sys2Proof.Machine.execCall w s
  | .ret w => Sys2Proof.Machine.execRet w s
  | .exit w => Sys2Proof.Machine.execExit w s
  | .spawn w => Sys2Proof.Machine.execSpawn w s
  | .cancel w => Sys2Proof.Machine.execCancel w s
  | .cntwait w => Sys2Proof.Machine.execCntwait w s
  | .launch w => Sys2Proof.Machine.execLaunch w s
  | .bar w => Sys2Proof.Machine.execBar w s
  | .cvdecl w => Sys2Proof.Machine.execCvdecl w s
  | .cvsign w => Sys2Proof.Machine.execCvsign w s
  | .rowpass w => Sys2Proof.Machine.execRowpass w s
  | .rowwait w => Sys2Proof.Machine.execRowwait w s
  | .sleep w => Sys2Proof.Machine.execSleep w s
  | .yield w => Sys2Proof.Machine.execYield w s
  | .sleepExpiry tid => Sys2Proof.Machine.execSleepExpiry tid s
  | .ld w => Sys2Proof.Machine.execLd w s
  | .st w => Sys2Proof.Machine.execSt w s
  | .ldv w => Sys2Proof.Machine.execLdv w s
  | .stv w => Sys2Proof.Machine.execStv w s
  | .ldc w => Sys2Proof.Machine.execLdc w s
  | .pref w => Sys2Proof.Machine.execPref w s
  | .tld w => Sys2Proof.Machine.execTld w s
  | .tst w => Sys2Proof.Machine.execTst w s
  | .tsetDef w => Sys2Proof.Machine.execTsetDef w s
  | .tsetReady w => Sys2Proof.Machine.execTsetReady w s
  | .tsetEmpty w => Sys2Proof.Machine.execTsetEmpty w s
  | .tqry w => Sys2Proof.Machine.execTqry w s
  | .kvld w => Sys2Proof.Machine.execKvld w s
  | .kvapp w => Sys2Proof.Machine.execKvapp w s
  | .kvfork w => Sys2Proof.Machine.execKvfork w s
  | .kvrel w => Sys2Proof.Machine.execKvrel w s
  | .pfxhash w => Sys2Proof.Machine.execPfxhash w s
  | .pfxfind w => Sys2Proof.Machine.execPfxfind w s
  | .pfxins w => Sys2Proof.Machine.execPfxins w s
  | .pin w => Sys2Proof.Machine.execPin w s
  | .unpin w => Sys2Proof.Machine.execUnpin w s
  | .kvlink w => Sys2Proof.Machine.execKvlink w s
  | .atom w => Sys2Proof.Machine.execAtom w s
  | .mxaadd w => Sys2Proof.Machine.execMxaadd w s
  | .tbegin w => Sys2Proof.Machine.execTbegin w s
  | .tend w => Sys2Proof.Machine.execTend w s
  | .tabort w => Sys2Proof.Machine.execTabort w s
  | .tstat w => Sys2Proof.Machine.execTstat w s
  | .transactionCommit tid => Sys2Proof.Machine.execTransactionCommit tid s
  | .fenceEngine w => Sys2Proof.Machine.execFenceEngine w s
  | .fenceFabric w => Sys2Proof.Machine.execFenceFabric w s
  | .fenceAll w => Sys2Proof.Machine.execFenceAll w s
  | .chapp w => Sys2Proof.Machine.execChapp w s
  | .chwait w => Sys2Proof.Machine.execChwait w s
  | .gsum w => Sys2Proof.Machine.execGsum w s
  | .fadd w => Sys2Proof.Machine.execFadd w s
  | .fmul w => Sys2Proof.Machine.execFmul w s
  | .ffma w => Sys2Proof.Machine.execFfma w s
  | .fmin w => Sys2Proof.Machine.execFmin w s
  | .fmax w => Sys2Proof.Machine.execFmax w s
  | .fcmp w => Sys2Proof.Machine.execFcmp w s
  | .frcp w => Sys2Proof.Machine.execFrcp w s
  | .frsq w => Sys2Proof.Machine.execFrsq w s
  | .fexp2 w => Sys2Proof.Machine.execFexp2 w s
  | .flog2 w => Sys2Proof.Machine.execFlog2 w s
  | .frnd w => Sys2Proof.Machine.execFrnd w s
  | .cvt w => Sys2Proof.Machine.execCvt w s
  | .vadd w => Sys2Proof.Machine.execVadd w s
  | .vmul w => Sys2Proof.Machine.execVmul w s
  | .vfma w => Sys2Proof.Machine.execVfma w s
  | .vmin w => Sys2Proof.Machine.execVmin w s
  | .vmax w => Sys2Proof.Machine.execVmax w s
  | .vred w => Sys2Proof.Machine.execVred w s
  | .vcvt w => Sys2Proof.Machine.execVcvt w s
  | .vquant w => Sys2Proof.Machine.execVquant w s
  | .vsplat w => Sys2Proof.Machine.execVsplat w s
  | .vext w => Sys2Proof.Machine.execVext w s
  | .vins w => Sys2Proof.Machine.execVins w s
  | .vsideGet w => Sys2Proof.Machine.execVsideGet w s
  | .vsideSet w => Sys2Proof.Machine.execVsideSet w s
  | .vtag w => Sys2Proof.Machine.execVtag w s
  | .vdot w => Sys2Proof.Machine.execVdot w s
  | .mma w => Sys2Proof.Machine.execMma w s
  | .mmaPassComplete core quad agree => Sys2Proof.Machine.execMmaPassComplete core quad agree s
  | .aclr w => Sys2Proof.Machine.execAclr w s
  | .aload w => Sys2Proof.Machine.execAload w s
  | .adrain w => Sys2Proof.Machine.execAdrain w s
  | .softstep w => Sys2Proof.Machine.execSoftstep w s
  | .softstepComplete core quad => Sys2Proof.Machine.execSoftstepComplete core quad s
  | .arescale w => Sys2Proof.Machine.execArescale w s
  | .smerge w => Sys2Proof.Machine.execSmerge w s
  | .anorm w => Sys2Proof.Machine.execAnorm w s
  | .arow w => Sys2Proof.Machine.execArow w s
  | .astat w => Sys2Proof.Machine.execAstat w s
  | .csrr w => Sys2Proof.Machine.execCsrr w s
  | .csrw w => Sys2Proof.Machine.execCsrw w s
  | .mcall w => Sys2Proof.Machine.execMcall w s
  | .mret w => Sys2Proof.Machine.execMret w s
  | .eret w => Sys2Proof.Machine.execEret w s
  | .savectx w => Sys2Proof.Machine.execSavectx w s
  | .loadctx w => Sys2Proof.Machine.execLoadctx w s
  | .invalLine w => Sys2Proof.Machine.execInvalLine w s
  | .invalXlt w => Sys2Proof.Machine.execInvalXlt w s
  | .invalFrame w => Sys2Proof.Machine.execInvalFrame w s
  | .halt w => Sys2Proof.Machine.execHalt w s
  | .ipi w => Sys2Proof.Machine.execIpi w s
  | .partctlCreate w => Sys2Proof.Machine.execPartctlCreate w s
  | .partctlDestroy w => Sys2Proof.Machine.execPartctlDestroy w s
  | .partctlReset w => Sys2Proof.Machine.execPartctlReset w s
  | .partctlCores w => Sys2Proof.Machine.execPartctlCores w s
  | .partctlChan w => Sys2Proof.Machine.execPartctlChan w s
  | .partctlQueues w => Sys2Proof.Machine.execPartctlQueues w s
  | .partctlColours w => Sys2Proof.Machine.execPartctlColours w s
  | .partctlCarve w => Sys2Proof.Machine.execPartctlCarve w s
  | .partctlQuota w => Sys2Proof.Machine.execPartctlQuota w s
  | .partctlStart w => Sys2Proof.Machine.execPartctlStart w s
  | .poolctlCow w => Sys2Proof.Machine.execPoolctlCow w s
  | .poolctlSeqnew w => Sys2Proof.Machine.execPoolctlSeqnew w s
  | .poolctlSeqcap w => Sys2Proof.Machine.execPoolctlSeqcap w s
  | .poolctlRdframe w => Sys2Proof.Machine.execPoolctlRdframe w s
  | .poolctlRdseq w => Sys2Proof.Machine.execPoolctlRdseq w s
  | .poolctlRdpfx w => Sys2Proof.Machine.execPoolctlRdpfx w s
  | .queueEnableWrite queue value => Sys2Proof.Machine.execQueueEnableWrite queue value s
  | .queueTailWrite queue value => Sys2Proof.Machine.execQueueTailWrite queue value s
  | .faultResolveMapped part space page => Sys2Proof.Machine.execFaultResolveMapped part space page s
  | .faultResolveDenied part space page => Sys2Proof.Machine.execFaultResolveDenied part space page s
  | .rdetClear part => Sys2Proof.Machine.execRdetClear part s
  | .rdetEnable part => Sys2Proof.Machine.execRdetEnable part s
  | .fwstatClear part => Sys2Proof.Machine.execFwstatClear part s
  | .errCcntClear part => Sys2Proof.Machine.execErrCcntClear part s
  | .slstatClear part => Sys2Proof.Machine.execSlstatClear part s
  | .streamEnable part stream => Sys2Proof.Machine.execStreamEnable part stream s
  | .streamDisable part stream => Sys2Proof.Machine.execStreamDisable part stream s
  | .dbgHalt part ctx => Sys2Proof.Machine.execDbgHalt part ctx s
  | .dbgResume part ctx => Sys2Proof.Machine.execDbgResume part ctx s
  | .dbgStep part ctx => Sys2Proof.Machine.execDbgStep part ctx s
  | .launchValidate queue => Sys2Proof.Machine.execLaunchValidate queue s
  | .launchAccept queue => Sys2Proof.Machine.execLaunchAccept queue s
  | .unitDeal => Sys2Proof.Machine.execUnitDeal s
  | .unitPlace core => Sys2Proof.Machine.execUnitPlace core s
  | .balanceExchange part => Sys2Proof.Machine.execBalanceExchange part s
  | .launchCompletion cid => Sys2Proof.Machine.execLaunchCompletion cid s
  | .preemptionStop part cores cause => Sys2Proof.Machine.execPreemptionStop part cores cause s
  | .preemptionComplete part => Sys2Proof.Machine.execPreemptionComplete part s
  | .collectorTimeoutReport part => Sys2Proof.Machine.execCollectorTimeoutReport part s
  | .collectorTimeoutFatal part => Sys2Proof.Machine.execCollectorTimeoutFatal part s
  | .timeSliceExpiry pool => Sys2Proof.Machine.execTimeSliceExpiry pool s
  | .stallTimeout unit => Sys2Proof.Machine.execStallTimeout unit s
  | .milestoneSync => Sys2Proof.Machine.execMilestoneSync s
  | .faultRecordPost index => Sys2Proof.Machine.execFaultRecordPost index s
  | .evictionMark part => Sys2Proof.Machine.execEvictionMark part s
  | .evictionCommit part handle => Sys2Proof.Machine.execEvictionCommit part handle s
  | .migrationComplete part handle => Sys2Proof.Machine.execMigrationComplete part handle s
  | .commandIssue engine => Sys2Proof.Machine.execCommandIssue engine s
  | .commandComplete cmd => Sys2Proof.Machine.execCommandComplete cmd s
  | .copy cmd => Sys2Proof.Machine.execCopy cmd s
  | .gather cmd => Sys2Proof.Machine.execGather cmd s
  | .scatter cmd => Sys2Proof.Machine.execScatter cmd s
  | .fill cmd => Sys2Proof.Machine.execFill cmd s
  | .tfill cmd => Sys2Proof.Machine.execTfill cmd s
  | .tfillKv cmd => Sys2Proof.Machine.execTfillKv cmd s
  | .tdrain cmd => Sys2Proof.Machine.execTdrain cmd s
  | .put cmd => Sys2Proof.Machine.execPut cmd s
  | .append cmd media => Sys2Proof.Machine.execAppend cmd media s
  | .seal cmd => Sys2Proof.Machine.execSeal cmd s
  | .sbar cmd => Sys2Proof.Machine.execSbar cmd s
  | .trim cmd => Sys2Proof.Machine.execTrim cmd s
  | .sealDurable cmd media => Sys2Proof.Machine.execSealDurable cmd media s
  | .putAcknowledge cmd => Sys2Proof.Machine.execPutAcknowledge cmd s
  | .fabricIngressPut part home frame offset data => Sys2Proof.Machine.execFabricIngressPut part home frame offset data s
  | .remoteReadServe part home frame offset => Sys2Proof.Machine.execRemoteReadServe part home frame offset s
  | .remoteLineReturn request data => Sys2Proof.Machine.execRemoteLineReturn request data s
  | .remoteRequestTimeout request => Sys2Proof.Machine.execRemoteRequestTimeout request s
  | .transportCloseNotice part pkg => Sys2Proof.Machine.execTransportCloseNotice part pkg s
  | .transportProbe part pkg answered => Sys2Proof.Machine.execTransportProbe part pkg answered s
  | .portFailure lane => Sys2Proof.Machine.execPortFailure lane s
  | .chunkFire unit => Sys2Proof.Machine.execChunkFire unit s
  | .chunkArrival cid chunk data => Sys2Proof.Machine.execChunkArrival cid chunk data s
  | .treeRevoke tree => Sys2Proof.Machine.execTreeRevoke tree s
  | .treeGrantReply part reply => Sys2Proof.Machine.execTreeGrantReply part reply s
  | .treereq part => Sys2Proof.Machine.execTreereq part s
  | .treerel part => Sys2Proof.Machine.execTreerel part s
  | .ibxscan part => Sys2Proof.Machine.execIbxscan part s
  | .ibxlen part => Sys2Proof.Machine.execIbxlen part s
  | .unknownCall part => Sys2Proof.Machine.execUnknownCall part s
  | .flashWaitNotice tag line => Sys2Proof.Machine.execFlashWaitNotice tag line s
  | .flashLineArrival tag line damaged => Sys2Proof.Machine.execFlashLineArrival tag line damaged s
  | .flashPrefetchLine tag line => Sys2Proof.Machine.execFlashPrefetchLine tag line s
  | .flashWaitReport tag line die => Sys2Proof.Machine.execFlashWaitReport tag line die s
  | .flashWaitTimeout tag line die => Sys2Proof.Machine.execFlashWaitTimeout tag line die s
  | .ibexMaintenance part event => Sys2Proof.Machine.execIbexMaintenance part event s
  | .suspend => Sys2Proof.Machine.execSuspend s
  | .quote => Sys2Proof.Machine.execQuote s
  | .retire => Sys2Proof.Machine.execRetire s
  | .extend => Sys2Proof.Machine.execExtend s
  | .mailboxUnknown => Sys2Proof.Machine.execMailboxUnknown s
  | .suspN => Sys2Proof.Machine.execSuspN s
  | .managementSuspend => Sys2Proof.Machine.execManagementSuspend s
  | .managementQuote nonce => Sys2Proof.Machine.execManagementQuote nonce s
  | .suspendSave selfRefreshOk => Sys2Proof.Machine.execSuspendSave selfRefreshOk s
  | .suspendCollectorTimeout => Sys2Proof.Machine.execSuspendCollectorTimeout s
  | .suspendDeadline => Sys2Proof.Machine.execSuspendDeadline s
  | .wakeN recordOk => Sys2Proof.Machine.execWakeN recordOk s
  | .wakeTimerExpiry recordOk => Sys2Proof.Machine.execWakeTimerExpiry recordOk s
  | .resumeDeadline => Sys2Proof.Machine.execResumeDeadline s
  | .resumeParticipantTimeout tree => Sys2Proof.Machine.execResumeParticipantTimeout tree s
  | .coldBoot lockstepOk recoverN => Sys2Proof.Machine.execColdBoot lockstepOk recoverN s
  | .resetNAssert => Sys2Proof.Machine.execResetNAssert s
  | .recoveryImage slot => Sys2Proof.Machine.execRecoveryImage slot s
  | .powerLoss => Sys2Proof.Machine.execPowerLoss s
  | .clockStepDown => Sys2Proof.Machine.execClockStepDown s
  | .clockStepUp => Sys2Proof.Machine.execClockStepUp s
  | .thermalTrip die => Sys2Proof.Machine.execThermalTrip die s
  | .thermalAlert => Sys2Proof.Machine.execThermalAlert s
  | .lockstepMismatch => Sys2Proof.Machine.execLockstepMismatch s
  | .coreIdleEntry core => Sys2Proof.Machine.execCoreIdleEntry core s
  | .errorRecordPost => Sys2Proof.Machine.execErrorRecordPost s
  | .correctedSummary part => Sys2Proof.Machine.execCorrectedSummary part s
  | .patrolScrub home frame offset correctable => Sys2Proof.Machine.execPatrolScrub home frame offset correctable s
  | .partitionResetComplete part => Sys2Proof.Machine.execPartitionResetComplete part s
  | .milestoneAdvance source => Sys2Proof.Machine.execMilestoneAdvance source s
  | .gsumLineRequest part tree offset => Sys2Proof.Machine.execGsumLineRequest part tree offset s
  | .channelCleared part => Sys2Proof.Machine.execChannelCleared part s

end Sys2Proof.Machine
end

