-- ==== Sys2Proof/Machine/Schedule.lean ====
section
/-!
DEFINITION. What the machine does next: the items of a bundle being issued (R35), what the outside world does, the work that
some block can take up now, and, where none can, the passing of one compute clock (R132, R398, R412). Where several things
may come next and the manual gives them no order, the choice is a free value.
-/
namespace Sys2Proof.Machine

/-- What a step performs. -/
inductive Pick where
  /-- an instruction or event, in a state prepared for it -/
  | perform (i : Instr) (s : State)
  /-- a change of state that no row of the table names: a refused word's trap, a held fetch, the passing of time -/
  | change (s : State)
  /-- nothing can take place -/
  | stop (f : Fault)

/-! ### Words -/

/-- Perform a word for the current thread, or trap it as ILLEGAL_OPCODE (R202). -/
def pickWord (s : State) (x : BitVec 96) : Pick :=
  match decode x with
  | .ok i => .perform i s
  | .error _ => .change (s.takeTrap cILLEGAL 0 (x.extractLsb' 0 64))

/-- A thread is still to perform an item: nothing that its bundle did has moved or stopped it. -/
def State.itemStands (s : State) (it : Item) : Bool :=
  let th := s.thr it.tid
  th.wait == .ready && th.pc == it.pc && (isService it.tid || (match s.units.find? th.unit with
    | some u => u.stopping.isNone
    | none => false))

/-- Perform an item of a bundle; a pair that breaks R196 is illegal. -/
def State.runItem (s : State) (it : Item) : Pick :=
  if !s.itemStands it then .change s
  else if it.badPair then .change ({ s with cur := it.tid }.takeTrap cILLEGAL 0 (it.word.extractLsb' 0 64))
  else pickWord { s with cur := it.tid } it.word

/-- Fetch and perform for a service thread: a bundle of one lane. -/
def State.runThread (s : State) (t : Tid) : Pick :=
  match s.fetchFor t with
  | .over s => .change s
  | .ready x s =>
    match x.words with
    | [] => .change s
    | (pc, word) :: more =>
      let rest := more.map fun w => ({ tid := t, pc := w.1, word := w.2, badPair := x.bad } : Item)
      ({ s with latch := rest, bundle := 1, combined := [] } : State).runItem { tid := t, pc, word, badPair := x.bad }

/-! ### What the outside world may do -/

/-- Events that come from outside the package, from a device whose timing the manual does not give, or from a fault of the
hardware. -/
def outside : Instr → Bool
  | .mmaPassComplete _ _ _ => true
  | .append _ _ => true
  | .sealDurable _ _ => true
  | .putAcknowledge _ => true
  | .fabricIngressPut _ _ _ _ _ => true
  | .remoteReadServe _ _ _ _ => true
  | .remoteLineReturn _ _ => true
  | .transportCloseNotice _ _ => true
  | .transportProbe _ _ _ => true
  | .portFailure _ => true
  | .chunkArrival _ _ _ => true
  | .treeRevoke _ => true
  | .treeGrantReply _ _ => true
  | .gsumLineRequest _ _ _ => true
  | .flashWaitNotice _ _ => true
  | .flashLineArrival _ _ _ => true
  | .flashPrefetchLine _ _ => true
  | .ibexMaintenance _ _ => true
  | .suspN => true
  | .managementSuspend => true
  | .managementQuote _ => true
  | .suspendSave _ => true
  | .wakeN _ => true
  | .wakeTimerExpiry _ => true
  | .resumeParticipantTimeout _ => true
  | .coldBoot _ _ => true
  | .resetNAssert => true
  | .recoveryImage _ => true
  | .powerLoss => true
  | .clockStepDown => true
  | .clockStepUp => true
  | .thermalTrip _ => true
  | .thermalAlert => true
  | .lockstepMismatch => true
  | .patrolScrub _ _ _ _ => true
  | _ => false

/-! ### Work that a block may take up -/

/-- Something that may take place now. -/
inductive Deed where
  /-- a row of the table -/
  | event (i : Instr)
  /-- a service thread's next instruction -/
  | thread (t : Tid)
  /-- the complete round of a convergence register that waited for an engine or a page (R43, R296) -/
  | round (k : Nat)
  /-- a chunk from the tree that waited for its page (R346) -/
  | chunk (cid c : Nat)
  /-- a finding of the race detector is posted (R463) -/
  | finding (part : Nat)
  /-- a debug step has ended (R429) -/
  | stepEnd (part : Nat)
  /-- a resume reaches Running (R399) -/
  | running
  deriving DecidableEq, Repr

def Deed.pick (s : State) : Deed → Pick
  | .event i => .perform i s
  | .thread t => s.runThread t
  | .round k => .change (s.tryIssue k)
  | .chunk cid c => .change (s.deliver cid c)
  | .finding p => .change (s.postFinding p)
  | .stepEnd p => .change (s.stepHalt p)
  | .running => .change s.endResume

/-- Service threads that may issue. -/
def State.threadDeeds (s : State) : List Deed :=
  if s.boot.power ≠ .running then []
  else s.threads.filterMap fun (e : Nat × Thread) => if isService e.1 && s.mayGo e.1 e.2 then some (.thread e.1) else none
/-- Quadrants that may issue, the lowest of each core first (R131); the lanes left out of a bundle are a free value (R36). -/
def State.bundleDeeds (s : State) : List Deed :=
  let all := s.issuable
  (all.filter fun cq => !all.any fun q => q / 4 == cq / 4 && decide (q < cq)).map fun cq => .event (.issueBundle (cq / 4) (cq % 4) ((Config.freeDword s.free).setWidth 32))

/-- Events of threads and quadrants. -/
def State.coreDeeds (s : State) : List Deed :=
  s.threads.flatMap (fun (e : Nat × Thread) => match e.2.wait with
    | .sleep till => if till ≤ s.clockOf e.1 then [.event (.sleepExpiry e.1)] else []
    | .commit => [.event (.transactionCommit e.1)]
    | _ => []) ++
  s.quads.flatMap (fun (e : Nat × Quad) =>
    (match e.2.mma with
      | some _ => [.event (.mmaPassComplete (e.1 / 4) (e.1 % 4) true)]
      | none => []) ++
    (match e.2.soft with
      | some _ => [.event (.softstepComplete (e.1 / 4) (e.1 % 4))]
      | none => [])) ++
  s.cvs.filterMap (fun (e : Nat × CvReg) =>
    if e.2.complete then some (.round e.1) else none) ++
  s.units.flatMap fun (e : Nat × UnitRec) => [.event (.stallTimeout e.1), .event (.chunkFire e.1)]

/-- The effect of an issued command (R339). -/
def Cmd.deeds (k : Nat) (c : Cmd) : List Deed :=
  if c.phase = .effected then [.event (.commandComplete k)]
  else if c.phase ≠ .issued then []
  else match c.opN with
  | 0x01 => [.event (.copy k)]
  | 0x02 => [.event (.gather k)]
  | 0x03 => [.event (.scatter k)]
  | 0x04 => [.event (.fill k)]
  | 0x05 => [.event (.tfill k), .event (.tfillKv k)]
  | 0x06 => [.event (.tdrain k)]
  | 0x07 => [.event (.put k)]
  | 0x10 => [.event (.append k false)]
  | 0x11 => [.event (.seal k), .event (.sealDurable k false)]
  | 0x12 => [.event (.sbar k)]
  | 0x13 => [.event (.trim k)]
  | _ => []

/-- Events of engines, the append engine, flash and the fabric. -/
def State.engineDeeds (s : State) : List Deed :=
  let die := (Config.freeDword s.free).toNat % 64
  ((s.cmds.filterMap fun (e : Nat × Cmd) => if e.2.phase = .queued then some e.2.engine else none).eraseDups.map fun k =>
    .event (.commandIssue k)) ++
  s.cmds.flatMap (fun (e : Nat × Cmd) => e.2.deeds e.1) ++
  s.cmds.filterMap (fun (e : Nat × Cmd) =>
    if e.2.unacked then some (.event (.remoteRequestTimeout (2 ^ 91 + e.1))) else none) ++
  s.reqs.map (fun (e : Nat × RemoteReq) => .event (.remoteRequestTimeout e.1)) ++
  s.flash.flatMap (fun (f : FlashRead) =>
    let (tag, line) := (f.key / 2 ^ 53, f.key % 2 ^ 53)
    [.event (.flashLineArrival tag line 0), .event (.flashWaitReport tag line die), .event (.flashWaitTimeout tag line die)]) ++
  s.launches.flatMap fun (e : Nat × Launch) => e.2.inbox.map fun c => .chunk e.1 c.1

/-- Events of the scheduler. -/
def State.schedDeeds (s : State) : List Deed :=
  s.queues.flatMap (fun (e : Nat × Queue) =>
    if e.2.en then [.event (.launchValidate e.1), .event (.launchAccept e.1)] else []) ++
  (if s.launches.isEmpty then [] else [.event .unitDeal]) ++
  (if s.launches.isEmpty && s.saved.isEmpty then [] else (List.range 32).map fun c => .event (.unitPlace c)) ++
  s.launches.map (fun (e : Nat × Launch) => .event (.launchCompletion e.1)) ++
  s.pools.map (fun t => .event (.timeSliceExpiry t.cores)) ++
  s.stops.flatMap (fun r =>
    [.event (.preemptionComplete r.part), .event (.collectorTimeoutReport r.part), .event (.collectorTimeoutFatal r.part)])

/-- The ring-1 call that a server would serve next of a partition. -/
def callDeed (part : Nat) : Pending → List Deed
  | .call r => match r.call with
    | 0x1 => [.event (.treereq part)]
    | 0x2 => [.event (.treerel part)]
    | 0x100 => [.event (.ibxscan part)]
    | 0x101 => [.event (.ibxlen part)]
    | _ => [.event (.unknownCall part)]
  | .blocked _ _ => [.event (.treereq part), .event (.ibxscan part)]
  | .empty => []

/-- Events of one partition. -/
def State.partDeeds (s : State) (e : Nat × Part) : List Deed :=
  let (k, p) := e
  (if p.mc1.head = p.mc1.tail then [] else callDeed k (s.pendingCall 0 k) ++ callDeed k (s.pendingCall 1 k)) ++
  (if p.pool.frames.isEmpty then [] else .event (.evictionMark k) :: p.pool.frames.flatMap fun f =>
    [.event (.evictionCommit k f.1), .event (.migrationComplete k f.1)]) ++
  (if p.resetting then [.event (.partitionResetComplete k)] else []) ++
  (if s.findings.any fun f => f.part == k then [.finding k] else []) ++
  if s.stepOver k then [.stepEnd k] else []

/-- The mailbox request that the Chamois pair would serve next (R396), or its look at a mailbox without one. -/
def State.mailboxDeeds (s : State) : List Deed :=
  match s.mboxNext with
  | none => [.event .mailboxUnknown]
  | some (_, v, _) => match v % 256 with
    | 1 => [.event .suspend]
    | 2 => [.event .quote]
    | 3 => [.event .retire]
    | 4 => [.event .extend]
    | _ => [.event .mailboxUnknown]

/-- Events of the fault and error queues, the mailbox, and power. -/
def State.chamoisDeeds (s : State) : List Deed :=
  (List.range s.faults.length).filterMap (fun i => match s.faults[i]? with
    | some f => if f.posted then none else some (.event (.faultRecordPost i))
    | none => none) ++
  (if s.errs.isEmpty then [] else [.event .errorRecordPost]) ++
  s.mailboxDeeds ++
  (match s.boot.power with
    | .suspending => [.event .suspendCollectorTimeout, .event .suspendDeadline]
    | .resuming => [.running, .event .resumeDeadline]
    | _ => []) ++
  s.clearing.map (fun x => .event (.channelCleared x.1)) ++
  ((List.range 32).filter fun c => !s.boot.idle.getLsbD c).map fun c => .event (.coreIdleEntry c)

/-- A deed changes something beside free values used and milestones. -/
def State.moves (s : State) (d : Deed) : Bool :=
  let changed (t : State) : Bool := decide ({ t with free := s.free, ms := s.ms } ≠ s)
  match d with
  | .thread _ => true
  | .event (.issueBundle _ _ _) => true
  | .event i => match exec i s with
    | .next t => changed t
    | _ => true
  | .round k => changed (s.tryIssue k)
  | .chunk cid c => changed (s.deliver cid c)
  | .finding p => changed (s.postFinding p)
  | .stepEnd p => changed (s.stepHalt p)
  | .running => changed s.endResume

/-- Everything that may take place now. -/
def State.deeds (s : State) : List Deed :=
  (s.threadDeeds ++ s.bundleDeeds ++ s.coreDeeds ++ s.engineDeeds ++ s.schedDeeds ++ s.parts.flatMap s.partDeeds ++
    s.chamoisDeeds).filter s.moves

/-! ### Time -/

/-- The sources whose milestones rise while they run (R130, R132). -/
def State.sources (_ : State) : List Nat := List.range 171

/-- One compute clock passes: every 16 clocks each source's milestone rises (R132), every 1,024 clocks sources synchronise and
cores balance (R71, R132), and each second the counts of corrected errors are posted (R412). -/
def State.tick (s : State) : State :=
  let second := s.rt / secFs
  let s := ((s.passTo (s.now + 1)).pauseSelectors.noteStalls).noteQuiet
  let s := if s.now % 16 = 0 then s.sources.foldl (fun s k => milestoneAdvance k s) s else s
  let here := s.parts.keys.filter fun p => (s.part p).present
  let s := if s.now % 1024 = 0 then milestoneSync (here.foldl (fun s p => balanceExchange p s) s) else s
  if s.rt / secFs = second then s else here.foldl (fun s p => correctedSummary p s) s

/-- A deed that takes place before the clock passes: the issue of instructions (R33, R35), and the ends of intervals to
which the manual gives their lengths (R67, R75, R245, R301, R302, R423, R430, R466, R478, R479). The duration of any other is no
promise (R12). -/
def Deed.prompt : Deed → Bool
  | .thread _ => true
  | .event (.issueBundle _ _ _) => true
  | .event (.sleepExpiry _) => true
  | .event (.stallTimeout _) => true
  | .event (.timeSliceExpiry _) => true
  | .event (.mmaPassComplete _ _ _) => true
  | .event (.softstepComplete _ _) => true
  | .event (.collectorTimeoutReport _) => true
  | .event (.collectorTimeoutFatal _) => true
  | .event .suspendCollectorTimeout => true
  | .event .suspendDeadline => true
  | .event .resumeDeadline => true
  | .event (.flashWaitReport _ _ _) => true
  | .event (.flashWaitTimeout _ _ _) => true
  | _ => false

/-- Among several deeds, a free one; where none of them is due in this clock, the clock may also pass. -/
def State.oneOf (s : State) : List Deed → Pick
  | [] => .change s.tick
  | d :: ds =>
    let n := ds.length + 1
    let (i, s) := s.pickOf (if (d :: ds).any Deed.prompt then n else n + 1)
    match (d :: ds)[i]? with
    | some e => e.pick s
    | none => .change s.tick

/-- What the outside world does next. An instruction is no event of the outside, and is dropped. -/
def State.takeInput (s : State) (i : Instr) (rest : List Instr) : Pick :=
  if outside i then .perform i { s with inputs := rest } else .change { s with inputs := rest }

/-- What holds whenever something is to be chosen: deficits of those with nothing to serve are gone (R67, R360), and a thread
whose next instruction must wait for a tile or an engine is in Scoreboard state (R33). -/
def State.settle (s : State) : State := s.resetDeficits.settleDrrs.scoreboard

/-- What the machine does next. -/
def State.pick (s : State) : Pick :=
  match s.powered, s.latch, s.inputs with
  | false, _, i :: rest => s.takeInput i rest
  | false, _, [] => if s.boot.power = .off then .stop .off else .change s
  | true, it :: rest, _ => ({ s with latch := rest } : State).runItem it
  | true, [], [] => s.settle.oneOf s.settle.deeds
  | true, [], i :: rest =>
    let (now, s) := s.choose
    if now then s.takeInput i rest else s.settle.oneOf s.settle.deeds

end Sys2Proof.Machine
end

