-- ==== Sys2Proof/Machine/Step.lean ====
section
/-! DEFINITION. One step of the machine, and the placing of one instruction where the next step fetches it. -/
namespace Sys2Proof.Machine

/-- One step: the machine picks what it does next and does it. -/
def step (s : State) : Host.Outcome State Fault Refusal :=
  match s.pick with
  | .perform i s' => exec i s'
  | .change s' => .next s'
  | .stop f => .fault f

/-- The machine with one instruction where its Oryx core fetches next: see `Machine.placeWord`. -/
def State.withFetchWord (s : State) (nbits w : Nat) : State := placeWord nbits w s

end Sys2Proof.Machine
end

