-- ==== Sys2Proof/WellFormed.lean ====
section
/-!
DEFINITION. Which instructions are well formed: those whose word passes every static check of R202 and R198. An
event is well formed whatever it carries.
-/
namespace Sys2Proof

/-- The instruction's word breaks no static rule that the word alone decides. -/
def WellFormed (i : Instr) : Bool := Machine.staticOk i

end Sys2Proof
end

