-- ==== Sys2Proof/Safety.lean ====
section
/-!
DEFINITION. The vocabulary of claims: safe steps, when an instruction reaches its own effect, and what the operations of
the meanings answer.
-/
namespace Sys2Proof.Machine

/-- A step that answers a next state. -/
def StepSafe (s : State) : Prop := ∃ t, step s = .next t

/-- The instruction passes every static check in the current thread, and its guard is true (R198, R202, R208). -/
def Runs (i : Instr) (w : Fields) (s : State) : Prop := staticPass i s = true ∧ guardTrue w s.me = true

/-- An operation performed in a state answers a value and leaves a state: it neither traps nor holds the thread. -/
def Does {α : Type} (m : M α) (s : State) (a : α) (t : State) : Prop := m.run s = .ok a t

/-- An operation traps: code, operand number and EXC_VAL. -/
def Traps {α : Type} (m : M α) (s : State) (code opnd : Nat) (val : Dword) (t : State) : Prop :=
  m.run s = .error (.trap code opnd val) t

/-- The 123 opcodes of R207. -/
def allocatedOpcodes : List Nat :=
  List.range 0x17 ++ [0x20, 0x21, 0x22, 0x23, 0x2E, 0x2F] ++ List.range' 0x30 16 ++ List.range' 0x40 6 ++
    List.range' 0x48 4 ++ List.range' 0x50 10 ++ List.range' 0x60 10 ++ List.range' 0x70 12 ++ List.range' 0x80 14 ++
    List.range' 0x90 10 ++ List.range' 0xA0 12
/-- The other values of OPC. -/
def unallocatedOpcodes : List Nat := (List.range 256).filter fun o => !allocatedOpcodes.contains o

/-- A source of an integer type, read (R219). -/
abbrev Src (opnd : Nat) (x : Spec) (ty : BitVec 4) (ext : BitVec 32) (s : State) (v : Val) (t : State) : Prop :=
  Does (readSrc opnd x ty ext) s v t

/-- An instruction of two sources of the type writes a function of their values, read exactly, and the OR of their
poison. -/
def Binary (mk : Fields → Instr) (f : Fields → Int → Int → Int) : Prop :=
  ∀ w s a b s1 s2, Runs (mk w) w s → Src 2 w.a w.ty w.ext s a s1 → Src 3 w.b w.ty w.ext s1 b s2 →
    exec (mk w) s =
      .next (s2.putDst w.d w.ty (f w (srcOf w.ty a.raw) (srcOf w.ty b.raw)) (a.poison || b.poison)).advance

/-- An instruction of one source writes a function of its raw bits. -/
def Unary (mk : Fields → Instr) (f : Fields → Nat → Int) : Prop :=
  ∀ w s a s1, Runs (mk w) w s → Src 2 w.a w.ty w.ext s a s1 →
    exec (mk w) s = .next (s1.putDst w.d w.ty (f w a.raw) a.poison).advance

/-- An instruction of a source of the type and a 32-bit count or field. -/
def Counted (mk : Fields → Instr) (f : Fields → Nat → Nat → Int) : Prop :=
  ∀ w s a b s1 s2, Runs (mk w) w s → Src 2 w.a w.ty w.ext s a s1 → Src 3 w.b 6 w.ext s1 b s2 →
    exec (mk w) s = .next (s2.putDst w.d w.ty (f w a.raw b.raw) (a.poison || b.poison)).advance

/-- An instruction of three sources; the third is read under a type of its own. -/
def Ternary (mk : Fields → Instr) (cty dty : Fields → BitVec 4) (f : Fields → Nat → Nat → Nat → Int) : Prop :=
  ∀ w s a b c s1 s2 s3, Runs (mk w) w s → Src 2 w.a w.ty w.ext s a s1 → Src 3 w.b w.ty w.ext s1 b s2 →
    Src 4 w.c (cty w) w.ext s2 c s3 →
    exec (mk w) s =
      .next (s3.putDst w.d (dty w) (f w a.raw b.raw c.raw) (a.poison || b.poison || c.poison)).advance

/-- The integer and logic family (R207). -/
def integerFamily : Instr → Bool
  | .add _ | .sub _ | .mul _ | .mulh _ | .mad _ | .div _ | .min _ | .max _ | .abs _ | .lop3 _ | .shl _ | .shr _ | .fsh _
  | .popc _ | .clz _ | .brev _ | .bfx _ | .bfi _ | .sel _ | .mov _ | .movi _ | .addr _ | .cmp _ => true
  | _ => false

/-- The g registers that an instruction of the family writes: D, or the pair that D begins (R219, R222, R223). -/
def gDests (i : Instr) (w : Fields) : List Nat :=
  match w.d with
  | .g n =>
    match i with
    | .cmp _ => []
    | .movi _ => if w.sub.getLsbD 0 then [n.toNat + 1] else if is64 w.ty then [n.toNat, n.toNat + 1] else [n.toNat]
    | .addr _ => [n.toNat, n.toNat + 1]
    | .mad _ => if is64 w.ty || w.sub.getLsbD 0 then [n.toNat, n.toNat + 1] else [n.toNat]
    | _ => if is64 w.ty then [n.toNat, n.toNat + 1] else [n.toNat]
  | _ => []

/-- The operand is a word of a constant window. -/
def isWindow : Spec → Bool
  | .k _ => true
  | _ => false

/-- A byte of memory that translation may have changed: the accessed and dirty bits of a page-table entry, bits 10 and 9,
lie in the second byte of its eight, at the place of a walked entry or of one that a cached translation names (R103). -/
def ByteOrAccessed (s t : State) (a : Nat) : Prop :=
  t.mem.byte a = s.mem.byte a ∨
  ((a % 8 = 1 ∨ ∃ e ∈ s.tlb, a = e.2.entryAt + 1) ∧ ∃ b ∈ ([2, 4, 6] : List Byte), t.mem.byte a = s.mem.byte a ||| b)

/-! ### Floats and vectors -/

/-- The words that n roundings take: under SR the next n of the thread's generator, else none (R185). -/
def drawn (rm n : Nat) (s : State) : List Nat × State :=
  if rm = 4 then ((rndTake n s.me.rnd).1, s.modMe fun th => { th with rnd := (rndTake n s.me.rnd).2 }) else ([], s)

/-- The code of a float operand, and its exact value. -/
def fcode (w : Fields) (v : Val) : Nat := v.raw % 2 ^ (typeFmt w.ty).w
def fval (w : Fields) (v : Val) : Num := (typeFmt w.ty).value (fcode w v)

/-- A value rounded once into D (R276). -/
def rounded (w : Fields) (s : State) (v : Num) (poison : Bool) : State :=
  (drawn w.rm.toNat 1 s).2.putG w.d (roundNum v (typeFmt w.ty) w.rm.toNat ((drawn w.rm.toNat 1 s).1.headD 0)) poison

/-- A float instruction of one source, or of two, writes its exact value rounded once. -/
def Float1 (mk : Fields → Instr) (f : Fields → Num → Num) : Prop :=
  ∀ w s a s1, Runs (mk w) w s → Src 2 w.a w.ty w.ext s a s1 →
    exec (mk w) s = .next (rounded w s1 (f w (fval w a)) a.poison).advance
def Float2 (mk : Fields → Instr) (f : Fields → Num → Num → Num) : Prop :=
  ∀ w s a b s1 s2, Runs (mk w) w s → Src 2 w.a w.ty w.ext s a s1 → Src 3 w.b w.ty w.ext s1 b s2 →
    exec (mk w) s = .next (rounded w s2 (f w (fval w a) (fval w b)) (a.poison || b.poison)).advance

/-- An element-wise vector instruction: operands, whether it clamps, its function on integers and on exact values, and on codes
where an operand is returned unchanged (R285). -/
def Elementwise (mk : Fields → Instr) (ops : Fields → List Spec) (sat : Fields → Bool) (fi : Fields → List Int → Int)
    (fn : Fields → List Num → Num) (fc : Option (Fmt → List Nat → Nat)) : Prop :=
  ∀ w s, Runs (mk w) w s →
    let vs := (ops w).map fun x => s.readV x w.ty
    (∀ v ∈ vs, v.tag = w.ty) →
    let k := kindOf w.ty
    let poison := vs.any VReg.poison
    let nums (i : Nat) : List Num := vs.map fun v => elemValue k (!w.sub.getLsbD 4) v.sec v.side i
    let d := drawn w.rm.toNat k.count s
    let each (f : Nat → Nat) : Sector := packElems k ((List.range k.count).map f)
    let out (s : State) (sec : Sector) (side : BitVec 16) : Out := .next (s.putV w.d { sec, side, tag := w.ty, poison }).advance
    match k, fc with
    | .int wd, _ =>
      exec (mk w) s = out s (each fun i => intElem wd (!w.sub.getLsbD 4) (sat w)
        (fi w (vs.map fun v => elemInt k (!w.sub.getLsbD 4) v.sec i))) (s.readV w.a w.ty).side
    | .flt F, some f =>
      exec (mk w) s = out s (each fun i => f F (vs.map fun v => elemCode k v.sec i)) (s.readV w.a w.ty).side
    | .flt F, none =>
      exec (mk w) s = out d.2 (each fun i => roundNum (fn w (nums i)) F w.rm.toNat (d.1.getD i 0)) (s.readV w.a w.ty).side
    | .mx E, _ =>
      let q := mxPack E w.rm.toNat d.1 ((List.range k.count).map fun i => if (nums i).any Num.isNan then .nan else fn w (nums i))
      exec (mk w) s = out d.2 q.1 q.2
    | .raw, _ => False

/-! ### Memory -/

/-- The form-M address of a word: the pair in A, or zero, plus the signed offset (R206). -/
def formM (w : Fields) (s : State) : Val :=
  let a : Val := match w.a with
    | .g n => s.pair n.toNat
    | _ => { raw := 0, poison := false }
  { raw := (BitVec.ofNat 64 a.raw + w.ext.signExtend 64).toNat, poison := a.poison }

/-- An access of n bytes by the current thread, which is ready, outside a transaction, within one line, reaches the bytes themselves: the address
is in the 60-bit space and in the carved ways where it lies in their window, no range lock stops it, the race detector is off,
and the line's place is found in memory. -/
structure Direct (s : State) (va n : Nat) (u : Use) (p : Place) (s1 : State) : Prop where
  ready : s.me.wait = .ready
  noTx : s.me.tx = none
  noDenial : s.me.denied = none
  inSpace : va < 2 ^ 60
  inLine : va % 128 + n ≤ 128
  inWays : regionOf va = .carve → va + n ≤ carveWindow + popc (s.part s.me.part).carve * 2 ^ 24
  unlocked : s.lockedBy (tagOf va s.me.asid s.me.part) (va / 32 * 32) ((va + n + 31) / 32 * 32) (u == .store) = false
  noDetector : (s.part s.me.part).rdetEn = false
  found : s.place { s.who with first := va } (va / 128 * 128) u s.me.reply = (.ok p, s1)
  inMem : p.copy = none

/-- No L1 copy of the place's line could serve the core. -/
def noL1 (s : State) (p : Place) : Prop := Tbl.find? (s.l1.get [] s.src) p.key = none

/-- The places among what was found for lines. -/
def okPlaces (fs : List (Nat × Found)) : List (Nat × Place) :=
  fs.filterMap fun e => match e.2 with
    | .ok p => some (e.1, p)
    | _ => none
/-- The lines of addresses, each once. -/
def lineSet (vas : List Nat) : List Nat := (vas.map fun a => a / 128 * 128).eraseDups
/-- A thread that waits at TEND is to commit: no sector of its transaction is locked, and `fw` and `fr` are what is found for the lines
of its write set and its read set. -/
structure Commits (s : State) (tid : Tid) (x : Tx) (fw fr : List (Nat × Found)) (s1 : State) : Prop where
  powered : s.powered = true
  waits : (s.thr tid).wait = .commit
  tx : (s.thr tid).tx = some x
  writesFree : ∀ r ∈ x.writes.vals, s.lockedBy (tagOf r.va (s.thr tid).asid (s.thr tid).part) r.va (r.va + 32) true = false
  readsFree : ∀ r ∈ x.reads.vals, s.lockedBy (tagOf r.va (s.thr tid).asid (s.thr tid).part) r.va (r.va + 32) false = false
  found : ∃ s0 : State,
    ({ s with cur := tid } : State).places ({ s with cur := tid } : State).who .store none (lineSet (x.writes.vals.map TxWrite.va)) = (fw, s0) ∧
    s0.places s0.who .load none (lineSet (x.reads.vals.map TxRead.va)) = (fr, s1)

/-- What a memory instruction leaves of the registers of all threads. -/
def RegsKept (s t : State) : Prop :=
  ∀ u, (t.thr u).g = (s.thr u).g ∧ (t.thr u).v = (s.thr u).v ∧ (t.thr u).p = (s.thr u).p ∧ (t.thr u).h = (s.thr u).h

/-- The current thread's two rows of an accumulator, changed (R294). -/
def rowsSet (s : State) (k : Nat) (f : Nat → AccRow → AccRow) : State :=
  s.setAcc k (s.rows.foldl (fun t r => t.setRow r (f r (t.row r))) (s.accTile k))

/-- A row made NaN (R295). -/
def NanRow (r : AccRow) : Prop := r.m = 0x7FC00000 ∧ r.l = 0x7FC00000 ∧ r.st = 1 ∧ ∀ c, c < 128 → r.sum c = 0x7FC00000
/-- The factor by which a maximum of m that rises to t scales a row: the exponential of their difference, and `none_` where m is
minus infinity (R304, R310, R311). -/
def rowScale (m t none_ : Nat) : Nat := if m = 0xFF800000 then none_ else exp2e9 (roundRne ((f32 m).add false (f32 t).neg) fFP32)
/-- The product of two FP32 codes, rounded once. -/
def prod32 (x y : Nat) : Nat := roundRne ((f32 x).mul (f32 y)) fFP32
/-- The sum of two FP32 codes, rounded once. -/
def sum32 (x y : Nat) : Nat := roundRne ((f32 x).add false (f32 y)) fFP32
/-- A row whose maximum has risen to t, its sums and its denominator scaled by a (R304, R310). -/
def RowRaised (r q : AccRow) (t a l : Nat) : Prop :=
  q.m = BitVec.ofNat 32 t ∧ q.st = 1 ∧ q.l = BitVec.ofNat 32 l ∧ ∀ c, c < 128 → q.o.get 0 c = BitVec.ofNat 32 (prod32 (r.sum c) a)
/-- The sectors of A that hold row i in an operand register set: by signer, or as the group's latch keeps them (R298, R300). -/
def aSector (s : State) (g : Group) (signers : List Tid) (base i q : Nat) : SectorLit :=
  match g.latch with
  | some (_, l) => l.get { data := 0, side := 0, poison := false } (4 * i + q)
  | none => match signers.find? fun x => tidLane x == i / 2 with
    | some x =>
      let v := (s.thr x).v.get {} (base + 4 * (i % 2) + q)
      { data := v.sec, side := v.side, poison := v.poison }
    | none => { data := 0, side := 0, poison := false }
/-- Exact value of element n of a run of sectors of a tag, count elements a sector. -/
def seqElem (tag : BitVec 4) (sec : Nat → SectorLit) (n : Nat) : Num :=
  elemValue (kindOf tag) true (sec (n / (kindOf tag).count)).data (sec (n / (kindOf tag).count)).side (n % (kindOf tag).count)
/-- Element (k, j) of B: by column, four sectors each, or with KMAJ by row k, as many sectors as 128 elements take (R298). -/
def bElement (tag : BitVec 4) (kmaj : Bool) (sec : Nat → SectorLit) (k j : Nat) : Num :=
  if kmaj then seqElem tag (fun q => sec (128 / (kindOf tag).count * k + q)) j else seqElem tag (fun q => sec (4 * j + q)) k
/-- One element of the product: for each K block in ascending order the exact sum of its products, rounded, is added and rounded
(R299). -/
def mmaValue (nb w : Nat) (a : Nat → Num) (b : Nat → Num) (acc : Nat) : Nat :=
  (List.range nb).foldl (fun t k => sum32 t (roundRne (exactSum false ((List.range w).map fun i => (a (k * w + i)).mul (b (k * w + i)))) fFP32)) acc
/-- The words that the owner of a row takes for it under SR: its rows in ascending order (R305). -/
def rowWords (s : State) (rm row : Nat) (owner : Tid) : List Nat :=
  if rm ≠ 4 then []
  else
    let x := rndTake 128 (s.thr owner).rnd
    if row % 2 = 0 then x.1 else (rndTake 128 x.2).1
/-- The group of an operation in flight still stands in its quadrant with the accumulator the operation writes (R30, R301). -/
def stands (s : State) (cq : Nat) (run : EngineRun) : Bool :=
  match s.units.find? run.unit with
  | some u => match u.group run.group with
    | some g => g.acc.contains run.acc && u.core * 4 + g.quad == cq
    | none => false
  | none => false

/-! ### Partitions -/

/-- PARTCTL by the Oryx thread at monitor level names partition a, and reads the block that its pair B names; no sector of it is
poisoned (R332, R354). -/
structure CtlBlock (i : Instr) (w : Fields) (s : State) (a : Nat) (b : PartBlock) (s1 : State) : Prop where
  runs : Runs i w s
  level : s.me.level = 2
  noTx : s.me.tx = none
  onOryx : isOryx s1.cur = true
  ready : s1.me.wait = .ready
  number : Src 2 w.a 6 0 s { raw := a, poison := false } s
  dest : ∃ n, w.b = .g n ∧ (s.pair n.toNat).poison = false ∧ (s.pair n.toNat).raw % 64 = 0 ∧
    ∃ secs, Does (loadSectors 3 (s.pair n.toNat).raw 320) s secs s1 ∧ secs.any SectorLit.poison = false ∧ b = imageNat secs

/-- The block passes the checks that every operation makes before its own (R332, R355). -/
structure Admits (op a : Nat) (b : PartBlock) (s : State) : Prop where
  number : a < 32
  reserved : b.reserved op = false
  zero : op ≤ 2 ∨ op = 9 → a ≠ 0
  present : op ≠ 0 → (s.part a).present = true
  quiet : (s.part a).resetting = false

/-- PARTCTL answers a status in D, and goes on to the next slot; the state otherwise has a property. -/
def PartAnswer (i : Instr) (w : Fields) (s s1 : State) (code : Nat) (f : State → Prop) : Prop :=
  ∃ t, exec i s = .next t ∧ (∀ n, w.d = .g n → t.gReg n.toNat = { val := BitVec.ofNat 32 code, poison := false }) ∧
    t.me.pc = nextPc s1.me.pc ∧ t.me.wait = .ready ∧ f t

/-- PARTCTL answers a status other than OK and changes nothing else (R332). -/
def PartRefused (i : Instr) (w : Fields) (s s1 : State) (code : Nat) : Prop := exec i s = .next (s1.putG w.d code false).advance
/-- Some partition that exists, other than a, has a property. -/
def Another (s : State) (a : Nat) (f : Part → Prop) : Prop := ∃ e ∈ s.parts, e.1 ≠ a ∧ e.2.present = true ∧ f e.2

/-! ### Events -/

/-- An instruction or event answers a next state that has a property. -/
def Answers (i : Instr) (s : State) (f : State → Prop) : Prop := ∃ t, exec i s = .next t ∧ f t

/-! ### Engine commands -/

/-- The effects of a command have ended with a status and a number of bytes or pages (R341, R342). -/
def CmdDone (t : State) (k status bytes : Nat) : Prop :=
  ∃ c, t.cmds.find? k = some c ∧ c.phase = .effected ∧ c.status = status ∧ c.bytes = bytes ∧ c.waiting = none

/-- An issued command of an operation, of a partition whose commands do not stand still (R74, R337). -/
structure Issued (s : State) (k : Nat) (c : Cmd) (op : Nat) : Prop where
  powered : s.powered = true
  here : s.cmds.find? k = some c
  phase : c.phase = .issued
  op : c.opN = op
  goes : s.cmdStill c = false

/-- A piece of n bytes of a command has been moved: with its `total` it has ended OK, and before that it goes on (R74). -/
def PieceDone (t : State) (k : Nat) (c : Cmd) (n total : Nat) : Prop :=
  ∃ x, t.cmds.find? k = some x ∧ x.progress = c.progress + n ∧ x.bytes = c.progress + n ∧
    if total ≤ c.progress + n then x.phase = .effected ∧ x.status = 0 ∧ x.waiting = none else x.phase = .issued

/-- A command's next piece can be read at places `ps` and written at places `pd`; `s2` is the state in which it is written. -/
structure MovesPiece (s : State) (k : Nat) (c : Cmd) (src dst : List (Nat × Nat)) (ps pd : List (Nat × Place)) (s0 s1 s2 : State) :
    Prop where
  open_ : s.scan k c (onSide .load src ++ onSide .store dst) = (true, s0)
  reads : s0.cmdAccess k c .load (secRanges (c.piece (allSecs src))) = (.ok ps, s1)
  writes : (s1.leaseLoad c.engine (leaseLines ps)).cmdAccess k c .store (secRanges (c.piece (allSecs dst))) = (.ok pd, s2)
  here : s2.cmds.find? k = some c

/-- Memory after the piece: the sectors read are written, in order (R339). -/
def movedPiece (s1 s2 : State) (c : Cmd) (ps pd : List (Nat × Place)) (src dst : List (Nat × Nat)) : Mem :=
  (s2.performWrites c.engine pd (sectorWrites (c.piece (allSecs dst))
    ((s1.leaseLoad c.engine (leaseLines ps)).sectorList ps (c.piece (allSecs src))))).mem

/-- How an issued command ends or waits at the pages of its ranges: a denied page ends it with DENIED, then an absent one is
waited for, then a closed context ends it with REMOTE; nothing is moved (R341, R472). -/
def ScanEnds (i : Instr) (s : State) (k : Nat) (c : Cmd) (rs : List (Side × Nat × Nat)) : Prop :=
  let ended (status : Nat) (t : State) : Prop := ∃ x, t.cmds.find? k = some x ∧ x.phase = .effected ∧ x.status = status
  ((∃ r ∈ rs, badSpan r.2 = true) → Answers i s fun t => ended 4 t ∧ t.mem = s.mem) ∧
  ∀ fs (s1 : State), (∀ r ∈ rs, badSpan r.2 = false) → s.pageFates c (sidePages rs) = (fs, s1) → s1.cmds.find? k = some c →
    ((∃ f ∈ fs, f.2 = .denied) → Answers i s fun t => ended 4 t ∧ t.mem = s1.mem) ∧
    ((∀ f ∈ fs, f.2 ≠ .denied) → (∃ f ∈ fs, ∃ r, f.2 = .absent r) → Answers i s fun t =>
      (∃ x, t.cmds.find? k = some x ∧ x.phase = .issued ∧ x.waiting.isSome = true) ∧ t.mem = s1.mem) ∧
    ((∀ f ∈ fs, f.2 = .ok ∨ f.2 = .closed) → (∃ f ∈ fs, f.2 = .closed) → Answers i s fun t => ended 7 t ∧ t.mem = s1.mem)

/-! ### Calls of the service processors -/

/-- A server takes up a partition's record, unpoisoned, in the partition's slot (R357, R360). -/
structure Serves (s : State) (server part : Nat) (r : CallRec) (slot : State) : Prop where
  running : s.boot.power = .running
  call : s.pendingCall server part = .call r
  clean : r.poison = false
  turn : s.serveSlot server (s.pendingParts server) = some (part, slot)

/-- The kernel thread that waits for the reply to a tag, and the pair that receives it (R324). -/
def Caller (s : State) (part : Nat) (tag : Dword) (u d : Nat) : Prop :=
  ∃ th, List.find? (fun (e : Tid × Thread) => isService e.1 && e.2.part == part && e.2.level == 1 && match e.2.wait with
      | .call g _ => decide (g = tag.toNat)
      | _ => false) s.threads = some (u, th) ∧ th.wait = .call tag.toNat d

/-- The thread has its reply, status in the even register and result in the odd one, and goes on (R324, R358). -/
def Replied (s t : State) (u d status result : Nat) : Prop :=
  (t.thr u).wait = .ready ∧ (t.thr u).pc = nextPc (s.thr u).pc ∧
    (t.thr u).g.get {} d = { val := BitVec.ofNat 32 status, poison := false } ∧
    (t.thr u).g.get {} (d + 1) = { val := BitVec.ofNat 32 result, poison := false }

end Sys2Proof.Machine
end

