-- ==== Sys2Proof/Certificates/Slice0/Obligations.lean ====
section
/-!
DEFINITION. The statements about this machine that the provers are asked for, each from the rules of spec/ that its
docstring cites.
-/
section Slice0
open Sys2Proof Sys2Proof.Machine

/-! ### Encoding -/

/-- R197, R199, R203, R207: decoding the word of a well-formed instruction gives the instruction back, every field with it. -/
def Obligations.DecodeOfEncode : Prop :=
  ∀ (i : Instr) (w : Fields), fieldsOf i = some w → WellFormed i = true → ∃ x, encode i = some x ∧ decode x = .ok i

/-- R197, R207: the encoder gives back every word that decodes, so each word has one meaning and no bit is dropped. -/
def Obligations.EncodeOfDecode : Prop :=
  ∀ x i, decode x = .ok i → encode i = some x ∧ WellFormed i = true

/-- R199, R207: a word with a reserved operand code in a field is no instruction, and neither is one whose opcode is among the
133 that are not allocated. -/
def Obligations.ReservedWordsRejected : Prop :=
  (∀ x : BitVec 96, (∃ k ∈ [12, 20, 28, 36], 0xEA ≤ (x.extractLsb' k 8).toNat ∧ (x.extractLsb' k 8).toNat ≤ 0xFE) →
    decode x = .error .reservedOperand) ∧
  (∀ x (w : Fields), splitWord x = some w → (x.extractLsb' 0 8).toNat ∈ unallocatedOpcodes → decode x = .error .unallocated) ∧
  unallocatedOpcodes.length = 133

/-- The words that the spec writes out decode to the instructions it gives for them (R202, R215, R225, and the examples of
chapters 10 to 14). -/
def Obligations.DecodedWords : Prop :=
  decode 0x0020_0FF0_5040_3700#96 = .ok (.add { gneg := false, gpred := 7, d := .g 3, a := .g 4, b := .g 5, c := .none, ty := 2, rm := 0, sub := 0, fn := 0, ext := 0 }) ∧
  decode 0x0020_0E90_5040_3700#96 = .error .illFormed ∧
  decode 0xE860_0060_5040_A709#96 = .ok (.lop3 { gneg := false, gpred := 7, d := .g 10, a := .g 4, b := .g 5, c := .g 6, ty := 6, rm := 0, sub := 0, fn := 0xE8, ext := 0 }) ∧
  decode 0x0000_0FFF_FFFF_F130#96 = .ok (.bra { gneg := false, gpred := 1, d := .none, a := .none, b := .none, c := .none, ty := 0, rm := 0, sub := 0, fn := 0, ext := 0 }) ∧
  decode 0x0000_3FF0_4060_27A9#96 = .ok (.partctlCores { gneg := false, gpred := 7, d := .g 2, a := .g 6, b := .g 4, c := .none, ty := 0, rm := 0, sub := 3, fn := 0, ext := 0 }) ∧
  decode 0x0000_0013_0000_0FF0_604F_F7A1#96 = .ok (.csrw { gneg := false, gpred := 7, d := .none, a := .g 4, b := .g 6, c := .none, ty := 0, rm := 0, sub := 0, fn := 0, ext := 0x13 })

/-! ### Steps -/

/-- R35: an item of the bundle being issued, whose thread is still to perform it, is performed as the instruction its word
decodes to, in the state in which its thread is the current one. R202, R207: a word that is no instruction traps ILLEGAL_OPCODE
there, with its bits 63:0 for EXC_VAL. R193, R196: an item of a marked pair that breaks a condition, and one of a line whose
reserved bits are not zero, traps so whatever its word.
Where a clause follows the model's choice and no rule: assumption log 89. -/
def Obligations.StepRunsDecoded : Prop :=
  ∀ (s : State) it rest, s.powered = true → s.latch = it :: rest → ({ s with latch := rest } : State).itemStands it = true →
    let s1 : State := { s with latch := rest, cur := it.tid }
    (∀ i, it.badPair = false → decode it.word = .ok i → step s = exec i s1) ∧
    (∀ e, it.badPair = false → decode it.word = .error e → step s = .next (s1.takeTrap 0x01 0 (it.word.extractLsb' 0 64))) ∧
    (it.badPair = true → step s = .next (s1.takeTrap 0x01 0 (it.word.extractLsb' 0 64)))

/-- R99, R192, R193, R194, R196, R414: a fetch that reaches an unpoisoned line of right parity gives the word of the slot that the
PC names, and with it the word of the next slot, at the next PC, where PAIR, bits 18:16 of the line word, marks the two for a pair:
none, 0-1, 1-2, 2-3, 3-4, 0-1 and 2-3, 0-1 and 3-4, or 1-2 and 3-4. They trap as illegal where reserved bits of the line are not
zero, or the pair breaks a condition. Where a trap or an ERET brought the thread there before the line could be read, all this holds
of a slot that the line's mask admits; one outside it is fatal to the context, or to a service core's partition (R195). A poisoned
line is fatal to the context with KIND 0x14 (R414), and one of wrong parity with KIND 0x0B (R50, R193).
Where a clause follows the model's choice and no rule: assumption log 115 and 124. -/
def Obligations.FetchGivesSlots : Prop :=
  ∀ (s : State) t secs (s1 : State), s.fetch t (lineOf (s.thr t).pc) = (.line secs, s1) →
    let th := s.thr t
    let here : State := ({ s1 with cur := t } : State).meet (tidSource t)
    let k := th.pc.toNat % 8
    let ok := btmOk (lineWord secs) k
    let reserved := decide ((lineWord secs).extractLsb' 0 16 ≠ 0)
    let paired := (([[], [0], [1], [2], [3], [0, 2], [0, 3], [1, 3]] : List (List Nat)).getD ((lineWord secs).extractLsb' 16 3).toNat []).contains k
    (secs.any SectorLit.poison = false → parityOk secs = true →
      (th.unchecked = none ∨ ok = true → ∃ x s2, s.fetchFor t = .ready x s2 ∧
        x.words = (th.pc, slotWord secs k) :: (if paired then [(th.pc + 1, slotWord secs (k + 1))] else []) ∧
        x.bad = (reserved || (paired && pairBroken (slotWord secs k) (slotWord secs (k + 1))))) ∧
      (∀ c, th.unchecked = some c → ok = false → s.fetchFor t = .over
        (if isService t then here.fatalPartition th.part 0x07 th.cid 0 0 c else here.fatalContext th.part 0x07 th.cid c))) ∧
    (secs.any SectorLit.poison = true → s.fetchFor t = .over (here.fatalContext th.part 0x14 th.cid 0)) ∧
    (secs.any SectorLit.poison = false → parityOk secs = false → s.fetchFor t = .over (here.fatalContext th.part 0x0B th.cid 0))

/-- R398: every instruction and event, in every state, answers a next state: none stops the machine. A step answers a next state, but
for the step of a package that is Off with no input pending, which stops with that fault.
Where a clause follows the model's choice and no rule: assumption log 79 and 90. -/
def Obligations.EveryInstructionAnswers : Prop :=
  (∀ i (s : State), ∃ t, exec i s = .next t) ∧
  (∀ (s : State), (∃ t, step s = .next t) ∨
     (step s = .fault .off ∧ s.boot.power = .off ∧ s.inputs = []))

/-- R480: the machine when the Oryx core starts. The Oryx thread, alone of all threads, is Ready, at monitor level in partition 0
and address space 0, with PLVL 0b00 (R322); no partition but 0 exists, and its LPDDR-6 frames are the MLF of the absent
monitor-holdings record, 32,768; no translation, unit, launch or queue exists; the commons' colours are 960 to 1023. The PC and
every register at zero, and memory with nothing written, are this model's choice (assumption log 2 and 3). -/
def Obligations.ResetState : Prop :=
  (∀ t, (State.reset.thr t).wait = if t = oryx then .ready else .free) ∧
  (State.reset.thr oryx).level = 2 ∧ (State.reset.thr oryx).plvl = 0 ∧ (State.reset.thr oryx).asid = 0 ∧
  (State.reset.thr oryx).part = 0 ∧
  (∀ n, (State.reset.part n).present = decide (n = 0)) ∧
  (State.reset.part 0).lframes = 32768 ∧
  State.reset.tlb = [] ∧ State.reset.units = [] ∧ State.reset.launches = [] ∧ State.reset.queues = [] ∧
  (∀ k, State.reset.cmask.getLsbD k = decide (960 ≤ k ∧ k < 1024)) ∧
  State.reset.mem = {} ∧ (State.reset.thr oryx).pc = 0

/-! ### Memory as data -/

/-- At reset the three tables of memory are in canonical form. -/
def Obligations.ResetMemoryCanonical : Prop := State.reset.mem.wf = true

/-- Memory keeps its canonical form over every step, from every state that has it. -/
def Obligations.StepKeepsMemoryForm : Prop :=
  ∀ (s : State) t, s.mem.wf = true → step s = .next t → t.mem.wf = true

/-- R7: after n bytes of a number are written, each reads as its byte of the number, low byte first, every other byte
reads as before, and so do all side words and poison bits. -/
def Obligations.BytesAfterWrite : Prop :=
  ∀ (m : Mem) a n x, m.dead = 0 →
    (∀ i, i < n → (m.writeN a n x).byte (a + i) = BitVec.ofNat 8 (x / 256 ^ i)) ∧
    (∀ b, (b < a ∨ a + n ≤ b) → (m.writeN a n x).byte b = m.byte b) ∧
    (m.writeN a n x).readN a n = x % 256 ^ n ∧
    (m.writeN a n x).sides = m.sides ∧ (m.writeN a n x).poison = m.poison

/-! ### Checks before an instruction's own effect, traps and returns -/

/-- R198: a thread whose guard is false takes no effect and its PC advances to the next slot, or from slot 4 to the next line
(R194); the thread is ready again. R194: the PC after slot k below 4 is slot k + 1 of the same line, and the PC after slot 4 is slot 0 of the line 64 bytes
higher. -/
def Obligations.FalseGuardAdvances : Prop :=
  (∀ (i : Instr) (w : Fields) (s : State), fieldsOf i = some w → staticPass i s = true → guardTrue w s.me = false →
     exec i s = .next s.advance ∧ s.advance.me.pc = nextPc s.me.pc ∧ s.advance.me.wait = .ready ∧
     (∀ n, s.advance.gReg n = s.gReg n) ∧ s.advance.me.v = s.me.v ∧ s.advance.me.p = s.me.p ∧
     s.advance.mem = s.mem ∧ s.advance.parts = s.parts ∧ s.advance.units = s.units ∧
     ∀ t, t ≠ s.cur → s.advance.thr t = s.thr t) ∧
  (∀ (line : Dword) (k : Nat), line.toNat % 64 = 0 →
     (k < 4 → nextPc (line + BitVec.ofNat 64 k) = line + BitVec.ofNat 64 (k + 1)) ∧
     nextPc (line + 4) = line + 64)

/-- R202, R208, R49: an instruction that fails a static check takes the trap ILLEGAL_OPCODE, with the word's bits 63:0 for
EXC_VAL, whatever its guard. -/
def Obligations.StaticFailureTraps : Prop :=
  ∀ (i : Instr) (w : Fields) x (s : State), fieldsOf i = some w → encode i = some x → staticPass i s = false →
    exec i s = .next (s.takeTrap 0x01 0 (x.extractLsb' 0 64))

/-- R47, R48: a trap of a compute thread at user level outside a transaction, whose vector its line's mask admits, writes the
three exception registers, puts the thread at handler level and its PC at the partition's EXC_VEC, and changes no other
register of it, no other thread, and no memory. Consumed poison (POISON_CONSUMED) also leaves its error record (R414),
which State.noted adds; any other trap adds none. -/
def Obligations.TrapEntryCompute : Prop :=
  ∀ (s : State) (code opnd : Nat) (val : Dword), code < 256 → opnd < 8 → isService s.cur = false → s.me.tx = none → s.me.level = 0 →
    ((s.noted code).entered code opnd val).refusesPc s.cur s.vector = false →
    let t := s.takeTrap code opnd val
    t.errs = (s.noted code).errs ∧ t.me.epc = s.me.pc ∧ t.me.cause.extractLsb' 0 8 = BitVec.ofNat 8 code ∧
    t.me.cause.extractLsb' 8 3 = BitVec.ofNat 3 opnd ∧ t.me.cause.extractLsb' 11 21 = 0 ∧ t.me.val = val ∧
    t.me.level = 1 ∧ t.me.pc = (s.part s.me.part).excVec ∧ t.me.wait = .ready ∧
    t.me.g = s.me.g ∧ t.me.v = s.me.v ∧ t.me.p = s.me.p ∧ t.me.h = s.me.h ∧ t.me.rnd = s.me.rnd ∧
    (∀ u, u ≠ s.cur → t.thr u = s.thr u) ∧ t.mem = s.mem ∧ t.parts = s.parts ∧ t.units = s.units

/-- R318, R48: a trap on the service die outside a transaction, with PLVL none, enters kernel level on a general core and
monitor level on the Oryx core at the thread's own vector, and records the prior level in PLVL; the errors recorded are
as a compute thread's trap leaves them.
Where a clause follows the model's choice and no rule: assumption log 7 and 11. -/
def Obligations.TrapEntryService : Prop :=
  ∀ (s : State) (code opnd : Nat) (val : Dword), isService s.cur = true → s.me.tx = none → s.me.plvl = 3 →
    (s.me.vec ≠ 0 ∨ isOryx s.cur = true) → ((s.noted code).entered code opnd val).refusesPc s.cur s.vector = false →
    let t := s.takeTrap code opnd val
    t.errs = (s.noted code).errs ∧ t.me.epc = s.me.pc ∧ t.me.cause = BitVec.ofNat 32 (code + opnd * 256) ∧ t.me.val = val ∧
    t.me.plvl = s.me.level ∧ t.me.level = (if isOryx s.cur then 2 else 1) ∧ t.me.pc = s.me.vec ∧
    t.me.g = s.me.g ∧ t.me.v = s.me.v ∧ t.me.p = s.me.p ∧
    (∀ u, u ≠ s.cur → t.thr u = s.thr u) ∧ t.mem = s.mem ∧ t.parts = s.parts

/-- R50: a trap raised at handler level is fatal to the context of the thread and is never delivered. R195: so is a trap whose
vector the mask of its line refuses. R318: a trap taken while PLVL holds an unreturned level is fatal to the partition, and on the
Oryx core, in partition 0, fatal to the device: power is off, ALERT_N is asserted and the record is kept. A trap of a thread of a
general core whose vector is 0, and one of the service die whose vector is refused, is fatal to the partition. Consumed poison is
recorded first (R414).
Where a clause follows the model's choice and no rule: assumption log 11 and 12. -/
def Obligations.TrapsThatAreFatal : Prop :=
  (∀ (s : State) (code opnd : Nat) (val : Dword), isService s.cur = false → s.me.tx = none →
     1 ≤ s.me.level ∨ ((s.noted code).entered code opnd val).refusesPc s.cur s.vector = true →
     s.takeTrap code opnd val = ((s.noted code).meet s.src).fatalContext s.me.part 0x07 s.me.cid code) ∧
  (∀ (s : State) (code opnd : Nat) (val : Dword), isService s.cur = true → s.me.tx = none →
     s.me.plvl ≠ 3 ∨ (s.me.vec = 0 ∧ isOryx s.cur = false) ∨ ((s.noted code).entered code opnd val).refusesPc s.cur s.vector = true →
     s.takeTrap code opnd val = ((s.noted code).meet s.src).fatalPartition s.me.part 0x07 s.me.cid 0 0 code ∧
     (s.me.part = 0 → (s.takeTrap code opnd val).boot.power = .off ∧ (s.takeTrap code opnd val).boot.alert = true ∧
       (s.takeTrap code opnd val).boot.kept ≠ []))

/-- R144, R267: a trap inside a transaction is not taken. The transaction is gone, the thread stands at its abort target at its
own level, memory is as it was, and TSTAT holds FAULT for a denied access, LOCKED for a locked range, and otherwise TRAP with
the trap's code. Poison consumed inside it leaves its error record all the same (R414). -/
def Obligations.TrapInsideTransactionAborts : Prop :=
  ∀ (s : State) x (code opnd : Nat) (val : Dword), s.me.tx = some x → code < 256 →
    let t := s.takeTrap code opnd val
    t.errs = (s.noted code).errs ∧ t.me.tx = none ∧ t.me.pc = x.abortPc ∧ t.me.level = s.me.level ∧ t.me.epc = s.me.epc ∧ t.me.cause = s.me.cause ∧
    t.me.val = s.me.val ∧ t.mem = s.mem ∧ t.me.g = s.me.g ∧ t.me.v = s.me.v ∧ t.me.p = s.me.p ∧
    t.me.tstat.extractLsb' 0 8 =
      (if code = cPAGE then BitVec.ofNat 8 txFAULT else if code = cLOCKED then BitVec.ofNat 8 txLOCKED else BitVec.ofNat 8 txTRAP) ∧
    t.me.tstat.extractLsb' 16 8 = (if code = cPAGE ∨ code = cLOCKED then 0 else BitVec.ofNat 8 code) ∧
    t.me.tstat.extractLsb' 24 8 = 0

/-! ### Operands and registers -/

/-- R80, R199: a register written reads back as written and no other register changes, in every thread. On a compute thread
at handler level g124 to g127 are the handler registers, so the thread's own g124 to g127 keep their values. R80, R199: p7 reads as true and a write to it is discarded; a write to p0 to p6 reads back, and leaves the other predicates
and every register. -/
def Obligations.RegistersReadBack : Prop :=
  ((∀ (s : State) n x, (s.setG n x).gReg n = x) ∧
   (∀ (s : State) n m x, n ≠ m → (s.setG n x).gReg m = s.gReg m) ∧
   (∀ (s : State) n x t, t ≠ s.cur → (s.setG n x).thr t = s.thr t) ∧
   (∀ (s : State) n x, s.handlerReg s.cur n = true → (s.setG n x).me.g = s.me.g) ∧
   (∀ (s : State) n x, (s.setV n x).vReg n = x) ∧ (∀ (s : State) n m x, n ≠ m → (s.setV n x).vReg m = s.vReg m)) ∧
  ((∀ (s : State), s.pReg 7 = true) ∧ (∀ (s : State) b, (s.setP 7 b).me = s.me) ∧
   (∀ (s : State) n b, n < 7 → (s.setP n b).pReg n = b) ∧
   (∀ (s : State) n m b, n < 7 → m < 7 → n ≠ m → (s.setP n b).pReg m = s.pReg m) ∧
   (∀ (s : State) n b, (s.setP n b).me.g = s.me.g ∧ (s.setP n b).me.v = s.me.v ∧ (s.setP n b).mem = s.mem))

/-- R175, R199, R200, R201: what each operand form of an integer source reads. A g register is its 32 bits, or the pair that
begins at it under a 64-bit type; a special value is 32 or 64 bits; an immediate is EXT, extended by sign for .i64 and by zero for
.n64; zero is zero; none of these traps. A constant operand whose window's base is zero is ILLEGAL_OPCODE, and otherwise it is the
load of 4 or 8 bytes at base + 4w, with the poison of what it loads. R219: how a source is read at a type's width and signedness, and what is written of an exact result. -/
def Obligations.OperandForms : Prop :=
  ((∀ o n (ty : BitVec 4) (ext : BitVec 32) (s : State), is64 ty = false → Src o (.g n) ty ext s { raw := (s.gReg n.toNat).val.toNat, poison := (s.gReg n.toNat).poison } s) ∧
   (∀ o n (ty : BitVec 4) (ext : BitVec 32) (s : State), is64 ty = true → Src o (.g n) ty ext s
     { raw := (s.gReg n.toNat).val.toNat + 2 ^ 32 * (s.gReg (n.toNat + 1)).val.toNat
       poison := (s.gReg n.toNat).poison || (s.gReg (n.toNat + 1)).poison } s) ∧
   (∀ o n (ty : BitVec 4) (ext : BitVec 32) (s : State), is64 ty = false → Src o (.sv n) ty ext s { raw := s.special n.toNat % 2 ^ 32, poison := false } s) ∧
   (∀ o n (ty : BitVec 4) (ext : BitVec 32) (s : State), is64 ty = true → Src o (.sv n) ty ext s { raw := s.special n.toNat, poison := false } s) ∧
   (∀ o (ext : BitVec 32) (s : State), Src o .imm 3 ext s { raw := (ext.signExtend 64).toNat, poison := false } s) ∧
   (∀ o (ty : BitVec 4) (ext : BitVec 32) (s : State), ty ≠ 3 → Src o .imm ty ext s { raw := ext.toNat, poison := false } s) ∧
   (∀ o (ty : BitVec 4) (ext : BitVec 32) (s : State), Src o .zero ty ext s { raw := 0, poison := false } s) ∧
   (∀ o n (ty : BitVec 4) (ext : BitVec 32) (s : State), s.window n.toNat = 0 → Traps (readSrc o (.k n) ty ext) s cILLEGAL 0 0 s) ∧
   (∀ o n (ty : BitVec 4) (ext : BitVec 32) (s : State) v p t, s.window n.toNat ≠ 0 →
     Does (loadBytes o (s.window n.toNat + 4 * (ext.toNat % 2 ^ 17)) (if is64 ty then 8 else 4)) s (v, p) t →
     Src o (.k n) ty ext s { raw := v, poison := p } t)) ∧
  ((∀ (ty : BitVec 4) raw, ty.toNat < 8 → (srcOf ty raw - (raw : Int)) % 2 ^ typeWidth ty = 0) ∧
   (∀ (ty : BitVec 4) raw, ty.toNat < 4 → -(2 ^ (typeWidth ty - 1) : Int) ≤ srcOf ty raw ∧ srcOf ty raw < 2 ^ (typeWidth ty - 1)) ∧
   (∀ (ty : BitVec 4) raw, 4 ≤ ty.toNat → ty.toNat < 8 → 0 ≤ srcOf ty raw ∧ srcOf ty raw < 2 ^ typeWidth ty) ∧
   (∀ (ty : BitVec 4) v, ty.toNat < 8 → ((dstOf ty v : Int) - v) % 2 ^ typeWidth ty = 0) ∧
   (∀ (ty : BitVec 4) v, ty.toNat < 8 → dstOf ty v < 2 ^ max 32 (typeWidth ty)) ∧
   (∀ (ty : BitVec 4) v, ty.toNat < 2 → BitVec.ofNat 32 (dstOf ty v) = (BitVec.ofInt (typeWidth ty) v).signExtend 32) ∧
   (∀ (ty : BitVec 4) v, 4 ≤ ty.toNat → ty.toNat < 6 → BitVec.ofNat 32 (dstOf ty v) = (BitVec.ofInt (typeWidth ty) v).setWidth 32))

/-! ### Integer and logic instructions -/

/-- R223, R221: the effects of the integer and logic instructions, DIV, LOP3, FSH, BFX, BFI and CMP apart: each runs with these
operands, writes the value below as R219 writes it with the OR of the poison of its sources, and goes on to the next slot. SEL
carries the poison of the selected source only, and MOVI.hi writes the odd register and leaves the even one. -/
def Obligations.IntegerEffects : Prop :=
  Binary .add (fun w a b => if w.sub.getLsbD 0 then satTo w.ty (a + b) else a + b) ∧
  Binary .sub (fun w a b => if w.sub.getLsbD 0 then satTo w.ty (a - b) else a - b) ∧
  Binary .mul (fun _ a b => a * b) ∧
  Binary .mulh (fun w a b => a * b / 2 ^ typeWidth w.ty) ∧
  Ternary .mad (fun w => if w.sub.getLsbD 0 then w.ty ||| 1 else w.ty) (fun w => if w.sub.getLsbD 0 then w.ty ||| 1 else w.ty)
    (fun w a b c => srcOf w.ty a * srcOf w.ty b + srcOf (if w.sub.getLsbD 0 then w.ty ||| 1 else w.ty) c) ∧
  Binary .min (fun _ a b => if a ≤ b then a else b) ∧
  Binary .max (fun _ a b => if a ≤ b then b else a) ∧
  Unary .abs (fun w a => if w.sub.getLsbD 0 then satTo w.ty (srcOf w.ty a).natAbs else (srcOf w.ty a).natAbs) ∧
  Counted .shl (fun w a n => if typeWidth w.ty ≤ n then 0 else srcOf w.ty a * 2 ^ n) ∧
  Counted .shr (fun w a n => srcOf w.ty a / 2 ^ min n (typeWidth w.ty)) ∧
  Unary .popc (fun w a => ((List.range (typeWidth w.ty)).countP a.testBit : Nat)) ∧
  Unary .clz (fun w a => ((List.range (typeWidth w.ty)).countP fun i => decide (a % 2 ^ typeWidth w.ty < 2 ^ i) : Nat)) ∧
  Unary .brev (fun w a => ((List.range (typeWidth w.ty)).map fun i =>
    if a.testBit (typeWidth w.ty - 1 - i) then 2 ^ i else 0).sum) ∧
  (∀ (w : Fields) (s : State) a b (s1 s2 : State), Runs (.sel w) w s → Src 2 w.a w.ty w.ext s a s1 → Src 3 w.b w.ty w.ext s1 b s2 →
    exec (.sel w) s = .next (s2.putDst w.d w.ty (srcOf w.ty (if s2.predOf w.c then a.raw else b.raw))
      (if s2.predOf w.c then a.poison else b.poison)).advance) ∧
  Unary .mov (fun w a => srcOf w.ty a) ∧
  (∀ (w : Fields) (s : State), Runs (.movi w) w s → w.sub.getLsbD 0 = false →
    exec (.movi w) s = .next (s.putDst w.d w.ty (if is64 w.ty && tySigned w.ty then w.ext.toInt else w.ext.toNat) false).advance) ∧
  (∀ (w : Fields) n (s : State), Runs (.movi w) w s → w.sub.getLsbD 0 = true → w.d = .g n →
    exec (.movi w) s = .next (s.setG (n.toNat + 1) { val := w.ext, poison := false }).advance) ∧
  (∀ (w : Fields) n (s : State), Runs (.addr w) w s → w.a = .g n →
    exec (.addr w) s = .next
      (s.putPair w.d (BitVec.ofNat 64 (s.pair n.toNat).raw + w.ext.signExtend 64).toNat (s.pair n.toNat).poison).advance)

/-- R224: DIV truncates toward zero and never traps; a zero divisor gives the quotient all ones and the remainder a. R224: the smallest signed value divided by -1 wraps to the smallest value, with remainder 0, at every signed type of DIV. R225: LOP3 runs, and bit i of the value that it writes is FN[4b[i] + 2a[i] + c[i]]; the seven functions of the rule's table, and the word of its example. R226: FSH shifts b above a by c, reduced modulo the width or clamped to it; the count is an unsigned 32-bit value. R227: BFX and BFI, the position in bits 7:0 and the length in bits 15:8 of the field operand. -/
def Obligations.DivShiftAndFieldEffects : Prop :=
  ((Binary .div (fun w a b =>
      let q : Int := if b = 0 then -1 else a.tdiv b
      let m : Int := if b = 0 then a else a - q * b
      if w.sub.getLsbD 0 then m else q)) ∧
   (∀ ty : BitVec 4, ty = 2 ∨ ty = 3 →
      dstOf ty ((srcOf ty (2 ^ (typeWidth ty - 1))).tdiv (srcOf ty (2 ^ typeWidth ty - 1))) = 2 ^ (typeWidth ty - 1) ∧
      dstOf ty (srcOf ty (2 ^ (typeWidth ty - 1)) -
        (srcOf ty (2 ^ (typeWidth ty - 1))).tdiv (srcOf ty (2 ^ typeWidth ty - 1)) * srcOf ty (2 ^ typeWidth ty - 1)) = 0)) ∧
  ((Ternary .lop3 Fields.ty Fields.ty (fun w a b c => (lop3Bits w.fn (typeWidth w.ty) a b c : Nat)) ∧
    (∀ (fn : BitVec 8) w a b c i, (lop3Bits fn w a b c).testBit i =
      (decide (i < w) && fn.getLsbD (4 * (b.testBit i).toNat + 2 * (a.testBit i).toNat + (c.testBit i).toNat))) ∧
    (∀ a b c : Bool,
      let pick (fn : BitVec 8) := fn.getLsbD (4 * b.toNat + 2 * a.toNat + c.toNat)
      pick 0x96 = (a ^^ b ^^ c) ∧ pick 0xE8 = (a && b || a && c || b && c) ∧ pick 0x3C = (a ^^ b) ∧ pick 0xFC = (a || b) ∧
      pick 0x0C = (a && !b) ∧ pick 0x14 = ((a ^^ b) && !c) ∧ pick 0xC8 = (a && (b || c))) ∧
    encode (.lop3 {
      gneg := false, gpred := 7, d := .g 10, a := .g 4, b := .g 5, c := .g 6, ty := 6, rm := 0, sub := 0, fn := 0xE8, ext := 0 }) =
      some 0xE860_0060_5040_A709#96) ∧
   (Ternary .fsh (fun _ => 6) Fields.ty (fun w a b c =>
      let n := typeWidth w.ty
      let x := a % 2 ^ n + b % 2 ^ n * 2 ^ n
      let k := if w.sub.getLsbD 1 then min c n else c % n
      if w.sub.getLsbD 0 then (x * 2 ^ k / 2 ^ n % 2 ^ n : Nat) else (x / 2 ^ k % 2 ^ n : Nat))) ∧
   (Counted .bfx (fun w a f =>
      let n := min (f / 256 % 256) (typeWidth w.ty)
      let x := srcOf w.ty a / 2 ^ (f % 256) % 2 ^ n
      if n = 0 then 0 else if w.ty.toNat < 4 ∧ 2 ^ (n - 1) ≤ x then x - 2 ^ n else x) ∧
    Ternary .bfi (fun _ => 6) Fields.ty (fun w a b f =>
      let n := typeWidth w.ty
      let k := (2 ^ (f / 256 % 256) - 1) * 2 ^ (f % 256) % 2 ^ n
      ((a % 2 ^ n &&& (2 ^ n - 1 - k)) ||| ((b % 2 ^ n * 2 ^ (f % 256)) &&& k) : Nat))))

/-- R228: CMP compares its typed sources, combines the outcome with predicate C and writes predicate D, which discards the write
where it is p7. A poisoned register source traps POISON_CONSUMED before any effect, naming A or B (R221). -/
def Obligations.CmpEffect : Prop :=
  (∀ (w : Fields) (s : State) a b (s1 s2 : State), Runs (.cmp w) w s → s.regPoison w.a (is64 w.ty) = false → s.regPoison w.b (is64 w.ty) = false →
    Src 2 w.a w.ty w.ext s a s1 → a.poison = false → Src 3 w.b w.ty w.ext s1 b s2 → b.poison = false →
    let x := srcOf w.ty a.raw
    let y := srcOf w.ty b.raw
    let r := match w.sub.toNat % 8 with
      | 0 => decide (x = y)
      | 1 => decide (x ≠ y)
      | 2 => decide (x < y)
      | 3 => decide (x ≤ y)
      | 4 => decide (y < x)
      | _ => decide (y ≤ x)
    let v := match w.sub.toNat / 8 with
      | 0 => r
      | 1 => r && s2.predOf w.c
      | 2 => r || s2.predOf w.c
      | _ => xor r (s2.predOf w.c)
    exec (.cmp w) s = .next (s2.putP w.d v).advance) ∧
  (∀ (w : Fields) (s : State), Runs (.cmp w) w s → s.regPoison w.a (is64 w.ty) = true → exec (.cmp w) s = .next (s.takeTrap 0x09 2 0)) ∧
  (∀ (w : Fields) (s : State), Runs (.cmp w) w s → s.regPoison w.a (is64 w.ty) = false → s.regPoison w.b (is64 w.ty) = true →
    exec (.cmp w) s = .next (s.takeTrap 0x09 3 0))

/-- R175, R219, R223: under .n32 and .i32 with g registers for operands, ADD, SUB and MUL write the sum, difference and product
modulo 2^32, and MAX under .i32 the signed greater; D, if poison is clear, reads so in the next state. -/
def Obligations.WordArithmetic : Prop :=
  ∀ (w : Fields) d a b (s : State), w.d = .g d → w.a = .g a → w.b = .g b → w.ty = 2 ∨ w.ty = 6 → w.sub = 0 →
    let x := (s.gReg a.toNat).val
    let y := (s.gReg b.toNat).val
    let z := (s.gReg a.toNat).poison || (s.gReg b.toNat).poison
    (Runs (.add w) w s → ∃ t, exec (.add w) s = .next t ∧ t = (s.setG d.toNat ⟨x + y, z⟩).advance) ∧
    (Runs (.sub w) w s → ∃ t, exec (.sub w) s = .next t ∧ t = (s.setG d.toNat ⟨x - y, z⟩).advance) ∧
    (Runs (.mul w) w s → ∃ t, exec (.mul w) s = .next t ∧ t = (s.setG d.toNat ⟨x * y, z⟩).advance) ∧
    (w.ty = 2 → Runs (.max w) w s → ∃ t, exec (.max w) s = .next t ∧
      t = (s.setG d.toNat ⟨if x.slt y then y else x, z⟩).advance)

/-! ### Predicate instructions -/

/-- R229, R230: PLOP3 writes FN[4b + 2a + c]; PMOV writes p6 to p0 in bits 6:0, 1 in bit 7 and zero above with poison clear;
PMOV.unpack gives each p0 to p6 whose mask bit is set the bit of a, and leaves the others. -/
def Obligations.PredicateEffects : Prop :=
  (∀ (w : Fields) (s : State), Runs (.plop3 w) w s → exec (.plop3 w) s = .next (s.putP w.d
    (w.fn.getLsbD (4 * (s.predOf w.b).toNat + 2 * (s.predOf w.a).toNat + (s.predOf w.c).toNat))).advance) ∧
  (∀ (w : Fields) n (s : State), Runs (.pmov w) w s → w.d = .g n → exec (.pmov w) s = .next (s.setG n.toNat
    { val := (1#25 ++ s.me.p), poison := false }).advance) ∧
  (∀ (w : Fields) (s : State) a m (s1 s2 : State), Runs (.pmovUnpack w) w s → Src 2 w.a 6 w.ext s a s1 → a.poison = false → Src 3 w.b 6 w.ext s1 m s2 →
    m.poison = false →
    ∃ t, exec (.pmovUnpack w) s = .next t ∧ t.me.pc = nextPc s2.me.pc ∧
      (∀ i, i < 7 → t.me.pred i = if m.raw.testBit i then a.raw.testBit i else s2.me.pred i) ∧
      t.me.g = s2.me.g ∧ t.me.v = s2.me.v ∧ t.mem = s2.mem)

/-! ### Frames of register instructions -/

/-- R219, R221, R223: what an instruction of the integer and logic family leaves unchanged, for every operand form but a constant
window's word, which TranslationFrame covers, and poisoned operands too, but those of a CMP, which trap (R221): every g register but its destination's, every v register, every predicate but
the one CMP writes, the exception registers, RND, the level, the transaction, every other thread, every byte of memory with
side words and poison, the partitions' registers and the units. -/
def Obligations.IntegerFrame : Prop :=
  ∀ (i : Instr) (w : Fields) (s : State) t, integerFamily i = true → fieldsOf i = some w → Runs i w s → exec i s = .next t →
    isWindow w.a = false → isWindow w.b = false → isWindow w.c = false →
    ((∃ x, i = .cmp x) → s.regPoison w.a (is64 w.ty) = false ∧ s.regPoison w.b (is64 w.ty) = false) →
    (∀ n, n < 128 → n ∉ gDests i w → t.gReg n = s.gReg n) ∧
    (∀ n, n < 7 → w.d ≠ .p (BitVec.ofNat 3 n) → t.pReg n = s.pReg n) ∧
    t.me.v = s.me.v ∧ t.me.epc = s.me.epc ∧ t.me.cause = s.me.cause ∧ t.me.val = s.me.val ∧ t.me.rnd = s.me.rnd ∧
    t.me.level = s.me.level ∧ t.me.tx = s.me.tx ∧ (∀ u, u ≠ s.cur → t.thr u = s.thr u) ∧
    (∀ a, t.mem.byte a = s.mem.byte a ∧ t.mem.side a = s.mem.side a ∧ t.mem.pois a = s.mem.pois a) ∧ t.parts = s.parts ∧
    t.units = s.units ∧ t.accs = s.accs

/-! ### Scalar float instructions -/

/-- R276, R277, R278, R279, R280, R281 and the roundings of R182 to R185: each scalar float instruction runs, and writes the code of
its exact value rounded once, with the OR of the poison of its sources. Under SR one word is taken from RND and under no
other mode. FMIN and FMAX write an operand's code unchanged; FCMP writes a predicate, a NaN being unordered. -/
def Obligations.FloatEffects : Prop :=
  Float2 .fadd (fun w a b => a.add (isRdn w.rm) (b.negIf (w.sub.getLsbD 0))) ∧
  Float2 .fmul (fun _ a b => a.mul b) ∧
  (∀ (w : Fields) (s : State) a b c (s1 s2 s3 : State), Runs (.ffma w) w s → Src 2 w.a w.ty w.ext s a s1 → Src 3 w.b w.ty w.ext s1 b s2 →
    Src 4 w.c w.ty w.ext s2 c s3 →
    exec (.ffma w) s = .next (rounded w s3
      ((((fval w a).mul (fval w b)).negIf (w.sub.getLsbD 0)).add (isRdn w.rm) ((fval w c).negIf (w.sub.getLsbD 1)))
      (a.poison || b.poison || c.poison)).advance) ∧
  (∀ (w : Fields) (s : State) a b (s1 s2 : State), Runs (.fmin w) w s → Src 2 w.a w.ty w.ext s a s1 → Src 3 w.b w.ty w.ext s1 b s2 →
    exec (.fmin w) s = .next (s2.putG w.d (pickMinMax (typeFmt w.ty) false (fcode w a) (fcode w b)) (a.poison || b.poison)).advance) ∧
  (∀ (w : Fields) (s : State) a b (s1 s2 : State), Runs (.fmax w) w s → Src 2 w.a w.ty w.ext s a s1 → Src 3 w.b w.ty w.ext s1 b s2 →
    exec (.fmax w) s = .next (s2.putG w.d (pickMinMax (typeFmt w.ty) true (fcode w a) (fcode w b)) (a.poison || b.poison)).advance) ∧
  (∀ (w : Fields) (s : State) a b (s1 s2 : State), Runs (.fcmp w) w s → s.regPoison w.a false = false → s.regPoison w.b false = false →
    Src 2 w.a w.ty w.ext s a s1 → a.poison = false → Src 3 w.b w.ty w.ext s1 b s2 → b.poison = false →
    exec (.fcmp w) s = .next (s2.putP w.d
      (let x := fval w a
       let y := fval w b
       let un := x.isNan || y.isNan
       let r := match w.sub.toNat % 8 with
         | 0 => !un && !x.lt y && !y.lt x
         | 1 => un || x.lt y || y.lt x
         | 2 => x.lt y
         | 3 => !un && !y.lt x
         | 4 => y.lt x
         | 5 => !un && !x.lt y
         | 6 => un
         | _ => !un
       match w.sub.toNat / 8 with
       | 0 => r
       | 1 => r && s2.predOf w.c
       | 2 => r || s2.predOf w.c
       | _ => xor r (s2.predOf w.c))).advance) ∧
  Float1 .frcp (fun _ a => a.recip) ∧ Float1 .frsq (fun _ a => a.rsqrt) ∧ Float1 .flog2 (fun _ a => a.log2) ∧
  (∀ (w : Fields) (s : State) a (s1 : State), Runs (.fexp2 w) w s → Src 2 w.a w.ty w.ext s a s1 →
    exec (.fexp2 w) s = .next (s1.putG w.d (exp2e9 (a.raw % 2 ^ 32)) a.poison).advance) ∧
  (∀ (w : Fields) (s : State) a (s1 : State), Runs (.frnd w) w s → Src 2 w.a w.ty w.ext s a s1 →
    exec (.frnd w) s = .next (s1.putG w.d (roundNum ((fval w a).integral w.rm.toNat) (typeFmt w.ty) rmRTZ 0) a.poison).advance)

/-- R282: CVT runs between every two of its types: integer to integer clamps to the range of the destination; to a float the
exact value is rounded to the destination's format; from a float the value is rounded to an integer and clamped, NaN giving
zero. Poison is carried, and SR takes a word for the last three. -/
def Obligations.ConvertEffect : Prop :=
  ∀ (w : Fields) (s : State) a (s1 : State), Runs (.cvt w) w s →
    let st := BitVec.ofNat 4 (w.sub.toNat % 16)
    Src 2 w.a st w.ext s a s1 →
    let v := if st.toNat < 8 then Num.ofInt (srcOf st a.raw) else (typeFmt st).value (a.raw % 2 ^ (typeFmt st).w)
    let d := drawn w.rm.toNat 1 s1
    (st.toNat < 8 → w.ty.toNat < 8 → exec (.cvt w) s = .next (s1.putDst w.d w.ty (satTo w.ty (srcOf st a.raw)) a.poison).advance) ∧
    (8 ≤ w.ty.toNat → exec (.cvt w) s =
      .next (d.2.putG w.d (roundNum v (typeFmt w.ty) w.rm.toNat (d.1.headD 0)) a.poison).advance) ∧
    (8 ≤ st.toNat → w.ty.toNat < 8 → exec (.cvt w) s =
      .next (d.2.putDst w.d w.ty (roundInt v (typeWidth w.ty) (decide (w.ty.toNat < 4)) w.rm.toNat (d.1.headD 0)) a.poison).advance)

/-! ### Sector vector instructions -/

/-- R283 to R285, R276, R277: each element-wise vector instruction whose operands carry the tag of its TYPE runs. An integer tag
wraps or clamps; a float tag rounds each element once; an MX tag quantises the exact results of each block, a NaN in an operand's
element making that result NaN. The side word of a non-MX result is A's. Poison is the OR. -/
def Obligations.VectorElementwise : Prop :=
  Elementwise .vadd (fun w => [w.a, w.b]) (fun w => w.sub.getLsbD 0)
    (fun w x => i0 x + negIfInt (w.sub.getLsbD 1) (i1 x)) (fun w x => (n0 x).add (isRdn w.rm) ((n1 x).negIf (w.sub.getLsbD 1))) none ∧
  Elementwise .vmul (fun w => [w.a, w.b]) (fun w => w.sub.getLsbD 0) (fun _ x => i0 x * i1 x) (fun _ x => (n0 x).mul (n1 x)) none ∧
  Elementwise .vfma (fun w => [w.a, w.b, w.c]) (fun w => w.sub.getLsbD 0)
    (fun w x => negIfInt (w.sub.getLsbD 1) (i0 x * i1 x) + negIfInt (w.sub.getLsbD 2) (i2 x))
    (fun w x => (((n0 x).mul (n1 x)).negIf (w.sub.getLsbD 1)).add (isRdn w.rm) ((n2 x).negIf (w.sub.getLsbD 2))) none ∧
  Elementwise .vmin (fun w => [w.a, w.b]) (fun _ => false) (fun _ x => min (i0 x) (i1 x)) (fun _ x => Num.pick false (n0 x) (n1 x))
    (some fun F c => pickMinMax F false (c.getD 0 0) (c.getD 1 0)) ∧
  Elementwise .vmax (fun w => [w.a, w.b]) (fun _ => false) (fun _ x => max (i0 x) (i1 x)) (fun _ x => Num.pick true (n0 x) (n1 x))
    (some fun F c => pickMinMax F true (c.getD 0 0) (c.getD 1 0))

/-- R286, R287: VRED and VDOT run and write one g register: integer sums, minima and maxima modulo 2^32 (VDOT.sat clamped), float
sums exact and rounded once to FP32. R291, R292: VSPLAT, VEXT, VINS, VSIDE and VTAG run and write what the rules give: VSPLAT every element; VEXT one element, by
index modulo their number, sign extended for a signed integer tag; VINS that element, keeping the rest, the side word and the tag;
VSIDE the side word, read or replaced; VTAG the tag alone. -/
def Obligations.VectorReductionsAndMoves : Prop :=
  ((∀ (w : Fields) (s : State), Runs (.vred w) w s → (s.readV w.a w.ty).tag = w.ty →
     let a := s.readV w.a w.ty
     let k := kindOf w.ty
     let xs := (List.range k.count).map fun i => elemInt k (!w.sub.getLsbD 4) a.sec i
     let vs := elemValues k true a.sec a.side
     let d := drawn w.rm.toNat 1 s
     (isIntTag w.ty = true → exec (.vred w) s = .next (s.putG w.d ((match w.sub.toNat % 4 with
         | 0 => xs.sum
         | 1 => (xs.tail).foldl min (xs.headD 0)
         | _ => (xs.tail).foldl max (xs.headD 0)) % 2 ^ 32).toNat a.poison).advance) ∧
     (isIntTag w.ty = false → exec (.vred w) s = .next (d.2.putG w.d (roundNum (match w.sub.toNat % 4 with
         | 0 => exactSum (isRdn w.rm) vs
         | n => (vs.tail).foldl (Num.pick (n == 2)) (vs.headD .nan)) fFP32 w.rm.toNat (d.1.headD 0)) a.poison).advance)) ∧
   (∀ (w : Fields) (s : State) c (s1 : State), Runs (.vdot w) w s → (s.readV w.a w.ty).tag = w.ty → (s.readV w.b w.ty).tag = w.ty → Src 4 w.c 6 w.ext s c s1 →
     let a := s.readV w.a w.ty
     let b := s.readV w.b w.ty
     let k := kindOf w.ty
     let sg := !w.sub.getLsbD 4
     let d := drawn w.rm.toNat 1 s1
     let p := a.poison || b.poison || c.poison
     (isIntTag w.ty = true → exec (.vdot w) s = .next (s1.putG w.d (intElem 32 sg (w.sub.getLsbD 0)
         ((if sg then sInt 32 c.raw else c.raw) + ((List.range k.count).map fun i => elemInt k sg a.sec i * elemInt k sg b.sec i).sum)) p).advance) ∧
     (isIntTag w.ty = false → exec (.vdot w) s = .next (d.2.putG w.d (roundNum (dotSum (isRdn w.rm)
         (fFP32.value c.raw :: List.zipWith Machine.Num.mul (elemValues k true a.sec a.side) (elemValues k true b.sec b.side)))
         fFP32 w.rm.toNat (d.1.headD 0)) p).advance))) ∧
  ((∀ (w : Fields) (s : State) a (s1 : State), Runs (.vsplat w) w s → Src 2 w.a 6 w.ext s a s1 →
     ∃ r : VReg, exec (.vsplat w) s = .next (s1.putV w.d r).advance ∧ r.tag = w.ty ∧ r.side = 0 ∧ r.poison = a.poison ∧
       ∀ i, i < (kindOf w.ty).count → elemCode (kindOf w.ty) r.sec i = a.raw % 2 ^ (kindOf w.ty).width) ∧
   (∀ (w : Fields) (s : State) i (s1 : State), Runs (.vext w) w s → (s.readV w.a w.ty).tag = w.ty → Src 3 w.b 6 w.ext s i s1 → i.poison = false →
     let c := elemCode (kindOf w.ty) (s.readV w.a w.ty).sec (i.raw % (kindOf w.ty).count)
     exec (.vext w) s = .next (s1.putG w.d
       (if isIntTag w.ty && !w.sub.getLsbD 4 then (sInt (kindOf w.ty).width c % 2 ^ 32).toNat else c)
       (s.readV w.a w.ty).poison).advance) ∧
   (∀ (w : Fields) (s : State) i c (s1 s2 : State), Runs (.vins w) w s → (s.readV w.a w.ty).tag = w.ty → s.regPoison w.b false = false →
     Src 3 w.b 6 w.ext s i s1 → i.poison = false → Src 4 w.c 6 w.ext s1 c s2 →
     ∃ r : VReg, exec (.vins w) s = .next (s2.putV w.d r).advance ∧ r.tag = w.ty ∧ r.side = (s.readV w.a w.ty).side ∧
       r.poison = ((s.readV w.a w.ty).poison || c.poison) ∧
       ∀ j, j < (kindOf w.ty).count → elemCode (kindOf w.ty) r.sec j =
         if j = i.raw % (kindOf w.ty).count then c.raw % 2 ^ (kindOf w.ty).width else elemCode (kindOf w.ty) (s.readV w.a w.ty).sec j) ∧
   (∀ (w : Fields) (s : State), Runs (.vsideGet w) w s →
     exec (.vsideGet w) s = .next (s.putG w.d (s.readV w.a 0).side.toNat (s.readV w.a 0).poison).advance) ∧
   (∀ (w : Fields) (s : State) b (s1 : State), Runs (.vsideSet w) w s → Src 3 w.b 6 w.ext s b s1 →
     exec (.vsideSet w) s = .next (s1.putV w.d { s.readV w.a 0 with
       side := BitVec.ofNat 16 b.raw, poison := (s.readV w.a 0).poison || b.poison }).advance) ∧
   (∀ (w : Fields) (s : State), Runs (.vtag w) w s → exec (.vtag w) s = .next (s.putV w.d { s.readV w.a 0 with tag := w.ty }).advance))

/-- R288: VCVT whose source carries the source tag, and whose B carries the destination tag where the destination has more
elements than the source, runs: the result carries the destination tag and the OR of the poison. Into a tag that is no MX tag
each converted element is the source element rounded, in its place, the other elements are B's, and the side word is zero; into an
MX tag with no more elements than the source it is the quantisation of the part. R289, R290, R188: VQUANT whose sources carry the source tag runs in its three forms: it writes the quantised sector with its
side word and the OR of the poison; with a fold into a tile it also takes the unsigned maximum of the tile's word and the
absolute maximum of the values, and with a fold into memory it performs that fold.
Where a clause follows the model's choice and no rule: assumption log 29 and 117. -/
def Obligations.VectorConversionAndQuantise : Prop :=
  (∀ (w : Fields) (s : State), Runs (.vcvt w) w s →
     let st := BitVec.ofNat 4 (w.sub.toNat % 16)
     let ks := kindOf st
     let kd := kindOf w.ty
     let wide := decide (ks.count < kd.count)
     let a := s.readV w.a st
     let b : VReg := if wide then s.readV w.b w.ty else { tag := w.ty }
     let n := min ks.count kd.count
     let x (i : Nat) : Machine.Num := elemValue ks (!w.sub.getLsbD 4) a.sec a.side (if kd.count < ks.count then w.fn.toNat * kd.count + i else i)
     let at_ := if wide then w.fn.toNat * ks.count else 0
     let d := drawn w.rm.toNat n s
     a.tag = st → b.tag = w.ty →
     ∃ r : VReg, exec (.vcvt w) s = .next (d.2.putV w.d r).advance ∧ r.tag = w.ty ∧ r.poison = (a.poison || b.poison) ∧
       (isMxTag w.ty = false → r.side = 0 ∧
         (∀ i, i < n → elemCode kd r.sec (at_ + i) = (match kd with
           | .flt F => roundNum (x i) F w.rm.toNat (d.1.getD i 0)
           | _ => (roundInt (x i) kd.width (!w.sub.getLsbD 4) w.rm.toNat (d.1.getD i 0) % 2 ^ kd.width).toNat)) ∧
         (wide = true → ∀ i, i < kd.count → (i < at_ ∨ at_ + n ≤ i) → elemCode kd r.sec i = elemCode kd b.sec i)) ∧
       (∀ E, kd = .mx E → wide = false → (r.sec, r.side) = mxPack E w.rm.toNat d.1 ((List.range n).map x))) ∧
  (∀ (w : Fields) (s : State), Runs (.vquant w) w s →
     let sTag : BitVec 4 := BitVec.ofNat 4 (w.sub.toNat / 4 % 4 + 1)
     let srcs := (List.range (vquantM w)).map fun i => s.vReg (w.a.vNum + i)
     let xs := srcs.flatMap fun v => elemValues (kindOf sTag) true v.sec v.side
     let p := srcs.any VReg.poison
     let result (E : Elem) (s : State) : State :=
       let d := drawn w.rm.toNat xs.length s
       (d.2.putV w.d { sec := (mxPack E w.rm.toNat d.1 xs).1, side := (mxPack E w.rm.toNat d.1 xs).2, tag := w.ty, poison := p }).advance
     (∀ v ∈ srcs, v.tag = sTag) → ∀ E, kindOf w.ty = .mx E →
       (w.sub.toNat % 4 = 0 → exec (.vquant w) s = .next (result E s)) ∧
       (∀ off h (s1 s2 : State) at_, w.sub.toNat % 4 = 1 → s.me.tx = none → Src 3 w.b 6 0 s off s1 → off.poison = false →
         Src 4 w.c 6 w.ext s1 h s2 → h.poison = false → ∀ s3, Does (tileReady (h.raw % 256)) s2 () s3 →
         Does (foldUnitAt 3 (h.raw % 256) off.raw) s3 at_ s3 →
         exec (.vquant w) s = .next (result E (s3.foldTile at_ (amaxWord xs) p))) ∧
       (∀ n (s1 : State), w.sub.toNat % 4 = 2 → s.me.tx = none → w.b = .g n → (s.pair n.toNat).poison = false →
         Does (foldPkg 3 (s.pair n.toNat).raw (amaxWord xs) p) s () s1 → exec (.vquant w) s = .next (result E s1)))

/-! ### Loads and stores -/

/-- R247 to R253, R85: each load and store runs where its address is unpoisoned and aligned and its access is performed: LD and LDC
write the value at its width with the poison read; LDV writes sector, side word and poison bit with the tag of TYPE; ST and
STV perform their write; PREF brings a line toward the core and goes on whatever becomes of it.
Where a clause follows the model's choice and no rule: assumption log 22. -/
def Obligations.LoadsAndStoresRun : Prop :=
  (∀ (w : Fields) (s : State) v p (s1 : State), Runs (.ld w) w s → (formM w s).poison = false → (formM w s).raw % (typeWidth w.ty / 8) = 0 →
    Does (loadBytes 2 (formM w s).raw (typeWidth w.ty / 8)) s (v, p) s1 →
    exec (.ld w) s = .next (s1.putDst w.d w.ty (srcOf w.ty v) p).advance) ∧
  (∀ (w : Fields) (s : State) b (s1 s2 : State), Runs (.st w) w s → (formM w s).poison = false → Src 3 w.b w.ty 0 s b s1 →
    (formM w s).raw % (typeWidth w.ty / 8) = 0 → Does (storeBytes 2 (formM w s).raw (typeWidth w.ty / 8) b.raw b.poison) s1 () s2 →
    exec (.st w) s = .next s2.advance) ∧
  (∀ (w : Fields) (s : State) x (s1 : State), Runs (.ldv w) w s → (formM w s).poison = false → (formM w s).raw % 32 = 0 →
    Does (loadSectors 2 (formM w s).raw 32) s [x] s1 →
    exec (.ldv w) s = .next (s1.putV w.d { sec := x.data, side := x.side, tag := w.ty, poison := x.poison }).advance) ∧
  (∀ (w : Fields) (s s1 : State), Runs (.stv w) w s → (formM w s).poison = false → (formM w s).raw % 32 = 0 →
    Does (storeSectors 2 (formM w s).raw
      [{ data := (s.readV w.b 0).sec, side := (s.readV w.b 0).side, poison := (s.readV w.b 0).poison }] true) s () s1 →
    exec (.stv w) s = .next s1.advance) ∧
  (∀ (w : Fields) (s : State) v p (s1 : State), Runs (.ldc w) w s → (formM w s).poison = false →
    let base := s.window (w.sub.toNat % 8)
    let n := typeWidth w.ty / 8
    base ≠ 0 → (base + (formM w s).raw) % n = 0 → (formM w s).raw + n ≤ 2 ^ 19 →
    Does (loadBytes 2 (base + (formM w s).raw) n) s (v, p) s1 →
    exec (.ldc w) s = .next (s1.putDst w.d w.ty (srcOf w.ty v) p).advance) ∧
  (∀ (w : Fields) (s : State), Runs (.pref w) w s → (formM w s).poison = false →
    ∃ t, exec (.pref w) s = .next t ∧ t = (s.prefetch (!w.sub.getLsbD 0) (formM w s).raw).advance ∧ RegsKept s t ∧ ∀ a, ByteOrAccessed s t a)

/-- R248, R251: a load that reaches its bytes gives the n bytes of memory at the place, low byte first, and the poison bit of their
sector, and writes no memory. R248, R251: a store that reaches its bytes leaves the memory in which exactly its bytes are written, and the poison bit of
their sector set where the value was poisoned; no register of any thread changes. -/
def Obligations.AccessesReachMemory : Prop :=
  (∀ o va n (s : State) p (s1 : State), 0 < n → va % 32 + n ≤ 32 → Direct s va n .load p s1 → noL1 s1 p →
     ∃ t, Does (loadBytes o va n) s (s1.mem.readN (p.phys + va / 32 * 32 % 128 + va % 32) n,
       s1.mem.pois (p.phys + va / 32 * 32 % 128)) t ∧ t.mem = s1.mem ∧ RegsKept s t) ∧
  ((∀ o va n (val : Nat) poison (s : State) p (s1 : State), 0 < n → va % 32 + n ≤ 32 → Direct s va n .store p s1 →
     ∃ t, Does (storeBytes o va n val poison) s () t ∧ RegsKept s t ∧
       t.mem = (let m := s1.mem.writeN (p.phys + va % 128) n (val % 256 ^ n)
                if poison then m.setPois (p.phys + va % 128) true else m)) ∧
   (∀ o va x (s : State) p (s1 : State), va % 32 = 0 → p.swm = true → Direct s va 32 .store p s1 →
     ∃ t, Does (storeSectors o va [x] true) s () t ∧ RegsKept s t ∧ t.mem = s1.mem.setSector (p.phys + va % 128) x))

/-- R248: ST of each width at user level on the frame of a store: every byte of memory outside the bytes of its place reads as
before the store, the bytes there are the low bytes of b, and no register of any thread changes. -/
def Obligations.StoreFrame : Prop :=
  ∀ (w : Fields) (s : State) n p (s1 : State), Runs (.st w) w s → w.b = .g n → is64 w.ty = false → (formM w s).poison = false →
    let k := typeWidth w.ty / 8
    let va := (formM w s).raw
    va % k = 0 → 1 ≤ k → Direct s va k .store p s1 → s1.mem.isDead (p.phys + va % 128) = false →
    p.phys % 65536 + 128 ≤ 65536 →
    ∃ t, exec (.st w) s = .next t ∧ t.me.pc = nextPc s.me.pc ∧ RegsKept s t ∧
      (∀ i, i < k → t.mem.byte (p.phys + va % 128 + i) = BitVec.ofNat 8 ((s.gReg n.toNat).val.toNat / 256 ^ i)) ∧
      (∀ a, (a < p.phys + va % 128 ∨ p.phys + va % 128 + k ≤ a) → t.mem.byte a = s1.mem.byte a) ∧
      t.mem.sides = s1.mem.sides

/-- R94, R103, R106, R107: finding the place of a line, for any use and whatever the answer, changes no unit and no register of
a partition but the closing of a fabric context, no side word, no poison bit, and of memory at most the accessed and dirty bits of
page-table entries. It changes no thread but one that waits for a counter or sequence word, whose wait the setting of such a bit
may end, and of that thread no register; where no thread waits so, no thread and no interval. R85, R103, R201: reading a constant
window's word changes no register, predicate or special register of any thread, no side word and no poison bit, and of memory at
most those bits, where the race detector, which may write its log, is off; of a unit it changes at most the mark that it has used the
carve-out.
Where a clause follows the model's choice and no rule: assumption log 13, 102, 114 and 116. -/
def Obligations.TranslationFrame : Prop :=
  (∀ (s : State) (w : Who) va u r f t, s.place w va u r = (f, t) →
     (s.waiters = [] → t.threads = s.threads) ∧ (∀ u, (s.thr u).wait ≠ .counter → t.thr u = s.thr u) ∧ RegsKept s t ∧
     t.units = s.units ∧ t.launches = s.launches ∧ t.queues = s.queues ∧ t.log = s.log ∧ t.cmds = s.cmds ∧
     t.mem.sides = s.mem.sides ∧ t.mem.poison = s.mem.poison ∧ (∀ a, ByteOrAccessed s t a) ∧
     (∀ k, { t.part k with closed := [], interval := 0 } = { s.part k with closed := [], interval := 0 }) ∧
     (s.waiters = [] → ∀ k, (t.part k).interval = (s.part k).interval)) ∧
  (∀ o k n bytes (s : State) v t, s.me.tx = none → (s.part s.me.part).rdetEn = false →
     Does (readConst o k n bytes) s v t →
     (∀ u, (t.thr u).g = (s.thr u).g ∧ (t.thr u).v = (s.thr u).v ∧ (t.thr u).p = (s.thr u).p ∧ (t.thr u).h = (s.thr u).h ∧
       (t.thr u).epc = (s.thr u).epc ∧ (t.thr u).level = (s.thr u).level ∧
       ((s.thr u).wait ≠ .counter → (t.thr u).pc = (s.thr u).pc)) ∧
     (∀ a, ByteOrAccessed s t a) ∧ t.mem.sides = s.mem.sides ∧ t.mem.poison = s.mem.poison ∧
     (∀ k, (t.units.find? k).map (fun u => { u with carve := false }) = (s.units.find? k).map (fun u => { u with carve := false })) ∧
     t.accs = s.accs)

/-- R247, R221, R49: a misaligned LD, ST, LDV, STV or ATOM traps MISALIGNED naming A, with the address, and a poisoned address
traps POISON_CONSUMED naming A with EXC_VAL zero; neither makes any access. R181, R283: a vector operand whose tag is not the one the instruction expects traps TAG_MISMATCH, naming the operand, with
the tag found; A is checked before B. -/
def Obligations.OperandTraps : Prop :=
  ((∀ (w : Fields) (s : State), Runs (.ld w) w s → (formM w s).poison = false → (formM w s).raw % (typeWidth w.ty / 8) ≠ 0 →
     exec (.ld w) s = .next (s.takeTrap 0x06 2 (BitVec.ofNat 64 (formM w s).raw))) ∧
   (∀ (w : Fields) (s : State) n, Runs (.st w) w s → w.b = .g n → (formM w s).poison = false → (formM w s).raw % (typeWidth w.ty / 8) ≠ 0 →
     exec (.st w) s = .next (s.takeTrap 0x06 2 (BitVec.ofNat 64 (formM w s).raw))) ∧
   (∀ (w : Fields) (s : State), Runs (.ldv w) w s → (formM w s).poison = false → (formM w s).raw % 32 ≠ 0 →
     exec (.ldv w) s = .next (s.takeTrap 0x06 2 (BitVec.ofNat 64 (formM w s).raw))) ∧
   (∀ (w : Fields) (s : State), Runs (.stv w) w s → (formM w s).poison = false → (formM w s).raw % 32 ≠ 0 →
     exec (.stv w) s = .next (s.takeTrap 0x06 2 (BitVec.ofNat 64 (formM w s).raw))) ∧
   (∀ mk ∈ ([.ld, .st, .ldv, .stv, .ldc, .pref] : List (Fields → Instr)), ∀ (w : Fields) (s : State), Runs (mk w) w s → (formM w s).poison = true →
     exec (mk w) s = .next (s.takeTrap 0x09 2 0))) ∧
  (∀ mk ∈ ([.vadd, .vmul, .vfma, .vmin, .vmax, .vdot] : List (Fields → Instr)), ∀ (w : Fields) (s : State), Runs (mk w) w s →
     ((s.readV w.a w.ty).tag ≠ w.ty → exec (mk w) s = .next (s.takeTrap 0x04 2 ((s.readV w.a w.ty).tag.setWidth 64))) ∧
     ((s.readV w.a w.ty).tag = w.ty → (s.readV w.b w.ty).tag ≠ w.ty →
       exec (mk w) s = .next (s.takeTrap 0x04 3 ((s.readV w.b w.ty).tag.setWidth 64))))

/-- R111, R450, R451: a store of a compute thread outside a transaction to a page that is not present retires into the core's
side log where it has room, and the thread goes on; memory is as translation left it, and a fault on the page is outstanding.
Where a clause follows the model's choice and no rule: assumption log 17. -/
def Obligations.StoreToAbsentPageRetires : Prop :=
  ∀ (w : Fields) (s : State) n (s1 : State) kind, Runs (.st w) w s → isService s.cur = false → s.me.wait = .ready → w.b = .g n → is64 w.ty = false → (formM w s).poison = false →
    let k := typeWidth w.ty / 8
    let va := (formM w s).raw
    va % k = 0 → 1 ≤ k → s.me.tx = none → s.me.denied = none → va < 2 ^ 60 → regionOf va ≠ .carve →
    s.lockedBy (tagOf va s.me.asid s.me.part) (va / 32 * 32) ((va + k + 31) / 32 * 32) true = false →
    (s.part s.me.part).rdetEn = false → s.place { s.who with first := va } (va / 128 * 128) .store s.me.reply = (.absent kind, s1) →
    s.logCount (tidCore s.cur) < 1024 → s.logHeld (tidCore s.cur) s.me.part < s.logShare (tidCore s.cur) →
    ∃ t e, exec (.st w) s = .next t ∧ t.me.pc = nextPc s.me.pc ∧ t.log = s.log ++ [e] ∧ e.va = va / 128 * 128 ∧
      e.tag = tagOf va s.me.asid s.me.part ∧ e.core = tidCore s.cur ∧
      e.writes.map (fun x => (x.va, x.n, x.val)) = [(va, k, (s.gReg n.toNat).val.toNat % 256 ^ k)] ∧
      t.mem = s1.mem ∧ (t.faults.any fun f => f.tag == tagOf va s.me.asid s.me.part && f.page == va / 65536) = true

/-! ### Tiles -/

/-- R82 to R84, R134, R255, R256: TLD, TST, TSET.def, TSET.ready, TSET.empty and TQRY run in a thread of a unit outside a transaction: TLD
and TST move the sector at the offset, of a ready tile that nothing holds busy; TSET.def gives an EMPTY tile its size and base;
TSET.ready makes an EMPTY tile of a size READY; TSET.empty makes a READY tile that nothing holds busy EMPTY; TQRY reads the
entry. Each goes on after the tile's last change, and a change is placed at its thread's milestone; it wakes the threads that wait for
the tile and changes no other tile, thread, register or byte. R82, R84, R254: where an access by handle and offset of an aligned sector inside a tile lies, in a unit whose tile no command
locks and no operation holds busy; WRAP takes the offset modulo the tile's size.
Where a clause follows the model's choice and no rule: assumption log 35 and 129. -/
def Obligations.TileEffects : Prop :=
  ((∀ (w : Fields) (s : State) off u, Runs (.tld w) w s → s.me.tx = none → s.myUnit = some u → tileState (u.tile (w.ext.toNat % 256)) = tileREADY →
     let s1 := s.tileSeen (w.ext.toNat % 256)
     Does (tileOffset 2 w.a) s1 off s1 →
     ∀ a, Does (tileSectors 2 (w.ext.toNat % 256) [off] (w.sub.getLsbD 0) false) s1 [a] s1 →
     exec (.tld w) s = .next (s1.putV w.d { sec := (s.mem.sector a).data, side := (s.mem.sector a).side, tag := w.ty,
                                            poison := (s.mem.sector a).poison }).advance) ∧
   (∀ (w : Fields) (s : State) off u, Runs (.tst w) w s → s.me.tx = none → s.myUnit = some u → tileState (u.tile (w.ext.toNat % 256)) = tileREADY →
     let s1 := s.tileSeen (w.ext.toNat % 256)
     Does (tileOffset 2 w.a) s1 off s1 →
     ∀ a, Does (tileSectors 2 (w.ext.toNat % 256) [off] (w.sub.getLsbD 0) true) s1 [a] s1 →
     let b := s.readV w.b 0
     exec (.tst w) s = .next ({ s1 with mem := s.mem.setSector a { data := b.sec, side := b.side, poison := b.poison } } : State).advance) ∧
   (∀ (w : Fields) (s : State) base size u, Runs (.tsetDef w) w s → s.me.tx = none → Does (tileOffset 2 w.a) s base s → Does (tileOffset 3 w.b) s size s →
     s.myUnit = some u → size ≠ 0 → base + size ≤ u.res.tile4k → tileState (u.tile (w.ext.toNat % 256)) = tileEMPTY →
     exec (.tsetDef w) s = .next (s.tsetTile (w.ext.toNat % 256) (mkTile tileEMPTY size base)).advance) ∧
   (∀ (w : Fields) (s : State) u, Runs (.tsetReady w) w s → s.me.tx = none → s.myUnit = some u →
     let e := u.tile (w.ext.toNat % 256)
     (tileState e = tileREADY → exec (.tsetReady w) s = .next s.advance) ∧
     (tileState e = tileEMPTY → tileSize e ≠ 0 → exec (.tsetReady w) s =
       .next (s.tsetTile (w.ext.toNat % 256) (mkTile tileREADY (tileSize e) (tileBaseOf e))).advance)) ∧
   (∀ (w : Fields) (s : State) u, Runs (.tsetEmpty w) w s → s.me.tx = none → s.myUnit = some u →
     let e := u.tile (w.ext.toNat % 256)
     (tileState e = tileEMPTY → exec (.tsetEmpty w) s = .next s.advance) ∧
     (tileState e = tileREADY → s.tileBusy s.me.unit (w.ext.toNat % 256) = false → exec (.tsetEmpty w) s =
       .next (s.tsetTile (w.ext.toNat % 256) (mkTile tileEMPTY (tileSize e) (tileBaseOf e))).advance)) ∧
   (∀ (s : State) u h e, s.myUnit = some u →
     let t := s.tsetTile h e
     (∃ v, t.units.find? s.me.unit = some v ∧ v.tile h = e ∧ (∀ j, j ≠ h → v.tile j = u.tile j) ∧
       v.tileMs.get 0 h = t.msOf s.src ∧ u.tileMs.get 0 h ≤ t.msOf s.src) ∧
     t.mem = s.mem ∧ RegsKept s t ∧ s.msOf s.src ≤ t.msOf s.src ∧
     ∀ x, waitsTile s.me.unit h x (s.thr x) = false → t.thr x = s.thr x) ∧
   (∀ (w : Fields) (s : State) u, Runs (.tqry w) w s → s.me.tx = none → s.myUnit = some u →
     exec (.tqry w) s = .next ((s.tileSeen (w.ext.toNat % 256)).putG w.d (u.tile (w.ext.toNat % 256)).toNat false).advance)) ∧
  (∀ o h off wrap store (s : State) u, s.myUnit = some u → off % 32 = 0 →
     let size := tileSize (u.tile h) * 4096
     let x := if wrap then off % size else off
     x < size → 
     let at_ := (u.tileBase + tileBaseOf (u.tile h)) * 4096 + x
     s.lockedBy (70000 + u.core) at_ (at_ + 32) store = false → s.busyAt s.me.unit u at_ 32 = none →
     Does (tileSectors o h [off] wrap store) s [tileAddr u.core at_] s)

/-! ### Atomics and transactions -/

/-- R262, R263, R264, R265: ATOM and MXAADD run outside a transaction where the line is reached: the memory value becomes the
operation's result, a D, or the pair it begins for a 64-bit type, takes the old value with the sector's poison, and poison of the operand or of the sector stays with the sector.
The lanes of a bundle are combined (R131): the first lane plans those that are left and goes past the leases of all their lines, and a
planned lane is performed at its planned place without going further, so that all share a milestone. MXAADD writes the sector that
its exact addition and quantisation give. -/
def Obligations.AtomicEffects : Prop :=
  (∀ (w : Fields) (s : State) b c, Runs (.atom w) w s → s.me.tx = none → (formM w s).poison = false → Src 3 w.b w.ty 0 s b s → Src 4 w.c w.ty 0 s c s →
    let n := typeWidth w.ty / 8
    let va := (formM w s).raw
    va % n = 0 →
    let performed (m : Mem) (p : Place) (ms : Nat) : Prop :=
    let a := p.phys + va % 128
    let old := m.readN a n
    let lt (x y : Nat) : Bool := decide (srcOf w.ty x < srcOf w.ty y)
    let x := b.raw % 256 ^ n
    let new := match w.sub.toNat % 16 with
      | 0 => if w.ty = 8 then f32Add old x else (old + x) % 256 ^ n
      | 1 => if lt old x then old else x
      | 2 => if lt old x then x else old
      | 3 => old &&& x
      | 4 => old ||| x
      | 5 => old ^^^ x
      | 6 => x
      | _ => if old = x then c.raw % 256 ^ n else old
    ∃ t, exec (.atom w) s = .next t ∧
      t.mem = (m.writeN a n new).setPois a (m.pois a || b.poison || c.poison) ∧
      t.me.pc = nextPc s.me.pc ∧ ms ≤ t.msOf s.src ∧ (s.waiters = [] → t.msOf s.src = ms) ∧
      (∀ d, w.d = .g d → w.ty ≠ 3 → w.ty ≠ 7 → t.gReg d.toNat = ⟨BitVec.ofNat 32 (dstOf w.ty (srcOf w.ty old)), m.pois a⟩) ∧
      (∀ d, w.d = .g d → w.ty = 3 ∨ w.ty = 7 → t.gReg d.toNat = ⟨BitVec.ofNat 32 old, m.pois a⟩ ∧
        t.gReg (d.toNat + 1) = ⟨BitVec.ofNat 32 (old / 2 ^ 32), m.pois a⟩) ∧
      (w.d = .none → RegsKept s t)
    (∀ p (s1 : State), Direct s va n .store p s1 → Tbl.find? s.combined s.cur = none → s.lanesLeft = [] →
      performed s1.mem p (max (s1.msOf s.src) ((s1.lease p.leaseLine).le + 1))) ∧
    (∀ ps p (s1 : State), Does (atomPlaces w va) s ps s1 → foundOf ps = [(va / 128 * 128, p)] → Tbl.find? s.combined s.cur = none →
      performed (s1.combineLanes w ps).mem p ((s1.combineLanes w ps).msOf s.src) ∧
      ∀ l ∈ leaseLines (foundOf ps ++ (s1.combineLanes w ps).combined.vals.flatMap foundOf),
        ((s1.combineLanes w ps).lease l).le < (s1.combineLanes w ps).msOf s.src) ∧
    (∀ ps p, Tbl.find? s.combined s.cur = some ps → foundOf ps = [(va / 128 * 128, p)] → performed s.mem p (s.msOf s.src))) ∧
  (∀ (w : Fields) (s : State) p (s1 : State), Runs (.mxaadd w) w s → s.me.tx = none → (formM w s).poison = false →
    let b := s.readV w.b tagE4M3
    let va := (formM w s).raw
    (b.tag = tagE4M3 ∨ b.tag = tagE5M2 ∨ b.tag = tagE2M1) → (w.sub.getLsbD 0 = true → b.tag = tagE2M1) →
    va % (if w.ty = 0xF then 16 else 32) = 0 → Direct s (va / 32 * 32) 32 .store p s1 → p.swm = true →
    let a := p.phys + va / 32 * 32 % 128
    ∃ t, exec (.mxaadd w) s = .next t ∧ t.me.pc = nextPc s.me.pc ∧
      t.mem = s1.mem.setSector a (mxaddSector w.ty.toNat w.rm.toNat (if w.ty = 0xF then va / 16 % 2 else 0) b (w.sub.getLsbD 0)
        (drawn w.rm.toNat 32 s).1 (s1.mem.sector a) b.poison))

/-- R141, R266, R267: TBEGIN, TEND, TABORT and TSTAT run. TBEGIN outside a transaction begins one that aborts to its target, its
status word zero; TEND outside one has no effect, and inside one waits for the commit; TABORT outside one has no effect and
inside one aborts it, EXPLICIT with its code; TSTAT reads the status word with ACTIVE. R143, R266: the commit of a thread that waits at TEND. A transaction with nothing read or written commits: the thread goes on
past TEND with no transaction, and memory is unchanged. A write to a range that a command has locked aborts it with LOCKED, and
the thread goes to its abort target. Else the places of the lines are found: an absent or denied one aborts it with FAULT; where
every one is found, a sector read that no longer holds the value recorded aborts it with VALIDATE and nothing is written; otherwise
every sector of the write set is written, with side word and poison bit, at one milestone past the lease of every line involved, and
the thread goes on past TEND. A thread that does not wait at TEND is left as it is. -/
def Obligations.TransactionEffects : Prop :=
  ((∀ (w : Fields) (s : State), Runs (.tbegin w) w s → s.me.tx = none → ∀ s1, Does (checkTarget (targetB s.me.pc w.ext)) s () s1 →
     ∃ t, exec (.tbegin w) s = .next t ∧ t.me.pc = nextPc s1.me.pc ∧ t.me.tstat = 0 ∧ t.mem = s1.mem ∧ RegsKept s1 t ∧
       ∃ x, t.me.tx = some x ∧ x.abortPc = targetB s.me.pc w.ext ∧ x.reads = [] ∧ x.writes = [] ∧ x.source = tidSource s1.cur ∧
         x.beginMs = s1.msOf (tidSource s1.cur)) ∧
   (∀ (w : Fields) (s : State), Runs (.tbegin w) w s → s.me.tx = none → pcFormOk (targetB s.me.pc w.ext) = false →
     exec (.tbegin w) s = .next (s.takeTrap 0x02 0 (targetB s.me.pc w.ext))) ∧
   (∀ (w : Fields) (s : State), Runs (.tend w) w s → s.me.tx = none → exec (.tend w) s = .next s.advance) ∧
   (∀ (w : Fields) (s : State) x, Runs (.tend w) w s → s.me.tx = some x →
     ∃ t, exec (.tend w) s = .next t ∧ t.me = { s.me with wait := .commit } ∧ t.mem = s.mem) ∧
   (∀ (w : Fields) (s : State), Runs (.tabort w) w s → s.me.tx = none → exec (.tabort w) s = .next s.advance) ∧
   (∀ (w : Fields) (s : State) x, Runs (.tabort w) w s → s.me.tx = some x →
     ∃ t, exec (.tabort w) s = .next t ∧ t.me.tx = none ∧ t.me.pc = x.abortPc ∧ t.mem = s.mem ∧ RegsKept s t ∧
       t.me.tstat = BitVec.ofNat 32 (4 + w.ext.toNat % 256 * 256)) ∧
   (∀ (w : Fields) (s : State), Runs (.tstat w) w s →
     exec (.tstat w) s = .next (s.putG w.d (s.me.tstat.toNat + if s.me.tx.isSome then 2 ^ 31 else 0) false).advance)) ∧
  ((∀ (s : State) tid x, s.powered = true → (s.thr tid).wait = .commit → (s.thr tid).tx = some x → x.reads = [] → x.writes = [] →
     ∃ t, exec (.transactionCommit tid) s = .next t ∧ (t.thr tid).tx = none ∧ (t.thr tid).pc = nextPc (s.thr tid).pc ∧
       (t.thr tid).wait = .ready ∧ t.mem = s.mem ∧ t.cur = s.cur) ∧
   (∀ (s : State) tid x k r, s.powered = true → (s.thr tid).wait = .commit → (s.thr tid).tx = some x → (k, r) ∈ x.writes →
     s.lockedBy (tagOf r.va (s.thr tid).asid (s.thr tid).part) r.va (r.va + 32) true = true →
     ∃ t, exec (.transactionCommit tid) s = .next t ∧ (t.thr tid).tx = none ∧ (t.thr tid).pc = x.abortPc ∧
       (t.thr tid).tstat = BitVec.ofNat 32 txLOCKED ∧ t.mem = s.mem) ∧
   (∀ (s : State) tid x fw fr (s1 : State), Commits s tid x fw fr s1 →
     let pw := okPlaces fw
     let pr := okPlaces fr
     ((∃ e ∈ fw ++ fr, e.2 = .denied ∨ ∃ r, e.2 = .absent r) →
       ∃ t, exec (.transactionCommit tid) s = .next t ∧ (t.thr tid).tx = none ∧ (t.thr tid).pc = x.abortPc ∧
         (t.thr tid).tstat = BitVec.ofNat 32 txFAULT ∧ t.mem = s1.mem) ∧
     ((∀ e ∈ fw ++ fr, ∃ p, e.2 = .ok p) → (∃ r ∈ x.reads.vals, s1.readHolds pr r = false) →
       ∃ t, exec (.transactionCommit tid) s = .next t ∧ (t.thr tid).tx = none ∧ (t.thr tid).pc = x.abortPc ∧
         (t.thr tid).tstat = BitVec.ofNat 32 txVALIDATE ∧ t.mem = s1.mem) ∧
     ((∀ e ∈ fw ++ fr, ∃ p, e.2 = .ok p) → (∀ r ∈ x.reads.vals, s1.readHolds pr r = true) → (s1.part (s1.thr tid).part).rdetEn = false →
       ∃ t, exec (.transactionCommit tid) s = .next t ∧ (t.thr tid).tx = none ∧ (t.thr tid).wait = .ready ∧
         (t.thr tid).pc = nextPc (s.thr tid).pc ∧ RegsKept s t ∧
         t.mem = (x.writes.vals.map fun r => r.toWrite (match placeOf pw r.va with
             | some p => s1.mem.sector (p.phys + r.va % 128)
             | none => { data := 0, side := 0, poison := false })).foldl (fun m w => match placeOf pw w.va with
               | some p => m.apply p w
               | none => m) s1.mem ∧
         ∀ l ∈ leaseLines pw ++ leaseLines pr, (s1.lease l).le < t.msOf (tidSource tid))) ∧
   (∀ (s : State) tid, s.powered = true → (s.thr tid).wait ≠ .commit → exec (.transactionCommit tid) s = .next s))

/-! ### Control -/

/-- R194, R195, R205, R233 to R236, R242: BRA, BRX, CALL and RET whose target passes its line's mask go to the target, CALL with the
next PC as its link; a target whose form is refused, or whose slot lies outside the mask of a line that is fetched, traps
BRANCH_TARGET with the target PC before any effect, and one inside the mask passes. TRAP and BKPT take their traps with the
immediate for EXC_VAL. R27, R28, R43, R46, R236, R241: EXIT outside a transaction ends a service thread at once. Of a compute thread whose
group keeps another thread, it clears the bit in each convergence register of the group, a register whose DECL becomes zero being
free, and issues the round of one whose SIGNED then equals its DECL; and it counts the live threads of a barrier's target afresh,
which may complete it. The last thread of a group takes the group's threads and its pair record with it, and the partner's waiting
threads go on; the last of a unit takes the unit, which is counted in its launch, but the tile store of a unit that contributes to a
collective stays until its chunk is read.
Where a clause follows the model's choice and no rule: assumption log 15. -/
def Obligations.TransferEffects : Prop :=
  (∀ (w : Fields) (s s1 : State), Runs (.bra w) w s → Does (checkTarget (targetB s.me.pc w.ext)) s () s1 →
    exec (.bra w) s = .next (s1.jump (targetB s.me.pc w.ext))) ∧
  (∀ (w : Fields) (s s1 : State) n, Runs (.brx w) w s → w.a = .g n → (s.pair n.toNat).poison = false →
    Does (checkTarget (BitVec.ofNat 64 (s.pair n.toNat).raw)) s () s1 →
    exec (.brx w) s = .next (s1.jump (BitVec.ofNat 64 (s.pair n.toNat).raw))) ∧
  (∀ (w : Fields) (s s1 : State) n, Runs (.ret w) w s → w.a = .g n → (s.pair n.toNat).poison = false →
    Does (checkTarget (BitVec.ofNat 64 (s.pair n.toNat).raw)) s () s1 →
    exec (.ret w) s = .next (s1.jump (BitVec.ofNat 64 (s.pair n.toNat).raw))) ∧
  (∀ (w : Fields) (s s1 : State), Runs (.call w) w s → Does (checkTarget (targetB s.me.pc w.ext)) s () s1 →
    exec (.call w) s = .next ((s1.putPair w.d (nextPc s.me.pc).toNat false).jump (targetB s.me.pc w.ext))) ∧
  (∀ (s : State) pc, pcFormOk pc = false → Traps (checkTarget pc) s cBRANCH 0 pc s) ∧
  (∀ (s : State) pc secs (s1 : State), pcFormOk pc = true → s.fetch s.cur (lineOf pc) = (.line secs, s1) → secs.any SectorLit.poison = false →
    if (lineWord secs).getLsbD (19 + pc.toNat % 8) then Does (checkTarget pc) s () s1
    else Traps (checkTarget pc) s cBRANCH 0 pc s1) ∧
  (∀ (w : Fields) (s : State), Runs (.trap w) w s → exec (.trap w) s = .next (s.takeTrap 0x10 0 (w.ext.setWidth 64))) ∧
  (∀ (w : Fields) (s : State), Runs (.bkpt w) w s → exec (.bkpt w) s = .next (s.takeTrap 0x11 0 (w.ext.setWidth 64))) ∧
  (∀ (w : Fields) (s : State), Runs (.exit w) w s → s.me.tx = none → isService s.cur = true →
    exec (.exit w) s = .next (s.modMe fun th => { th with wait := .exited })) ∧
  (∀ (w : Fields) (s : State) u g o, Runs (.exit w) w s → s.me.tx = none → isService s.cur = false → s.units.find? s.me.unit = some u →
    u.group s.me.group = some g → s.cvs = [] → u.bars = [] → s.pairs = [] → o ∈ g.tids → o ≠ s.cur → (s.thr o).live = true →
    exec (.exit w) s = .next (s.modMe fun th => { th with wait := .exited })) ∧
  (∀ (w : Fields) (s : State) u g o, Runs (.exit w) w s → s.me.tx = none → isService s.cur = false → s.units.find? s.me.unit = some u →
    u.group s.me.group = some g → u.bars = [] → s.pairs = [] → o ∈ g.tids → o ≠ s.cur → (s.thr o).live = true →
    let lane := tidLane s.cur
    let mine (r : CvReg) : Bool := r.declared && r.unit == s.me.unit && r.cgn == BitVec.ofNat 10 g.cgn && r.decl.getLsbD lane
    let less (r : CvReg) : CvReg := if setBit r.decl lane false = 0 then {} else { r with decl := setBit r.decl lane false }
    ((∀ n, n < 16 → mine (s.cv (cvKey s.cur n)) = true → (less (s.cv (cvKey s.cur n))).complete = false) →
      ∃ t, exec (.exit w) s = .next t ∧ t.me.wait = .exited ∧ t.mem = s.mem ∧ t.units = s.units ∧
        ∀ n, n < 16 → t.cv (cvKey s.cur n) = if mine (s.cv (cvKey s.cur n)) then less (s.cv (cvKey s.cur n)) else s.cv (cvKey s.cur n)) ∧
    (∀ n, n < 16 → mine (s.cv (cvKey s.cur n)) = true → (∀ j, j < 16 → j ≠ n → mine (s.cv (cvKey s.cur j)) = false) →
      (less (s.cv (cvKey s.cur n))).complete = true →
      let issued := ((s.modMe fun th => { th with wait := .exited }).setCv (cvKey s.cur n) (less (s.cv (cvKey s.cur n)))).tryIssue (cvKey s.cur n)
      (∃ x ∈ g.tids, (issued.thr x).live = true) → issued.pairs = [] → exec (.exit w) s = .next issued)) ∧
  (∀ (w : Fields) (s : State) u g o n b, Runs (.exit w) w s → s.me.tx = none → isService s.cur = false → s.units.find? s.me.unit = some u →
    u.group s.me.group = some g → s.cvs = [] → u.bars = [(n, b)] → s.pairs = [] → o ∈ g.tids → o ≠ s.cur → (s.thr o).live = true →
    let goal := (s.modMe fun th => { th with wait := .exited }).unitLive u
    ∃ t v, exec (.exit w) s = .next t ∧ t.me.wait = .exited ∧ t.mem = s.mem ∧ t.units.find? s.me.unit = some v ∧
      v.bars.get {} n = (if b.live = false then b else if b.count = 0 ∨ b.count < goal then { b with target := goal }
        else { gen := b.gen + 1 }) ∧
      (b.live = true → b.count ≠ 0 → goal ≤ b.count → ∀ x, isService x = false → x ≠ s.cur → (s.thr x).unit = s.me.unit →
        (s.thr x).wait = .barrier n → (t.thr x).wait = .ready ∧ (t.thr x).pc = nextPc (s.thr x).pc)) ∧
  (∀ (w : Fields) (s : State) u g n g', Runs (.exit w) w s → s.me.tx = none → isService s.cur = false → s.units.find? s.me.unit = some u →
    u.group s.me.group = some g → s.cvs = [] → u.bars = [] → (∀ o ∈ g.tids, o ≠ s.cur → (s.thr o).live = false) →
    n ≠ s.me.group → u.group n = some g' →
    ∃ t v, exec (.exit w) s = .next t ∧ t.mem = s.mem ∧ t.launches = s.launches ∧ (∀ x ∈ g.tids, (t.thr x).wait = .free) ∧
      t.units.find? s.me.unit = some v ∧ v.group s.me.group = none ∧ (∀ j, j ≠ s.me.group → v.group j = u.group j) ∧
      match List.find? (fun p => p.has u.core g.quad s.me.unit s.me.group) s.pairs with
      | none => t.pairs = s.pairs
      | some p => t.pairs = s.pairs.filter (fun q => q != p) ∧ ∀ x, x ∉ g.tids → isService x = false → (s.thr x).unit = s.me.unit →
          (s.thr x).group = p.other s.me.group → x ≠ s.cur → (s.thr x).wait = .token →
          (t.thr x).wait = .ready ∧ (t.thr x).pc = nextPc (s.thr x).pc) ∧
  (∀ (w : Fields) (s : State) u g l, Runs (.exit w) w s → s.me.tx = none → isService s.cur = false → s.units.find? s.me.unit = some u →
    u.groups = [(s.me.group, g)] → s.cvs = [] → u.bars = [] → (∀ o ∈ g.tids, o ≠ s.cur → (s.thr o).live = false) →
    s.launches.find? u.cid = some l →
    let kept := l.r.coll && !u.reduce && !l.complete && !l.collfail && !l.r.mismatch
    ∃ t l', exec (.exit w) s = .next t ∧ (∀ x ∈ g.tids, (t.thr x).wait = .free) ∧
      (kept = false → t.units.find? s.me.unit = none) ∧ (kept = true → t.units.find? s.me.unit = some { u with groups := [] }) ∧
      t.launches.find? u.cid = some l' ∧ (l.r.coll = false → l'.done = l.done + 1) ∧ l.done < l'.done)

/-- R30, R31, R37, R38, R54, R129, R186, R237, R238, R240: SPAWN answers whether the group could be formed, in its predicate. A new
group has the lowest free number, stands in the spawner's own quadrant where that qualifies, and has n threads, one on each of lanes 0
to n-1, Ready at the target at user level, with g0 to g7 the eight registers named, g8 the lane, every other register zero and the
seed of R186; it holds no accumulator, and no other thread and no memory changes. CANCEL at kernel level of
the scalar profile stops a live launch of its own partition and answers 0, or 1 where none is live, and in the full profile stops
its own launch; a cancelled launch is complete with CANCELLED, and none of its units stays placed, saved or queued. LAUNCH puts the record's eight
sectors into the queue's next slot, raises TAIL and answers 0; it answers 1 when the ring is full and 2 when the queue does not
exist or is not enabled. The lines it reads are held at the key at which it ends, past the last accesses of TAIL and HEAD. -/
def Obligations.LaunchEffects : Prop :=
  (∀ (w : Fields) (s s1 : State), Runs (.spawn w) w s → s.me.tx = none → Does (checkTarget (targetB s.me.pc w.ext)) s () s1 →
    (∀ (s2 : State), s1.spawn w.a.gNum (w.sub.toNat + 1) (targetB s.me.pc w.ext) = some s2 →
      exec (.spawn w) s = .next (s2.putP w.d true).advance) ∧
    (s1.spawn w.a.gNum (w.sub.toNat + 1) (targetB s.me.pc w.ext) = none →
      exec (.spawn w) s = .next (s1.putP w.d false).advance)) ∧
  (∀ (s : State) u gs n pc t, s.myUnit = some u → tidCore s.cur = u.core → n ≤ 32 → s.spawn gs n pc = some t →
    ∃ gnum q slots, gnum < 32 ∧ u.group gnum = none ∧ (∀ j, j < gnum → (u.group j).isSome = true) ∧ q < 4 ∧ slots.length = n ∧
      (s.spawnSlots u.core (tidQuad s.cur) n u.res.gregs u.res.vregs ≠ none → q = tidQuad s.cur) ∧
      let tids := List.zipWith (fun lane k => mkTid u.core q lane k) (List.range n) slots
      (∃ v g', t.units.find? s.me.unit = some v ∧ v.group gnum = some g' ∧ g'.tids = tids ∧ g'.n = n ∧ g'.acc = [] ∧ g'.quad = q ∧
        g'.cgn = s.freeCgn u.core ∧ ∀ j, j ≠ gnum → v.group j = u.group j) ∧
      (∀ x ∈ tids, let th := t.thr x
        th.wait = .ready ∧ th.entry = s.now ∧ th.pc = pc ∧ th.level = 0 ∧ th.tx = none ∧ th.part = u.part ∧ th.cid = u.cid ∧ th.asid = u.asid ∧
        th.unit = s.me.unit ∧ th.group = gnum ∧ (∀ i, i < 8 → th.g.get {} i = s.gReg (gs + i)) ∧
        th.g.get {} 8 = { val := BitVec.ofNat 32 (tidLane x) } ∧ (∀ i, 8 < i → th.g.get {} i = {}) ∧ th.v = [] ∧ th.p = 0 ∧
        th.rnd = seedOf u.linear gnum (tidLane x)) ∧
      (∀ x, x ∉ tids → t.thr x = s.thr x) ∧ t.mem = s.mem ∧ t.accs = s.accs) ∧
  (∀ (w : Fields) (s : State) n l, Runs (.cancel w) w s → isService s.cur = true → 1 ≤ s.me.level → s.me.tx = none → w.sub = 1 → w.a = .g n →
    (s.pair n.toNat).poison = false → (s.pair n.toNat).raw < 65536 → s.launches.find? (s.pair n.toNat).raw = some l →
    l.part = s.me.part → l.complete = false →
    exec (.cancel w) s = .next ((s.cancelLaunch (s.pair n.toNat).raw).putG w.d 0 false).advance) ∧
  (∀ (w : Fields) (s : State) n, Runs (.cancel w) w s → isService s.cur = true → 1 ≤ s.me.level → s.me.tx = none → w.sub = 1 → w.a = .g n →
    (s.pair n.toNat).poison = false → s.launches.find? ((s.pair n.toNat).raw % 65536) = none →
    exec (.cancel w) s = .next (s.putG w.d 1 false).advance) ∧
  (∀ (w : Fields) (s : State), Runs (.cancel w) w s → isService s.cur = true → s.me.level = 0 → exec (.cancel w) s = .next (s.takeTrap 0x03 0 0)) ∧
  (∀ (w : Fields) (s : State) l, Runs (.cancel w) w s → isService s.cur = false → s.me.tx = none → w.sub = 1 → s.launches.find? s.me.cid = some l →
    exec (.cancel w) s = .next (s.cancelLaunch s.me.cid)) ∧
  (∀ (s : State) cid l, s.launches.find? cid = some l → l.complete = false →
    (∃ l', (s.cancelLaunch cid).launches.find? cid = some l' ∧ l'.complete = true ∧ l'.cancelled = true ∧ l'.dealt = l.r.total) ∧
    (∀ e ∈ (s.cancelLaunch cid).units, e.2.cid ≠ cid) ∧ (∀ x ∈ (s.cancelLaunch cid).saved, x.unit.cid ≠ cid) ∧
    ∀ e ∈ (s.cancelLaunch cid).cores, ∀ q ∈ e.2.queue, q.cid ≠ cid) ∧
  (∀ (w : Fields) (s : State) b pr src (s1 : State), Runs (.launch w) w s → s.me.tx = none → (formM w s).poison = false → (formM w s).raw % 256 = 0 →
    Src 3 w.b 6 w.ext s b s → b.poison = false → Does (loadWithin 2 (formM w s).raw 256) s (pr, src) s1 →
    let held (t : State) (qn : Nat) : State := (t.leaseLoad t.src (leaseLines pr)).leaveQueue t.src qn
    (s1.physQueue s1.me.part b.raw = none → exec (.launch w) s = .next (s1.putG w.d 2 false).advance) ∧
    (∀ qn, s1.physQueue s1.me.part b.raw = some qn → (s1.queue qn).en = false →
      exec (.launch w) s = .next (s1.putG w.d 2 false).advance) ∧
    (∀ qn, s1.physQueue s1.me.part b.raw = some qn → (s1.queue qn).en = true →
      2 ^ (s1.queue qn).size ≤ ((s1.queue qn).tail - (s1.queue qn).head).toNat →
      exec (.launch w) s = .next ((held (s1.joinQueue s1.src qn) qn).putG w.d 1 false).advance) ∧
    (∀ qn ps (s2 s3 : State), s1.physQueue s1.me.part b.raw = some qn → (s1.queue qn).en = true →
      ((s1.queue qn).tail - (s1.queue qn).head).toNat < 2 ^ (s1.queue qn).size →
      let slot := (s1.queue qn).base.toNat + 256 * ((s1.queue qn).tail.toNat % 2 ^ (s1.queue qn).size)
      let who : Who := { s1.who with asid := s1.me.part * 2048 + (s1.queue qn).space }
      Does (storeChecks who 0 slot 256 false true) s1 ps s2 → Does (storeClaim who slot 256 true ps) s2 () s3 →
      exec (.launch w) s = .next
        ((held (((s3.joinQueue s3.src qn).performWrites s3.src (foundOf ps) (List.zipWith (fun i x =>
            { va := slot + 32 * i, n := 32, val := x.data.toNat, side := some x.side, poison := some x.poison }) (List.range 8) src)).modQueue
          qn fun q => { q with tail := q.tail + 1 }) qn).putG w.d 0 false).advance) ∧
    (∀ (t : State) src qn, max (t.queue qn).tailMs (t.queue qn).headMs < (t.joinQueue src qn).msOf src))

/-- R29, R44, R45, R136, R239, R241, R244, R245: CNTWAIT on a word of memory at most its bound goes on, and waits otherwise; a write after
which the word satisfies a thread that waits for it lets the thread go on past the key of the write, and any other leaves it
waiting. BAR counts an arrival of a barrier whose target it does not reach, going on (.arrive) or waiting (.sync); the first arrival of
a generation sets the target, for an A of zero to the threads live then; and the arrival that reaches the target starts the next
generation and releases the thread and every other that waits on the barrier; ROWPASS and ROWWAIT of the holder go on, ROWPASS marking the thread as
passed, and both go on where no pair is formed; SLEEP of zero and YIELD go on, SLEEP of n waits n clocks, and a sleep that has
run out lets the thread go on, but not while the thread's unit is being stopped or a service thread's package does not run. -/
def Obligations.WaitEffects : Prop :=
  (∀ (w : Fields) (s : State) b p (s1 : State), Runs (.cntwait w) w s → s.me.tx = none → (formM w s).poison = false → Does (readPair w.b) s b s →
    b.poison = false →
    let va := (formM w s).raw
    va % 8 = 0 → s.me.eaten = false → Direct s va 8 .load p s1 → noL1 s1 p → (∀ x, (s.translate s.who va).1 = .ok x → x.home < 2) →
    s1.mem.pois (p.phys + va / 32 * 32 % 128) = false → p.phys % 128 = 0 →
    (s1.mem.readN (p.phys + va % 128) 8 ≤ b.raw →
      ∃ t, exec (.cntwait w) s = .next t ∧ t.me.pc = nextPc s.me.pc ∧ t.me.wait = .ready ∧ t.mem = s1.mem) ∧
    (b.raw < s1.mem.readN (p.phys + va % 128) 8 →
      ∃ t, exec (.cntwait w) s = .next t ∧ t.me.pc = s.me.pc ∧ t.me.wait = .counter ∧ t.mem = s1.mem ∧
        t.waiters = s1.waiters ++ [{ tid := s.cur, phys := p.phys + va % 128, va, bound := BitVec.ofNat 64 b.raw, atLeast := false }])) ∧
  (∀ (w : Fields) (s : State) a u, Runs (.bar w) w s → s.me.tx = none → isService s.cur = false → Src 2 w.a 6 0 s a s → a.poison = false → a.raw ≤ 1024 →
    s.units.find? s.me.unit = some u → w.ext.toNat % 64 < u.res.bars → s.me.wait = .ready →
    let n := w.ext.toNat % 64
    let b := u.bars.get {} n
    let goal := if b.count = 0 then (if a.raw = 0 then s.unitLive u else a.raw) else b.target
    let live := if b.count = 0 then decide (a.raw = 0) else b.live
    let counted := s.modUnit s.me.unit fun u => { u with bars := Tbl.ins u.bars n { b with target := goal, live, count := b.count + 1 } }
    (b.count + 1 < goal → w.sub.getLsbD 0 = true → exec (.bar w) s = .next counted.advance) ∧
    (b.count + 1 < goal → w.sub.getLsbD 0 = false →
      exec (.bar w) s = .next (counted.modMe fun th => { th with wait := .barrier n })) ∧
    (goal ≤ b.count + 1 → ∃ t u', exec (.bar w) s = .next t ∧ t.me.pc = nextPc s.me.pc ∧ t.me.wait = .ready ∧
      t.units.find? s.me.unit = some u' ∧ u'.bars.get {} n = { target := 0, live := false, count := 0, gen := b.gen + 1 } ∧
      u'.interval = u.interval + 1 ∧ t.mem = s.mem ∧
      ∀ x, isService x = false → x ≠ s.cur → (s.thr x).unit = s.me.unit →
        if (s.thr x).wait = .barrier n then (t.thr x).wait = .ready ∧ (t.thr x).pc = nextPc (s.thr x).pc ∧ (t.thr x).g = (s.thr x).g
        else t.thr x = s.thr x)) ∧
  (∀ (s : State) src ps ws x, x ∈ s.waiters → (∀ y ∈ s.waiters, y.tid = x.tid → y = x) → (s.thr x.tid).wait = .counter →
    let t := s.performWrites src ps ws
    t.mem.pois x.phys = false →
    (x.met t.mem = true → (t.thr x.tid).wait = .ready ∧ (t.thr x.tid).pc = nextPc (s.thr x.tid).pc ∧ s.msOf src < t.msOf (tidSource x.tid)) ∧
    (x.met t.mem = false → t.thr x.tid = s.thr x.tid ∧ x ∈ t.waiters)) ∧
  (∀ (w : Fields) (s : State) n (s1 : State), Runs (.rowpass w) w s → s.me.tx = none → Src 2 w.a 6 w.ext s n s → n.poison = false →
    (Does (partner n.raw) s none s1 → exec (.rowpass w) s = .next s1.advance) ∧
    (∀ p, Does (partner n.raw) s (some p) s1 → p.holder = s1.me.group → s1.me.passed = false →
      exec (.rowpass w) s = .next ((s1.modMe fun th => { th with passed := true }).moveToken s1.me.unit s1.me.group).advance)) ∧
  (∀ (w : Fields) (s : State) n (s1 : State), Runs (.rowwait w) w s → s.me.tx = none → Src 2 w.a 6 w.ext s n s → n.poison = false →
    (Does (partner n.raw) s none s1 → exec (.rowwait w) s = .next s1.advance) ∧
    (∀ p, Does (partner n.raw) s (some p) s1 → p.holder = s1.me.group → s1.me.passed = false →
      exec (.rowwait w) s = .next s1.advance)) ∧
  (∀ (w : Fields) (s : State) n, Runs (.sleep w) w s → Src 2 w.a 6 w.ext s n s → n.poison = false →
    (n.raw = 0 → exec (.sleep w) s = .next s.advance) ∧
    (n.raw ≠ 0 → ∃ t, exec (.sleep w) s = .next t ∧ t.me = { s.me with wait := .sleep (s.clockOf s.cur + n.raw) } ∧ t.mem = s.mem)) ∧
  (∀ (w : Fields) (s : State), Runs (.yield w) w s → exec (.yield w) s = .next s.advance) ∧
  (∀ (s : State) tid, s.powered = true → s.counts tid = false → exec (.sleepExpiry tid) s = .next s) ∧
  (∀ (s : State) tid till, s.powered = true → s.counts tid = true → (s.thr tid).wait = .sleep till →
    (s.clockOf tid < till → exec (.sleepExpiry tid) s = .next s) ∧
    (till ≤ s.clockOf tid → ∃ t, exec (.sleepExpiry tid) s = .next t ∧ (t.thr tid).pc = nextPc (s.thr tid).pc ∧
      (t.thr tid).wait = .ready ∧ t.mem = s.mem ∧ t.rt = s.rt))

/-! ### Convergence -/

/-- R40 to R43, R231, R232, R243, R296, R300 to R302: CVDECL declares a free register for its group's live lanes, and declares
anew one of its own that no thread has signed; it is without effect on one that is declared so already; and it traps CONVERGENCE,
with SIGNED and DECL for EXC_VAL, for a register of another group, for one of its own that is signed, and for a mask with a lane the
group never had or without a live one. A signature by a thread that the register does not expect, or at another PC than the round's
first, traps CONVERGENCE and leaves the register as it is. CVSIGN, LXCH,
VOTE, MMA and SOFTSTEP sign their register: a signature that is not the last of its round waits, and the first records the
instruction and the PC; with the last, where the unit is not being stopped, no operation awaited holds the round's tile busy and no
earlier round waits for the same engine or accumulator, the round issues, the signers all go on past the instruction and the
register's signatures are clear. LXCH, of any of its types, gives each signer the value that its mode names, with its poison, or
fails with POISON_CONSUMED when a signer's b is poisoned; VOTE gives every signer the same result. -/
def Obligations.ConvergenceEffects : Prop :=
  (∀ (w : Fields) (s : State) m u g, Runs (.cvdecl w) w s → s.me.tx = none → Src 2 w.a 6 w.ext s m s → m.poison = false → s.myGroup = some (u, g) →
    let k := cvKey s.cur (cvNum w.c)
    let there (i : Nat) : Bool := m.raw.testBit i && g.tids.any fun t => tidLane t == i && (s.thr t).live
    let eff : BitVec 32 := BitVec.ofNat 32 ((List.range 32).foldl (fun x i => if there i then x + 2 ^ i else x) 0)
    let r := s.cv k
    let mine := r.unit = s.me.unit ∧ r.cgn = BitVec.ofNat 10 g.cgn
    let traps := exec (.cvdecl w) s = .next (s.takeTrap 0x0B 0 (r.signed ++ r.decl))
    (((m.raw % 2 ^ 32) / 2 ^ g.n ≠ 0 ∨ eff = 0) → traps) ∧
    ((m.raw % 2 ^ 32) / 2 ^ g.n = 0 → eff ≠ 0 →
      (r.declared = false ∨ (mine ∧ r.decl ≠ eff ∧ r.signed = 0) → exec (.cvdecl w) s =
        .next (s.setCv k { decl := eff, signed := 0, cgn := BitVec.ofNat 10 g.cgn, declared := true, unit := s.me.unit }).advance) ∧
      (r.declared = true → mine → r.decl = eff → exec (.cvdecl w) s = .next s.advance) ∧
      (r.declared = true → ¬ mine ∨ (r.decl ≠ eff ∧ r.signed ≠ 0) → traps))) ∧
  (∀ mk ∈ ([.cvsign, .lxch, .vote, .mma, .softstep] : List (Fields → Instr)), ∀ (w : Fields) (s : State) u gn g, Runs (mk w) w s → s.me.tx = none →
    s.myGroup = some (u, g) → (u.group s.me.group).isSome → gn = s.me.group →
    (∀ x, mk x = .mma x → w.d.accNum < g.acc.length ∧ tileState (u.tile (w.ext.toNat % 256)) = tileREADY) →
    (∀ x, mk x = .softstep x → w.d.accNum < g.acc.length ∧ w.a.accNum < g.acc.length ∧
      tileState (u.tile (w.ext.toNat % 256)) = tileREADY) →
    let k := cvKey s.cur (cvNum w.c)
    let r := s.cv k
    let first := r.signed == 0
    let s0 := match instrTile (some (mk w)) with
      | some h => s.tileSeen h
      | none => s
    (r.declared = false ∨ r.unit ≠ s.me.unit ∨ r.cgn ≠ BitVec.ofNat 10 g.cgn ∨ r.decl.getLsbD (tidLane s.cur) = false ∨
      r.signed.getLsbD (tidLane s.cur) = true ∨ (first = false ∧ r.pc ≠ s.me.pc) →
      exec (mk w) s = .next (s0.takeTrap 0x0B 0 (r.signed ++ r.decl))) ∧
    (r.declared = true → r.unit = s.me.unit → r.cgn = BitVec.ofNat 10 g.cgn → r.decl.getLsbD (tidLane s.cur) = true →
    r.signed.getLsbD (tidLane s.cur) = false → (first = false → r.pc = s.me.pc) →
    let r1 : CvReg := { r with signed := setBit r.signed (tidLane s.cur) true }
    let r2 : CvReg := if first then { r1 with op := cvOp (mk w), pc := s.me.pc, instr := some (mk w), claim := s.nextTurn + 1 } else r1
    let s1 := ((if first then { s0 with nextTurn := s.nextTurn + 1 } else s0).setCv k r2).modMe fun th => { th with wait := .signed (cvNum w.c) }
    (r1.signed ≠ r.decl → exec (mk w) s = .next s1) ∧
    (∀ gn' g' s3, r1.signed = r.decl → u.stopping = none →
      List.find? (fun (e : Nat × Group) => BitVec.ofNat 10 e.2.cgn == r.cgn) u.groups = some (gn', g') →
      let signers := g'.tids.filter fun t => r.decl.getLsbD (tidLane t)
      s1.tileAwaited u r2 (signers.headD 0) = false → (s1.takeTurn k r2).2.roundBefore k (s1.takeTurn k r2).1 = false →
      issueOf (k % 16) (s1.takeTurn k r2).1 gn' g' signers (s1.takeTurn k r2).2 = .done s3 →
      exec (mk w) s = .next (signers.foldl
        (fun t x => t.modThr x fun th => { th with pc := nextPc th.pc, wait := .ready, entry := t.now + 1 })
        ((s3.clearRound k (s1.takeTurn k r2).1).modUnit r.unit fun u =>
          u.modGroup gn' fun g => { g with interval := g.interval + 1 }))))) ∧
  (∀ (s : State) k (r : CvReg), ((s.clearRound k r).cv k).signed = 0 ∧ ((s.clearRound k r).cv k).op = 0 ∧
    ((s.clearRound k r).cv k).decl = r.decl) ∧
  (∀ (w : Fields) decl signers (s : State) (d : BitVec 7), (List.Pairwise (fun a b => tidLane a ≠ tidLane b) signers) → w.d = .g d →
    ∃ s', (signers.any fun x => (s.valOf x w.b w.ext).poison) = true ∧ issueLxch w decl signers s = .fail cPOISON 3 0 s ∧ s' = s ∨
      (signers.any fun x => (s.valOf x w.b w.ext).poison) = false ∧ issueLxch w decl signers s = .done s' ∧ ∀ x ∈ signers,
        let src := lxchSource (w.sub.toNat % 4) decl (fun n => match signers.find? fun y => tidLane y == n with
          | some y => (s.valOf y w.b w.ext).raw
          | none => 0) (tidLane x)
        let y := if decl.getLsbD src then (signers.find? fun y => tidLane y == src) else some x
        ∀ z, y = some z →
          let v := s.typedOf z w.a (is64 w.ty)
          ({ s' with cur := x } : State).gReg d.toNat = ⟨BitVec.ofNat 32 v.raw, v.poison⟩ ∧
          (is64 w.ty = true → ({ s' with cur := x } : State).gReg (d.toNat + 1) = ⟨BitVec.ofNat 32 (v.raw / 2 ^ 32), v.poison⟩)) ∧
  (∀ (w : Fields) signers (s : State), signers.Nodup →
    ∃ t, issueVote w signers s = .done t ∧ ∀ x ∈ signers,
      let yes := signers.filter fun y => ({ s with cur := y } : State).predOf w.a
      (∀ d : BitVec 3, w.d = .p d → w.sub = 0 → (t.thr x).pred d.toNat = (decide (d = 7) || !yes.isEmpty)) ∧
      (∀ d : BitVec 3, w.d = .p d → w.sub = 1 → (t.thr x).pred d.toNat = (decide (d = 7) || decide (yes.length = signers.length))) ∧
      (∀ d : BitVec 7, w.d = .g d → w.sub = 2 →
        ({ t with cur := x } : State).gReg d.toNat = ⟨BitVec.ofNat 32 (yes.foldl (fun m x => m + 2 ^ tidLane x) 0), false⟩) ∧
      (∀ d : BitVec 7, w.d = .g d → w.sub = 3 → ({ t with cur := x } : State).gReg d.toNat = ⟨BitVec.ofNat 32 yes.length, false⟩))

/-! ### Matrix and softmax -/

/-- R294 to R297, R306 to R314: each row instruction runs outside a transaction on accumulators that the group holds and no operation
uses: ACLR makes the thread's two rows fresh, ALOAD loads them, ARESCALE, SMERGE and ANORM change them by the rules' row
functions, AROW and ASTAT read a row's m and l, its state, or a check counter. A row that ARESCALE raises, and rows that SMERGE
merges, take the values of R310 and R311, with the poison of both; ANORM divides the sums by the denominator (R312). -/
def Obligations.RowEffects : Prop :=
  (∀ (w : Fields) (s : State) k, Runs (.aclr w) w s → s.me.tx = none → Does (useAcc w.d.accNum) s k s →
    exec (.aclr w) s = .next (rowsSet s k fun _ _ => {}).advance) ∧
  (∀ (w : Fields) (s : State) k secs (s0 s1 : State), Runs (.aload w) w s → s.me.tx = none → Does (useAcc w.d.accNum) s k s →
    (if w.sub.getLsbD 0 then s0 = s else Does (tileReady (w.ext.toNat % 256)) s () s0) →
    let st := w.sub.getLsbD 1
    let n := rowBytes w.ty / 32 + (if st then 1 else 0)
    Does (loadSpan w 2 w.a (2 * n)) s0 secs s1 →
    exec (.aload w) s = .next (rowsSet s1 k fun r old => rowFrom w.ty st ((secs.drop (n * (r % 2))).take n) old).advance) ∧
  (∀ (w : Fields) (s : State) k a (s1 : State), Runs (.arescale w) w s → s.me.tx = none → Does (useAcc w.d.accNum) s k s → Src 2 w.a 6 0 s a s1 →
    exec (.arescale w) s = .next (rowsSet s1 k fun _ r => rescaleRow (a.raw % 2 ^ 32) a.poison r).advance) ∧
  (∀ (w : Fields) (s : State) k j, Runs (.smerge w) w s → s.me.tx = none → Does (useAcc w.d.accNum) s k s → Does (useAcc w.a.accNum) s j s →
    exec (.smerge w) s = .next (rowsSet s k fun r d => mergeRow d ((s.accTile j).row r)).advance) ∧
  (∀ (w : Fields) (s : State) k, Runs (.anorm w) w s → s.me.tx = none → Does (useAcc w.d.accNum) s k s →
    exec (.anorm w) s = .next (rowsSet s k fun _ r => normRow r).advance) ∧
  (∀ (w : Fields) (s : State) k, Runs (.arow w) w s → s.me.tx = none → Does (useAcc w.a.accNum) s k s →
    let r := (s.accTile k).row (2 * tidLane s.cur + (w.sub.getLsbD 0).toNat)
    (w.sub.getLsbD 1 = true → exec (.arow w) s = .next (s.putG w.d (r.st.toNat + 4 * r.poison.toNat) false).advance) ∧
    (w.sub.getLsbD 1 = false → exec (.arow w) s = .next (s.putPair w.d (r.m.toNat + 2 ^ 32 * r.l.toNat) r.poison).advance)) ∧
  (∀ (w : Fields) (s : State) u g, Runs (.astat w) w s → s.me.tx = none → s.myUnit = some u → u.group s.me.group = some g →
    exec (.astat w) s = .next (s.putG w.d (if w.sub.getLsbD 0 then (s.quadOf (tidCq s.cur)).check else g.check) false).advance) ∧
  (∀ n (s : State) u g phys, s.myUnit = some u → u.group s.me.group = some g → g.acc[n]? = some phys →
    (s.quadOf (tidCq s.cur)).mma = none → (s.quadOf (tidCq s.cur)).soft = none →
    Does (useAcc n) s (tidCq s.cur * 8 + phys) s) ∧
  (∀ v p (r : AccRow),
    let q := rescaleRow v p r
    let t := max32 r.m.toNat v
    q.poison = (r.poison || p) ∧
    ((f32 v).isNan = true ∨ (f32 r.m.toNat).isNan = true → NanRow q) ∧
    ((f32 v).isNan = false → (f32 r.m.toNat).isNan = false →
      (t = 0xFF800000 → { q with poison := r.poison } = r) ∧
      (t ≠ 0xFF800000 → RowRaised r q t (rowScale r.m.toNat t 0x3F800000) (prod32 r.l.toNat (rowScale r.m.toNat t 0x3F800000))))) ∧
  (∀ (d a : AccRow),
    let q := mergeRow d a
    let t := max32 d.m.toNat a.m.toNat
    let x := rowScale d.m.toNat t 0
    let y := rowScale a.m.toNat t 0
    let join (u v : Nat) : BitVec 32 := BitVec.ofNat 32 (roundRne (((f32 u).mul (f32 x)).add false ((f32 v).mul (f32 y))) fFP32)
    q.poison = (d.poison || a.poison) ∧
    ((f32 d.m.toNat).isNan = true ∨ (f32 a.m.toNat).isNan = true → NanRow q) ∧
    ((f32 d.m.toNat).isNan = false → (f32 a.m.toNat).isNan = false →
      (t = 0xFF800000 → q.st = (if d.st = 0 ∧ a.st = 0 then 0 else 2) ∧ q.o = d.o ∧ q.m = d.m ∧ q.l = d.l) ∧
      (t ≠ 0xFF800000 → q.m = BitVec.ofNat 32 t ∧ q.st = 1 ∧ q.l = join d.l.toNat a.l.toNat ∧
        ∀ c, c < 128 → q.o.get 0 c = join (d.sum c) (a.sum c)))) ∧
  (∀ (r : AccRow),
    let q := normRow r
    q.m = r.m ∧ q.st = r.st ∧ q.poison = r.poison ∧
    ((f32 r.l.toNat).isNan = true → q.l = r.l ∧ ∀ c, c < 128 → q.sum c = 0x7FC00000) ∧
    ((f32 r.l.toNat).isZero = true → q.l = 0 ∧ ∀ c, c < 128 → q.sum c = 0) ∧
    ((f32 r.l.toNat).isNan = false → (f32 r.l.toNat).isZero = false → q.l = 0x3F800000 ∧
      ∀ c, c < 128 → q.o.get 0 c = BitVec.ofNat 32 (roundRne ((f32 (r.sum c)).div (f32 r.l.toNat)) fFP32)))

/-- R307, R309: ADRAIN runs in each of its forms whose checks pass: the two rows' images, in the words their format takes under
SR, are written into the tile or to memory, and the absolute maximum is folded into a tile's word or memory where the form asks.
Where a clause follows the model's choice and no rule: assumption log 117. -/
def Obligations.DrainEffect : Prop :=
  ∀ (w : Fields) (s : State) k, Runs (.adrain w) w s → s.me.tx = none → Does (useAcc w.a.accNum) s k s →
    let mem := w.sub.getLsbD 0
    let st := w.sub.getLsbD 1
    let amax := w.sub.toNat / 4 % 4
    let nw := if w.rm.toNat = 4 ∧ w.ty ≠ tagF32 then 128 else 0
    let taken := rndTake (2 * nw) s.me.rnd
    let r0 := (s.accTile k).row (2 * tidLane s.cur)
    let r1 := (s.accTile k).row (2 * tidLane s.cur + 1)
    let image := rowImage w.ty w.rm.toNat (taken.1.take nw) st r0 ++ rowImage w.ty w.rm.toNat (taken.1.drop nw) st r1
    let n := image.length
    let v := amaxWord ((r0.sums ++ r1.sums).map f32)
    let p := r0.poison || r1.poison
    let done (t : State) : State := (t.modMe fun th => { th with rnd := taken.2 }).advance
    let inTile (t : State) (places : List Nat) : State :=
      { t with mem := (places.zip image).foldl (fun m e => m.setSector e.1 e.2) t.mem }
    let h := w.ext.toNat % 256
    let h2 := w.ext.toNat / 256 % 256
    let words (va : Nat) : List SecWrite := List.zipWith (fun i x =>
      { va := va + 32 * i, n := 32, val := x.data.toNat, side := some x.side, poison := some x.poison }) (List.range n) image
    (∀ off places (s0 : State), mem = false → amax = 0 → Does (tileReady h) s () s0 → Does (tileOffset 3 w.b) s0 off s0 →
      Does (tileSectors 3 h ((List.range n).map fun i => s.spanAt off n + 32 * i) false true) s0 places s0 →
      exec (.adrain w) s = .next (done (inTile s0 places))) ∧
    (∀ off places c at_ (s0 s1 : State), mem = false → amax = 1 → Does (tileReady h) s () s0 → Does (tileReady h2) s0 () s1 →
      Does (tileOffset 3 w.b) s1 off s1 → Src 4 w.c 6 0 s1 c s1 → c.poison = false →
      Does (tileSectors 3 h ((List.range n).map fun i => s.spanAt off n + 32 * i) false true) s1 places s1 →
      Does (foldUnitAt 4 h2 c.raw) s1 at_ s1 →
      exec (.adrain w) s = .next (done ((inTile s1 places).foldTile at_ v p))) ∧
    (∀ off places c q (s0 s1 s2 : State), mem = false → amax = 2 → Does (tileReady h) s () s0 → Does (tileOffset 3 w.b) s0 off s0 →
      w.c = .g c → (s.pair c.toNat).poison = false → (s.pair c.toNat).raw % 4 = 0 →
      Does (tileSectors 3 h ((List.range n).map fun i => s.spanAt off n + 32 * i) false true) s0 places s0 →
      Does (foldPkgPlaces 4 (s.pair c.toNat).raw) s0 q s1 → (foundOf q).isEmpty = false →
      Does (storeClaim s.who (s.pair c.toNat).raw 4 false q) (s1.pastLeases s1.src []) () s2 →
      exec (.adrain w) s = .next (done (((inTile s2 places).foldAt s2.src (foundOf q) (s.pair c.toNat).raw v p).bumpCore s2.src s2.me.part))) ∧
    (∀ b ps (s0 s1 : State), mem = true → amax = 0 → w.b = .g b → (s.pair b.toNat).poison = false → (s.pair b.toNat).raw % 32 = 0 →
      let va := s.spanAt (s.pair b.toNat).raw n % 2 ^ 64
      Does (storeChecks s.who 3 va (32 * n) true true) s ps s0 → ps ≠ [] → (∀ e ∈ ps, e.2.isSome = true) →
      Does (storeClaim s.who va (32 * n) true ps) (s0.pastLeases s0.src (leaseLines (foundOf ps))) () s1 →
      exec (.adrain w) s = .next (done (s1.performHere s1.src (foundOf ps) (words va)))) ∧
    (∀ b ps c at_ (s0 s1 s2 : State), mem = true → amax = 1 → Does (tileReady h2) s () s0 → w.b = .g b → (s.pair b.toNat).poison = false →
      (s.pair b.toNat).raw % 32 = 0 → Src 4 w.c 6 0 s0 c s0 → c.poison = false → Does (foldUnitAt 4 h2 c.raw) s0 at_ s0 →
      let va := s.spanAt (s.pair b.toNat).raw n % 2 ^ 64
      Does (storeChecks s0.who 3 va (32 * n) true true) s0 ps s1 → ps ≠ [] → (∀ e ∈ ps, e.2.isSome = true) →
      Does (storeClaim s0.who va (32 * n) true ps) (s1.pastLeases s1.src (leaseLines (foundOf ps))) () s2 →
      exec (.adrain w) s = .next (done ((s2.performHere s2.src (foundOf ps) (words va)).foldTile at_ v p))) ∧
    (∀ b ps c q (s1 s2 s3 s4 : State), mem = true → amax = 2 → w.b = .g b → (s.pair b.toNat).poison = false →
      (s.pair b.toNat).raw % 32 = 0 → w.c = .g c → (s.pair c.toNat).poison = false → (s.pair c.toNat).raw % 4 = 0 →
      let va := s.spanAt (s.pair b.toNat).raw n % 2 ^ 64
      let vc := (s.pair c.toNat).raw
      Does (checkRange 4 vc 4) s () s → Does (checkLocks 4 vc 4 true) s () s →
      Does (storeChecks s.who 3 va (32 * n) true false) s ps s1 → ps ≠ [] → (∀ e ∈ ps, e.2.isSome = true) →
      Does (foldPkgPlaces 4 vc) s1 q s2 → (foundOf q).isEmpty = false →
      Does (raceTrap (tagOf va s.me.asid s.me.part) (presentSecs ps va (32 * n))) s2 () s2 →
      Does (storeClaim s.who va (32 * n) true ps) (s2.pastLeases s2.src (leaseLines (foundOf ps))) () s3 →
      Does (storeClaim s.who vc 4 false q) s3 () s4 →
      exec (.adrain w) s = .next (done (((s4.performHere s4.src (foundOf ps) (words va)).foldAt s4.src (foundOf q) vc v p).bumpCore s4.src s4.me.part)))

/-- R296, R298 to R305, R314: a complete round of MMA starts the quadrant's engine, if idle, with the tile that accumulator will
hold, and one of SOFTSTEP the softmax unit. The tile of an MMA is the accumulator with the product of R299 added, element by
element; that of a SOFTSTEP has the rows of R303 and R304, and its P rows are in the tile they are written to, in the layout of R305.
A pass or a softmax step whose 64 clocks have not gone by is left to run. Then, when a pass of MMA ends with agreeing checksums,
or the softmax unit ends, the engine is idle, the accumulator takes that tile where its group still stands, and no other accumulator
changes; a first disagreement starts a second pass and raises the quadrant's check counter and, where it still stands, the group's; a
second is fatal to the context of the signers while its launch is live, and is otherwise reported; with no operation in flight
neither event has an effect.
Where a clause follows the model's choice and no rule: assumption log 28. -/
def Obligations.EngineEffects : Prop :=
  (∀ (w : Fields) n r gn g signers (s s1 : State) lead rest at_, issueMma w n r gn g signers s = .done s1 → signers = lead :: rest →
    WellFormed (.mma w) = true → List.Pairwise (fun x y => tidLane x ≠ tidLane y) signers →
    Does (tileAddrs 3 (w.ext.toNat % 256) ((List.range 512).map fun i => (s.valOf lead w.b 0).raw + 32 * i) (w.sub.getLsbD 0) false)
      { s with cur := lead } at_ { s with cur := lead } →
    let phys := g.acc.getD w.d.accNum 0
    let a (i q : Nat) : SectorLit := aSector s g signers w.a.vNum i q
    let b (q : Nat) : SectorLit := (at_.map s.mem.sector).getD q { data := 0, side := 0, poison := false }
    let wide := decide (w.ty = tagBF16)
    ∃ run, (s1.quadOf (tidCq lead)).mma = some run ∧ run.unit = r.unit ∧ run.group = gn ∧ run.acc = phys ∧
      run.second = false ∧ run.startAt = s.now ∧ (s.quadOf (tidCq lead)).mma = none ∧ r.decl = BitVec.allOnes 32 ∧ s1.mem = s.mem ∧ s1.accs = s.accs ∧
      ∀ i, i < 64 →
        let old := (s.accTile (tidCq lead * 8 + phys)).row i
        let new := run.tile.row i
        new.m = old.m ∧ new.l = old.l ∧ new.st = old.st ∧
        new.poison = (old.poison || (List.range 4).any (fun q => (a i q).poison) || (at_.map s.mem.sector).any SectorLit.poison) ∧
        ∀ j, j < 128 → new.o.get 0 j = BitVec.ofNat 32 (mmaValue (if wide || w.ty = tagE2M1 then 8 else 4) (if wide then 8 else 32)
          (seqElem w.ty (a i)) (fun k => bElement (mmaBTag w) (w.sub.getLsbD 2) b k j) (old.sum j))) ∧
  (∀ (w : Fields) n r gn g signers (s s1 : State) lead rest, issueSoft w n r gn g signers s = .done s1 → signers = lead :: rest →
    List.Pairwise (fun x y => tidLane x ≠ tidLane y) signers → (List.range 32).all (fun i => signers.any fun x => tidLane x == i) = true →
    ∀ at_ scale (s2 : State), Does (checkP (w.ext.toNat % 256) (if w.ty = tagBF16 then 16384 else 8192)) { s with cur := lead } at_ { s with cur := lead } →
    Does (readConst 0 (w.ext.toNat / 2 ^ 29) (w.ext.toNat / 2 ^ 16 % 8192) 4) { s with cur := lead } scale s2 →
    let physO := g.acc.getD w.d.accNum 0
    let physS := g.acc.getD w.a.accNum 0
    let pos (i : Nat) : Int := (({ s with cur := lead } : State).gReg (w.b.gNum + i)).val.toInt
    let mask : Mask := { kind := w.sub.toNat % 4, qbase := pos 0, kbase := pos 1, lo := pos 2, hi := pos 3 }
    let src (i : Nat) := (s2.accTile (tidCq lead * 8 + physS)).row i
    let old (i : Nat) := (s2.accTile (tidCq lead * 8 + physO)).row i
    ∃ run, (s1.quadOf (tidCq lead)).soft = some run ∧ run.unit = r.unit ∧ run.group = gn ∧ run.acc = physO ∧
      run.startAt = s2.now ∧ (s.quadOf (tidCq lead)).soft = none ∧ r.decl = BitVec.allOnes 32 ∧ s1.accs = s2.accs ∧
      (∀ i, i < 64 → let x := softRow mask scale.raw i (src i) (old i)
        { run.tile.row i with poison := x.1.poison } = x.1 ∧ (run.tile.row i).poison = (x.1.poison || (src i).poison || scale.poison)) ∧
      s1.mem = (at_.zip ((List.range 64).flatMap fun i => pSectors w.ty w.rm.toNat
          (rowWords s2 w.rm.toNat i ((signers.find? fun x => tidLane x == i / 2).getD lead)) (softRow mask scale.raw i (src i) (old i)).2
          ((src i).poison || scale.poison))).foldl (fun m e => m.setSector e.1 e.2) s2.mem) ∧
  (∀ (mask : Mask) scale r (srow orow : AccRow),
    let q := softRow mask scale r srow orow
    let x (j : Nat) : Nat := prod32 scale (srow.sum j)
    let d (j : Nat) : Int := (mask.qbase + r) - (mask.kbase + j)
    let u (j : Nat) : Bool := match mask.kind with
      | 0 => true
      | 1 => decide (0 ≤ d j)
      | _ => decide (mask.lo ≤ d j ∧ d j ≤ mask.hi)
    let bad := (f32 orow.m.toNat).isNan = true ∨ ∃ j, j < 128 ∧ u j = true ∧ (f32 (x j)).isNan = true
    let top := max32 orow.m.toNat ((List.range 128).foldl (fun m j => if u j then max32 m (x j) else m) 0xFF800000)
    let a := rowScale orow.m.toNat top 0x3F800000
    let p (j : Nat) : Nat := if u j then exp2e9 (roundRne ((f32 (x j)).add false (f32 top).neg) fFP32) else 0
    q.1.poison = orow.poison ∧
    (bad → NanRow q.1 ∧ q.2 = List.replicate 128 0x7FC00000) ∧
    (¬ bad → top = 0xFF800000 → q.2 = List.replicate 128 0 ∧ q.1 = { orow with st := if orow.st = 0 then 2 else orow.st }) ∧
    (¬ bad → top ≠ 0xFF800000 → q.2 = (List.range 128).map p ∧
      RowRaised orow q.1 top a ((List.range 128).foldl (fun t j => sum32 t (p j)) (prod32 orow.l.toNat a)))) ∧
  (∀ (s : State) core quad agree, s.powered = true → (s.quadOf (core * 4 + quad)).mma = none →
    exec (.mmaPassComplete core quad agree) s = .next s) ∧
  (∀ (s : State) core quad run agree, s.powered = true → (s.quadOf (core * 4 + quad)).mma = some run → s.now < run.startAt + 64 →
    exec (.mmaPassComplete core quad agree) s = .next s) ∧
  (∀ (s : State) core quad run, s.powered = true → (s.quadOf (core * 4 + quad)).mma = some run → run.startAt + 64 ≤ s.now →
    ∃ t, exec (.mmaPassComplete core quad true) s = .next t ∧ (t.quadOf (core * 4 + quad)).mma = none ∧ t.mem = s.mem ∧
      (t.quadOf (core * 4 + quad)).check = (s.quadOf (core * 4 + quad)).check ∧
      (if stands s (core * 4 + quad) run then t.accTile ((core * 4 + quad) * 8 + run.acc) = run.tile else t.accs = s.accs) ∧
      ∀ k, k ≠ (core * 4 + quad) * 8 + run.acc → t.accTile k = s.accTile k) ∧
  (∀ (s : State) core quad run, s.powered = true → (s.quadOf (core * 4 + quad)).mma = some run → run.second = false →
    run.startAt + 64 ≤ s.now → ∃ t r2, exec (.mmaPassComplete core quad false) s = .next t ∧ (t.quadOf (core * 4 + quad)).mma = some r2 ∧ r2.second = true ∧
      r2.tile = run.tile ∧ r2.startAt = run.startAt + 64 ∧ (t.quadOf (core * 4 + quad)).check = min ((s.quadOf (core * 4 + quad)).check + 1) 0xFFFFFFFF ∧
      (∀ u g, s.units.find? run.unit = some u → u.group run.group = some g → stands s (core * 4 + quad) run = true →
        ∃ u' g', t.units.find? run.unit = some u' ∧ u'.group run.group = some g' ∧ g'.check = min (g.check + 1) 0xFFFFFFFF) ∧
      t.accs = s.accs ∧ t.mem = s.mem) ∧
  (∀ (s : State) core quad run, s.powered = true → (s.quadOf (core * 4 + quad)).mma = some run → run.second = true →
    run.startAt + 64 ≤ s.now → run.cid % 2048 ≠ 0 →
    ∃ t, exec (.mmaPassComplete core quad false) s = .next t ∧ (t.quadOf (core * 4 + quad)).mma = none ∧ t.accs = s.accs ∧
      t.errs.any (fun e => e.part == run.part && e.cls == 2 && e.kind == 0x06 && e.cid == run.cid) = true ∧
      (∀ l, s.launches.find? run.cid = some l → l.complete = false →
        ∃ l', t.launches.find? run.cid = some l' ∧ l'.complete = true ∧ l'.cancelled = true)) ∧
  (∀ (s : State) core quad, s.powered = true → (s.quadOf (core * 4 + quad)).soft = none →
    exec (.softstepComplete core quad) s = .next s) ∧
  (∀ (s : State) core quad run, s.powered = true → (s.quadOf (core * 4 + quad)).soft = some run →
    (s.now < run.startAt + 64 → exec (.softstepComplete core quad) s = .next s) ∧
    (run.startAt + 64 ≤ s.now → ∃ t, exec (.softstepComplete core quad) s = .next t ∧ (t.quadOf (core * 4 + quad)).soft = none ∧ t.mem = s.mem ∧
      (if stands s (core * 4 + quad) run then t.accTile ((core * 4 + quad) * 8 + run.acc) = run.tile else t.accs = s.accs) ∧
      ∀ k, k ≠ (core * 4 + quad) * 8 + run.acc → t.accTile k = s.accTile k))
/-! ### KV and prefix instructions -/

/-- R113 to R119, R257 to R261: the KV instructions run outside a transaction, KVLD at its thread's milestone and the others at the pool's. KVLD (without PF) writes the
sector that the residency map gives, tagged MX-E4M3, with its status; a position of a live sequence in a resident, unpoisoned
frame gives status 0 and that frame's sector. With PF it brings the line of a resident frame into the LLC and changes nothing else.
KVAPP puts its tokens into the tail's free slots and what remains into a newly allocated frame, raises LEN and answers OK, or answers
NOSEQ for a sequence that is not live; filling a frame writes each token's sectors into its slots, records its identifiers and raises
FILL. KVFORK shares every page; KVREL frees the descriptor and lowers REF of each listed frame, which becomes free, with its prefix
entries, where REF and PIN are then zero; KVLINK adds a frame, PIN and UNPIN count; each answers OK where its conditions hold.
Where a clause follows the model's choice and no rule: assumption log 23, 24, 25 and 127. -/
def Obligations.KvEffects : Prop :=
  (∀ (w : Fields) (s : State) a p, Runs (.kvld w) w s → s.me.tx = none → Src 2 w.a 6 w.ext s a s → a.poison = false → Src 3 w.b 6 w.ext s p s →
    p.poison = false → w.sub.getLsbD 1 = false →
    let s1 := s.poolRead s.src
    let r := s1.resolve s1.me.part (a.raw % 65536) (a.raw / 65536 % 256) p.raw (w.sub.toNat % 2) [a.raw / 2 ^ 24 % 4]
    let x := r.line.headD zeroLit
    exec (.kvld w) s = .next (((((s1.handleDead s1.src s1.me.part s1.me.cid r.handle).touchFrame s1.me.part (s1.msOf s1.src) r).bringLine
      s1.me.part r.handle (kvLine (w.sub.toNat % 2) (a.raw / 65536 % 256) (p.raw % 16))).putV w.d { sec := x.data, side := x.side, tag := tagE4M3, poison := x.poison }).putG
      w.c r.status false).advance) ∧
  (∀ (w : Fields) (s : State) a p, Runs (.kvld w) w s → s.me.tx = none → Src 2 w.a 6 w.ext s a s → a.poison = false → Src 3 w.b 6 w.ext s p s →
    p.poison = false → w.sub.getLsbD 1 = true →
    let part := s.me.part
    let r := s.resolve part (a.raw % 65536) (a.raw / 65536 % 256) p.raw (w.sub.toNat % 2) [a.raw / 2 ^ 24 % 4]
    ∃ t, exec (.kvld w) s = .next t ∧ (∀ u, t.thr u = (s.advance).thr u) ∧ t.mem = s.mem ∧ t.leases = s.leases ∧
      (t.pool part).frames = (s.pool part).frames ∧ (t.pool part).seqs = (s.pool part).seqs ∧
      (∀ f, s.kvFrameOf part r.handle = some f → f.st = frRESIDENT →
        r.handle * 512 + kvLine (w.sub.toNat % 2) (a.raw / 65536 % 256) (p.raw % 16) / 128 ∈ (t.pool part).cached) ∧
      ((∀ f, s.kvFrameOf part r.handle = some f → f.st ≠ frRESIDENT) → t = s.advance)) ∧
  (∀ (s : State) part h toks f, s.kvFrameOf part h = some f →
    let t := s.fillFrame part h toks
    t.kvFrameOf part h = some { f with
      fill := f.fill + toks.length, tokens := f.tokens ++ toks.map Prod.fst, age := if toks = [] then f.age else t.msOf 164,
      written := f.written || !toks.isEmpty } ∧ (s.src < 160 → t.msOf 164 = s.msOf 164) ∧
    ∀ base, s.kvBase part f = some base → s.mem.isDead base = false → f.fill + toks.length ≤ 16 →
      (∀ x ∈ toks, x.2.length = 128) →
      ∀ i kv head j, i < toks.length → kv < 2 → head < 16 → j < 4 →
        t.mem.sector (base + kv * 32768 + head * 2048 + (f.fill + i) * 128 + 32 * j) =
          (toks.getD i (0, [])).2.getD (64 * kv + 4 * head + j) zeroLit) ∧
  (∀ (s : State) part q h p kv j f base, (s.kvSeq part q).live = true → p < (s.kvSeq part q).len → h < 16 →
    s.kvFrameOf part ((s.kvSeq part q).pages.getD (p / 16) 0) = some f → s.kvBase part f = some base → f.psn = false →
    f.st ≠ frEVICTED → f.st ≠ frMIGRATING →
    (s.mem.sector (base + kv * 32768 + h * 2048 + p % 16 * 128 + 32 * j)).poison = false →
    s.resolve part q h p kv [j] = { status := 0, line := [s.mem.sector (base + kv * 32768 + h * 2048 + p % 16 * 128 + 32 * j)],
                                    handle := (s.kvSeq part q).pages.getD (p / 16) 0 }) ∧
  (∀ (w : Fields) (s : State) a b secs (s1 : State), Runs (.kvapp w) w s → s.me.tx = none → Src 2 w.a 6 w.ext s a s → a.poison = false → w.b = .g b →
    (s.pair b.toNat).poison = false →
    let va := (s.pair b.toNat).raw
    let q := a.raw % 65536
    let n := a.raw / 65536 % 16 + 1
    va % 256 = 0 → Does (checkRange 3 va (256 + n * 4096)) s () s → Does (refuseRemote 3 va (256 + n * 4096)) s () s →
    Does (loadSectors 3 va (256 + n * 4096)) s secs s1 → (secs.take ((4 * n + 31) / 32)).any SectorLit.poison = false →
    let s2 := s1.poolMs
    let part := s2.me.part
    let d := s2.kvSeq part q
    let toks := (List.range n).map fun i => (BitVec.ofNat 32 (bytesOf (secs.take 8) 0 256 / 2 ^ (32 * i)), (secs.drop (8 + 128 * i)).take 128)
    let tail := d.pages.getLastD 0
    let counted (s : State) (extra : List Nat) : State :=
      s.setSeq part q { s.kvSeq part q with len := (s.kvSeq part q).len + n, pages := (s.kvSeq part q).pages ++ extra }
    (d.live = false → exec (.kvapp w) s = .next (s2.poolDone.putG w.d 1 false).advance) ∧
    (∀ f, d.live = true → d.pages ≠ [] → s2.kvFrameOf part tail = some f → f.ref ≤ 1 → n ≤ 16 - f.fill → f.st ≠ frEVICTED →
      f.st ≠ frMIGRATING →
      exec (.kvapp w) s = .next ((counted (s2.fillFrame part tail toks) []).poolDone.putG w.d 0 false).advance) ∧
    (∀ f fr h (s3 s4 : State), d.live = true → d.pages ≠ [] → s2.kvFrameOf part tail = some f → 16 - f.fill < n → d.pages.length + 1 ≤ d.cap →
      (16 ≤ f.fill ∨ f.ref ≤ 1 ∧ f.st ≠ frEVICTED ∧ f.st ≠ frMIGRATING) → s2.kvAlloc part 65 = (.ok fr, s3) → s3.freeHandle part = (h, s4) →
      exec (.kvapp w) s = .next ((counted (((s4.modPool part fun k => { k with
        frames := Tbl.ins k.frames h { ref := 1, owner := s2.me.cid, frame := fr } }).fillFrame part tail (toks.take (16 - f.fill))).fillFrame
          part h (toks.drop (16 - f.fill))) [h]).poolDone.putG w.d 0 false).advance) ∧
    (∀ fr h (s3 s4 : State), d.live = true → d.pages = [] → 1 ≤ d.cap → s2.kvAlloc part 65 = (.ok fr, s3) → s3.freeHandle part = (h, s4) →
      exec (.kvapp w) s = .next ((counted ((s4.modPool part fun k => { k with
        frames := Tbl.ins k.frames h { ref := 1, owner := s2.me.cid, frame := fr } }).fillFrame part h toks) [h]).poolDone.putG w.d 0 false).advance)) ∧
  (∀ (w : Fields) (s : State) a b d, Runs (.kvfork w) w s → s.me.tx = none → Src 2 w.a 6 w.ext s a s → a.poison = false → Src 3 w.b 6 w.ext s b s →
    b.poison = false → w.d = .g d →
    let part := s.me.part
    let x := s.kvSeq part (a.raw % 65536)
    let y := s.kvSeq part (b.raw % 65536)
    x.live = true → y.live = false → x.pages.length ≤ y.cap →
    (∀ h ∈ x.pages, ∀ f, s.kvFrameOf part h = some f → f.ref + x.pages.count h ≤ 65535) →
    ∃ t, exec (.kvfork w) s = .next t ∧ t.gReg d.toNat = ⟨0, false⟩ ∧ t.me.pc = nextPc s.me.pc ∧ t.mem = s.mem ∧
      t.kvSeq part (b.raw % 65536) = { y with live := true, len := x.len, pages := x.pages, owner := s.me.cid } ∧
      ∀ h f, s.kvFrameOf part h = some f → t.kvFrameOf part h = some { f with ref := f.ref + x.pages.count h }) ∧
  (∀ (w : Fields) (s : State) a d, Runs (.kvrel w) w s → s.me.tx = none → Src 2 w.a 6 w.ext s a s → a.poison = false → w.d = .g d →
    let part := s.me.part
    (s.kvSeq part (a.raw % 65536)).live = true →
    ∃ t, exec (.kvrel w) s = .next t ∧ t.gReg d.toNat = ⟨0, false⟩ ∧ t.me.pc = nextPc s.me.pc ∧
      (t.kvSeq part (a.raw % 65536)).live = false ∧ (t.kvSeq part (a.raw % 65536)).cap = (s.kvSeq part (a.raw % 65536)).cap ∧
      t.mem = s.mem ∧
      ∀ h f, s.kvFrameOf part h = some f →
        let n := (s.kvSeq part (a.raw % 65536)).pages.count h
        ((n = 0 ∨ n < f.ref ∨ 0 < f.pin) → t.kvFrameOf part h = some { f with ref := f.ref - n }) ∧
        (0 < n → f.ref ≤ n → f.pin = 0 → t.kvFrameOf part h = none ∧ ∀ e ∈ (t.pool part).pfx, e.2.handle ≠ h)) ∧
  (∀ (w : Fields) (s : State) a b d f, Runs (.kvlink w) w s → s.me.tx = none → Src 2 w.a 6 w.ext s a s → a.poison = false → Src 3 w.b 6 w.ext s b s →
    b.poison = false → w.d = .g d →
    let part := s.me.part
    let x := s.kvSeq part (a.raw % 65536)
    x.live = true → x.pages.length + 1 ≤ x.cap → x.len % 16 = 0 → s.kvFrameOf part (b.raw % 2 ^ 24) = some f → f.ref < 65535 →
    ∃ t, exec (.kvlink w) s = .next t ∧ t.gReg d.toNat = ⟨0, false⟩ ∧ t.me.pc = nextPc s.me.pc ∧
      t.kvSeq part (a.raw % 65536) = { x with len := x.len + f.fill, pages := x.pages ++ [b.raw % 2 ^ 24] } ∧
      t.kvFrameOf part (b.raw % 2 ^ 24) = some { f with ref := f.ref + 1 }) ∧
  (∀ (w : Fields) (s : State) a d f, Runs (.pin w) w s → s.me.tx = none → Src 2 w.a 6 w.ext s a s → a.poison = false → w.d = .g d →
    s.kvFrameOf s.me.part (a.raw % 2 ^ 24) = some f → f.pin < 65535 → f.st ≠ frEVICTED →
    ∃ t f', exec (.pin w) s = .next t ∧ t.gReg d.toNat = ⟨0, false⟩ ∧ t.me.pc = nextPc s.me.pc ∧
      t.kvFrameOf s.me.part (a.raw % 2 ^ 24) = some f' ∧ f'.pin = f.pin + 1 ∧ f'.ref = f.ref ∧ f'.tokens = f.tokens) ∧
  (∀ (w : Fields) (s : State) a d f, Runs (.unpin w) w s → s.me.tx = none → Src 2 w.a 6 w.ext s a s → a.poison = false → w.d = .g d →
    s.kvFrameOf s.me.part (a.raw % 2 ^ 24) = some f → 0 < f.pin →
    ∃ t, exec (.unpin w) s = .next t ∧ t.gReg d.toNat = ⟨0, false⟩ ∧ t.me.pc = nextPc s.me.pc ∧
      ((0 < f.ref ∨ 1 < f.pin) → t.kvFrameOf s.me.part (a.raw % 2 ^ 24) = some { f with pin := f.pin - 1 }))

/-- R124 to R127, R261, R333: PFXHASH folds sixteen token identifiers into its hash; PFXFIND answers the handle of the entry of that hash
and depth whose frame holds the same tokens and rewrites that entry's AGE, or answers zero, also where the tokens differ, and keeps the
entry; PFXINS enters a full frame at OK. POOLCTL: .seqnew and .seqcap set up a free descriptor; .cow gives the sequence its own copy of a
shared tail, a new frame with REF 1, PIN 0 and the old one's FILL, tokens and filled slots, and lowers the old one's REF; the read
forms write their descriptor to memory.
Where a clause follows the model's choice and no rule: assumption log 24, 26 and 101. -/
def Obligations.PoolAndPrefixEffects : Prop :=
  (∀ (w : Fields) (s : State) x ids p (s1 : State), Runs (.pfxhash w) w s → s.me.tx = none → Src 2 w.a 6 w.ext s x s → x.poison = false →
    Does (readTokens 3 w.b) s (ids, p) s1 →
    exec (.pfxhash w) s = .next (s1.putG w.d (ids.foldl (fun h t => (h * 65539 + t.toNat + 1) % 2147483647) x.raw) p).advance) ∧
  (∀ (w : Fields) (s : State) x y ids (s1 : State) d, Runs (.pfxfind w) w s → s.me.tx = none → Src 2 w.a 6 w.ext s x s → x.poison = false → Src 3 w.b 6 w.ext s y s →
    y.poison = false → Does (readTokens 4 w.c) s (ids, false) s1 → w.d = .g d →
    let part := s1.me.part
    let hit := List.find? (fun (e : Nat × Pfx) => e.2.hash == x.raw && e.2.depth == y.raw % 65536) (s1.pool part).pfx
    (hit = none → ∃ t, exec (.pfxfind w) s = .next t ∧ t.gReg d.toNat = ⟨0, false⟩ ∧ t.me.pc = nextPc s1.me.pc) ∧
    (∀ i e f, hit = some (i, e) → x.raw < 2 ^ 31 → y.raw % 65536 ≠ 0 → s1.kvFrameOf part e.handle = some f → f.tokens = ids →
      ∃ t, exec (.pfxfind w) s = .next t ∧ t.gReg d.toNat = ⟨BitVec.ofNat 32 e.handle, false⟩ ∧ t.me.pc = nextPc s1.me.pc ∧
        ((s1.pool part).pfx.find? i = some e → (t.pool part).pfx.find? i = some { e with age := s1.poolMs.msOf 164 / 2 ^ 24 % 65536 })) ∧
    (∀ i e f, hit = some (i, e) → s1.kvFrameOf part e.handle = some f → f.tokens ≠ ids →
      ∃ t, exec (.pfxfind w) s = .next t ∧ t.gReg d.toNat = ⟨0, false⟩ ∧ t.me.pc = nextPc s1.me.pc ∧
        (t.pool part).pfx = (s1.pool part).pfx)) ∧
  (∀ (w : Fields) (s : State) x y h d f, Runs (.pfxins w) w s → s.me.tx = none → Src 2 w.a 6 w.ext s x s → x.poison = false → Src 3 w.b 6 w.ext s y s →
    y.poison = false → Src 4 w.c 6 w.ext s h s → h.poison = false → w.d = .g d →
    s.kvFrameOf s.me.part (h.raw % 2 ^ 24) = some f → f.psn = false → 0 < f.ref → f.ref < 65535 → f.fill = 16 → x.raw < 2 ^ 31 - 1 →
    y.raw % 65536 ≠ 0 →
    ∃ t e i, exec (.pfxins w) s = .next t ∧ t.gReg d.toNat = ⟨0, false⟩ ∧ t.me.pc = nextPc s.me.pc ∧
      (t.pool s.me.part).pfx.find? i = some e ∧ e.hash = x.raw ∧ e.depth = y.raw % 65536 ∧ e.handle = h.raw % 2 ^ 24) ∧
  (∀ (w : Fields) (s : State) a c d, Runs (.poolctlSeqnew w) w s → s.me.tx = none → Src 2 w.a 6 w.ext s a s → a.poison = false → Src 3 w.b 6 w.ext s c s →
    c.poison = false → w.d = .g d → (s.kvSeq s.me.part (a.raw % 65536)).live = false → 0 < c.raw → c.raw ≤ 65536 →
    c.raw ≤ s.listRoom s.me.part (a.raw % 65536) →
    ∃ t, exec (.poolctlSeqnew w) s = .next t ∧ t.gReg d.toNat = ⟨0, false⟩ ∧ t.me.pc = nextPc s.me.pc ∧
      (t.kvSeq s.me.part (a.raw % 65536)).live = true ∧ (t.kvSeq s.me.part (a.raw % 65536)).cap = c.raw ∧
      (t.kvSeq s.me.part (a.raw % 65536)).len = 0 ∧ (t.kvSeq s.me.part (a.raw % 65536)).pages = [] ∧
      (t.kvSeq s.me.part (a.raw % 65536)).owner = s.me.cid) ∧
  (∀ (w : Fields) (s : State) a c d, Runs (.poolctlSeqcap w) w s → s.me.tx = none → Src 2 w.a 6 w.ext s a s → a.poison = false → Src 3 w.b 6 w.ext s c s →
    c.poison = false → w.d = .g d → (s.kvSeq s.me.part (a.raw % 65536)).live = false → 0 < c.raw → c.raw ≤ 65536 →
    c.raw ≤ s.listRoom s.me.part (a.raw % 65536) →
    ∃ t, exec (.poolctlSeqcap w) s = .next t ∧ t.gReg d.toNat = ⟨0, false⟩ ∧ t.me.pc = nextPc s.me.pc ∧
      (t.kvSeq s.me.part (a.raw % 65536)).live = false ∧ (t.kvSeq s.me.part (a.raw % 65536)).cap = c.raw) ∧
  (∀ (w : Fields) (s : State) a d f fr h (s3 s4 : State), Runs (.poolctlCow w) w s → 1 ≤ s.me.level → s.me.tx = none → Src 2 w.a 6 w.ext s a s → a.poison = false →
    w.d = .g d →
    let s2 := s.poolMs
    let part := s2.me.part
    let q := a.raw % 65536
    let x := s2.kvSeq part q
    x.live = true → x.pages ≠ [] → s2.kvFrameOf part (x.pages.getLastD 0) = some f → 1 < f.ref → s2.kvAlloc part 65 = (.ok fr, s3) →
    s3.freeHandle part = (h, s4) →
    ∃ t, exec (.poolctlCow w) s = .next t ∧ t.gReg d.toNat = ⟨0, false⟩ ∧ t.me.pc = nextPc s.me.pc ∧
      t.kvSeq part q = { x with pages := x.pages.dropLast ++ [h] } ∧
      (s3.kvFrameOf part h = none →
        let copy : Frame := { ref := 1, owner := s.me.cid, frame := fr, fill := f.fill, tokens := f.tokens, written := true }
        t.kvFrameOf part h = some copy ∧ t.kvFrameOf part (x.pages.getLastD 0) = some { f with ref := f.ref - 1 } ∧
        ∀ src dst, s2.kvBase part f = some src → s2.kvBase part copy = some dst → src ≠ dst → s.mem.wf = true → f.fill ≤ 16 →
          s.mem.isDead src = false → s.mem.isDead dst = false → ∀ kv head slot j, kv < 2 → head < 16 → slot < f.fill → j < 4 →
            t.mem.sector (dst + kv * 32768 + head * 2048 + slot * 128 + 32 * j) =
              s.mem.sector (src + kv * 32768 + head * 2048 + slot * 128 + 32 * j))) ∧
  (∀ mk ∈ ([.poolctlRdframe, .poolctlRdseq, .poolctlRdpfx] : List (Fields → Instr)), ∀ (w : Fields) (s : State) a b ps (s1 : State), Runs (mk w) w s →
    isService s.cur = true → 1 ≤ s.me.level → s.me.tx = none → Src 2 w.a 6 w.ext s a s → a.poison = false → w.b = .g b →
    (s.pair b.toNat).poison = false →
    let va := (s.pair b.toNat).raw
    let part := s.me.part
    let out : Nat × Nat := match mk w with
      | .poolctlRdframe _ => (128, frameDesc (s.kvFrameOf part (a.raw % 2 ^ 24)))
      | .poolctlRdseq _ => (32 + 4 * (s.kvSeq part (a.raw % 65536)).pages.length, seqDesc (s.kvSeq part (a.raw % 65536)))
      | _ => (1024, pfxDesc (s.pool part))
    Does (storePlaces 3 va out.1 false true) s ps s1 → (∀ e ∈ ps, e.2.isSome = true) → ps ≠ [] → s1.me.tx = none →
    exec (mk w) s = .next ((s1.performWrites s1.src (foundOf ps) (splitBytes (out.1 + 1) va out.1 out.2)).poolMs.poolDone.putG w.d 0 false).advance)

/-! ### Fences and chains -/

/-- R138, R139, R269, R334 to R338, R271, R272, R348: FENCE.engine makes later commands of the thread issue after its milestone;
FENCE.fabric goes on when no PUT of the thread is unacknowledged, and FENCE.all is both. CHAPP on a well-formed chain links the
entry (it writes NEXT of the entry at TAIL, TAIL, NEXTSEQ and BOUND), captures the whole of it as a command of the engine or stream that
the chain is bound to, and answers its sequence number; on a descriptor that refuses it (malformed, an engine chain from a service thread, one whose other engine has commands not completed,
a stream not enabled or bound to another chain, 4,096 entries pending) it answers 0. CHWAIT goes on when the word has reached its
bound, and waits for the first write that reaches it otherwise. GSUM of a line that has arrived, or that the fabric
cache serves, reads its element.
Where a clause follows the model's choice and no rule: assumption log 128 and 130. -/
def Obligations.FenceAndChainEffects : Prop :=
  (∀ (w : Fields) (s : State), Runs (.fenceEngine w) w s → s.me.tx = none →
    exec (.fenceEngine w) s = .next (s.modMe fun th => { th with fenceMs := max th.fenceMs (s.msOf s.src) }).advance) ∧
  (∀ (w : Fields) (s : State), Runs (.fenceFabric w) w s → s.me.tx = none → s.putsPending s.cur = false → exec (.fenceFabric w) s = .next s.advance) ∧
  (∀ (w : Fields) (s : State), Runs (.fenceFabric w) w s → s.me.tx = none → s.putsPending s.cur = true →
    exec (.fenceFabric w) s = .next (s.modMe fun th => { th with wait := .fence })) ∧
  (∀ (w : Fields) (s : State), Runs (.fenceAll w) w s → s.me.tx = none → s.putsPending s.cur = false →
    exec (.fenceAll w) s = .next (s.modMe fun th => { th with fenceMs := max th.fenceMs (s.msOf s.src) }).advance) ∧
  (∀ (w : Fields) (s : State) b pds (s1 : State) pe entry (s1' : State) dsecs (s2 : State), Runs (.chapp w) w s → s.me.tx = none → (formM w s).poison = false →
    w.b = .g b → (s.pair b.toNat).poison = false → (formM w s).raw % 64 = 0 → (s.pair b.toNat).raw % 64 = 0 →
    let va := (formM w s).raw
    let eb := (s.pair b.toNat).raw
    Does (storeChecks s.who 2 va 64 false true) s pds s1 → Does (loadWithin 3 eb 64) s1 (pe, entry) s1' →
    let pd := foundOf pds
    Does (readSlice pd va 64) s1' dsecs s2 → dsecs.any SectorLit.poison = false →
    let tag := tagOf va s2.me.asid s2.me.part
    let d := parseDesc (bytesOf dsecs va 64)
    let mine := 32 + tidCore s2.cur
    let engine := if d.kind = 0 then mine else 161
    let elsewhere := d.kind = 0 ∧ 32 ≤ d.bound ∧ d.bound < 64 ∧ d.bound ≠ mine
    let x := (s2.part s2.me.part).streams.get {} d.stream
    let streamOk := x.en = true ∧ (x.chain = none ∨ x.chain = some (tag, va))
    -- the entry is refused: the descriptor has been read, and D receives 0
    let refused (at_ : State) : Prop := ∃ t0 t, Does (raceNote tag (presentSecs pds va 64) false (leaseLines pd)) at_ () t0 ∧
      exec (.chapp w) s = .next t ∧ t.mem = t0.mem ∧ t.cmds = t0.cmds ∧ t.chains = t0.chains ∧ t.me.pc = nextPc t0.me.pc ∧
      ∀ r, w.d = .g r → (t.pair r.toNat).raw = 0 ∧ (t.pair r.toNat).poison = false
    (d.malformed = true ∨ (d.kind = 0 ∧ isService s2.cur = true) → refused s2) ∧
    (d.malformed = false → d.kind = 1 → ¬ streamOk → refused s2) ∧
    (∀ pw n s3, d.malformed = false → isService s2.cur = false → elsewhere → Does (readSeqWord d.seqWord) s2 (pw, n) s3 → n + 1 < d.nextSeq →
      refused s3) ∧
    (∀ (s3 : State) pw n (s4 : State), d.malformed = false →
      (d.kind = 0 ∧ isService s2.cur = false ∧ ¬ elsewhere ∧ s3 = s2 ∨
        d.kind = 0 ∧ isService s2.cur = false ∧ elsewhere ∧ (∃ pw0 n0, Does (readSeqWord d.seqWord) s2 (pw0, n0) s3 ∧ d.nextSeq ≤ n0 + 1) ∨
        d.kind = 1 ∧ streamOk ∧ s3 = s2) →
      Does (readSeqWord d.seqWord) s3 (pw, n) s4 →
      (n + 4097 ≤ d.nextSeq → refused s4) ∧
      (∀ pt (s5 s6 : State), d.nextSeq < n + 4097 →
        (d.tail = 0 ∧ pt = [] ∧ s5 = s4 ∨ d.tail ≠ 0 ∧ Does (storePlaces 0 (d.tail + 8) 8 false true) s4 pt s5) →
        Does (storeClaim s.who va 64 true pds) s5 () s6 →
        -- NEXT of the entry at TAIL; BOUND within CTL, TAIL, and NEXTSEQ of the descriptor
        let next : List SecWrite := if d.tail = 0 then [] else splitBytes 9 (d.tail + 8) 8 eb
        let desc : SecWrite :=
          { va, n := 24, val := (d.ctl &&& 0xFFFF00FFFFFFFFFF#64).toNat + 2 ^ 40 * engine + 2 ^ 64 * eb + 2 ^ 128 * ((d.nextSeq + 1) % 2 ^ 64) }
        let e := bytesOf entry eb 64
        ∃ t, exec (.chapp w) s = .next t ∧ (s6.me.wait = .ready → t.me.pc = nextPc s6.me.pc) ∧
          t.mem = (s6.performWrites s6.src (pd ++ foundOf pt) (next ++ [desc])).mem ∧
          (t.chainOf tag va).map ChainRec.engine = some engine ∧
          (∀ r, w.d = .g r → (t.pair r.toNat).raw = d.nextSeq % 2 ^ 64 ∧ (t.pair r.toNat).poison = false) ∧
          ((s6.chainOf tag va).any ChainRec.broken = true → s6.lastSeq tag va < d.nextSeq → t.cmds = s6.cmds) ∧
          ((s6.chainOf tag va).any ChainRec.broken = false ∨ d.nextSeq ≤ s6.lastSeq tag va → t.nextCmd = s6.nextCmd + 1 ∧
            ∃ c, t.cmds.find? s6.nextCmd = some c ∧ c.seq = d.nextSeq ∧ c.chain = va ∧ c.seqWord = BitVec.ofNat 64 d.seqWord ∧
              c.engine = engine ∧ c.stream = d.stream ∧ c.phase = .queued ∧ c.tid = s2.cur ∧ c.part = s2.me.part ∧ c.cid = s6.me.cid ∧
              c.after = s6.me.fenceMs ∧ c.poison = entry.any SectorLit.poison ∧
              c.op = BitVec.ofNat 8 e ∧ c.flags = BitVec.ofNat 8 (e / 2 ^ 8) ∧ c.tag = BitVec.ofNat 16 (e / 2 ^ 16) ∧
              c.resv = BitVec.ofNat 32 (e / 2 ^ 32) ∧ c.src = BitVec.ofNat 64 (e / 2 ^ 128) ∧ c.dst = BitVec.ofNat 64 (e / 2 ^ 192) ∧
              c.len = BitVec.ofNat 64 (e / 2 ^ 256) ∧ c.aux = BitVec.ofNat 64 (e / 2 ^ 320) ∧ c.aux2 = BitVec.ofNat 64 (e / 2 ^ 384) ∧
              c.record = BitVec.ofNat 64 (e / 2 ^ 448))))) ∧
  (∀ (w : Fields) (s : State) b p (s1 : State), Runs (.chwait w) w s → s.me.tx = none → (formM w s).poison = false → Does (readPair w.b) s b s →
    b.poison = false →
    let va := (formM w s).raw
    va % 8 = 0 → s.me.eaten = false → Direct s va 8 .load p s1 → noL1 s1 p → (∀ x, (s.translate s.who va).1 = .ok x → x.home < 2) →
    s1.mem.pois (p.phys + va / 32 * 32 % 128) = false → p.phys % 128 = 0 →
    (b.raw ≤ s1.mem.readN (p.phys + va % 128) 8 →
      ∃ t, exec (.chwait w) s = .next t ∧ t.me.pc = nextPc s.me.pc ∧ t.me.wait = .ready ∧ t.mem = s1.mem) ∧
    (s1.mem.readN (p.phys + va % 128) 8 < b.raw →
      ∃ t, exec (.chwait w) s = .next t ∧ t.me.pc = s.me.pc ∧ t.me.wait = .counter ∧ t.mem = s1.mem ∧
        t.waiters = s1.waiters ++ [{ tid := s.cur, phys := p.phys + va % 128, va, bound := BitVec.ofNat 64 b.raw, atLeast := true }])) ∧
  (∀ (w : Fields) (s : State) tr ps (s1 s2 : State) line, Runs (.gsum w) w s → s.me.tx = none → (formM w s).poison = false →
    let va := (formM w s).raw
    let n := typeWidth w.ty / 8
    va % n = 0 → Does (checkRange 2 va n) s () s → s.treeAt s.me.part (s.me.asid % 2048) va = some tr → Does (checkLocks 2 va n false) s () s →
    Does (locate 2 va n .load false) s ps s1 → (∀ e ∈ foundOf ps, e.2.home = 0) →
    let key := gsumKey s.me.part tr.id.toNat (va / 128 * 16 + w.ty.toNat)
    (s.me.reply = none ∧ s1.heldRemote key = (some line, s2)) ∨ (s.me.reply = some { key, data := line, flash := false } ∧ s2 = s1) →
    let secs := (line.drop (va % 128 / 32)).take 1
    exec (.gsum w) s = .next (s2.putDst w.d w.ty (srcOf w.ty (bytesOf secs va n)) (secs.any SectorLit.poison)).advance)

/-! ### System instructions -/

/-- R317, R319 to R325, R328 to R331, R446: CSRR reads and CSRW writes a register of the thread or of its partition; a partition operand below monitor
level traps PRIVILEGE; MCALL posts its 32-byte record and waits for the reply; MRET answers the caller it names; ERET returns to EXC_EPC, at user level in the full profile and
at PLVL on the service die; SAVECTX stores the thread's image and LOADCTX takes one; INVAL.line, .xlt and .frame remove what they name;
HALT halts, or goes on while an IPI is pending; IPI sets PEND.
Where a clause follows the model's choice and no rule: assumption log 30, 31, 33, 36 and 37. -/
def Obligations.SystemEffects : Prop :=
  (∀ (w : Fields) (s : State) i q, Runs (.csrr w) w s → s.me.tx = none → Does (csrCheck (w.ext.toNat % 4096) false) s () s →
    Does (csrIndex 2 w.a) s i s → Does (csrIndex 3 w.b) s q s → s.me.level = 2 ∨ q = 0 →
    let part := if s.me.level = 2 then q else s.me.part
    let n := w.ext.toNat % 4096
    let r := s.syncReader
    (csrOwn n = true → exec (.csrr w) s = .next (s.putPair w.d (s.csrOwnRead n) false).advance) ∧
    (csrOwn n = false → exec (.csrr w) s = .next (r.putPair w.d
      (if (r.part part).present then (if csrHasIndex n then r.csrIndexed part (s.me.level == 2) n i else r.csrPart part n) else 0)
      false).advance)) ∧
  (∀ (w : Fields) (s : State), s.me.tx = none → s.me.level ≠ 2 →
    (Runs (.csrr w) w s → Does (csrCheck (w.ext.toNat % 4096) false) s () s → (s.srcVal w.b 6 0).poison = false → (s.srcVal w.b 6 0).raw ≠ 0 →
      exec (.csrr w) s = .next (s.takeTrap 0x03 0 0)) ∧
    (Runs (.csrw w) w s → Does (csrCheck (w.ext.toNat % 4096) true) s () s → (s.srcVal w.c 6 0).poison = false → (s.srcVal w.c 6 0).raw ≠ 0 →
      exec (.csrw w) s = .next (s.takeTrap 0x03 0 0))) ∧
  (∀ s : State, isService s.cur = false → s.csrOwnRead 0 = s.me.epc.toNat ∧ s.csrOwnRead 1 = s.me.cause.toNat ∧ s.csrOwnRead 2 = s.me.val.toNat) ∧
  (∀ (w : Fields) (s : State) n i q, Runs (.csrw w) w s → s.me.tx = none → Does (csrCheck (w.ext.toNat % 4096) true) s () s → w.a = .g n →
    Does (csrIndex 3 w.b) s i s → Does (csrIndex 4 w.c) s q s → s.me.level = 2 ∨ q = 0 →
    let part := if s.me.level = 2 then q else s.me.part
    let v := BitVec.ofNat 64 (s.pair n.toNat).raw
    let r := w.ext.toNat % 4096
    (csrOwn r = true → exec (.csrw w) s = .next (s.csrwOwn r v).advance) ∧
    (csrOwn r = false → ((csrScalar r).bind CsrLevels.write).isSome = true → (s.part part).present = true →
      exec (.csrw w) s = .next (s.syncBlocks.csrwBlock part r i (s.me.level == 2) v).advance) ∧
    (csrOwn r = false → ((csrScalar r).bind CsrLevels.write).isSome = false ∨ (s.part part).present = false →
      exec (.csrw w) s = .next s.advance)) ∧
  (∀ (s : State) v, (s.csrwOwn 0 v).me.epc = v &&& 0x0FFFFFFFFFFFFFC7 ∧ (s.csrwOwn 2 v).me.val = v) ∧
  (∀ (w : Fields) (s : State) a b ps (s1 : State), Runs (.mcall w) w s → (isService s.cur = true → s.me.level < 2) → s.me.tx = none → w.a = .g a →
    (s.pair a.toNat).poison = false → w.b = .g b → (s.pair b.toNat).poison = false →
    let kernel := isService s.cur && s.me.level == 1
    let ring := if kernel then (s.part s.me.part).mc1 else (s.part s.me.part).mc0
    ring.full = false → s.blockPlaces (blockWho s.src s.me.part) .store (ring.addr 32) 32 = (.ok ps, s1) →
    ∃ t, exec (.mcall w) s = .next t ∧ t.me.wait = .call s.nextCall w.d.gNum ∧ t.nextCall = s.nextCall + 1 ∧
      (if kernel then (t.part s.me.part).mc1.tail = (s1.part s.me.part).mc1.tail + 1
       else (t.part s.me.part).mc0.tail = (s1.part s.me.part).mc0.tail + 1) ∧
      -- the record: CALL, CID, WHO, ARG0, ARG1 and TAG
      let group : Nat := match s.myGroup with
        | some (_, g) => g.cgn
        | none => 0
      let who := s.src + 2 ^ 8 * group + (if isService s.cur then 0 else 2 ^ 18 * tidLane s.cur + 2 ^ 23 * tidSlot s.cur) + 2 ^ 26 * s.me.level
      t.mem = (s1.performWrites s.src ps (splitBytes 33 (ring.addr 32) 32 (w.ext.toNat % 2 ^ 16 + 2 ^ 16 * (s.me.cid % 2 ^ 16 + 2 ^ 16 *
        (who % 2 ^ 32 + 2 ^ 32 * ((s.pair a.toNat).raw % 2 ^ 64 + 2 ^ 64 * ((s.pair b.toNat).raw % 2 ^ 64 + 2 ^ 64 * (s.nextCall % 2 ^ 64)))))))).mem) ∧
  (∀ (w : Fields) (s : State) a b done (s1 : State), Runs (.mret w) w s → 1 ≤ s.me.level → s.me.tx = none → w.a = .g a → (s.pair a.toNat).poison = false →
    w.b = .g b → (s.pair b.toNat).poison = false →
    s.reply (s.pair a.toNat).raw (s.pair b.toNat).raw (fun t th => s.me.level == 2 || (th.part == s.me.part && onRing0 t th)) = (done, s1) →
    exec (.mret w) s = .next (s1.putG w.d (if done then 0 else 1) false).advance) ∧
  (∀ (w : Fields) (s : State), Runs (.eret w) w s → isService s.cur = false → 1 ≤ s.me.level → s.me.tx = none → s.refusesPc s.cur s.me.epc = false →
    ∃ t, exec (.eret w) s = .next t ∧ t.me.pc = s.me.epc ∧ t.me.level = 0 ∧ t.me.wait = .ready ∧ t.me.cause = s.me.cause ∧
      t.me.val = s.me.val ∧ t.me.epc = s.me.epc ∧ RegsKept s t ∧ t.mem = s.mem) ∧
  (∀ (w : Fields) (s : State), Runs (.eret w) w s → isService s.cur = true → 1 ≤ s.me.level → s.me.tx = none → s.me.plvl ≠ 3 →
    (s.me.plvl ≠ 2 ∨ isOryx s.cur = true) → s.refusesPc s.cur s.me.epc = false →
    ∃ t, exec (.eret w) s = .next t ∧ t.me.pc = s.me.epc ∧ t.me.level = s.me.plvl ∧ t.me.plvl = 3 ∧ t.me.wait = .ready ∧
      RegsKept s t ∧ t.mem = s.mem) ∧
  (∀ (w : Fields) (s : State), Runs (.eret w) w s → isService s.cur = true → 1 ≤ s.me.level → s.me.tx = none →
    s.me.plvl = 3 ∨ (s.me.plvl = 2 ∧ isOryx s.cur = false) → exec (.eret w) s = .next (s.takeTrap 0x01 0 (lowWord (.eret w)))) ∧
  (∀ mk ∈ ([.eret, .savectx, .loadctx, .mret, .halt, .ipi] : List (Fields → Instr)), ∀ (w : Fields) (s : State), Runs (mk w) w s → s.me.level = 0 →
    exec (mk w) s = .next (s.takeTrap 0x03 0 0)) ∧
  (∀ (w : Fields) (s : State) ps (s1 : State), Runs (.savectx w) w s → 1 ≤ s.me.level → s.me.tx = none → (formM w s).poison = false → (formM w s).raw % 256 = 0 →
    Does (storePlacesIf 2 (formM w s).raw 2048 false true (needSides 2 (formM w s).raw)) s ps s1 → ps ≠ [] →
    (∀ e ∈ ps, e.2.isSome = true) → s1.me.tx = none →
    let image := threadImage { pc := s1.me.epc.toNat, level := 0, wait := 0, arg := 0, passed := s1.me.passed } s1.me
    exec (.savectx w) s = .next (s1.performWrites s1.src (foundOf ps) (List.zipWith (fun i x =>
      { va := (formM w s).raw + 32 * i, n := 32, val := x.data.toNat, side := some x.side, poison := some x.poison }) (List.range 64) image)).advance) ∧
  (∀ (w : Fields) (s : State) l (s1 : State), Runs (.loadctx w) w s → 1 ≤ s.me.level → s.me.tx = none → (formM w s).poison = false → (formM w s).raw % 256 = 0 →
    Does (loadSectors 2 (formM w s).raw 2048) s l s1 → (l.take 4).any SectorLit.poison = false →
    (imageReserved (imageNat l) = false → imageTagBad (imageNat l) = false → (imageNat l).testBit 127 = false →
      exec (.loadctx w) s = .next (((s1.modMe fun th => { th.fromImage l with
        epc := BitVec.ofNat 64 (imageBytes (imageNat l) 0 8) &&& 0x0FFFFFFFFFFFFFC7, h := if isService s1.cur then [] else (th.fromImage l).h }).putG w.d 0 false).advance)) ∧
    (imageReserved (imageNat l) = true ∨ imageTagBad (imageNat l) = true ∨ (imageNat l).testBit 127 = true → exec (.loadctx w) s = .next (s1.putG w.d 1 false).advance)) ∧
  (∀ (w : Fields) (s : State) n, Runs (.invalLine w) w s → s.me.tx = none → (formM w s).poison = false → w.b = .g n → (s.pair n.toNat).poison = false →
    (s.pair n.toNat).raw ≠ 0 → (formM w s).raw + (s.pair n.toNat).raw ≤ 2 ^ 60 →
    exec (.invalLine w) s = .next (s.invalLines s.me.asid s.me.part (formM w s).raw (s.pair n.toNat).raw).advance) ∧
  (∀ (s : State) asid part va n k, s.lines.find? k = none ∨ keyIn asid part va n 128 53 k = true →
    (s.invalLines asid part va n).lines.find? k = none) ∧
  (∀ (w : Fields) (s : State) n c, Runs (.invalXlt w) w s → isService s.cur = true → 1 ≤ s.me.level → s.me.tx = none → (formM w s).poison = false →
    w.b = .g n → (s.pair n.toNat).poison = false → Src 4 w.c 6 0 s c s → c.poison = false →
    let lo := (formM w s).raw / 65536 * 65536
    let m := (s.pair n.toNat).raw
    m ≠ 0 → lo + m * 65536 ≤ 2 ^ 60 →
    ∃ t, exec (.invalXlt w) s = .next t ∧ t.me.pc = nextPc s.me.pc ∧
      ∀ i, i < m → t.cached (pageKey (tagOf (lo + 65536 * i) (s.me.part * 2048 + c.raw % 2048) s.me.part) (lo + 65536 * i)) = none) ∧
  (∀ (w : Fields) (s : State) n, Runs (.invalFrame w) w s → isService s.cur = true → 1 ≤ s.me.level → s.me.tx = none → (formM w s).poison = false →
    w.b = .g n → (s.pair n.toNat).poison = false →
    ((formM w s).raw < 2 ^ 60 ∨ (s.pair n.toNat).raw = 0 → exec (.invalFrame w) s =
      .next (s.invalFrames s.me.part ((formM w s).raw / 2 ^ 40 % 4) ((formM w s).raw % 2 ^ 36) (s.pair n.toNat).raw).advance) ∧
    (2 ^ 60 ≤ (formM w s).raw → (s.pair n.toNat).raw ≠ 0 → exec (.invalFrame w) s =
      .next (s.takeTrap 0x07 2 (BitVec.ofNat 64 (formM w s).raw)))) ∧
  (∀ (w : Fields) (s : State), Runs (.halt w) w s → 1 ≤ s.me.level → s.me.tx = none →
    (s.me.pend = true → exec (.halt w) s = .next s.advance) ∧
    (s.me.pend = false → exec (.halt w) s =
      .next (s.modMe fun th => { th with pc := nextPc th.pc, wait := .halted, denied := none }))) ∧
  (∀ (w : Fields) (s : State) n, Runs (.ipi w) w s → 1 ≤ s.me.level → s.me.tx = none → Src 2 w.a 6 0 s n s → n.poison = false → n.raw ≤ 192 →
    s.me.level = 2 ∨ (s.part s.me.part).svc = some (n.raw / 2) → (s.thr (32768 + n.raw)).live = true →
    ∃ t, exec (.ipi w) s = .next t ∧ t.me.pc = nextPc s.me.pc ∧ (32768 + n.raw ≠ s.cur → (t.thr (32768 + n.raw)).pend = true))

/-! ### Partitions -/

/-- R332, R352 to R356, R361, R475: each PARTCTL operation, its conditions met, writes status 0 and does what it is for; a partition
number above 31 is status 2, a reserved bit 5, and partition 0 or an absent partition where the operation excludes it 4; each
operation's own refusals of R355, BUSY 1, RANGE 2, NORES 3 and STATE 4, are answered in the order of its row, and a
refused operation changes nothing but D; while the partition is being reset every operation but Start, which is STATE, is BUSY. Start begins the service core at ENTRY with EXC_VEC 0, PLVL 0b11 and g registers zero. R361: the holder of a running turn of a pool that it leaves keeps its compute cores until
the turn ends.
Where a clause follows the model's choice and no rule: assumption log 54, 55, 56, 57, 58, 93, 109, 110 and 119. -/
def Obligations.PartctlEffects : Prop :=
  (∀ (w : Fields) (s : State) a b (s1 : State), CtlBlock (.partctlCreate w) w s a b s1 → Admits 0 a b s1 → (s1.part a).present = false →
    b.svc ≤ 95 → s1.boot.retGcores.getLsbD b.svc = false →
    (∀ e ∈ s1.parts, e.1 ≠ a → e.2.present = true → e.2.svc ≠ some b.svc ∧ e.2.gcores.getLsbD b.svc = false) →
    PartAnswer (.partctlCreate w) w s s1 0 fun t =>
      (t.part a).present = true ∧ (t.part a).svc = some b.svc ∧ (t.part a).cores = 0 ∧ (t.part a).chans = 0 ∧
      (t.part a).queues = 0 ∧ (t.part a).colours = 0 ∧ (t.part a).carve = 0 ∧ (t.part a).res = 0 ∧ (t.part a).nstr = 0 ∧
      (t.part a).astab = 0 ∧ (∀ k ∈ coreTids b.svc, (t.thr k).wait = .stopped) ∧ t.mem = s1.mem) ∧
  (∀ (w : Fields) (s : State) a b (s1 : State), CtlBlock (.partctlDestroy w) w s a b s1 → Admits 1 a b s1 →
    (∀ e ∈ s1.units, e.2.part ≠ a) → (∀ x ∈ s1.saved, x.unit.part ≠ a) →
    (∀ c ∈ s1.cores, ∀ q ∈ c.2.queue, q.cid / 2048 ≠ a) → (∀ e ∈ s1.launches, e.2.part = a → e.2.active = false) →
    (∀ x ∈ (s1.part a).streams, x.2.groups = []) → (s1.part a).trees = [] → s1.callWaits a = false →
    PartAnswer (.partctlDestroy w) w s s1 0 fun t =>
      (t.part a).present = false ∧ (∀ k, (s1.part a).queues.getLsbD k = true → t.queue k = {}) ∧
      (a, (s1.part a).chans, (s1.part a).lruns) ∈ t.clearing ∧
      (∀ u, isService u = true → isOryx u = false → (s1.part a).ownsCore (tidCore u) = true → (t.thr u).wait = .free)) ∧
  (∀ (w : Fields) (s : State) a b (s1 : State), CtlBlock (.partctlReset w) w s a b s1 → Admits 2 a b s1 →
    PartAnswer (.partctlReset w) w s s1 0 fun t =>
      (t.part a).resetting = true ∧
      (∀ u, isService u = true → isOryx u = false → (s1.part a).ownsCore (tidCore u) = true → (s1.thr u).wait ≠ .free →
        (t.thr u).wait = .stopped)) ∧
  (∀ (w : Fields) (s : State) a b (s1 : State), CtlBlock (.partctlCores w) w s a b s1 → Admits 3 a b s1 →
    (∀ e ∈ s1.parts, e.2.present = true → ∀ n, e.2.svc = some n → b.gcores.getLsbD n = false) →
    b.cores &&& s1.boot.retCores = 0 → b.gcores &&& s1.boot.retGcores = 0 →
    (∀ e ∈ s1.parts, e.1 ≠ a → e.2.present = true → e.2.gcores &&& b.gcores = 0) →
    (∀ e ∈ s1.parts, e.1 ≠ a → e.2.present = true →
      (e.2.cores &&& b.cores = 0 ∨ (b.pooled = true ∧ e.2.pooled = true ∧ e.2.cores = b.cores)) ∧
      ∀ set inPool, e.2.leaving = some (set, inPool) → set &&& b.cores = 0 ∨ (b.pooled = true ∧ inPool = true ∧ set = b.cores)) →
    s1.unitsHeld a ((s1.part a).cores &&& ~~~b.cores) = false →
    let pooled := b.pooled && b.cores != 0
    let p := s1.part a
    -- a pool that it leaves or joins has a turn that runs
    let later := !(p.pooled && pooled && p.cores == b.cores) && ((p.pooled && s1.turnRuns p.cores) || (pooled && s1.turnRuns b.cores))
    PartAnswer (.partctlCores w) w s s1 0 fun t =>
      (t.part a).gcores = b.gcores ∧ t.mem = s1.mem ∧
      (later = false → (t.part a).cores = b.cores ∧ (t.part a).pooled = pooled ∧ (t.part a).leaving = none) ∧
      (later = true → (t.part a).cores = (s1.part a).cores ∧ (t.part a).pooled = (s1.part a).pooled ∧
        (t.part a).leaving = some (b.cores, pooled))) ∧
  (∀ (w : Fields) (s : State) a b (s1 : State), CtlBlock (.partctlChan w) w s a b s1 → Admits 4 a b s1 →
    b.chan &&& s1.boot.retChans = 0 → (∀ e ∈ s1.parts, e.1 ≠ a → e.2.present = true → e.2.chans &&& b.chan = 0) →
    (∀ e ∈ s1.clearing, e.2.1 &&& b.chan = 0) →
    (∀ k ∈ bitsOf ((s1.part a).chans &&& ~~~b.chan), s1.channelInUse a k = false) →
    PartAnswer (.partctlChan w) w s s1 0 fun t => (t.part a).chans = b.chan ∧ t.mem = s1.mem) ∧
  (∀ (w : Fields) (s : State) a b (s1 : State), CtlBlock (.partctlQueues w) w s a b s1 → Admits 5 a b s1 →
    (∀ e ∈ s1.parts, e.1 ≠ a → e.2.present = true → e.2.queues &&& b.queues = 0) →
    (∀ k ∈ bitsOf ((s1.part a).queues &&& ~~~b.queues), (s1.queue k).en = false) →
    PartAnswer (.partctlQueues w) w s s1 0 fun t =>
      (t.part a).queues = b.queues ∧ (∀ k ∈ bitsOf b.queues, (t.queue k).owner = a) ∧
      (∀ k ∈ bitsOf ((s1.part a).queues &&& ~~~b.queues), (t.queue k).owner = 0)) ∧
  (∀ (w : Fields) (s : State) a b (s1 : State), CtlBlock (.partctlColours w) w s a b s1 → Admits 6 a b s1 →
    (b.commons = true → a = 0 → (∀ e ∈ s1.parts, e.2.present = true → e.2.colours &&& b.colours = 0) →
      PartAnswer (.partctlColours w) w s s1 0 fun t => t.cmask = b.colours) ∧
    (b.commons = false → (∀ e ∈ s1.parts, e.1 ≠ a → e.2.present = true → e.2.colours &&& b.colours = 0) →
      s1.cmask &&& b.colours = 0 → PartAnswer (.partctlColours w) w s s1 0 fun t => (t.part a).colours = b.colours)) ∧
  (∀ (w : Fields) (s : State) a b (s1 : State), CtlBlock (.partctlCarve w) w s a b s1 → Admits 7 a b s1 →
    (∀ d, d < 4 → ((bitsOf ((s1.others a).foldl (fun c e => c ||| e.2.carve) 0 ||| b.carve)).filter fun i => i / 24 == d).length ≤ 16) →
    (∀ e ∈ s1.parts, e.1 ≠ a → e.2.present = true → e.2.carve &&& b.carve = 0) →
    ((bitsOf (s1.part a).carve).isPrefixOf (bitsOf b.carve) = true ∨
      ((∀ e ∈ s1.units, e.2.part = a → e.2.carve = true → e.2.groups = []) ∧
        (∀ x ∈ s1.saved, x.unit.part = a → x.unit.carve = false) ∧ ∀ c ∈ s1.cmds, c.2.part = a → c.2.isAppend = false → s1.inCarve c.2 = false)) →
    PartAnswer (.partctlCarve w) w s s1 0 fun t =>
      (t.part a).carve = b.carve ∧
      ∀ i ∈ bitsOf b.carve, (s1.part a).carve.getLsbD i = false → ∀ x, x < 2 ^ 24 →
        t.mem.byte (carveBase + i * 2 ^ 24 + x) = 0) ∧
  (∀ (w : Fields) (s : State) a b (s1 : State) lruns, CtlBlock (.partctlQuota w) w s a b s1 → Admits 8 a b s1 → b.nstr ≤ 16 →
    b.spill ≤ b.lframes → (b.lframes ≤ (s1.part a).lframes → lruns = keepRuns (s1.part a).lruns b.lframes) →
    ((s1.part a).lframes < b.lframes → ∃ more, lruns = (s1.part a).lruns ++ more ∧
      takeRuns (s1.lpddrTaken.length + 2) s1.lpddrTaken (b.lframes - (s1.part a).lframes) = some more) → b.res ≤ (s1.part a).hbmFrames →
    (s1.others a).foldl (fun n e => n + e.2.lpages) b.lpages ≤ s1.flashBound →
    (s1.part a).poolBeyond b.res b.spill = false →
    (∀ x ∈ (s1.part a).streams, x.2.en = true → x.1 < b.nstr ∧ x.2.lpbase + x.2.npages ≤ b.lpages) →
    s1.framesOwned a 0 (s1.part a).res b.res = false →
    (s1.modPart a fun p => { p with lruns }).framesOwned a 1 (s1.part a).spill b.spill = false →
    PartAnswer (.partctlQuota w) w s s1 0 fun t =>
      (t.part a).res = b.res ∧ (t.part a).spill = b.spill ∧ (t.part a).nstr = b.nstr ∧ (t.part a).lpages = b.lpages ∧
      (t.part a).lframes = b.lframes ∧ (t.part a).lruns = lruns ∧ (t.part a).weight = max 1 b.weight ∧ (t.part a).quant = max 1 b.quant ∧ t.mem = s1.mem) ∧
  (∀ (w : Fields) (s : State) a b (s1 : State) c, CtlBlock (.partctlStart w) w s a b s1 → Admits 9 a b s1 → (s1.part a).svc = some c → c ≤ 95 →
    (s1.part a).fatal = false → (∀ k ∈ coreTids c, (s1.thr k).wait = .stopped) → b.astab.getLsbD 0 = true → pcFormOk b.entry = true →
    PartAnswer (.partctlStart w) w s s1 0 fun t =>
      (t.thr (32768 + 2 * c)).wait = .ready ∧ (t.thr (32768 + 2 * c)).pc = b.entry ∧ (t.thr (32768 + 2 * c)).level = 1 ∧
      (t.thr (32768 + 2 * c)).asid = a * 2048 ∧ (t.thr (32768 + 2 * c)).part = a ∧ (t.thr (32768 + 2 * c)).vec = 0 ∧
      (t.thr (32768 + 2 * c)).plvl = 3 ∧ (∀ n, (t.thr (32768 + 2 * c)).g.get {} n = {}) ∧ (t.thr (32768 + 2 * c + 1)).wait = .halted ∧
      (t.thr (32768 + 2 * c + 1)).pc = b.entry ∧ (t.part a).astab = b.astab &&& 0x1FFFFFFFFFF ∧ t.mem = s1.mem) ∧
  -- the refusals of each operation
  (∀ (w : Fields) (s : State) a b (s1 : State), CtlBlock (.partctlCreate w) w s a b s1 → Admits 0 a b s1 →
    let refused := PartRefused (.partctlCreate w) w s s1
    ((s1.part a).present = true → refused 4) ∧
    ((s1.part a).present = false → 95 < b.svc → refused 2) ∧
    ((s1.part a).present = false → b.svc ≤ 95 → s1.boot.retGcores.getLsbD b.svc = true → refused 3) ∧
    ((s1.part a).present = false → b.svc ≤ 95 → s1.boot.retGcores.getLsbD b.svc = false →
      Another s1 a (fun p => p.svc = some b.svc ∨ p.gcores.getLsbD b.svc = true) → refused 1)) ∧
  (∀ (w : Fields) (s : State) a b (s1 : State), CtlBlock (.partctlDestroy w) w s a b s1 → Admits 1 a b s1 →
    ((∃ e ∈ s1.units, e.2.part = a) ∨ (∃ x ∈ s1.saved, x.unit.part = a) ∨ (∃ c ∈ s1.cores, ∃ q ∈ c.2.queue, q.cid / 2048 = a) ∨
      (∃ e ∈ s1.launches, e.2.part = a ∧ e.2.active = true) ∨ (∃ x ∈ (s1.part a).streams, x.2.groups ≠ []) ∨ (s1.part a).trees ≠ [] ∨
      s1.callWaits a = true) → PartRefused (.partctlDestroy w) w s s1 1) ∧
  (∀ (w : Fields) (s : State) a b (s1 : State), CtlBlock (.partctlCores w) w s a b s1 → Admits 3 a b s1 →
    let refused := PartRefused (.partctlCores w) w s s1
    let range : Prop := ∃ e ∈ s1.parts, e.2.present = true ∧ ∃ n, e.2.svc = some n ∧ b.gcores.getLsbD n = true
    let retired : Prop := b.cores &&& s1.boot.retCores ≠ 0 ∨ b.gcores &&& s1.boot.retGcores ≠ 0
    (range → refused 2) ∧ (¬ range → retired → refused 3) ∧
    (¬ range → ¬ retired →
      (Another s1 a fun p => p.gcores &&& b.gcores ≠ 0 ∨
        (p.cores &&& b.cores ≠ 0 ∧ ¬ (b.pooled = true ∧ p.pooled = true ∧ p.cores = b.cores))) ∨
        s1.unitsHeld a ((s1.part a).cores &&& ~~~b.cores) = true → refused 1)) ∧
  (∀ (w : Fields) (s : State) a b (s1 : State), CtlBlock (.partctlChan w) w s a b s1 → Admits 4 a b s1 →
    let refused := PartRefused (.partctlChan w) w s s1
    (b.chan &&& s1.boot.retChans ≠ 0 → refused 3) ∧
    (b.chan &&& s1.boot.retChans = 0 →
      (Another s1 a fun p => p.chans &&& b.chan ≠ 0) ∨ (∃ e ∈ s1.clearing, e.2.1 &&& b.chan ≠ 0) ∨
        (∃ k ∈ bitsOf ((s1.part a).chans &&& ~~~b.chan), s1.channelInUse a k = true) → refused 1)) ∧
  (∀ (w : Fields) (s : State) a b (s1 : State), CtlBlock (.partctlQueues w) w s a b s1 → Admits 5 a b s1 →
    (Another s1 a fun p => p.queues &&& b.queues ≠ 0) ∨ (∃ k ∈ bitsOf ((s1.part a).queues &&& ~~~b.queues), (s1.queue k).en = true) →
    PartRefused (.partctlQueues w) w s s1 1) ∧
  (∀ (w : Fields) (s : State) a b (s1 : State), CtlBlock (.partctlColours w) w s a b s1 → Admits 6 a b s1 →
    let refused := PartRefused (.partctlColours w) w s s1
    let busy : Prop := (Another s1 a fun p => p.colours &&& b.colours ≠ 0) ∨ (b.commons = false ∧ s1.cmask &&& b.colours ≠ 0) ∨
      (b.commons = true ∧ a = 0 ∧ ∃ e ∈ s1.parts, e.2.present = true ∧ e.2.colours &&& b.colours ≠ 0)
    (busy → refused 1) ∧ (¬ busy → b.commons = true → a ≠ 0 → refused 4)) ∧
  (∀ (w : Fields) (s : State) a b (s1 : State), CtlBlock (.partctlCarve w) w s a b s1 → Admits 7 a b s1 →
    let refused := PartRefused (.partctlCarve w) w s s1
    let crowded : Prop := ∃ d, d < 4 ∧
      16 < ((bitsOf ((s1.others a).foldl (fun c e => c ||| e.2.carve) 0 ||| b.carve)).filter fun i => i / 24 == d).length
    (crowded → refused 3) ∧
    (¬ crowded →
      (Another s1 a fun p => p.carve &&& b.carve ≠ 0) ∨
        ((bitsOf (s1.part a).carve).isPrefixOf (bitsOf b.carve) = false ∧
          ((∃ e ∈ s1.units, e.2.part = a ∧ e.2.carve = true ∧ e.2.groups ≠ []) ∨ (∃ x ∈ s1.saved, x.unit.part = a ∧ x.unit.carve = true) ∨
            ∃ c ∈ s1.cmds, c.2.part = a ∧ c.2.isAppend = false ∧ s1.inCarve c.2 = true)) → refused 1)) ∧
  (∀ (w : Fields) (s : State) a b (s1 : State), CtlBlock (.partctlQuota w) w s a b s1 → Admits 8 a b s1 →
    let refused := PartRefused (.partctlQuota w) w s s1
    let p := s1.part a
    let range : Prop := 16 < b.nstr ∨ b.lframes < b.spill
    let more := takeRuns (s1.lpddrTaken.length + 2) s1.lpddrTaken (b.lframes - p.lframes)
    let short : Prop := p.hbmFrames < b.res ∨ s1.flashBound < (s1.others a).foldl (fun n e => n + e.2.lpages) b.lpages ∨
      (p.lframes < b.lframes ∧ more = none)
    (range → refused 2) ∧ (¬ range → short → refused 3) ∧
    (¬ range → ¬ short →
      p.poolBeyond b.res b.spill = true ∨ (∃ x ∈ p.streams, x.2.en = true ∧ (b.nstr ≤ x.1 ∨ b.lpages < x.2.lpbase + x.2.npages)) ∨
        s1.framesOwned a 0 p.res b.res = true ∨
        (∃ lruns, lruns = (if b.lframes ≤ p.lframes then keepRuns p.lruns b.lframes else p.lruns ++ more.getD []) ∧
          (s1.modPart a fun p => { p with lruns }).framesOwned a 1 p.spill b.spill = true) → refused 1)) ∧
  (∀ (w : Fields) (s : State) a b (s1 : State), CtlBlock (.partctlStart w) w s a b s1 → Admits 9 a b s1 →
    let refused := PartRefused (.partctlStart w) w s s1
    ((s1.part a).svc = none ∨ (s1.part a).fatal = true → refused 4) ∧
    ∀ c, (s1.part a).svc = some c →
      ((∃ k ∈ coreTids c, (s1.thr k).wait ≠ .stopped) → refused 4) ∧
      ((s1.part a).fatal = false → (∀ k ∈ coreTids c, (s1.thr k).wait = .stopped) →
        (b.astab.getLsbD 0 = false ∨ pcFormOk b.entry = false) → refused 2)) ∧
  (∀ e ∈ ([(0, .partctlCreate), (1, .partctlDestroy), (2, .partctlReset), (3, .partctlCores), (4, .partctlChan), (5, .partctlQueues),
      (6, .partctlColours), (7, .partctlCarve), (8, .partctlQuota), (9, .partctlStart)] : List (Nat × (Fields → Instr))),
    ∀ (w : Fields) (s : State) a b (s1 : State), CtlBlock (e.2 w) w s a b s1 →
    (32 ≤ a → exec (e.2 w) s = .next (s1.putG w.d 2 false).advance) ∧
    (a < 32 → b.reserved e.1 = true → exec (e.2 w) s = .next (s1.putG w.d 5 false).advance) ∧
    (b.reserved e.1 = false → (a = 0 ∧ (e.1 ≤ 2 ∨ e.1 = 9)) ∨ (a < 32 ∧ e.1 ≠ 0 ∧ (s1.part a).present = false) →
      exec (e.2 w) s = .next (s1.putG w.d 4 false).advance) ∧
    (a < 32 → b.reserved e.1 = false → (e.1 ≤ 2 ∨ e.1 = 9 → a ≠ 0) → (e.1 ≠ 0 → (s1.part a).present = true) → (s1.part a).resetting = true →
      PartRefused (e.2 w) w s s1 (if e.1 = 9 then 4 else 1)))

/-! ### Events: registers, page faults, milestones, debug -/

/-- R55, R56, R110, R111, R129, R132, R146, R156, R159, R410, R426 to R429, R452, R463: what each write that a block acts on, each
resolution of a page fault, each posting of a fault record, each synchronisation of milestones and each debug command leaves,
in a machine with power.
Where a clause follows the model's choice and no rule: assumption log 39, 40, 53, 82 and 86. -/
def Obligations.RegisterAndFaultEvents : Prop :=
  (∀ (s : State) k v, s.powered = true →
    let q := s.queue k
    let n := v.toNat / 2 ^ 16 % 32
    let size := if q.en then q.size else if 4 ≤ n ∧ n ≤ 16 then n else 4
    Answers (.queueEnableWrite k v) s fun t =>
      (t.queue k).size = size ∧ (t.queue k).head = q.head ∧ (t.queue k).tail = q.tail ∧ (∀ j, j ≠ k → t.queue j = s.queue j) ∧
      (v.getLsbD 0 = false → (t.queue k).en = false ∧ (t.queue k).valid = false) ∧
      (v.getLsbD 0 = true → q.en = true ∨ (q.tail - q.head).toNat ≤ 2 ^ size → (t.queue k).en = true ∧ (t.queue k).err = 0) ∧
      (v.getLsbD 0 = true → q.en = false → 2 ^ size < (q.tail - q.head).toNat → (t.queue k).en = false ∧ (t.queue k).err = 1)) ∧
  (∀ (s : State) k v, s.powered = true →
    let q := s.queue k
    let past := q.en && decide (2 ^ q.size < (v.extractLsb' 0 32 - q.head).toNat)
    Answers (.queueTailWrite k v) s fun t =>
      (t.queue k).tail = v.extractLsb' 0 32 ∧ (t.queue k).head = q.head ∧ (t.queue k).en = (q.en && !past) ∧
      (t.queue k).err = (if past then 1 else q.err) ∧ ∀ j, j ≠ k → t.queue j = s.queue j) ∧
  -- the agent walks again: the page is present, or a frame that may not be named, or still absent
  (∀ (s : State) part space page f r (s1 : State), s.powered = true → s.faultNamed part space page = some f →
    s.walkPage f.who (f.page * 65536) = (r, s1) → (r = .denied ∨ ∃ x, r = .ok x ∧ x.home ≠ 2) →
    let key := pageKey f.tag (f.page * 65536)
    (∀ e ∈ s1.log, e.pageAt ≠ key) → (∀ d ∈ s1.due, pageKey (tagOf d.va.toNat d.asid d.part) d.va.toNat ≠ key) →
    Answers (.faultResolveMapped part space page) s fun t =>
      f ∉ t.faults ∧ (∀ u keys, (s1.thr u).wait = .page keys → key ∈ keys → (t.thr u).wait = .ready ∧ (t.thr u).pc = (s1.thr u).pc) ∧
      (∀ c ∈ t.cmds, c.2.waiting ≠ some key) ∧ t.mem = s1.mem) ∧
  (∀ (s : State) part space page f r (s1 : State), s.powered = true → s.faultNamed part space page = some f →
    s.walkPage f.who (f.page * 65536) = (.absent r, s1) → f ∈ s1.faults →
    Answers (.faultResolveMapped part space page) s fun t =>
      (∃ g ∈ t.faults, g.tag = f.tag ∧ g.page = f.page ∧ g.posted = false) ∧ t.threads = s1.threads ∧ t.log = s1.log ∧ t.mem = s1.mem) ∧
  (∀ (s : State) part space page f, s.powered = true → s.faultNamed part space page = some f →
    let key := pageKey f.tag (f.page * 65536)
    (∀ e ∈ s.log, e.pageAt ≠ key) → (∀ c ∈ s.cmds, c.2.waiting ≠ some key) →
    Answers (.faultResolveDenied part space page) s fun t =>
      f ∉ t.faults ∧ (∀ u keys, (s.thr u).wait = .page keys → key ∈ keys → (t.thr u).wait = .ready ∧ (t.thr u).denied = some key) ∧
      (∀ d ∈ t.due, pageKey (tagOf d.va.toNat d.asid d.part) d.va.toNat ≠ key) ∧ t.mem = s.mem) ∧
  (∀ (s : State) part, s.powered = true →
    Answers (.rdetClear part) s fun t => (∀ e ∈ t.shadow, e.2.part ≠ part) ∧ (∀ e ∈ s.shadow, e.2.part ≠ part → e ∈ t.shadow) ∧
      t.parts = s.parts ∧ t.mem = s.mem) ∧
  (∀ (s : State) part, s.powered = true → (s.part part).rdetEn = false →
    Answers (.rdetEnable part) s fun t => (t.part part).rdetEn = true ∧ ∀ e ∈ t.shadow, e.2.part ≠ part) ∧
  (∀ (s : State) part, s.powered = true →
    Answers (.fwstatClear part) s fun t => (t.part part).fwCount = 0 ∧ (t.part part).fwMax = 0 ∧ (∀ j, j ≠ part → t.part j = s.part j)) ∧
  (∀ (s : State) part, s.powered = true →
    Answers (.errCcntClear part) s fun t => (t.part part).ccnt = 0 ∧ (∀ j, j ≠ part → t.part j = s.part j)) ∧
  (∀ (s : State) part, s.powered = true →
    Answers (.slstatClear part) s fun t => (t.part part).slWaits = 0 ∧ (t.part part).slPeak = 0 ∧ t.log = s.log ∧
      (∀ j, j ≠ part → t.part j = s.part j)) ∧
  (∀ (s : State) part n, s.powered = true → (s.stream part n).en = false → n < (s.part part).nstr →
    let x := s.stream part n
    1 ≤ x.npages → x.lpbase + x.npages ≤ (s.part part).lpages → x.base.toNat + x.npages * 65536 ≤ carveWindow →
    (∀ e ∈ (s.part part).streams, e.1 ≠ n → e.2.en = true →
      e.2.lpbase + e.2.npages ≤ x.lpbase ∨ x.lpbase + x.npages ≤ e.2.lpbase) →
    Answers (.streamEnable part n) s fun t => t.stream part n = { x with en := true }) ∧
  (∀ (s : State) part n, s.powered = true → (s.stream part n).en = true → (s.stream part n).groups = [] →
    Answers (.streamDisable part n) s fun t => (t.stream part n).en = false ∧ (t.stream part n).chain = none ∧
      (t.stream part n).wptr = (s.stream part n).wptr) ∧
  (∀ (s : State) part n, s.powered = true → (s.stream part n).groups ≠ [] →
    Answers (.streamDisable part n) s fun t => t = s) ∧
  (∀ (s : State) i f (s1 : State), s.powered = true → s.faults[i]? = some f → f.posted = false →
    s.postRing (agentOf f.va) f.part Part.fq (fun p r => { p with fq := r }) 32 f.bytes = (.done, s1) →
    Answers (.faultRecordPost i) s fun t =>
      (∀ g ∈ t.faults, g ≠ f) ∧ (t.part f.part).fq.tail = (s1.part f.part).fq.tail ∧ t.mem = s1.mem) ∧
  (∀ (s : State) i f, s.powered = true → s.faults[i]? = some f → (s.part f.part).fq.full = true →
    Answers (.faultRecordPost i) s fun t => t = s) ∧
  (∀ (s : State), s.powered = true →
    Answers .milestoneSync s fun t => (∀ k, k ≤ 170 → t.msOf k = max (s.msOf k) s.msSync) ∧ (∀ k, s.msOf k ≤ t.msOf k) ∧
      (∀ e ∈ s.ms, e.2 ≤ t.msSync)) ∧
  (∀ (s : State) k, s.powered = true → k ≤ 170 →
    Answers (.milestoneAdvance k) s fun t => t.msOf k = s.msOf k + 1 ∧ ∀ j, j ≠ k → t.msOf j = s.msOf j) ∧
  (∀ (s : State) part ctx, s.powered = true → s.liveCtx part ctx = true →
    (s.part part).dbgState = 0 → s.dbgFits part ctx = true →
    Answers (.dbgHalt part ctx) s fun t =>
      (t.part part).dbgState = 1 ∧ (t.part part).dbgResult = 0 ∧ (t.part part).dbgCtx = ctx ∧
      (∃ l, t.launches.find? (part * 2048 + ctx) = some l ∧ l.halted = true) ∧
      (∃ r ∈ t.stops, r.part = part ∧ r.has .debug = true) ∧ t.mem = s.mem) ∧
  (∀ (s : State) part ctx, s.powered = true → s.liveCtx part ctx = true → (s.part part).dbgState = 2 →
    (s.part part).dbgCtx = ctx →
    Answers (.dbgResume part ctx) s (fun t =>
      (t.part part).dbgResult = 0 ∧ ((t.part part).dbgState = 3 ∨ (t.part part).dbgState = 0) ∧
      (∃ l, t.launches.find? (part * 2048 + ctx) = some l ∧ l.halted = false) ∧ t.saved = s.saved) ∧
    Answers (.dbgStep part ctx) s fun t =>
      (t.part part).dbgResult = 0 ∧ (t.part part).dbgState = 3 ∧
      (∀ x ∈ t.saved, x.unit.cid = part * 2048 + ctx → x.unit.stepping = true) ∧ t.launches = s.launches) ∧
  (∀ mk ∈ ([.dbgHalt, .dbgResume, .dbgStep] : List (Nat → Nat → Instr)), ∀ (s : State) part ctx, s.powered = true →
    s.liveCtx part ctx = false →
    Answers (mk part ctx) s fun t => (t.part part).dbgResult = dbgNOCTX ∧ (t.part part).dbgState = (s.part part).dbgState ∧
      t.launches = s.launches ∧ t.saved = s.saved) ∧
  (∀ mk ∈ ([.dbgResume, .dbgStep] : List (Nat → Nat → Instr)), ∀ (s : State) part ctx, s.powered = true → s.liveCtx part ctx = true →
    (s.part part).dbgState ≠ 2 ∨ (s.part part).dbgCtx ≠ ctx →
    Answers (mk part ctx) s fun t => (t.part part).dbgResult = dbgSTATE ∧ (t.part part).dbgState = (s.part part).dbgState ∧
      t.launches = s.launches ∧ t.saved = s.saved) ∧
  (∀ (s : State) part ctx, s.powered = true → s.liveCtx part ctx = true → (s.part part).dbgState ≠ 0 →
    Answers (.dbgHalt part ctx) s fun t =>
      (t.part part).dbgResult = (if (s.part part).dbgCtx = ctx then dbgSTATE else dbgBUSY) ∧
      (t.part part).dbgState = (s.part part).dbgState ∧ t.launches = s.launches ∧ t.saved = s.saved) ∧
  (∀ (s : State) part ctx, s.powered = true → s.liveCtx part ctx = true → (s.part part).dbgState = 0 → s.dbgFits part ctx = false →
    Answers (.dbgHalt part ctx) s fun t => (t.part part).dbgResult = dbgSPACE ∧ (t.part part).dbgState = 0 ∧
      t.launches = s.launches ∧ t.saved = s.saved)

/-! ### Events: issue and the scheduler -/

/-- R33, R35, R36: ISSUE_BUNDLE of a quadrant that may issue latches the words at the leader's PC for the leader and for at most one
ready thread on each other lane, of the leader's PC and context. R56, R63 to R65: a record is validated, or refused and passed; a
validated one is accepted when eligible: LAUNCH_CNT and the status word are written. R67, R68, R70, R71: one unit of the highest priority is dealt; the head of a core's unit
queue is placed at its entry PC, its threads with PARAM in g0:g1 and zero in every other register, its accumulators fresh and its tile
store zero; two cores even their queues. R66: a completed launch writes its status word, lowers its edges and its enclosing counter, and
is gone with its units.
Where a clause follows the model's choice and no rule: assumption log 18, 60, 61, 62, 65, 97 and 98. -/
def Obligations.SchedulerEvents : Prop :=
  (∀ (s : State) core quad left lead x (s1 : State), s.powered = true → s.issuable.contains (core * 4 + quad) = true → quad < 4 →
    s.leader (core * 4 + quad) = some lead → s.thr lead.1 = lead.2 →
    (s.modQuad (core * 4 + quad) fun q => { q with lastIssue := s.now, issued := true }).fetchFor lead.1 = .ready x s1 →
    Answers (.issueBundle core quad left) s fun t =>
      (x.words ≠ [] → ∃ it ∈ t.latch, it.tid = lead.1) ∧
      (∀ it ∈ t.latch, (it.pc, it.word) ∈ x.words ∧ it.badPair = x.bad ∧
        (it.tid = lead.1 ∨ ∃ th, (it.tid, th) ∈ s1.readyIn (core * 4 + quad) ∧ th.pc = lead.2.pc ∧ th.cid = lead.2.cid)) ∧
      (∀ a ∈ t.latch, ∀ b ∈ t.latch, tidLane a.tid = tidLane b.tid → a.tid = b.tid) ∧ t.mem = s1.mem) ∧
  (∀ (s : State) k p (s1 : State) ps x poison (s2 : State), s.powered = true →
    let q := s.queue k
    let w := schedWho q.owner (q.owner * 2048 + q.space)
    q.en = true → q.valid = false → q.hold = none → q.head ≠ q.tail → s.partRuns q.owner = true →
    (s.afterMs 163 q.tailMs).schedLook w (q.slotAddr q.head) .load 0 q.denied = (.ok p, s1) → s1.blockRead w (q.slotAddr q.head) 256 0 = (.ok ps, x, poison, s2) →
    (∀ s3 : State, poison = false → s2.judge q.owner (q.owner * 2048 + q.space) x (parseLaunch x) q.denied = (.good, s3) →
      Answers (.launchValidate k) s fun t => (t.queue k).valid = true ∧ (t.queue k).head_ = parseLaunch x ∧
        (t.queue k).head = (s3.queue k).head ∧ t.mem = s3.mem) ∧
    (∀ (s3 : State) c, poison = false → s2.judge q.owner (q.owner * 2048 + q.space) x (parseLaunch x) q.denied = (.refuse c, s3) →
      Answers (.launchValidate k) s fun t => (t.queue k).valid = false ∧ (t.queue k).head = (s3.queue k).head + 1 ∧
        t.launches = s3.launches ∧
        -- DONE and the code in the status word, or a report where it has no place
        (let status := (parseLaunch x).status
         (status = 0 ∨ status.toNat % 8 ≠ 0 → t.mem = s3.mem ∧ ∃ e ∈ t.errs, e.part = q.owner ∧ e.cls = 0 ∧ e.kind = 0x0E) ∧
         (status ≠ 0 → status.toNat % 8 = 0 → ∀ ps (s4 : State),
           s3.blockPlaces (schedWho q.owner (q.owner * 2048 + q.space) (q.owner * 2048)) .store status.toNat 8 = (.ok ps, s4) →
           t.mem = (s4.performWrites 163 ps (splitBytes 9 status.toNat 8 (BitVec.ofNat 64 (c * 2 ^ 8 + 1)).toNat)).mem))) ∧
    (poison = true → Answers (.launchValidate k) s fun t => (t.queue k).en = false ∧ (t.queue k).err = 2)) ∧
  (∀ (s : State) k, s.powered = true →
    let q := s.queue k
    let asid := q.owner * 2048 + q.space
    q.en = true → q.valid = true → q.hold = none → s.partRuns q.owner = true →
    (∀ s1 : State, s.eligible (schedWho q.owner asid) q.head_ q.denied = (.no, s1) → Answers (.launchAccept k) s fun t => t = s1) ∧
    (∀ c rest, s.eligible (schedWho q.owner asid) q.head_ q.denied = (.yes, s) → s.freeCtx q.owner = c :: rest →
      (∀ a ∈ [q.head_.launchCnt, q.head_.status], a ≠ 0 → ∃ p, s.schedLook (schedWho q.owner asid) a.toNat .store 1 q.denied = (.ok p, s)) →
      Answers (.launchAccept k) s fun t =>
        (t.queue k).head = q.head + 1 ∧ (t.queue k).valid = false ∧
        ∃ l, t.launches.find? (q.owner * 2048 + c + 1) = some l ∧ l.r = q.head_ ∧
          l.part = q.owner ∧ l.asid = asid ∧ l.dealt = 0 ∧ l.done = 0 ∧ l.complete = false ∧
          -- LAUNCH_CNT holds the units of the grid and the reduce unit; the status word holds CID and VAR
          (let r := q.head_
           let cid := q.owner * 2048 + c + 1
           let total := r.gx * r.gy * r.gz + (if r.coll then 1 else 0)
           let status : Dword := BitVec.ofNat 64 (cid * 2 ^ 32 + (if r.nvar = 0 then 0 else l.variant) * 2 ^ 16)
           ∃ s0 : State, s0.mem = s.mem ∧ s0.tlb = s.tlb ∧
             t.mem = (let counted := s0.schedStore q.owner asid cid r.launchCnt (BitVec.ofNat 64 total)
               if r.status = 0 then counted else counted.schedStore q.owner asid cid r.status status).mem))) ∧
  (∀ (s : State) part asid cid va val refusal ps (s1 : State), s.blockPlaces (schedWho part asid cid) .store va.toNat 8 = (.ok ps, s1) →
    (s.schedStore part asid cid va val refusal).mem = (s1.performWrites 163 ps (splitBytes 9 va.toNat 8 val.toNat)).mem ∧
    -- a decrement subtracts 1 from a word that is not zero, and leaves zero
    (let v := match placeOf ps va.toNat with
      | some p => s1.mem.readN (p.phys + va.toNat % 128) 8
      | none => 0
     (v = 0 → (s.subtract part asid cid va).2.mem = s1.mem) ∧
     (v ≠ 0 → (s.subtract part asid cid va).2.mem = (s1.performWrites 163 ps [{ va := va.toNat, n := 8, val := v - 1 }]).mem))) ∧
  (∀ (s : State), s.powered = true → (∃ prio, prio ≤ 7 ∧ ∃ p ∈ s.parts.keys, (s.dealable prio p).isSome = true) →
    Answers .unitDeal s fun t => ∃ prio p cid l n d, prio ≤ 7 ∧ p ∈ s.parts.keys ∧ s.dealable prio p = some (cid, l, n, d) ∧
      (∀ k, prio < k → k ≤ 7 → ∀ j ∈ s.parts.keys, (s.dealable k j).isNone = true) ∧
      (∃ l', t.launches.find? cid = some l' ∧ l'.dealt = n + 1)) ∧
  (∀ (s : State) core part q rest l (s1 : State), s.powered = true → s.servedBy core = some part → s.savedOf part = [] →
    s.queueOf core part = q :: rest → s.launches.find? q.cid = some l →
    (s.modCore core fun c => { c with queue := c.queue.filter (· != q) }).placeLinear core q.cid l q.linear = some s1 →
    Answers (.unitPlace core) s fun t => ∃ u, t.units.find? s.nextUnit = some u ∧ u.core = core ∧ u.linear = q.linear ∧
      u.cid = q.cid ∧ u.part = l.part ∧ u.groups.length = l.r.res.groups ∧ q ∉ (t.coreRec core).queue ∧
      (∀ g ∈ u.groups, g.2.tids.length = l.r.res.threads ∧ ∀ k ∈ g.2.tids, (t.thr k).wait = .ready ∧ (t.thr k).unit = s.nextUnit ∧
        ((t.thr k).pc = if l.r.coll && q.linear == l.r.gridUnits then l.r.reducePc else l.r.entry) ∧
        -- PARAM in g0:g1, every other register zero
        (t.thr k).g.get {} 0 = { val := l.r.param.extractLsb' 0 32 } ∧ (t.thr k).g.get {} 1 = { val := l.r.param.extractLsb' 32 32 } ∧
        (∀ n, 2 ≤ n → (t.thr k).g.get {} n = {}) ∧ (∀ n, (t.thr k).v.get {} n = {}) ∧ (t.thr k).p = 0 ∧ (t.thr k).h = [] ∧ (t.thr k).level = 0 ∧
        (t.thr k).tx = none) ∧
      (∀ g ∈ u.groups, g.2.acc.length = l.r.res.acc ∧ ∀ a ∈ g.2.acc, t.accTile ((core * 4 + g.2.quad) * 8 + a) = []) ∧
      u.tiles = [] ∧ u.bars = [] ∧ u.windows = l.r.windows ∧
      ∀ i, i < l.r.res.tile4k * 128 → t.mem.sector (tileAddr core (u.tileBase * 4096) + 32 * i) = zeroLit) ∧
  (∀ (s : State) part, s.powered = true → (bitsOf (s.part part).cores).length < 2 → Answers (.balanceExchange part) s fun t => t = s) ∧
  (∀ (s : State) part a b, s.powered = true → bitsOf (s.part part).cores = [a, b] → ((s.coreRec a).queue.map QEntry.order).Nodup →
    (s.part part).bal < s.depth a part - s.depth b part →
    let n := min 16 ((s.depth a part - s.depth b part) / 2)
    n ≤ s.queueRoom b →
    Answers (.balanceExchange part) s fun t => t.depth a part = s.depth a part - n ∧ t.depth b part = s.depth b part + n ∧
      t.mem = s.mem ∧ t.launches = s.launches) ∧
  (∀ (s : State) cid l, s.powered = true → s.launches.find? cid = some l → l.complete = true → (∀ d ∈ s.due, d.cid ≠ cid) →
    (∀ a ∈ [l.r.status, l.r.edge0, l.r.edge1, l.r.counter 1, l.r.counter 2, l.r.counter 3], a ≠ 0 →
      ∃ p, s.schedLook (schedWho l.part l.asid cid) a.toNat .store 1 none = (.ok p, s)) →
    Answers (.launchCompletion cid) s fun t => t.launches.find? cid = none ∧ (∀ e ∈ t.units, e.2.cid ≠ cid) ∧
      -- the status word with DONE, CANCELLED and COLLFAIL, then the edges, then the enclosing counter
      (l.closing = none → ∃ s0 : State, s0.mem = s.mem ∧ s0.tlb = s.tlb ∧
        (let status := cid * 2 ^ 32 + (if l.r.nvar = 0 then 0 else l.variant) * 2 ^ 16 + (if l.collfail then 4 else 0) + (if l.cancelled then 2 else 0) + 1
         let a := if l.r.status = 0 then s0 else s0.schedStore l.part l.asid cid l.r.status (BitVec.ofNat 64 status)
         let b := if l.r.edge0 = 0 then a else (a.subtract l.part l.asid cid l.r.edge0).2
         let c := if l.r.edge1 = 0 then b else (b.subtract l.part l.asid cid l.r.edge1).2
         t.mem = (match l.uncounted, l.r.enclosing 0 with
           | false, some e => c.countDown l cid 4 e
           | _, _ => c).mem))) ∧
  (∀ (s : State) cid l, s.powered = true → s.launches.find? cid = some l → l.complete = false →
    Answers (.launchCompletion cid) s fun t => t = s)

/-! ### Events: stops, time slices, stalls, resets -/

/-- R74, R75, R77, R78, R144, R355, R361, R423, R427, R430, R475: a stop marks the units that it reaches and aborts their transactions;
when no engine works for them they are all saved and leave their cores, and a debug halt has its directory; a late collector is reported
at 1 ms and fatal at 10 ms. A turn that has ended
passes to the next member with work, and members join and leave then. A unit stalled for 2^20 clocks is fatal to its launch. A reset ends with its holdings kept
and every translation and command gone; a destroyed partition's channels read as zero.
Where a clause follows the model's choice and no rule: assumption log 41, 42, 44, 45, 59, 81, 120, 125 and 126. -/
def Obligations.StopAndResetEvents : Prop :=
  (∀ (s : State) part cores cause u r, s.powered = true → s.units.find? u = some r → r.part = part → cores.getLsbD r.core = true →
    r.groups ≠ [] → (cause = .debug → r.cid = part * 2048 + (s.part part).dbgCtx) →
    Answers (.preemptionStop part cores cause) s fun t =>
      (∃ r', t.units.find? u = some r' ∧ r'.stopping.isSome = true) ∧ (r.stopping = none → ∀ k ∈ s.unitTids r, (t.thr k).tx = none) ∧
      (∃ x ∈ t.stops, x.part = part ∧ (cause, cores) ∈ x.reqs) ∧
      (r.stopping = none → ∃ x ∈ t.stops, x.part = part ∧ u ∈ x.units) ∧ t.mem = s.mem) ∧
  -- the units are saved one after another; a completed debug halt has its directory besides
  (∀ (s : State) part, s.powered = true → (∃ x ∈ s.stops, x.part = part) → s.collecting part = false →
    let units := s.stoppingOf part
    let saved := units.foldl State.saveUnit s
    let cid := part * 2048 + (saved.part part).dbgCtx
    let mine := saved.saved.filter fun x => x.unit.part == part && x.unit.cid == cid
    let off := (mine.map SavedUnit.size).foldl (· + ·) 0
    let others := saved.saved.filter fun x => x.unit.part == part && x.unit.cid != cid
    ((∀ x ∈ s.stops, x.part = part → x.has .debug = false) ∨ (saved.part part).dbgState ≠ 1 →
      exec (.preemptionComplete part) s = .next { saved with stops := saved.stops.filter fun r => r.part != part }) ∧
    ((∃ x ∈ s.stops, x.part = part ∧ x.has .debug = true) → (saved.part part).dbgState = 1 →
      off + (16 * mine.length + 255) / 256 * 256 + (others.map SavedUnit.size).foldl (· + ·) 0 ≤ saved.saveSize part →
      Answers (.preemptionComplete part) s fun t =>
        let count := (t.directory cid).length / 4
        (t.part part).dbgState = 2 ∧ (t.part part).dbgCount = count ∧ (t.part part).dbgDir = (if count = 0 then 0 else off) ∧
        ((∀ x ∈ saved.saved, x.unit.cid = cid → x.unit.part = part) → (mine.map fun x => x.unit.linear).Nodup → count = mine.length) ∧
        (∀ x ∈ t.stops, x.part ≠ part) ∧ t.units = saved.units ∧
        ∃ s2 : State, s2.saved = t.saved ∧
          t.mem = (s2.saveSectors part cid off (sectorsOfNat ((count + 1) / 2) (packBytes (t.directory cid)))).mem)) ∧
  (∀ (s : State) cid x, (s.saved.filter fun x => x.unit.cid == cid) = [x] →
    s.directory cid = [(6, x.unit.linear), (1, x.unit.core), (1, 0), (8, x.offset)]) ∧
  (∀ (s : State) u r, s.units.find? u = some r →
    (∀ off (s1 : State), s.saveRoom r.part (s.capture u r).size = some (off, s1) →
      let t := s.saveUnit u
      t.units.find? u = none ∧ (∀ v, v ≠ u → t.units.find? v = s.units.find? v) ∧
      (∃ x ∈ t.saved, x.uid = u ∧ x.offset = off ∧ x.unit.linear = r.linear ∧ x.unit.cid = r.cid) ∧
      t.mem = (s1.saveSectors r.part r.cid off (unitImage { s.capture u r with offset := off } 0
        ((List.range (r.res.tile4k * 128)).map fun i => s1.mem.sector (tileAddr r.core (r.tileBase * 4096) + 32 * i)))).mem) ∧
    (s.saveRoom r.part (s.capture u r).size = none → r.part ≠ 0 → ((s.saveUnit u).part r.part).fatal = true)) ∧
  (∀ (s : State) part, s.powered = true → s.collecting part = true → Answers (.preemptionComplete part) s fun t => t = s) ∧
  (∀ (s : State) part x, s.powered = true → x ∈ s.stops → x.part = part → x.has .suspend = false → x.reported = false → s.awaits x = true →
    x.startAt + 10 ^ 12 ≤ s.rt →
    Answers (.collectorTimeoutReport part) s fun t =>
      (∃ e, t.errs = s.errs ++ [e] ∧ e.kind = 0x13 ∧ e.cls = 0 ∧ e.part = part) ∧
      (∀ y ∈ t.stops, y.part = part → y.has .suspend = false → y.startAt + 10 ^ 12 ≤ s.rt → t.awaits y = true → y.reported = true) ∧ t.units = s.units) ∧
  (∀ (s : State) part x, s.powered = true → x ∈ s.stops → x.part = part → x.has .suspend = false → s.awaits x = true → x.startAt + 10 * 10 ^ 12 ≤ s.rt →
    part ≠ 0 → Answers (.collectorTimeoutFatal part) s fun t => (t.part part).fatal = true ∧ ∀ y ∈ t.stops, y.part ≠ part) ∧
  -- members that join or leave do so at the boundary, the holder last
  (∀ (s : State) cores p, s.powered = true → s.pools.find? (fun x => x.cores == cores) = some p → p.till ≠ 0 → p.till ≤ s.now →
    let s' := ((s.changers cores).filter (· != p.holder)).foldl (fun s a => s.applyLeave cores a) s
    (∀ next, s'.nextHolder p = some next →
      Answers (.timeSliceExpiry cores) s fun t =>
        (∀ x ∈ t.pools, x.cores = cores → x.holder = next ∧ x.till = s.now + (s'.part next).quant * 1024) ∧
        (s'.onCores p.holder cores = true → ∃ x ∈ t.stops, x.part = p.holder ∧ (.slice, cores) ∈ x.reqs)) ∧
    (s'.nextHolder p = none → (s.part p.holder).leaving = none → (s.members cores).contains p.holder = true → s.hasWork p.holder = true →
      Answers (.timeSliceExpiry cores) s fun t =>
        (∀ x ∈ t.pools, x.cores = cores → x.holder = p.holder ∧ x.till = s.now + (s'.part p.holder).quant * 1024) ∧
        t.stops = s.stops)) ∧
  (∀ (s : State) cores a c pooled, (s.part a).leaving = some (c, pooled) →
    (∀ t ∈ s.pools, t.till = 0 ∨ t.cores = cores ∨
      (¬ ((s.part a).pooled = true ∧ (s.part a).cores = t.cores) ∧ ¬ (pooled = true ∧ c = t.cores))) →
    ((s.applyLeave cores a).part a).cores = c ∧ ((s.applyLeave cores a).part a).pooled = pooled ∧ ((s.applyLeave cores a).part a).leaving = none) ∧
  (∀ (s : State) uid u since l, s.powered = true → s.units.find? uid = some u → u.stall = some since → s.stalled uid u = true →
    since + 2 ^ 20 ≤ s.now → u.cid % 2048 ≠ 0 → s.launches.find? u.cid = some l → l.complete = false →
    Answers (.stallTimeout uid) s fun t =>
      (∃ l', t.launches.find? u.cid = some l' ∧ l'.complete = true ∧ l'.cancelled = true) ∧ (∀ e ∈ t.units, e.2.cid ≠ u.cid) ∧
      ∃ e ∈ t.errs, e.cls = 2 ∧ e.kind = 0x07 ∧ e.cid = u.cid) ∧
  (∀ (s : State) a, s.powered = true → (s.part a).resetting = true → s.resetReady a = true →
    Answers (.partitionResetComplete a) s fun t =>
      (t.part a).resetting = false ∧ (t.part a).fatal = false ∧ (t.part a).cores = (s.part a).cores ∧
      (t.part a).chans = (s.part a).chans ∧ (t.part a).queues = (s.part a).queues ∧ (t.part a).colours = (s.part a).colours ∧
      (t.part a).carve = (s.part a).carve ∧ (t.part a).res = (s.part a).res ∧ (t.part a).lframes = (s.part a).lframes ∧
      (t.part a).svc = (s.part a).svc ∧ (t.part a).leaving = (s.part a).leaving ∧ (∀ r ∈ (t.part a).treeReqs, r.dead = true) ∧
      (t.part a).published = (s.part a).published ∧ (t.part a).astab = 0 ∧
      (∀ k, k < 144 → Tbl.find? (t.part a).closed k = some false) ∧
      ((∃ k, k < 144 ∧ Tbl.find? (s.part a).closed k ≠ some false) → ∃ e ∈ t.errs, e.cls = 0 ∧ e.kind = 0x0A) ∧
      (t.part a).excVec = 0 ∧ (∀ c ∈ t.cmds, c.2.part ≠ a) ∧ (∀ x ∈ t.tlb, tagOfPart a (x.1 / 2 ^ 44) = false) ∧
      (∀ c, (s.part a).svc = some c → ∀ k ∈ coreTids c, (t.thr k).wait = .stopped) ∧
      ∃ e ∈ t.errs, e.cls = 3 ∧ e.kind = 0x10 ∧ e.charged = a ∧ e.part = 0) ∧
  (∀ (s : State) a, s.powered = true →
    Answers (.channelCleared a) s fun t =>
      (∀ e ∈ t.clearing, e.1 ≠ a) ∧
      (∀ e ∈ s.clearing, e.1 = a → ∀ x, x < lpBase → e.2.1.getLsbD (x / 65536 % 256) = true → t.mem.byte x = 0) ∧
      (∀ e ∈ s.clearing, e.1 = a → ∀ x, lpBase ≤ x → x < carveBase →
        (∃ r ∈ e.2.2, r.1 ≤ (x - lpBase) / 65536 ∧ (x - lpBase) / 65536 < r.1 + r.2) → t.mem.byte x = 0) ∧
      ∀ x, (∀ e ∈ s.clearing, e.1 ≠ a) → t.mem.byte x = s.mem.byte x)

/-! ### Events: the KV eviction engine and the transfer engines -/

/-- R117, R121 to R123, R136, R137, R139, R334, R336, R339 to R342, R458, R472: the eviction engine marks the unpinned resident
frame of least AGE, evicts it with its data or keeps it, and brings a migrating frame back. An engine issues a command at its
milestone with its locks, or ends it with its first status; each operation moves its bytes and ends OK; a PUT ends when it is
acknowledged; completion writes the sequence word and the command is gone.
Bytes move in pieces of 64 KiB, between which a command may stop.
Where a clause follows the model's choice and no rule: assumption log 46, 47, 48, 52, 81, 84, 105, 118, 128 and 129. -/
def Obligations.EngineCommandEvents : Prop :=
  (∀ (s : State) part e, s.powered = true → e ∈ (s.pool part).frames → e.2.st = frRESIDENT → e.2.pin = 0 →
    (∀ x ∈ (s.pool part).frames, x.2.st ≠ frMARKED) → (s.part part).freeFrames true ≠ [] →
    ((s.part part).freeFrames false).length < (s.pool part).lowat ∨ s.poolWaits part = true →
    Answers (.evictionMark part) s fun t => ∃ h g f d, (h, g) ∈ (s.pool part).frames ∧ g.st = frRESIDENT ∧ g.pin = 0 ∧
      (∀ x ∈ (s.pool part).frames, x.2.st = frRESIDENT → x.2.pin = 0 → g.age ≤ x.2.age) ∧
      t.kvFrameOf part h = some f ∧ f.st = frMARKED ∧ f.dest = some d ∧ d ∈ (s.part part).freeFrames true ∧ t.mem = s.mem) ∧
  (∀ (s : State) part h f d src dst, s.powered = true → s.kvFrameOf part h = some f → f.st = frMARKED → f.dest = some d →
    s.kvBase part f = some src →
    (f.pin = 0 → 0 < f.ref → f.written = false → s.frameAddr part 1 d = some dst →
      Answers (.evictionCommit part h) s fun t =>
        t.kvFrameOf part h = some { f with st := frEVICTED, spilled := true, frame := d, dest := none } ∧
        t.mem = s.mem.copyRange src dst 65536) ∧
    (f.pin ≠ 0 ∨ f.ref = 0 ∨ f.written = true →
      Answers (.evictionCommit part h) s fun t =>
        t.kvFrameOf part h = some { f with st := frRESIDENT, dest := none } ∧ t.mem = s.mem)) ∧
  (∀ (s : State) part h f d src dst, s.powered = true → s.kvFrameOf part h = some f → f.st = frMIGRATING → f.dest = some d →
    s.kvBase part f = some src → s.frameAddr part 0 d = some dst →
    Answers (.migrationComplete part h) s fun t =>
      t.kvFrameOf part h = some { f with st := frRESIDENT, spilled := false, frame := d, dest := none, age := s.msOf 164 + 1 } ∧
      t.mem = s.mem.copyRange src dst 65536 ∧
      ∀ u, (s.thr u).wait = .pool → (s.thr u).part = part → (t.thr u).wait = .ready) ∧
  (∀ (s : State) engine k c (s1 : State), s.powered = true → s.nextCommand engine = some (k, c, s1) → (s1.cmds.find? k).isSome = true →
    let mi := max (max (s1.msOf c.engine) c.after) (s1.tileChanged c) + 1
    let s2 := s1.setMs c.engine mi
    (c.early ≠ 0 → Answers (.commandIssue engine) s fun t =>
      ∃ x, t.cmds.find? k = some x ∧ x.phase = .effected ∧ x.status = c.early ∧ x.mi = mi ∧ t.mem = s1.mem) ∧
    (c.early = 0 → c.opN = 1 ∨ c.opN = 4 ∨ c.opN = 7 → s2.locksFree k c (s2.issueLocks c []) = true →
      Answers (.commandIssue engine) s fun t =>
        ∃ x, t.cmds.find? k = some x ∧ x.phase = .issued ∧ x.mi = mi ∧ x.locks = s2.issueLocks c [] ∧ t.msOf c.engine = mi ∧
          t.mem = s1.mem) ∧
    (∀ core lo size e, c.early = 0 → c.onTile = true → s2.tileStart c = .ok core lo size e →
      s2.locksFree k c (s2.issueLocks c []) = true →
      Answers (.commandIssue engine) s fun t =>
        ∃ x, t.cmds.find? k = some x ∧ x.phase = .issued ∧ x.region = some (core, lo, size) ∧ x.tileTaken = true ∧
          ∃ u, t.units.find? (c.unit.getD 0) = some u ∧
            tileState (u.tile (c.tag.toNat % 256)) = if c.opN = 5 then tileFILLING else tileDRAINING)) ∧
  (∀ (s : State) engine, s.powered = true → s.nextCommand engine = none → Answers (.commandIssue engine) s fun t => t = s) ∧
  (∀ (s : State) k c ps pd (s0 s1 s2 : State),
    let src := [(c.src.toNat, c.len.toNat)]
    let dst := [(c.dst.toNat, c.len.toNat)]
    Issued s k c 1 → MovesPiece s k c src dst ps pd s0 s1 s2 →
    Answers (.copy k) s fun t => t.mem = movedPiece s1 s2 c ps pd src dst ∧
      PieceDone t k c (32 * (c.piece (allSecs dst)).length) (32 * (allSecs dst).length)) ∧
  (∀ (s : State) k c, Issued s k c 1 →
    ScanEnds (.copy k) s k c (onSide .load [(c.src.toNat, c.len.toNat)] ++ onSide .store [(c.dst.toNat, c.len.toNat)])) ∧
  (∀ (s : State) k c, Issued s k c 7 → c.unacked = false →
    ScanEnds (.put k) s k c (onSide .load [(c.src.toNat, c.len.toNat)] ++ onSide .put [(c.dst.toNat, c.len.toNat)])) ∧
  (∀ (s : State) k c l ps pd (s' s0 s1 s2 : State), s.listOf k c = (some l, s') → (∀ a ∈ l, a % 32 = 0) →
    let items := l.map fun a => (a, c.elem)
    (Issued s k c 2 → MovesPiece s' k c items [c.packed] ps pd s0 s1 s2 →
      Answers (.gather k) s fun t => t.mem = movedPiece s1 s2 c ps pd items [c.packed] ∧
        PieceDone t k c (32 * (c.piece (allSecs [c.packed])).length) (32 * (allSecs [c.packed]).length)) ∧
    (Issued s k c 3 → MovesPiece s' k c [c.packed] items ps pd s0 s1 s2 →
      Answers (.scatter k) s fun t => t.mem = movedPiece s1 s2 c ps pd [c.packed] items ∧
        PieceDone t k c (32 * (c.piece (allSecs items)).length) (32 * (allSecs items).length))) ∧
  (∀ (s : State) k c l (s' : State), s.listOf k c = (some l, s') → (∃ a ∈ l, a % 32 ≠ 0) → (s'.cmds.find? k).isSome = true →
    let ended (t : State) : Prop := t.mem = s'.mem ∧ ∃ x, t.cmds.find? k = some x ∧ x.phase = .effected ∧ x.status = 2
    (Issued s k c 2 → Answers (.gather k) s ended) ∧ (Issued s k c 3 → Answers (.scatter k) s ended)) ∧
  (∀ (s : State) k c pd (s0 s1 : State), Issued s k c 4 →
    let dst := allSecs [(c.dst.toNat, c.len.toNat)]
    s.scan k c (onSide .store [(c.dst.toNat, c.len.toNat)]) = (true, s0) →
    s0.cmdAccess k c .store (secRanges (c.piece dst)) = (.ok pd, s1) → s1.cmds.find? k = some c →
    Answers (.fill k) s fun t => PieceDone t k c (32 * (c.piece dst).length) c.len.toNat ∧
      t.mem = (s1.performWrites c.engine pd (sectorWrites (c.piece dst) ((c.piece dst).map fun _ =>
        { data := c.aux ++ c.aux ++ c.aux ++ c.aux, side := c.aux2.extractLsb' 0 16, poison := false }))).mem) ∧
  (∀ (s : State) k c core lo size ps (s0 s1 : State), Issued s k c 5 → c.region = some (core, lo, size) → c.kv = false →
    s.scan k c (onSide .load c.rowRanges) = (true, s0) →
    s0.cmdAccess k c .load (secRanges (c.piece (allSecs c.rowRanges))) = (.ok ps, s1) → s1.cmds.find? k = some c →
    let s2 := s1.leaseLoad c.engine (leaseLines ps)
    Answers (.tfill k) s fun t => PieceDone t k c (32 * (c.piece (allSecs c.rowRanges)).length) c.len.toNat ∧
      t.mem = s1.mem.putSectors ((c.piece (c.tileSecs size c.len.toNat)).map fun o => tileAddr core (lo + o))
        (s2.sectorList ps (c.piece (allSecs c.rowRanges)))) ∧
  (∀ (s : State) k c, Issued s k c 5 ∨ Issued s k c 6 → c.region = none → (∃ x ∈ s.saved, c.unit = some x.uid) →
    ∀ i ∈ [Instr.tfill k, .tfillKv k, .tdrain k], Answers i s fun t => t = s) ∧
  (∀ (s : State) k c core lo size, Issued s k c 5 → c.region = some (core, lo, size) → c.kv = true →
    let p0 := c.src.toNat / 2 ^ 32
    let n := min 512 (c.len.toNat - c.progress / 128)
    let at_ (i : Nat) : Resolved := s.resolve c.part (c.src.toNat % 2 ^ 16) (c.src.toNat / 2 ^ 16 % 2 ^ 8) (p0 + c.progress / 128 + i)
      (c.src.toNat / 2 ^ 24 % 2) [0, 1, 2, 3]
    let dst := (c.piece (c.tileSecs size (128 * c.len.toNat))).map fun o => tileAddr core (lo + o)
    ((∀ i, i < n → (at_ i).status = 0) →
      Answers (.tfillKv k) s fun t => t.mem = s.mem.putSectors dst ((List.range n).flatMap fun i => (at_ i).line) ∧
        ∃ x, t.cmds.find? k = some x ∧ x.bytes = c.progress + 128 * n ∧ x.kvCounts.getD 0 0 = c.kvCounts.getD 0 0 + n ∧
          x.kvFirst = c.kvFirst ∧
          if 128 * c.len.toNat ≤ c.progress + 128 * n then
            x.phase = .effected ∧ x.status = if c.kvCounts.getD 0 0 + n < c.len.toNat then 6 else 0
          else x.phase = .issued) ∧
    (c.len = 1 → c.progress = 0 → (∀ i, c.kvCounts.getD i 0 = 0) → c.kvFirst = 0xFFFFFFFF → (at_ 0).status ≠ 0 →
      Answers (.tfillKv k) s fun t => CmdDone t k 6 128 ∧ t.mem = s.mem.putSectors dst (at_ 0).line ∧
        ∃ x, t.cmds.find? k = some x ∧ x.kvFirst = p0 ∧ x.kvCounts.sum = 1)) ∧
  (∀ (s : State) k c core lo size pd (s0 s1 : State), Issued s k c 6 → c.region = some (core, lo, size) →
    s.scan k c (onSide .store c.rowRanges) = (true, s0) →
    s0.cmdAccess k c .store (secRanges (c.piece (allSecs c.rowRanges))) = (.ok pd, s1) → s1.cmds.find? k = some c →
    Answers (.tdrain k) s fun t => PieceDone t k c (32 * (c.piece (allSecs c.rowRanges)).length) c.len.toNat ∧
      t.mem = (s1.performWrites c.engine pd (sectorWrites (c.piece (allSecs c.rowRanges))
        ((c.piece (c.tileSecs size c.len.toNat)).map fun o => s0.mem.sector (tileAddr core (lo + o))))).mem) ∧
  (∀ (s : State) k c ps (s0 s1 : State), Issued s k c 7 → c.unacked = false →
    let src := [(c.src.toNat, c.len.toNat)]
    let dst := [(c.dst.toNat, c.len.toNat)]
    s.scan k c (onSide .load src ++ onSide .put dst) = (true, s0) →
    s0.cmdAccess k c .load (secRanges (c.piece (allSecs src))) = (.ok ps, s1) → s1.cmds.find? k = some c →
    let s2 := s1.leaseLoad c.engine (leaseLines ps)
    let n := c.progress + 32 * (c.piece (allSecs src)).length
    Answers (.put k) s fun t => t.mem = s1.mem ∧
      (c.dst.toNat / 65536 = (c.dst.toNat + c.len.toNat - 1) / 65536 → c.piece (allSecs dst) ≠ [] →
        t.outbox = s1.outbox ++ [.put c.part c.cid (s2.remoteFrameOf c (c.dst.toNat / 65536 * 65536))
          ((c.piece (allSecs dst)).headD 0 % 65536) (s2.sectorList ps (c.piece (allSecs src)))]) ∧
      ∃ x, t.cmds.find? k = some x ∧ x.phase = .issued ∧ x.progress = n ∧
        (c.len.toNat ≤ n → x.unacked = true ∧ x.sentAt = s.rt ∧ x.waiting.isSome = true)) ∧
  (∀ (s : State) k c, s.powered = true → s.cmds.find? k = some c → c.phase = .issued → c.unacked = true →
    Answers (.putAcknowledge k) s fun t => CmdDone t k 0 c.len.toNat ∧ t.mem = s.mem ∧
      ∃ x, t.cmds.find? k = some x ∧ x.unacked = false) ∧
  (∀ (s : State) k c r ps (s1 : State), s.powered = true → s.cmds.find? k = some c → c.phase = .effected → c.waiting = none →
    s.cmdStill c = false → (s.part c.part).resetting = false → s.chainOf c.tagN c.chain = some r → r.broken = false →
    c.record = 0 → c.status = 0 → r.ahead = [] →
    (s.setMs c.engine (s.msOf c.engine + 1)).cmdAccess k c .store [(c.seqWord.toNat, 8)] = (.ok ps, s1) →
    (c.seq = r.upTo + 1 → Answers (.commandComplete k) s fun t => t.cmds.find? k = none ∧
      t.mem = (s1.performWrites c.engine (ps.filter fun e => e.1 == c.seqWord.toNat / 128 * 128)
        [{ va := c.seqWord.toNat, n := 8, val := c.seq }]).mem) ∧
    (r.upTo + 1 < c.seq → Answers (.commandComplete k) s fun t => t.cmds.find? k = none ∧ t.mem = s1.mem ∧
      ∃ x ∈ t.chains, x.asid = c.tagN ∧ x.desc = c.chain ∧ x.upTo = r.upTo ∧ c.seq ∈ x.ahead))

/-! ### Events: append streams and flash -/

/-- R153, R156, R157, R161 to R169, R172, R466, R467, R469: an APPEND is placed in its group at its issue and copied; a SEAL waits
until its group is durable, then publishes its pages and closes it, or discards it; SBAR records its streams' tails; TRIM frees
published pages. A flash line's wait is noticed, reported at 2 ms and ended at 100 ms; an arrival gives its threads and commands
the line as its read found it, and poisons damaged sectors; a prefetched line is kept; Ibex's background work changes no data but what it finds damaged.
Where a clause follows the model's choice and no rule: assumption log 49, 50, 51 and 66. -/
def Obligations.AppendAndFlashEvents : Prop :=
  (∀ (s : State) k c (s1 : State) i wptr, s.powered = true → s.nextCommand 161 = some (k, c, s1) → (s1.cmds.find? k).isSome = true →
    let s2 := s1.setMs 161 (max (max (s1.msOf 161) c.after) (s1.tileChanged c) + 1)
    c.early = 0 → c.opN = 0x10 → c.engine = 161 → s2.locksFree k c (s2.issueLocks c []) = true → (s1.stream c.part c.stream).en = true →
    1 ≤ c.len.toNat → c.len.toNat ≤ 2 ^ 24 →
    ((s1.stream c.part c.stream).group c.tag.toNat).isSome = true ∨ (s1.stream c.part c.stream).groups.length < 8 →
    (s1.part c.part).placement (s1.stream c.part c.stream) (pagesFor c.len.toNat) = some (i, wptr) →
    Answers (.commandIssue 161) s fun t =>
      let x := s1.stream c.part c.stream
      let e : Extent := { stream := c.stream, tag := c.tag.toNat, va := x.pageVa i, lpage := x.lpbase + i, length := c.len.toNat }
      (t.stream c.part c.stream).wptr = wptr ∧
      (∃ g, (t.stream c.part c.stream).group c.tag.toNat = some g ∧ g.extents.getLast? = some e) ∧
      ∃ y, t.cmds.find? k = some y ∧ y.phase = .issued ∧ y.extent = some e ∧ y.lpage = x.lpbase + i) ∧
  (∀ (s : State) k c ps (s1 : State), Issued s k c 0x10 → (∀ va ∈ pagesOf c.src.toNat c.len.toNat, s.remoteAt c va = false) →
    s.cmdAccess k c .load [(c.src.toNat, c.len.toNat)] = (.ok ps, s1) → (s1.cmds.find? k).isSome = true →
    let s2 := s1.leaseLoad 161 (leaseLines ps)
    let from_ := sectorsOf c.src.toNat c.len.toNat
    let secs := (s2.extentSectors (s2.sectorList ps from_) (from_.map fun a => (placeOf ps a).any Place.swm) c.src.toNat c.len.toNat).1
    let lo := flashAddr c.part c.lpage
    Answers (.append k false) s fun t =>
      (∃ x, t.cmds.find? k = some x ∧ x.phase = .effected ∧ x.status = 0) ∧
      t.mem = (s1.mem.zeroRange lo (lo + pagesFor c.len.toNat * 65536)).putSectors ((List.range secs.length).map fun i => lo + 32 * i) secs) ∧
  (∀ (s : State) k c, Issued s k c 0x10 → (∃ va ∈ pagesOf c.src.toNat c.len.toNat, s.remoteAt c va = true) →
    Answers (.append k false) s fun t => t.mem = s.mem ∧ ∃ x, t.cmds.find? k = some x ∧ x.phase = .effected ∧ x.status = 6) ∧
  (∀ (s : State) k c g, Issued s k c 0x10 → (s.stream c.part c.stream).group c.tag.toNat = some g →
    Answers (.append k true) s fun t =>
      (∃ x, t.cmds.find? k = some x ∧ x.phase = .effected ∧ x.status = 8) ∧
      (∃ g', (t.stream c.part c.stream).group c.tag.toNat = some g' ∧ g'.failed = true ∧ ∀ e ∈ g'.extents, some e ≠ c.extent) ∧
      (∃ e ∈ t.errs, e.cls = 1 ∧ e.kind = 0x05 ∧ e.part = c.part) ∧ t.mem = s.mem) ∧
  (∀ (s : State) k c g, Issued s k c 0x11 → (s.stream c.part c.stream).group c.tag.toNat = some g →
    let x := s.stream c.part c.stream
    let gone (t : State) : Prop := (t.stream c.part c.stream).group g.tag = none
    (g.failed = true → g.durable = false → Answers (.seal k) s fun t => gone t ∧ (∃ y, t.cmds.find? k = some y ∧ y.phase = .effected ∧ y.status = 9) ∧
      (t.part c.part).published = (s.part c.part).published) ∧
    (g.failed = false → c.flags.getLsbD 3 = true → g.durable = false →
      Answers (.seal k) s fun t => gone t ∧ (∃ y, t.cmds.find? k = some y ∧ y.phase = .effected ∧ y.status = 0) ∧
        (t.part c.part).published = (s.part c.part).published) ∧
    (g.durable = true →
      Answers (.seal k) s fun t => gone t ∧ CmdDone t k 0 (g.extents.flatMap Extent.pages).length ∧
        (∀ e ∈ g.extents, ∀ lp ∈ e.pages, ((t.part c.part).published.find? lp).isSome = true) ∧
        (t.stream c.part c.stream).serial = x.serial + 1 ∧
        (t.part c.part).extents = (s.part c.part).extents ++ g.extents.map fun e => { e with serial := (x.serial + 1).toNat }) ∧
    (g.failed = false → c.flags.getLsbD 3 = false → g.durable = false →
      Answers (.seal k) s (fun t => t = s) ∧
      Answers (.sealDurable k false) s (fun t =>
        (∃ g', (t.stream c.part c.stream).group c.tag.toNat = some g' ∧ g'.durable = true ∧ g'.extents = g.extents ∧ g'.wptr = x.wptr) ∧
        (t.stream c.part c.stream).sealWptr = x.wptr ∧ t.mem = s.mem) ∧
      Answers (.sealDurable k true) s fun t => gone t ∧
        (∃ y, t.cmds.find? k = some y ∧ y.phase = .effected ∧ y.status = 8) ∧ ∃ e ∈ t.errs, e.cls = 1 ∧ e.kind = 0x05)) ∧
  (∀ (s : State) k c, Issued s k c 0x12 → (∀ i, i < 16 → c.aux.getLsbD i = true → (s.stream c.part i).en = true) →
    Answers (.sbar k) s fun t =>
      (∀ b, b ∈ (t.stream c.part c.stream).barrier ↔ b ∈ (s.stream c.part c.stream).barrier ∨
        ∃ e ∈ s.cmds, e.2.part = c.part ∧ e.2.engine = 161 ∧ e.2.stream < 16 ∧ c.aux.getLsbD e.2.stream = true ∧ e.1 ≠ k ∧
          e.2.sameChain c = false ∧ b = (e.2.tagN, e.2.chain, e.2.seq)) ∧
      ∃ y, t.cmds.find? k = some y ∧ y.phase = .effected ∧ y.status = 0) ∧
  (∀ (s : State) k c, Issued s k c 0x13 → c.dst.toNat % 65536 = 0 →
    let x := s.stream c.part c.stream
    let first := (c.dst.toNat - x.base.toNat) / 65536
    x.base.toNat ≤ c.dst.toNat → 1 ≤ c.len.toNat → first + c.len.toNat ≤ x.npages →
    (∀ i, i < c.len.toNat → x.lpbase + first + i ∉ (s.part c.part).openPages) →
    Answers (.trim k) s fun t =>
      (∀ i, i < c.len.toNat → (t.part c.part).published.find? (x.lpbase + first + i) = none) ∧
      (∀ lp, (lp < x.lpbase + first ∨ x.lpbase + first + c.len.toNat ≤ lp) →
        (t.part c.part).published.find? lp = (s.part c.part).published.find? lp) ∧
      (∃ y, t.cmds.find? k = some y ∧ y.phase = .effected ∧ y.status = 0) ∧ t.mem = s.mem) ∧
  (∀ (s : State) tag line f, s.powered = true → s.flashOf (tag * 2 ^ 53 + line) = some f → f.notice = none →
    Answers (.flashWaitNotice tag line) s fun t =>
      (∃ g, t.flashOf (tag * 2 ^ 53 + line) = some g ∧ g.notice = some s.rt) ∧
      ∀ u, (s.thr u).wait = .line (tag * 2 ^ 53 + line) → (t.thr u).wait = .flash (tag * 2 ^ 53 + line)) ∧
  (∀ (s : State) tag line damaged f, s.powered = true → s.flashOf (tag * 2 ^ 53 + line) = some f →
    Answers (.flashLineArrival tag line damaged) s fun t =>
      t.flashOf f.key = none ∧
      (∀ u, ((s.thr u).wait = .line f.key ∨ (s.thr u).wait = .flash f.key) → (t.thr u).wait = .ready ∧ (t.thr u).pc = (s.thr u).pc ∧
        (t.thr u).reply = some { key := f.key, data := (f.damaged damaged).line, flash := true }) ∧
      (∀ k c, k ∈ f.cmds → s.cmds.find? k = some c →
        ∃ x, t.cmds.find? k = some x ∧ x.lines.find? (flashKey f.key) = some (f.damaged damaged).line) ∧
      (s.stillPublished f = true → ∀ i, i < 4 → damaged.getLsbD i = true → t.mem.pois (f.phys + 32 * i) = true) ∧
      (s.stillPublished f = false → t.mem = s.mem ∧ t.lines = s.lines) ∧
      (damaged = 0 → (∀ a, ByteOrAccessed s t a) ∧ (s.waitedLong f = false → t.errs = s.errs)) ∧
      (damaged ≠ 0 → ∃ e ∈ t.errs, e.cls = 1 ∧ e.kind = 0x04 ∧ e.part = f.part) ∧
      (s.waitedLong f = true → ∃ e ∈ t.errs, e.cls = 0 ∧ e.kind = 0x0C ∧ e.part = f.part)) ∧
  (∀ (s : State) tag line x, s.powered = true → line < 2 ^ 53 →
    let key := tag * 2 ^ 53 + line
    let part := if tag < 65536 then tag / 2048 else 0
    s.cached (pageKey tag (line * 128)) = some x → x.home = 2 → tag ≠ 65537 + part →
    (∃ e ∈ s.lines, e.1 / 512 = key / 512) → s.lines.find? key = none → s.flashOf key = none →
    (Tbl.find? (s.part part).published x.frame).isSome = true → s.colourOk (line * 128) (if tag < 65536 then tag else 0) part = true →
    Answers (.flashPrefetchLine tag line) s fun t => (t.lines.find? key).isSome = true ∧ (∀ a, ByteOrAccessed s t a) ∧
      (s.waiters = [] → t.threads = s.threads)) ∧
  (∀ (s : State) tag line die f n, s.powered = true → s.flashOf (tag * 2 ^ 53 + line) = some f → f.notice = some n →
    (f.reported = false → n + 2 * 10 ^ 12 ≤ s.rt →
      Answers (.flashWaitReport tag line die) s fun t =>
        (∃ e, t.errs = s.errs ++ [e] ∧ e.kind = 0x0C ∧ e.cls = 0 ∧ e.unit = die) ∧ t.threads = s.threads) ∧
    (s.rt < n + 100 * 10 ^ 12 → Answers (.flashWaitTimeout tag line die) s fun t => t = s) ∧
    (n + 100 * 10 ^ 12 ≤ s.rt → s.stillPublished f = true →
      Answers (.flashWaitTimeout tag line die) s fun t =>
        t.flashOf f.key = none ∧ (∀ i, i < 4 → t.mem.pois (f.phys + 32 * i) = true) ∧
        ∀ u, (s.thr u).wait = .flash f.key → (t.thr u).wait = .ready)) ∧
  (∀ (s : State) part, s.powered = true → (s.part part).present = true →
    (∀ page, Answers (.ibexMaintenance part (.relocate page)) s fun t => t = s) ∧
    (∀ die, Answers (.ibexMaintenance part (.programFailure die)) s fun t =>
      t.mem = s.mem ∧ ∃ e, t.errs = s.errs ++ [e] ∧ e.cls = 0 ∧ e.kind = 0x05 ∧ e.unit = die) ∧
    (∀ die, Answers (.ibexMaintenance part (.eraseFailure die)) s fun t =>
      t.mem = s.mem ∧ ∃ e, t.errs = s.errs ++ [e] ∧ e.cls = 0 ∧ e.kind = 0x05 ∧ e.unit = die) ∧
    (∀ page offset, ((s.part part).published.find? page).isSome = true → offset < 65536 →
      Answers (.ibexMaintenance part (.uncorrectable page offset)) s fun t =>
        t.mem.pois (hbfBase + (part * 2 ^ 25 + page) * 65536 + offset) = true ∧ ∃ e ∈ t.errs, e.cls = 1 ∧ e.kind = 0x04))

/-! ### Events: the fabric and collectives -/

/-- R139, R145, R344 to R349, R415, R471, R472, R474: a PUT from another package writes its sectors; a read from one changes no data;
a line that returns goes to the threads that wait for it, and one that never does gives them poison and closes its context; a
closed context reopens after a probe is answered; a failed lane takes its port. A unit's result tile is read and its chunk
fires, a reduced chunk is written, but after a cancel or a failure, and a revoked tree fails what is bound to it.
Where a clause follows the model's choice and no rule: assumption log 63, 64, 87, 104, 107 and 108. -/
def Obligations.FabricEvents : Prop :=
  (∀ (s : State) part home frame off data a, s.powered = true → s.remoteFrame part home frame (off / 32 * 32) = some a → s.mem.dead = 0 →
    let n := min data.length ((65536 - off / 32 * 32) / 32)
    Answers (.fabricIngressPut part home frame off data) s fun t =>
      (∀ i v, i < n → data[i]? = some v →
        t.mem.sector (a + 32 * i) = if s.frameSwm part home frame a then v else { v with side := 0 }) ∧
      (∀ x, x < a ∨ a + 32 * n ≤ x → t.mem.byte x = s.mem.byte x) ∧ s.msOf 170 < t.msOf 170 ∧
      t.outbox = s.outbox ++ [.ack part (part * 2048) home frame off]) ∧
  (∀ (s : State) part home frame off a, s.powered = true →
    let o := off / 128 * 128
    s.remoteFrame part home frame o = some a →
    Answers (.remoteReadServe part home frame off) s fun t => t.mem = s.mem ∧ t.threads = s.threads ∧
      t.outbox = s.outbox ++ [.line part (part * 2048) home frame o
        ((s.mem.line a).map fun v => if s.frameSwm part home frame a then v else { v with side := 0 })]) ∧
  (∀ (s : State) part home frame off, s.powered = true → s.remoteFrame part home frame (off / 128 * 128) = none →
    Answers (.remoteReadServe part home frame off) s fun t => t = s) ∧
  (∀ (s : State) part tree off tr ps (s1 : State), s.powered = true →
    (s.part part).trees.find? (fun t => t.id == BitVec.ofNat 32 tree) = some tr → off < tr.gs →
    let w : Who := { source := 170, part, asid := part * 2048 + tr.space, priv := true, cid := part * 2048 }
    (s.setMs 170 (s.msOf 170 + 1)).blockPlaces w .load ((tr.gb + off) / 128 * 128) 128 = (.ok ps, s1) →
    Answers (.gsumLineRequest part tree off) s fun t => t.mem = s1.mem ∧ t.threads = s1.threads ∧
      t.outbox = s1.outbox ++ [.gsum part (part * 2048) tree off (ps.flatMap fun p => s1.lineAt p.2)]) ∧
  (∀ (s : State) q data r, s.powered = true → s.reqs.find? q = some r →
    let line := (List.range 4).map fun i => data.getD i zeroLit
    (r.cmd = none → Answers (.remoteLineReturn q data) s fun t =>
      t.reqs.find? q = none ∧ t.fcache.find? r.lineKey = some { data := line, cid := r.cid } ∧ t.mem = s.mem ∧
      ∀ u, (s.thr u).wait = .remote q → (t.thr u).wait = .ready ∧ (t.thr u).reply = some { key := r.lineKey, data := line } ∧
        (t.thr u).pc = (s.thr u).pc) ∧
    (∀ k c, r.cmd = some k → s.cmds.find? k = some c → Answers (.remoteLineReturn q data) s fun t =>
      t.reqs.find? q = none ∧ t.threads = s.threads ∧ ∃ c', t.cmds.find? k = some c' ∧ c'.lines.find? r.lineKey = some line)) ∧
  (∀ (s : State) q r, s.powered = true → q < 2 ^ 91 → s.reqs.find? q = some r →
    (s.rt < r.sentAt + 10 ^ 14 → Answers (.remoteRequestTimeout q) s fun t => t = s) ∧
    (r.sentAt + 10 ^ 14 ≤ s.rt → Answers (.remoteRequestTimeout q) s fun t =>
      t.reqs.find? q = none ∧ t.fcache = s.fcache ∧ (∃ e ∈ t.errs, e.cls = 1 ∧ e.kind = 0x0A ∧ e.ukind = 6 ∧ e.part = r.part) ∧
      (r.gsum = false → (t.part r.part).closed.find? r.pkg = some false) ∧
      (r.cmd = none → ∀ u, (s.thr u).wait = .remote q →
        (t.thr u).wait = .ready ∧ (t.thr u).pc = (s.thr u).pc ∧ (t.thr u).reply = some { key := r.lineKey, data := lostLine }) ∧
      ∀ k c, r.cmd = some k → s.cmds.find? k = some c → ∃ x, t.cmds.find? k = some x ∧ x.phase = .effected ∧ x.status = 7)) ∧
  (∀ (s : State) k c, s.powered = true → s.cmds.find? k = some c → c.unacked = true → c.sentAt + 10 ^ 14 ≤ s.rt →
    Answers (.remoteRequestTimeout (2 ^ 91 + k)) s fun t =>
      (∃ x, t.cmds.find? k = some x ∧ x.phase = .effected ∧ x.status = 7 ∧ x.unacked = false) ∧
      ∀ p ∈ c.pkgs, (t.part c.part).closed.find? p = some false) ∧
  (∀ (s : State) part pkg, s.powered = true → (s.part part).present = true → pkg ≤ 143 →
    Answers (.transportCloseNotice part pkg) s fun t => (t.part part).closed.find? pkg = some false ∧
      ((s.part part).closed.find? pkg ≠ some false →
        (∃ e ∈ t.errs, e.cls = 0 ∧ e.kind = 0x0A ∧ e.part = part) ∧
        ∀ q r, s.reqs.find? q = some r → r.part = part → r.gsum = false → r.pkg = pkg → t.reqs.find? q = none ∧
          (r.cmd = none → ∀ u, (s.thr u).wait = .remote q →
            (t.thr u).wait = .ready ∧ (t.thr u).reply = some { key := r.lineKey, data := lostLine }))) ∧
  (∀ (s : State) part pkg, s.powered = true → ((s.part part).closed.find? pkg).isSome = true →
    Answers (.transportProbe part pkg true) s (fun t => (t.part part).closed.find? pkg = some true ∧ t.threads = s.threads) ∧
    Answers (.transportProbe part pkg false) s fun t => t = s) ∧
  (∀ (s : State) lane, s.powered = true → lane < 32 →
    Answers (.portFailure lane) s fun t => ∀ k, k < 32 →
      t.boot.laneDown.getLsbD k = (s.boot.laneDown.getLsbD k || decide (k / 4 = lane / 4))) ∧
  (∀ (s : State) uid u l, s.powered = true → s.units.find? uid = some u → u.groups = [] → s.launches.find? u.cid = some l →
    l.r.coll = true → l.complete = false → l.collfail = false →
    let e := u.tile l.r.restile
    let bytes := tileSize e * 4096
    let c := u.linear / 2 ^ l.r.shift
    let data := (List.range (bytes / 32)).map fun i => s.mem.sector (tileAddr u.core (u.tileRange l.r.restile).1 + 32 * i)
    tileState e = tileREADY → 0 < bytes → bytes ≤ 2 ^ 20 → l.chunkBytes = 0 ∨ l.chunkBytes = bytes → l.contributions = [] →
    (l.r.chunkUnits c = 1 → Answers (.chunkFire uid) s fun t => t.units.find? uid = none ∧
      ∃ l', t.launches.find? u.cid = some l' ∧ l'.fired.find? c = some data ∧ l'.chunkBytes = bytes ∧
        t.outbox = s.outbox ++ [.chunk l.part u.cid c l.r.tree (collFormat l.r.collop) false data]) ∧
    (1 < l.r.chunkUnits c → Answers (.chunkFire uid) s fun t => t.units.find? uid = none ∧
      ∃ l', t.launches.find? u.cid = some l' ∧ l'.contributions = [{ linear := u.linear, failed := false, data }] ∧ l'.fired = l.fired)) ∧
  (∀ (s : State) cid c data l tr ps (s1 : State), s.powered = true → s.launches.find? cid = some l → l.r.coll = true → l.complete = false →
    l.collfail = false → c < l.r.nchunk → data ≠ [] → (l.fired.find? c).isSome = true → l.arrived.find? c = none → l.inbox.find? c = none →
    (s.part l.part).trees.find? (fun t => t.id == l.r.tree) = some tr → 1 < l.arrivals →
    let w : Who := { source := 162, part := l.part, asid := l.part * 2048 + tr.space, priv := false, cid }
    let va := tr.rb + c * l.chunkBytes
    let secs := (List.range (l.chunkBytes / 32)).map fun i => data.getD i zeroLit
    (s.modLaunch cid fun x => { x with inbox := Tbl.ins x.inbox c data }).blockPlaces w .store va l.chunkBytes = (.ok ps, s1) →
    Answers (.chunkArrival cid c data) s fun t =>
      t.mem = (s1.performWrites 162 ps (sectorWrites ((List.range secs.length).map fun i => va + 32 * i) secs)).mem ∧
      ∃ l', t.launches.find? cid = some l' ∧ l'.arrived.find? c = some () ∧ l'.inbox.find? c = none) ∧
  (∀ (s : State) cid c data l, s.powered = true → s.launches.find? cid = some l → (l.complete = true ∨ l.collfail = true) →
    Answers (.chunkArrival cid c data) s fun t => t = s) ∧
  (∀ (s : State) cid c l, s.powered = true → s.launches.find? cid = some l → l.r.coll = true → l.complete = false →
    l.collfail = false → l.reduced = false → c < l.r.nchunk →
    Answers (.chunkArrival cid c []) s fun t => ∃ l', t.launches.find? cid = some l' ∧ l'.collfail = true) ∧
  (∀ (s : State) tree, s.powered = true →
    Answers (.treeRevoke tree) s fun t =>
      (∀ e ∈ t.parts, ∀ x ∈ e.2.trees, x.id ≠ BitVec.ofNat 32 tree) ∧
      ∀ cid l, s.launches.find? cid = some l → l.r.coll = true → l.r.tree = BitVec.ofNat 32 tree → l.complete = false →
        l.reduced = false → ∃ l', t.launches.find? cid = some l' ∧ l'.collfail = true)

/-! ### Events: calls of the service processors -/

/-- R172, R324, R344, R357 to R361: a record of ring 1 is answered by the server of its CALL: TREEREQ is forwarded, or out of range; a
grant adds the tree and answers its number, a refusal answers NOSLOT; TREEREL gives a tree back, where no active launch names
it; IBXSCAN writes a stream's extent records and IBXLEN counts them; any other CALL is UNKNOWN.
Where a clause follows the model's choice and no rule: assumption log 67, 68, 69, 104, 106 and 121. -/
def Obligations.ServiceCallEvents : Prop :=
  (∀ (s : State) part r slot ps ps' v (s1 s2 : State), s.powered = true → Serves s 0 part r slot → r.call = 1 →
    s.argBlock 0 part r.arg0 64 = (.ok ps, s1) → s1.blockRead (blockWho 160 part) r.arg0 64 0 = (.ok ps', v, false, s2) →
    (∀ tr, s2.treeWanted part v = some tr → Answers (.treereq part) s fun t =>
      (t.part part).treeReqs.getLast? = some { tag := r.tag, key := BitVec.ofNat 64 v, tree := tr } ∧
      (t.part part).nuhanNext = r.index + 1 ∧ t.drrs = slot.drrs ∧
      t.outbox = s2.outbox ++ [.treeReq part (v / 256 ^ 8 % 256 ^ 2) (BitVec.ofNat 64 v)]) ∧
    (∀ u d, s2.treeWanted part v = none → Caller s2 part r.tag u d →
      Answers (.treereq part) s fun t => Replied s2 t u d 2 0)) ∧
  (∀ (s : State) part r slot u d (s1 : State), s.powered = true → Serves s 0 part r slot → r.call = 1 →
    s.argBlock 0 part r.arg0 64 = (.denied, s1) → Caller s1 part r.tag u d →
    Answers (.treereq part) s fun t => Replied s1 t u d 5 0 ∧ t.outbox = s1.outbox) ∧
  (∀ (s : State) part key tree, s.powered = true → (part, key) ∈ s.lateTrees →
    Answers (.treeGrantReply part { key, tree }) s fun t => t = { s with lateTrees := s.lateTrees.erase (part, key) }) ∧
  (∀ (s : State) part key r, s.powered = true → (part, key) ∉ s.lateTrees → (s.part part).treeReqs.find? (fun x => x.key == key) = some r →
    let left := (s.part part).treeReqs.erase r
    (∀ u d, r.dead = false → Caller s part r.tag u d →
      (∀ id, Answers (.treeGrantReply part { key, tree := some id }) s fun t => Replied s t u d 0 id.toNat ∧ (t.part part).treeReqs = left ∧
        ((∀ e ∈ s.launches, e.2.part = part → e.2.r.coll = true → e.2.r.tree ≠ id) → { r.tree with id } ∈ (t.part part).trees) ∧
        ((∃ e ∈ s.launches, e.2.part = part ∧ e.2.r.coll = true ∧ e.2.r.tree = id) → (∃ x ∈ (s.part part).trees, x.id = id) →
          (t.part part).trees = (s.part part).trees)) ∧
      Answers (.treeGrantReply part { key, tree := none }) s fun t => Replied s t u d 1 0 ∧ (t.part part).trees = (s.part part).trees ∧
        (t.part part).treeReqs = left) ∧
    (r.dead = true → ∀ tree, Answers (.treeGrantReply part { key, tree }) s fun t =>
      (t.part part).trees = (s.part part).trees ∧ (t.part part).treeReqs = left ∧ t.threads = s.threads)) ∧
  (∀ (s : State) part key tree, s.powered = true → (part, key) ∉ s.lateTrees → (∀ x ∈ (s.part part).treeReqs, x.key ≠ key) →
    Answers (.treeGrantReply part { key, tree }) s fun t => t = s) ∧
  (∀ (s : State) part r slot u d, s.powered = true → Serves s 0 part r slot → r.call = 2 → Caller s part r.tag u d →
    ((∀ x ∈ (s.part part).trees, x.id.toNat ≠ r.arg0) → Answers (.treerel part) s fun t => Replied s t u d 2 0) ∧
    ((∃ x ∈ (s.part part).trees, x.id.toNat = r.arg0) →
      (∀ e ∈ s.launches, e.2.part = part → e.2.r.coll = true → e.2.r.tree.toNat ≠ r.arg0) →
      Answers (.treerel part) s fun t => Replied s t u d 0 0 ∧ (∀ x ∈ (t.part part).trees, x.id.toNat ≠ r.arg0)) ∧
    ((∃ x ∈ (s.part part).trees, x.id.toNat = r.arg0) →
      (∃ e ∈ s.launches, e.2.part = part ∧ e.2.r.coll = true ∧ e.2.r.tree.toNat = r.arg0) →
      Answers (.treerel part) s fun t => Replied s t u d 4 0 ∧ (t.part part).trees = (s.part part).trees)) ∧
  (∀ (s : State) part r slot, s.powered = true → Serves s 1 part r slot → r.call = 0x100 →
    let es := (s.extentsFrom part (r.arg1 % 16) (r.arg1 / 16)).take 4096
    (∀ u d, (s.part part).nstr ≤ r.arg1 % 16 → Caller s part r.tag u d → Answers (.ibxscan part) s fun t => Replied s t u d 2 0) ∧
    (∀ u d ps (s1 : State), r.arg1 % 16 < (s.part part).nstr → s.argBlock 1 part r.arg0 (max 1 (32 * es.length)) = (.ok ps, s1) →
      Caller s1 part r.tag u d → s1.waiters = [] →
      Answers (.ibxscan part) s fun t => Replied s1 t u d 0 es.length ∧
        t.mem = (s1.performWrites 161 ps ((List.range es.length).zip es |>.flatMap fun e =>
          splitBytes 33 (r.arg0 + 32 * e.1) 32 e.2.bytes)).mem)) ∧
  (∀ (s : State) part r slot u d, s.powered = true → Serves s 1 part r slot → r.call = 0x101 → Caller s part r.tag u d →
    ((s.part part).nstr ≤ r.arg0 % 16 → Answers (.ibxlen part) s fun t => Replied s t u d 2 0) ∧
    (r.arg0 % 16 < (s.part part).nstr → Answers (.ibxlen part) s fun t =>
      Replied s t u d 0 (s.extentsFrom part (r.arg0 % 16) 0).length ∧ (t.part part).ibexNext = r.index + 1 ∧ t.mem = s.mem)) ∧
  (∀ (s : State) part r slot u d, s.powered = true → r.call ∉ [1, 2, 0x100, 0x101] → Caller s part r.tag u d →
    (Serves s 0 part r slot → Answers (.unknownCall part) s fun t => Replied s t u d 3 0 ∧ t.mem = s.mem) ∧
    (s.pendingCall 0 part = .empty → Serves s 1 part r slot →
      Answers (.unknownCall part) s fun t => Replied s t u d 3 0 ∧ t.mem = s.mem))

/-! ### Events: suspend, resume and the mailbox -/

/-- R21, R394 to R396, R398 to R400, R415, R473, R478, R479: a suspend command stops every partition's units; with the stops done the
caches are dropped and the package is in Retention, or runs again where the memories do not answer; its deadlines; a wake
resumes with every source's milestone at least the largest saved. A mailbox request is answered by its OP, one at a time; EXTEND extends a
measurement, RETIRE enters a unit into the sealed list.
Where a clause follows the model's choice and no rule: assumption log 70, 71, 72, 76, 77, 94 and 113. -/
def Obligations.SuspendAndMailboxEvents : Prop :=
  (∀ i ∈ ([.suspN, .managementSuspend] : List Instr), ∀ s : State, s.boot.power = .running →
    Answers i s fun t => t.boot.power = .suspending ∧ t.boot.cmdAt = s.rt ∧ t.mem = s.mem ∧
      (∀ p ∈ s.parts.keys, (s.part p).present = true → ∃ r ∈ t.stops, r.part = p ∧ r.has .suspend = true) ∧
      ∀ u r, s.units.find? u = some r → (s.part r.part).present = true → r.part ∈ s.parts.keys →
        (s.part r.part).cores.getLsbD r.core = true → r.groups ≠ [] → ∃ r', t.units.find? u = some r' ∧ r'.stopping.isSome = true) ∧
  (∀ (s : State) i v, s.boot.power = .running → s.mboxNext = some (i, v, false) → v % 256 = 1 →
    Answers .suspend s fun t => t.boot.power = .suspending ∧ i ∈ t.boot.mboxReply ∧ t.boot.wakeSecs = v / 2 ^ 64 % 2 ^ 64) ∧
  (∀ (s : State), s.boot.power = .suspending → (∀ r ∈ s.stops, r.has .suspend = false) →
    Answers (.suspendSave false) s (fun t => t.boot.power = .running ∧ ∃ e ∈ t.errs, e.cls = 0 ∧ e.kind = 0x10) ∧
    (s.log = [] → s.boot.wakePending = false → Answers (.suspendSave true) s fun t =>
      t.boot.power = .retention ∧ t.lines = [] ∧ t.l1 = [] ∧ t.ipath = [] ∧ t.tlb = [] ∧ t.fcache = [] ∧ t.flash = [] ∧
      (∃ r, t.boot.resume = some r ∧ ∀ k, s.msOf k ≤ r.ms) ∧ t.saved = s.saved)) ∧
  (∀ (s : State) r b, s.boot.power = .suspending → r ∈ s.stops → r.has .suspend = true →
    Answers (.suspendSave b) s fun t => t = s) ∧
  (∀ (s : State), s.boot.power = .suspending →
    (s.rt < s.boot.cmdAt + 3 * 10 ^ 15 / 2 → Answers .suspendCollectorTimeout s fun t => t = s) ∧
    (s.boot.cmdAt + 3 * 10 ^ 15 / 2 ≤ s.rt → Answers .suspendCollectorTimeout s fun t =>
      ∀ p ∈ s.parts.keys, s.collecting p = true → p ≠ 0 → (t.part p).fatal = true ∧ ∀ r ∈ t.stops, r.part ≠ p) ∧
    (s.rt < s.boot.cmdAt + 2 * 10 ^ 15 → Answers .suspendDeadline s fun t => t = s) ∧
    (s.boot.cmdAt + 2 * 10 ^ 15 ≤ s.rt → Answers .suspendDeadline s fun t =>
      t.boot.power = .running ∧ (∀ r ∈ t.stops, r.has .suspend = false) ∧ t.boot.mboxReply = [])) ∧
  (∀ (s : State) r, s.boot.power = .retention → s.boot.resume = some r →
    let resumed (t : State) : Prop := t.boot.power = .resuming ∧ t.log = r.side ∧ (∀ k, k ≤ 170 → r.ms ≤ t.msOf k) ∧
      t.mem = s.mem ∧ t.saved = s.saved ∧ t.boot.resumedAt = some s.rt ∧ t.fcache = [] ∧
      (∀ u, (t.thr u).reply = none) ∧ ∀ p, (t.part p).closed = []
    Answers (.wakeN true) s resumed ∧ (s.boot.wakeAt.isSome = true → Answers (.wakeTimerExpiry true) s resumed)) ∧
  (∀ (s : State), s.boot.power = .suspending → Answers (.wakeN true) s fun t => t.boot.wakePending = true ∧ t.boot.power = .suspending) ∧
  (∀ (s : State), s.boot.power = .retention → Answers (.wakeN false) s fun t => t.boot.power = .running ∨ t.boot.power = .recovery) ∧
  (∀ (s : State), s.boot.power = .resuming →
    (s.boot.late = true ∨ s.rt < s.boot.cmdAt + 5 * 10 ^ 15 / 2 → Answers .resumeDeadline s fun t => t = s) ∧
    (s.boot.late = false → s.boot.cmdAt + 5 * 10 ^ 15 / 2 ≤ s.rt → Answers .resumeDeadline s fun t =>
      t.boot.late = true ∧
      ∃ e, t.errs = s.errs ++ [e] ∧ e.cls = 0 ∧ e.kind = 0x10)) ∧
  (∀ (s : State) tree t0, s.powered = true → s.boot.resumedAt = some t0 →
    (s.rt < t0 + 10 * 10 ^ 15 → Answers (.resumeParticipantTimeout tree) s fun t => t = s) ∧
    (t0 + 10 * 10 ^ 15 ≤ s.rt → Answers (.resumeParticipantTimeout tree) s fun t =>
      ∀ cid l, s.launches.find? cid = some l → l.r.coll = true → l.r.tree = BitVec.ofNat 32 tree → l.complete = false →
        l.reduced = false → ∃ l', t.launches.find? cid = some l' ∧ l'.collfail = true)) ∧
  (∀ i ∈ ([.suspend, .quote, .retire, .extend, .mailboxUnknown] : List Instr), ∀ s : State, s.boot.mboxReply ≠ [] →
    Answers i s fun t => t = s) ∧
  (∀ (s : State) i v x ps (s1 s2 : State), s.powered = true → s.mboxNext = some (i, v, false) → v % 256 = 2 →
    s.mboxRead (v / 2 ^ 64 % 2 ^ 64) 64 = (.ok x false, s1) →
    (s1.setMs 169 (s1.msOf 169 + 1)).blockWrite mboxWho (v / 2 ^ 128 % 2 ^ 64) 1024 (natOfBytes (s1.quote (bytesLE 64 x))) 1 = (.ok ps, s2) →
    Answers .quote s fun t => t = s2.mboxAnswer i 0) ∧
  (∀ (s : State) nonce, s.powered = true → Answers (.managementQuote nonce) s fun t =>
    t.boot.mgmtOut = s.quote nonce :: s.boot.mgmtOut ∧ (nonce.length = 64 → (s.quote nonce).take 64 = nonce) ∧ t.mem = s.mem) ∧
  (∀ (s : State) i v, s.powered = true → s.mboxNext = some (i, v, false) → v % 256 = 3 →
    let kind := v / 2 ^ 64 % 2 ^ 64 / 2 ^ 56
    let n := v / 2 ^ 64 % 2 ^ 16
    (unitsOfKind kind ≤ n → Answers .retire s fun t => t = s.mboxAnswer i 2) ∧
    (n < unitsOfKind kind → (kind, n) ∉ s.boot.retList → Answers .retire s fun t =>
      t.boot.retList = s.boot.retList ++ [(kind, n)] ∧ (kind = 2 → t.mem.dead.getLsbD n = true) ∧
      (kind = 1 → t.boot.retCores.getLsbD n = true ∧ ∀ p, (t.part p).cores.getLsbD n = false))) ∧
  (∀ (s : State) i v x (s1 : State), s.powered = true → s.mboxNext = some (i, v, false) → v % 256 = 4 →
    let k := v / 2 ^ 128 % 2 ^ 64 % 8
    let n := v / 2 ^ 128 % 2 ^ 64 / 2 ^ 32
    (k < 4 ∨ n = 0 ∨ 4096 < n → Answers .extend s fun t => t = s.mboxAnswer i 2) ∧
    (4 ≤ k → 1 ≤ n → n ≤ 4096 → s.mboxRead (v / 2 ^ 64 % 2 ^ 64) n = (.ok x false, s1) → Answers .extend s fun t =>
      (∀ m, s1.boot.measures[k]? = some m → t.boot.measures[k]? = some (sha512 (m ++ bytesLE n x))) ∧
      ∀ j, j ≠ k → t.boot.measures[j]? = s1.boot.measures[j]?)) ∧
  (∀ (s : State) i v, s.powered = true → s.mboxNext = some (i, v, false) → v % 256 = 0 ∨ 4 < v % 256 →
    Answers .mailboxUnknown s fun t => t = s.mboxAnswer i 0xFF)

/-! ### Events: boot, power, clocks and errors -/

/-- R166, R392 to R394, R397, R398, R401, R402, R404, R408, R409, R411, R412, R453, R455, R459, R465, R480: a cold boot starts the Oryx core at the
entry of the slot taken, or goes to recovery, or ends fatal to the device on a failed self-test; a loss of power; clock
steps; faults that are fatal to the device; a quiet core idles; error records are posted in order or dropped with OVF, corrected
errors once a second; a scrub counts or poisons; a damaged owner record counts as shared, a side-log entry's data or a register is
poisoned, control state of a unit is fatal to its context, and scheduler state to its partition; a loss of a rail is fatal to
the device, and a corrupted PC-table entry is counted only.
Where a clause follows the model's choice and no rule: assumption log 4, 73, 74, 75, 78, 80, 112, 122 and 132. -/
def Obligations.BootAndErrorEvents : Prop :=
  (∀ (s : State) b, s.boot.power = .off →
    (Answers (.coldBoot false b) s fun t => t.boot.power = .off ∧ t.boot.alert = true ∧ t.boot.kept ≠ []) ∧
    (Answers (.coldBoot true false) s fun t => t.boot.power = .recovery ∧ t.threads = [] ∧
      ∀ p, p < 8 → t.boot.ports.getLsbD p = decide (p = t.boot.mgmtPort.toNat)) ∧
    (∀ slot rs, s.cold.boot.choose = some (slot, rs) → Answers (.coldBoot true true) s fun t =>
      t.boot.power = .running ∧ t.boot.version = BootSlot.version slot ∧ t.boot.minVersion = max s.boot.minVersion (BootSlot.version slot) ∧
      (∀ u, (t.thr u).wait = if u = oryx then .ready else .free) ∧ (t.thr oryx).level = 2 ∧ (t.thr oryx).plvl = 0 ∧
      (t.thr oryx).pc = BitVec.ofNat 64 (BootSlot.entry slot) ∧ (t.part 0).present = true ∧ (t.part 0).lframes = mlfOf rs ∧
      (t.part 0).streams = (s.cold.part 0).streams ∧ (t.part 0).published = (s.cold.part 0).published ∧
      t.tlb = [] ∧ t.units = [] ∧ t.errs = s.boot.kept) ∧
    (s.cold.boot.choose = none → Answers (.coldBoot true true) s fun t => t.boot.power = .recovery ∧ t.threads = [])) ∧
  (∀ (s : State) a b, s.boot.power ≠ .off → Answers (.coldBoot a b) s fun t => t = s) ∧
  (∀ i ∈ ([.powerLoss, .resetNAssert] : List Instr), ∀ s : State,
    Answers i s fun t => t.boot.power = .off ∧ t.boot.resume = none ∧ t.boot.slotA = s.boot.slotA ∧ t.boot.slotB = s.boot.slotB ∧
      t.boot.retList = s.boot.retList ∧ t.inputs = s.inputs) ∧
  (∀ (s : State) slot, s.boot.power = .recovery →
    (s.boot.ports.getLsbD s.boot.mgmtPort.toNat = true → (BootSlot.accepted slot s.boot.minVersion).isSome = true →
      Answers (.recoveryImage slot) s fun t => t.boot.power = .running) ∧
    (BootSlot.accepted slot s.boot.minVersion = none → Answers (.recoveryImage slot) s fun t => t = s)) ∧
  (∀ (s : State), s.powered = true →
    (s.boot.clockAt + 1 < s.boot.clocks.length → Answers .clockStepDown s fun t => t.boot.clockAt = s.boot.clockAt + 1 ∧ t.threads = s.threads) ∧
    (s.boot.clocks.length ≤ s.boot.clockAt + 1 → Answers .clockStepDown s fun t => t = s) ∧
    Answers .clockStepUp s fun t => t.boot.clockAt = s.boot.clockAt - 1 ∧ t.threads = s.threads) ∧
  (∀ (s : State) die, s.boot.power ≠ .off →
    (Answers .thermalAlert s fun t => t.boot.alert = true ∧ t.boot.power = s.boot.power ∧ t.threads = s.threads ∧ t.mem = s.mem) ∧
    (Answers (.thermalTrip die) s fun t => t.boot.power = .off ∧ t.boot.alert = true ∧ ∃ e ∈ t.boot.kept, e.cls = 4 ∧ e.kind = 0x10) ∧
    (Answers .lockstepMismatch s fun t => t.boot.power = .off ∧ t.boot.alert = true ∧ ∃ e ∈ t.boot.kept, e.cls = 4 ∧ e.kind = 0x12)) ∧
  (∀ (s : State) core, s.powered = true → core < 32 →
    (s.coreQuiet core = true → (s.coreRec core).idleSince + 4096 ≤ s.now → Answers (.coreIdleEntry core) s fun t =>
      t.boot.idle.getLsbD core = true ∧ ∀ k, k < 32 → k ≠ core → t.boot.idle.getLsbD k = s.boot.idle.getLsbD k) ∧
    (s.coreQuiet core = false → Answers (.coreIdleEntry core) s fun t => t = s)) ∧
  (∀ (s : State) r rest, s.powered = true → s.errs = r :: rest →
    let p := s.part r.part
    let s0 := (({ s with errs := rest } : State).modPart r.part fun p => { p with eqSeq := p.eqSeq + 1 }).setMs 169 (max (s.msOf 169) r.ms + 1)
    (p.eq.full = true → Answers .errorRecordPost s fun t =>
      (t.part r.part).eqOvf = true ∧ (t.part r.part).eq.tail = p.eq.tail ∧ t.errs = rest ∧ (t.part r.part).eqSeq = p.eqSeq + 1) ∧
    (∀ s1 : State, s0.postRing 169 r.part Part.eq (fun p x => { p with eq := x }) 64 (r.bytes (p.eqSeq + 1)) = (.done, s1) →
      Answers .errorRecordPost s fun t => t = s1)) ∧
  (∀ (s : State) part, s.powered = true → Answers (.correctedSummary part) s fun t =>
    (t.part part).corr = [] ∧ t.errs.length = s.errs.length + (s.part part).corr.length ∧
    (∀ c ∈ (s.part part).corr, ∃ e ∈ t.errs, e.cls = 0 ∧ e.kind = c.kind ∧ e.ukind = c.ukind ∧ e.unit = c.unit ∧ e.count = c.count) ∧
    t.mem = s.mem) ∧
  (∀ (s : State) frame offset, s.powered = true → offset < 65536 → frame < Config.hbmChannels * Config.framesPerChannel →
    let p := ((s.holderOf 0 frame).map Prod.fst).getD 0
    (Answers (.patrolScrub 0 frame offset true) s fun t => t.mem = s.mem ∧ (t.part p).ccnt = min ((s.part p).ccnt + 1) 0xFFFFFFFF) ∧
    (Answers (.patrolScrub 0 frame offset false) s fun t => t.mem.pois (frame * 65536 + offset) = true ∧
      ∃ e ∈ t.errs, e.cls = 1 ∧ e.kind = 0x02)) ∧
  (∀ (s : State) frame offset, s.powered = true → offset < 65536 → frame < Config.lpddrFrames →
    Answers (.patrolScrub 1 frame offset false) s fun t => t.mem.pois (lpBase + frame * 65536 + offset) = true ∧
      ∃ e ∈ t.errs, e.cls = 1 ∧ e.kind = 0x03) ∧
  (∀ (s : State) core offset, s.powered = true → offset < 2 ^ 23 → core < 32 →
    Answers (.patrolScrub 4 core offset false) s fun t => t.mem.pois (tileStoreBase + core * 2 ^ 23 + offset) = true ∧
      ∃ e ∈ t.errs, e.cls = 1 ∧ e.kind = 0x01 ∧ e.unit = core) ∧
  (∀ (s : State) frame home, s.powered = true → home < 2 → Answers (.patrolScrub 7 frame home false) s fun t =>
    t.owners.find? (ownerKey home (frame * 65536 + if home = 1 then lpBase else 0)) = some .shared ∧ t.mem = s.mem ∧
    ∃ e ∈ t.errs, e.cls = 1 ∧ e.kind = 0x07 ∧ e.flags = 4) ∧
  (∀ (s : State) i e, s.powered = true → s.log[i]? = some e →
    Answers (.patrolScrub 9 i 0 false) s fun t => t.log[i]? = some e.poisoned ∧ ∃ e ∈ t.errs, e.cls = 1 ∧ e.kind = 0x01) ∧
  (∀ (s : State) (tid : Tid) n, s.powered = true → (s.thr tid).live = true → (s.thr tid).level = 0 → n < 128 →
    Answers (.patrolScrub 10 tid n false) s fun t =>
      (t.thr tid).g.get {} n = { Tbl.get {} (s.thr tid).g n with poison := true } ∧
      (∀ m, m ≠ n → (t.thr tid).g.get {} m = (s.thr tid).g.get {} m) ∧ ∃ e ∈ t.errs, e.cls = 1 ∧ e.kind = 0x07) ∧
  (∀ (s : State) uid u, s.powered = true → s.units.find? uid = some u →
    Answers (.patrolScrub 13 uid 0 false) s fun t => t = (s.meet u.core).fatalContext u.part 0x07 u.cid 0) ∧
  (∀ (s : State) p, s.powered = true → p < 32 →
    Answers (.patrolScrub 14 p 0 false) s fun t => t = (s.meet 163).fatalPartition p 0x07 (p * 2048) 0 0 0) ∧
  (∀ (s : State) tid offset b, s.powered = true → Answers (.patrolScrub 20 tid offset b) s fun t =>
    (t.part (s.thr tid).part).ccnt = min ((s.part (s.thr tid).part).ccnt + 1) 0xFFFFFFFF ∧ t.errs = s.errs ∧ t.threads = s.threads) ∧
  (∀ (s : State) a b c, s.powered = true → Answers (.patrolScrub 21 a b c) s fun t =>
    t.boot.power = .off ∧ t.boot.alert = true ∧ ∃ e ∈ t.boot.kept, e.cls = 4 ∧ e.kind = 0x10)

end Slice0
end

