-- ==== Sys2Proof/Laws/Tbl.lean ====
section
/-! SUPPORT. Laws of tables: reading after writing, and that every operation keeps the canonical form. -/
namespace Sys2Proof.Machine

variable {α : Type}

@[simp] theorem Tbl.find?_nil (k : Nat) : Tbl.find? ([] : Tbl α) k = none := rfl

theorem Tbl.find?_cons (k' : Nat) (v : α) (r : Tbl α) (k : Nat) :
    Tbl.find? ((k', v) :: r) k = if k' = k then some v else Tbl.find? r k := rfl

@[simp] theorem Tbl.find?_ins_self (t : Tbl α) (k : Nat) (v : α) : Tbl.find? (Tbl.ins t k v) k = some v := by
  induction t with
  | nil => simp [Tbl.ins, Tbl.find?_cons]
  | cons e r ih =>
    obtain ⟨k', v'⟩ := e
    simp only [Tbl.ins]
    split
    · simp [Tbl.find?_cons]
    · split
      · simp [Tbl.find?_cons]
      · rename_i h; simp [Tbl.find?_cons, Ne.symm h, ih]

@[simp] theorem Tbl.find?_ins_ne (t : Tbl α) (k j : Nat) (v : α) (h : j ≠ k) :
    Tbl.find? (Tbl.ins t k v) j = Tbl.find? t j := by
  induction t with
  | nil => simp [Tbl.ins, Tbl.find?_cons, Ne.symm h]
  | cons e r ih =>
    obtain ⟨k', v'⟩ := e
    simp only [Tbl.ins]
    split
    · simp [Tbl.find?_cons, Ne.symm h]
    · split
      · rename_i h'; simp [Tbl.find?_cons, ← h', Ne.symm h]
      · simp [Tbl.find?_cons, ih]

@[simp] theorem Tbl.find?_del_self (t : Tbl α) (k : Nat) : Tbl.find? (Tbl.del t k) k = none := by
  induction t with
  | nil => rfl
  | cons e r ih =>
    obtain ⟨k', v'⟩ := e
    simp only [Tbl.del]
    split
    · exact ih
    · rename_i h; simp [Tbl.find?_cons, h, ih]

@[simp] theorem Tbl.find?_del_ne (t : Tbl α) (k j : Nat) (h : j ≠ k) : Tbl.find? (Tbl.del t k) j = Tbl.find? t j := by
  induction t with
  | nil => rfl
  | cons e r ih =>
    obtain ⟨k', v'⟩ := e
    simp only [Tbl.del]
    split
    · rename_i h'; simp [Tbl.find?_cons, h', Ne.symm h, ih]
    · simp [Tbl.find?_cons, ih]

theorem Tbl.find?_adjust (t : Tbl α) (k j : Nat) (f : α → α) :
    Tbl.find? (Tbl.adjust t k f) j = if j = k then (Tbl.find? t j).map f else Tbl.find? t j := by
  induction t with
  | nil => simp [Tbl.adjust]
  | cons e r ih =>
    obtain ⟨k', v'⟩ := e
    simp only [Tbl.adjust]
    split
    · rename_i h
      subst h
      by_cases hj : k' = j
      · subst hj; simp [Tbl.find?_cons]
      · simp [Tbl.find?_cons, hj, Ne.symm hj]
    · rename_i h
      by_cases hj : k' = j
      · subst hj; simp [Tbl.find?_cons, h]
      · simp [Tbl.find?_cons, hj, ih]

theorem Tbl.find?_map (t : Tbl α) (f : Nat → α → α) (k : Nat) :
    Tbl.find? (t.map fun e => (e.1, f e.1 e.2)) k = (Tbl.find? t k).map (f k) := by
  induction t with
  | nil => rfl
  | cons e r ih =>
    obtain ⟨k', v'⟩ := e
    by_cases h : k' = k
    · subst h; simp [Tbl.find?_cons]
    · simp [Tbl.find?_cons, h, ih]

theorem Tbl.find?_mem {t : Tbl α} {k : Nat} {v : α} (h : Tbl.find? t k = some v) : (k, v) ∈ t := by
  induction t with
  | nil => cases h
  | cons e r ih =>
    obtain ⟨k', v'⟩ := e
    rw [Tbl.find?_cons] at h
    split at h
    · rename_i hk; subst hk; cases h; exact List.mem_cons_self
    · exact List.mem_cons_of_mem _ (ih h)

section Default
variable [DecidableEq α] (d : α)

@[simp] theorem Tbl.get_put_self (t : Tbl α) (k : Nat) (v : α) : Tbl.get d (Tbl.put d t k v) k = v := by
  unfold Tbl.get Tbl.put
  split
  · rename_i h; simp [h]
  · simp

@[simp] theorem Tbl.get_put_ne (t : Tbl α) (k j : Nat) (v : α) (h : j ≠ k) :
    Tbl.get d (Tbl.put d t k v) j = Tbl.get d t j := by
  unfold Tbl.get Tbl.put
  split <;> simp [h]

@[simp] theorem Tbl.get_modify_self (t : Tbl α) (k : Nat) (f : α → α) :
    Tbl.get d (Tbl.modify d t k f) k = f (Tbl.get d t k) := by
  simp [Tbl.modify]

@[simp] theorem Tbl.get_modify_ne (t : Tbl α) (k j : Nat) (f : α → α) (h : j ≠ k) :
    Tbl.get d (Tbl.modify d t k f) j = Tbl.get d t j := by
  simp [Tbl.modify, h]

/-! ### The canonical form -/

/-- Keys above a bound. -/
def Tbl.above (b : Option Nat) (k : Nat) : Prop := ∀ x, b = some x → x < k

omit [DecidableEq α] in
theorem Tbl.sortedAbove_cons (k : Nat) (v : α) (r : Tbl α) (b : Option Nat) :
    Tbl.sortedAbove ((k, v) :: r) b = true ↔ Tbl.above b k ∧ Tbl.sortedAbove r (some k) = true := by
  cases b with
  | none => simp [Tbl.sortedAbove, Tbl.above]
  | some x => simp [Tbl.sortedAbove, Tbl.above]

omit [DecidableEq α] in
theorem Tbl.sortedAbove_weaken {t : Tbl α} {b c : Option Nat} (h : Tbl.sortedAbove t c = true)
    (hb : ∀ k, Tbl.above c k → Tbl.above b k) : Tbl.sortedAbove t b = true := by
  cases t with
  | nil => cases b <;> rfl
  | cons e r =>
    obtain ⟨k, v⟩ := e
    rw [Tbl.sortedAbove_cons] at h ⊢
    exact ⟨hb k h.1, h.2⟩

omit [DecidableEq α] in
theorem Tbl.sortedAbove_ins (t : Tbl α) (k : Nat) (v : α) (b : Option Nat) (hb : Tbl.above b k)
    (h : Tbl.sortedAbove t b = true) : Tbl.sortedAbove (Tbl.ins t k v) b = true := by
  induction t generalizing b with
  | nil => simp only [Tbl.ins, Tbl.sortedAbove_cons]; exact ⟨hb, rfl⟩
  | cons e r ih =>
    obtain ⟨k', v'⟩ := e
    rw [Tbl.sortedAbove_cons] at h
    simp only [Tbl.ins]
    split
    · rename_i hk
      simp only [Tbl.sortedAbove_cons]
      exact ⟨hb, fun x hx => by cases hx; exact hk, h.2⟩
    · split
      · rename_i hk; subst hk
        rw [Tbl.sortedAbove_cons]; exact h
      · rename_i h1 h2
        rw [Tbl.sortedAbove_cons]
        exact ⟨h.1, ih _ (fun x hx => by cases hx; omega) h.2⟩

omit [DecidableEq α] in
theorem Tbl.sortedAbove_filter (t : Tbl α) (p : Nat × α → Bool) (b : Option Nat) (h : Tbl.sortedAbove t b = true) :
    Tbl.sortedAbove (t.filter p) b = true := by
  induction t generalizing b with
  | nil => exact h
  | cons e r ih =>
    obtain ⟨k, v⟩ := e
    rw [Tbl.sortedAbove_cons] at h
    rw [List.filter_cons]
    split
    · rw [Tbl.sortedAbove_cons]; exact ⟨h.1, ih _ h.2⟩
    · exact ih _ (Tbl.sortedAbove_weaken h.2 fun x hx y hy => Nat.lt_trans (h.1 y hy) (hx k rfl))

omit [DecidableEq α] in
theorem Tbl.del_eq_filter (t : Tbl α) (k : Nat) : Tbl.del t k = t.filter fun e => !decide (e.1 = k) := by
  induction t with
  | nil => rfl
  | cons e r ih =>
    obtain ⟨k', v⟩ := e
    simp only [Tbl.del, List.filter_cons]
    by_cases h : k' = k <;> simp [h, ih]

omit [DecidableEq α] in
theorem Tbl.mem_ins {t : Tbl α} {k : Nat} {v : α} {e : Nat × α} (h : e ∈ Tbl.ins t k v) : e = (k, v) ∨ e ∈ t := by
  induction t with
  | nil => simpa [Tbl.ins] using h
  | cons x r ih =>
    obtain ⟨k', v'⟩ := x
    simp only [Tbl.ins] at h
    split at h
    · simpa using h
    · split at h
      · rcases List.mem_cons.1 h with h | h
        · exact .inl h
        · exact .inr (List.mem_cons_of_mem _ h)
      · rcases List.mem_cons.1 h with h | h
        · exact .inr (h ▸ List.mem_cons_self)
        · exact (ih h).imp id (List.mem_cons_of_mem _)

theorem Tbl.wf_iff (t : Tbl α) : Tbl.wf d t = true ↔ Tbl.sortedAbove t none = true ∧ ∀ e ∈ t, e.2 ≠ d := by
  simp [Tbl.wf]

/-- Listing a value that is not the default keeps the form. -/
theorem Tbl.wf_ins {t : Tbl α} (k : Nat) {v : α} (hv : v ≠ d) (h : Tbl.wf d t = true) : Tbl.wf d (Tbl.ins t k v) = true := by
  rw [Tbl.wf_iff] at h ⊢
  refine ⟨Tbl.sortedAbove_ins _ _ _ _ (fun x hx => nomatch hx) h.1, fun e he => ?_⟩
  rcases Tbl.mem_ins he with rfl | he
  · exact hv
  · exact h.2 e he

theorem Tbl.wf_filter {t : Tbl α} (p : Nat × α → Bool) (h : Tbl.wf d t = true) : Tbl.wf d (t.filter p) = true := by
  rw [Tbl.wf_iff] at h ⊢
  exact ⟨Tbl.sortedAbove_filter _ _ _ h.1, fun e he => h.2 e (List.mem_filter.1 he).1⟩

theorem Tbl.wf_del {t : Tbl α} (k : Nat) (h : Tbl.wf d t = true) : Tbl.wf d (Tbl.del t k) = true := by
  rw [Tbl.del_eq_filter]; exact Tbl.wf_filter d _ h

/-- Writing any value keeps the form. -/
theorem Tbl.wf_put {t : Tbl α} (k : Nat) (v : α) (h : Tbl.wf d t = true) : Tbl.wf d (Tbl.put d t k v) = true := by
  unfold Tbl.put
  split
  · exact Tbl.wf_del d k h
  · exact Tbl.wf_ins d k ‹_› h

end Default

end Sys2Proof.Machine
end

