-- ==== Sys2Proof/Laws/Memory.lean ====
section
/-! SUPPORT. Every operation on memory keeps its canonical form, and the memory at reset has it; what each leaves alone. -/
namespace Sys2Proof.Machine

theorem Mem.wf_iff (m : Mem) :
    m.wf = true ↔ Tbl.wf 0 m.bytes = true ∧ Tbl.wf 0 m.sides = true ∧ Tbl.wf false m.poison = true := by
  simp [Mem.wf, and_assoc]

/-- The memory at reset is in canonical form. -/
theorem reset_mem_wf : (State.reset.mem).wf = true := rfl

/-- A fold of operations that keep the form keeps it. -/
theorem Mem.wf_foldl {β : Type} (f : Mem → β → Mem) (hf : ∀ m b, m.wf = true → (f m b).wf = true) (l : List β) (m : Mem)
    (h : m.wf = true) : (l.foldl f m).wf = true := by
  induction l generalizing m with
  | nil => exact h
  | cons b r ih => exact ih _ (hf m b h)

/-- Taking entries away keeps the form. -/
theorem Mem.wf_filter (m : Mem) (p : Nat × Byte → Bool) (q : Nat × BitVec 16 → Bool) (r : Nat × Bool → Bool) (d : BitVec 256)
    (h : m.wf = true) : (Mem.mk (m.bytes.filter p) (m.sides.filter q) (m.poison.filter r) d).wf = true := by
  rw [Mem.wf_iff] at h ⊢
  exact ⟨Tbl.wf_filter _ _ h.1, Tbl.wf_filter _ _ h.2.1, Tbl.wf_filter _ _ h.2.2⟩

/-- Retiring a channel keeps the form. -/
theorem Mem.wf_dead (m : Mem) (d : BitVec 256) (h : m.wf = true) : ({ m with dead := d } : Mem).wf = true := h

theorem Mem.wf_writeN (n : Nat) (m : Mem) (a x : Nat) (h : m.wf = true) : (m.writeN a n x).wf = true := by
  induction n generalizing m a x with
  | zero => exact h
  | succ n ih =>
    refine ih _ _ _ ?_
    split
    · exact h
    · rw [Mem.wf_iff] at h ⊢
      exact ⟨Tbl.wf_put _ _ _ h.1, h.2⟩

theorem Mem.wf_setSide (m : Mem) (a : Nat) (v : BitVec 16) (h : m.wf = true) : (m.setSide a v).wf = true := by
  unfold Mem.setSide
  split
  · exact h
  · rw [Mem.wf_iff] at h ⊢
    exact ⟨h.1, Tbl.wf_put _ _ _ h.2.1, h.2.2⟩

theorem Mem.wf_setPois (m : Mem) (a : Nat) (v : Bool) (h : m.wf = true) : (m.setPois a v).wf = true := by
  unfold Mem.setPois
  split
  · exact h
  · rw [Mem.wf_iff] at h ⊢
    exact ⟨h.1, h.2.1, Tbl.wf_put _ _ _ h.2.2⟩

theorem Mem.wf_setSector (m : Mem) (a : Nat) (v : SectorLit) (h : m.wf = true) : (m.setSector a v).wf = true :=
  Mem.wf_setPois _ _ _ (Mem.wf_setSide _ _ _ (Mem.wf_writeN _ _ _ _ h))

theorem Mem.wf_zeroRange (m : Mem) (lo hi : Nat) (h : m.wf = true) : (m.zeroRange lo hi).wf = true := by
  unfold Mem.zeroRange
  split
  · exact h
  · exact Mem.wf_filter _ _ _ _ _ h

theorem Mem.wf_zeroWay (m : Mem) (i : Nat) (h : m.wf = true) : (m.zeroWay i).wf = true := Mem.wf_zeroRange _ _ _ h

theorem Mem.wf_putSectors (m : Mem) (as : List Nat) (vs : List SectorLit) (h : m.wf = true) : (m.putSectors as vs).wf = true :=
  Mem.wf_foldl _ (fun _ _ => Mem.wf_setSector _ _ _) _ _ h

theorem Mem.wf_damage (m : Mem) (phys : Nat) (damaged : BitVec 4) (h : m.wf = true) : (m.damage phys damaged).wf = true :=
  Mem.wf_foldl _ (fun _ _ => Mem.wf_setPois _ _ _) _ _ h

theorem Mem.wf_apply (m : Mem) (p : Place) (w : SecWrite) (h : m.wf = true) : (m.apply p w).wf = true := by
  unfold Mem.apply
  dsimp only
  have hw := Mem.wf_writeN w.n m (p.phys + w.va % 128) w.val h
  repeat' split
  all_goals simp only [Mem.wf_setPois, Mem.wf_setSide, hw]

theorem Mem.wf_mapImage (m : Mem) (page n N : Nat) (h : m.wf = true) : (m.mapImage page n N).wf = true :=
  Mem.wf_foldl _ (fun _ _ => Mem.wf_writeN _ _ _ _) _ _ h

theorem Mem.wf_writeBytes (l : List Byte) (m : Mem) (a : Nat) (h : m.wf = true) : (m.writeBytes a l).wf = true := by
  induction l generalizing m a with
  | nil => exact h
  | cons b r ih => exact ih _ _ (Mem.wf_writeN _ _ _ _ h)

/-- Entries of a canonical table listed again at other keys keep the form. -/
theorem Tbl.wf_move {α : Type} [DecidableEq α] (d : α) (t : Tbl α) (src : List (Nat × α)) (key : Nat × α → Nat)
    (hs : ∀ e ∈ src, e.2 ≠ d) (h : Tbl.wf d t = true) :
    Tbl.wf d (src.foldl (fun t e => Tbl.ins t (key e) e.2) t) = true := by
  induction src generalizing t with
  | nil => exact h
  | cons e r ih =>
    exact ih _ (fun x hx => hs x (List.mem_cons_of_mem _ hx)) (Tbl.wf_ins d _ (hs e List.mem_cons_self) h)

theorem Mem.wf_copyRange (m : Mem) (src dst n : Nat) (h : m.wf = true) : (m.copyRange src dst n).wf = true := by
  unfold Mem.copyRange
  dsimp only
  have hz := Mem.wf_zeroRange m dst (dst + n) h
  split
  · exact h
  · split
    · exact Mem.wf_foldl _ (fun _ _ => Mem.wf_setPois _ _ _) _ _ hz
    · rw [Mem.wf_iff] at h hz ⊢
      refine ⟨Tbl.wf_move _ _ _ _ (fun e he => ?_) hz.1, Tbl.wf_move _ _ _ _ (fun e he => ?_) hz.2.1,
        Tbl.wf_move _ _ _ _ (fun e he => ?_) hz.2.2⟩
      · exact ((Tbl.wf_iff _ _).1 h.1).2 e (List.mem_filter.1 he).1
      · exact ((Tbl.wf_iff _ _).1 h.2.1).2 e (List.mem_filter.1 he).1
      · exact ((Tbl.wf_iff _ _).1 h.2.2).2 e (List.mem_filter.1 he).1

/-! ### What a write leaves alone -/

@[simp] theorem Mem.setSide_bytes (m : Mem) (a : Nat) (v : BitVec 16) : (m.setSide a v).bytes = m.bytes := by
  unfold Mem.setSide; split <;> rfl
@[simp] theorem Mem.setPois_bytes (m : Mem) (a : Nat) (v : Bool) : (m.setPois a v).bytes = m.bytes := by
  unfold Mem.setPois; split <;> rfl
@[simp] theorem Mem.setPois_sides (m : Mem) (a : Nat) (v : Bool) : (m.setPois a v).sides = m.sides := by
  unfold Mem.setPois; split <;> rfl
@[simp] theorem Mem.setSide_poison (m : Mem) (a : Nat) (v : BitVec 16) : (m.setSide a v).poison = m.poison := by
  unfold Mem.setSide; split <;> rfl
@[simp] theorem Mem.setSide_dead (m : Mem) (a : Nat) (v : BitVec 16) : (m.setSide a v).dead = m.dead := by
  unfold Mem.setSide; split <;> rfl
@[simp] theorem Mem.setPois_dead (m : Mem) (a : Nat) (v : Bool) : (m.setPois a v).dead = m.dead := by
  unfold Mem.setPois; split <;> rfl
@[simp] theorem Mem.writeN_dead (n : Nat) (m : Mem) (a x : Nat) : (m.writeN a n x).dead = m.dead := by
  induction n generalizing m a x with
  | zero => rfl
  | succ n ih => rw [Mem.writeN, ih]; split <;> rfl

end Sys2Proof.Machine
end

