-- ==== Sys2Proof/Laws/State.lean ====
section
/-! SUPPORT. One lemma per field per update of the state, so that no proof unfolds a record update, and what each update's
own entry reads as after it. -/
namespace Sys2Proof.Machine

/-! ### State.modThr -/

@[simp] theorem State.modThr_units (s : State) (t : Tid) (f : Thread → Thread) : (s.modThr t f).units = s.units := rfl
@[simp] theorem State.modThr_nextUnit (s : State) (t : Tid) (f : Thread → Thread) : (s.modThr t f).nextUnit = s.nextUnit := rfl
@[simp] theorem State.modThr_cores (s : State) (t : Tid) (f : Thread → Thread) : (s.modThr t f).cores = s.cores := rfl
@[simp] theorem State.modThr_quads (s : State) (t : Tid) (f : Thread → Thread) : (s.modThr t f).quads = s.quads := rfl
@[simp] theorem State.modThr_cvs (s : State) (t : Tid) (f : Thread → Thread) : (s.modThr t f).cvs = s.cvs := rfl
@[simp] theorem State.modThr_pairs (s : State) (t : Tid) (f : Thread → Thread) : (s.modThr t f).pairs = s.pairs := rfl
@[simp] theorem State.modThr_accs (s : State) (t : Tid) (f : Thread → Thread) : (s.modThr t f).accs = s.accs := rfl
@[simp] theorem State.modThr_regions (s : State) (t : Tid) (f : Thread → Thread) : (s.modThr t f).regions = s.regions := rfl
@[simp] theorem State.modThr_mem (s : State) (t : Tid) (f : Thread → Thread) : (s.modThr t f).mem = s.mem := rfl
@[simp] theorem State.modThr_tlb (s : State) (t : Tid) (f : Thread → Thread) : (s.modThr t f).tlb = s.tlb := rfl
@[simp] theorem State.modThr_owners (s : State) (t : Tid) (f : Thread → Thread) : (s.modThr t f).owners = s.owners := rfl
@[simp] theorem State.modThr_lines (s : State) (t : Tid) (f : Thread → Thread) : (s.modThr t f).lines = s.lines := rfl
@[simp] theorem State.modThr_leases (s : State) (t : Tid) (f : Thread → Thread) : (s.modThr t f).leases = s.leases := rfl
@[simp] theorem State.modThr_l1 (s : State) (t : Tid) (f : Thread → Thread) : (s.modThr t f).l1 = s.l1 := rfl
@[simp] theorem State.modThr_ipath (s : State) (t : Tid) (f : Thread → Thread) : (s.modThr t f).ipath = s.ipath := rfl
@[simp] theorem State.modThr_faults (s : State) (t : Tid) (f : Thread → Thread) : (s.modThr t f).faults = s.faults := rfl
@[simp] theorem State.modThr_log (s : State) (t : Tid) (f : Thread → Thread) : (s.modThr t f).log = s.log := rfl
@[simp] theorem State.modThr_ms (s : State) (t : Tid) (f : Thread → Thread) : (s.modThr t f).ms = s.ms := rfl
@[simp] theorem State.modThr_seqs (s : State) (t : Tid) (f : Thread → Thread) : (s.modThr t f).seqs = s.seqs := rfl
@[simp] theorem State.modThr_msSync (s : State) (t : Tid) (f : Thread → Thread) : (s.modThr t f).msSync = s.msSync := rfl
@[simp] theorem State.modThr_waiters (s : State) (t : Tid) (f : Thread → Thread) : (s.modThr t f).waiters = s.waiters := rfl
@[simp] theorem State.modThr_due (s : State) (t : Tid) (f : Thread → Thread) : (s.modThr t f).due = s.due := rfl
@[simp] theorem State.modThr_shadow (s : State) (t : Tid) (f : Thread → Thread) : (s.modThr t f).shadow = s.shadow := rfl
@[simp] theorem State.modThr_parts (s : State) (t : Tid) (f : Thread → Thread) : (s.modThr t f).parts = s.parts := rfl
@[simp] theorem State.modThr_croot (s : State) (t : Tid) (f : Thread → Thread) : (s.modThr t f).croot = s.croot := rfl
@[simp] theorem State.modThr_cmask (s : State) (t : Tid) (f : Thread → Thread) : (s.modThr t f).cmask = s.cmask := rfl
@[simp] theorem State.modThr_queues (s : State) (t : Tid) (f : Thread → Thread) : (s.modThr t f).queues = s.queues := rfl
@[simp] theorem State.modThr_launches (s : State) (t : Tid) (f : Thread → Thread) : (s.modThr t f).launches = s.launches := rfl
@[simp] theorem State.modThr_nextOrder (s : State) (t : Tid) (f : Thread → Thread) : (s.modThr t f).nextOrder = s.nextOrder := rfl
@[simp] theorem State.modThr_deficits (s : State) (t : Tid) (f : Thread → Thread) : (s.modThr t f).deficits = s.deficits := rfl
@[simp] theorem State.modThr_visits (s : State) (t : Tid) (f : Thread → Thread) : (s.modThr t f).visits = s.visits := rfl
@[simp] theorem State.modThr_selectors (s : State) (t : Tid) (f : Thread → Thread) : (s.modThr t f).selectors = s.selectors := rfl
@[simp] theorem State.modThr_phaseRuns (s : State) (t : Tid) (f : Thread → Thread) : (s.modThr t f).phaseRuns = s.phaseRuns := rfl
@[simp] theorem State.modThr_saved (s : State) (t : Tid) (f : Thread → Thread) : (s.modThr t f).saved = s.saved := rfl
@[simp] theorem State.modThr_findings (s : State) (t : Tid) (f : Thread → Thread) : (s.modThr t f).findings = s.findings := rfl
@[simp] theorem State.modThr_lateTrees (s : State) (t : Tid) (f : Thread → Thread) : (s.modThr t f).lateTrees = s.lateTrees := rfl
@[simp] theorem State.modThr_stops (s : State) (t : Tid) (f : Thread → Thread) : (s.modThr t f).stops = s.stops := rfl
@[simp] theorem State.modThr_pools (s : State) (t : Tid) (f : Thread → Thread) : (s.modThr t f).pools = s.pools := rfl
@[simp] theorem State.modThr_cmds (s : State) (t : Tid) (f : Thread → Thread) : (s.modThr t f).cmds = s.cmds := rfl
@[simp] theorem State.modThr_nextCmd (s : State) (t : Tid) (f : Thread → Thread) : (s.modThr t f).nextCmd = s.nextCmd := rfl
@[simp] theorem State.modThr_chains (s : State) (t : Tid) (f : Thread → Thread) : (s.modThr t f).chains = s.chains := rfl
@[simp] theorem State.modThr_drrs (s : State) (t : Tid) (f : Thread → Thread) : (s.modThr t f).drrs = s.drrs := rfl
@[simp] theorem State.modThr_clearing (s : State) (t : Tid) (f : Thread → Thread) : (s.modThr t f).clearing = s.clearing := rfl
@[simp] theorem State.modThr_turns (s : State) (t : Tid) (f : Thread → Thread) : (s.modThr t f).turns = s.turns := rfl
@[simp] theorem State.modThr_fcache (s : State) (t : Tid) (f : Thread → Thread) : (s.modThr t f).fcache = s.fcache := rfl
@[simp] theorem State.modThr_reqs (s : State) (t : Tid) (f : Thread → Thread) : (s.modThr t f).reqs = s.reqs := rfl
@[simp] theorem State.modThr_outbox (s : State) (t : Tid) (f : Thread → Thread) : (s.modThr t f).outbox = s.outbox := rfl
@[simp] theorem State.modThr_nextReq (s : State) (t : Tid) (f : Thread → Thread) : (s.modThr t f).nextReq = s.nextReq := rfl
@[simp] theorem State.modThr_flash (s : State) (t : Tid) (f : Thread → Thread) : (s.modThr t f).flash = s.flash := rfl
@[simp] theorem State.modThr_errs (s : State) (t : Tid) (f : Thread → Thread) : (s.modThr t f).errs = s.errs := rfl
@[simp] theorem State.modThr_boot (s : State) (t : Tid) (f : Thread → Thread) : (s.modThr t f).boot = s.boot := rfl
@[simp] theorem State.modThr_nextCall (s : State) (t : Tid) (f : Thread → Thread) : (s.modThr t f).nextCall = s.nextCall := rfl
@[simp] theorem State.modThr_nextTurn (s : State) (t : Tid) (f : Thread → Thread) : (s.modThr t f).nextTurn = s.nextTurn := rfl
@[simp] theorem State.modThr_now (s : State) (t : Tid) (f : Thread → Thread) : (s.modThr t f).now = s.now := rfl
@[simp] theorem State.modThr_rt (s : State) (t : Tid) (f : Thread → Thread) : (s.modThr t f).rt = s.rt := rfl
@[simp] theorem State.modThr_cur (s : State) (t : Tid) (f : Thread → Thread) : (s.modThr t f).cur = s.cur := rfl
@[simp] theorem State.modThr_bundle (s : State) (t : Tid) (f : Thread → Thread) : (s.modThr t f).bundle = s.bundle := rfl
@[simp] theorem State.modThr_latch (s : State) (t : Tid) (f : Thread → Thread) : (s.modThr t f).latch = s.latch := rfl
@[simp] theorem State.modThr_combined (s : State) (t : Tid) (f : Thread → Thread) : (s.modThr t f).combined = s.combined := rfl
@[simp] theorem State.modThr_inputs (s : State) (t : Tid) (f : Thread → Thread) : (s.modThr t f).inputs = s.inputs := rfl
@[simp] theorem State.modThr_free (s : State) (t : Tid) (f : Thread → Thread) : (s.modThr t f).free = s.free := rfl

/-! ### State.modPart -/

@[simp] theorem State.modPart_threads (s : State) (p : Nat) (f : Part → Part) : (s.modPart p f).threads = s.threads := rfl
@[simp] theorem State.modPart_units (s : State) (p : Nat) (f : Part → Part) : (s.modPart p f).units = s.units := rfl
@[simp] theorem State.modPart_nextUnit (s : State) (p : Nat) (f : Part → Part) : (s.modPart p f).nextUnit = s.nextUnit := rfl
@[simp] theorem State.modPart_cores (s : State) (p : Nat) (f : Part → Part) : (s.modPart p f).cores = s.cores := rfl
@[simp] theorem State.modPart_quads (s : State) (p : Nat) (f : Part → Part) : (s.modPart p f).quads = s.quads := rfl
@[simp] theorem State.modPart_cvs (s : State) (p : Nat) (f : Part → Part) : (s.modPart p f).cvs = s.cvs := rfl
@[simp] theorem State.modPart_pairs (s : State) (p : Nat) (f : Part → Part) : (s.modPart p f).pairs = s.pairs := rfl
@[simp] theorem State.modPart_accs (s : State) (p : Nat) (f : Part → Part) : (s.modPart p f).accs = s.accs := rfl
@[simp] theorem State.modPart_regions (s : State) (p : Nat) (f : Part → Part) : (s.modPart p f).regions = s.regions := rfl
@[simp] theorem State.modPart_mem (s : State) (p : Nat) (f : Part → Part) : (s.modPart p f).mem = s.mem := rfl
@[simp] theorem State.modPart_tlb (s : State) (p : Nat) (f : Part → Part) : (s.modPart p f).tlb = s.tlb := rfl
@[simp] theorem State.modPart_owners (s : State) (p : Nat) (f : Part → Part) : (s.modPart p f).owners = s.owners := rfl
@[simp] theorem State.modPart_lines (s : State) (p : Nat) (f : Part → Part) : (s.modPart p f).lines = s.lines := rfl
@[simp] theorem State.modPart_leases (s : State) (p : Nat) (f : Part → Part) : (s.modPart p f).leases = s.leases := rfl
@[simp] theorem State.modPart_l1 (s : State) (p : Nat) (f : Part → Part) : (s.modPart p f).l1 = s.l1 := rfl
@[simp] theorem State.modPart_ipath (s : State) (p : Nat) (f : Part → Part) : (s.modPart p f).ipath = s.ipath := rfl
@[simp] theorem State.modPart_faults (s : State) (p : Nat) (f : Part → Part) : (s.modPart p f).faults = s.faults := rfl
@[simp] theorem State.modPart_log (s : State) (p : Nat) (f : Part → Part) : (s.modPart p f).log = s.log := rfl
@[simp] theorem State.modPart_ms (s : State) (p : Nat) (f : Part → Part) : (s.modPart p f).ms = s.ms := rfl
@[simp] theorem State.modPart_seqs (s : State) (p : Nat) (f : Part → Part) : (s.modPart p f).seqs = s.seqs := rfl
@[simp] theorem State.modPart_msSync (s : State) (p : Nat) (f : Part → Part) : (s.modPart p f).msSync = s.msSync := rfl
@[simp] theorem State.modPart_waiters (s : State) (p : Nat) (f : Part → Part) : (s.modPart p f).waiters = s.waiters := rfl
@[simp] theorem State.modPart_due (s : State) (p : Nat) (f : Part → Part) : (s.modPart p f).due = s.due := rfl
@[simp] theorem State.modPart_shadow (s : State) (p : Nat) (f : Part → Part) : (s.modPart p f).shadow = s.shadow := rfl
@[simp] theorem State.modPart_croot (s : State) (p : Nat) (f : Part → Part) : (s.modPart p f).croot = s.croot := rfl
@[simp] theorem State.modPart_cmask (s : State) (p : Nat) (f : Part → Part) : (s.modPart p f).cmask = s.cmask := rfl
@[simp] theorem State.modPart_queues (s : State) (p : Nat) (f : Part → Part) : (s.modPart p f).queues = s.queues := rfl
@[simp] theorem State.modPart_launches (s : State) (p : Nat) (f : Part → Part) : (s.modPart p f).launches = s.launches := rfl
@[simp] theorem State.modPart_nextOrder (s : State) (p : Nat) (f : Part → Part) : (s.modPart p f).nextOrder = s.nextOrder := rfl
@[simp] theorem State.modPart_deficits (s : State) (p : Nat) (f : Part → Part) : (s.modPart p f).deficits = s.deficits := rfl
@[simp] theorem State.modPart_visits (s : State) (p : Nat) (f : Part → Part) : (s.modPart p f).visits = s.visits := rfl
@[simp] theorem State.modPart_selectors (s : State) (p : Nat) (f : Part → Part) : (s.modPart p f).selectors = s.selectors := rfl
@[simp] theorem State.modPart_phaseRuns (s : State) (p : Nat) (f : Part → Part) : (s.modPart p f).phaseRuns = s.phaseRuns := rfl
@[simp] theorem State.modPart_saved (s : State) (p : Nat) (f : Part → Part) : (s.modPart p f).saved = s.saved := rfl
@[simp] theorem State.modPart_findings (s : State) (p : Nat) (f : Part → Part) : (s.modPart p f).findings = s.findings := rfl
@[simp] theorem State.modPart_lateTrees (s : State) (p : Nat) (f : Part → Part) : (s.modPart p f).lateTrees = s.lateTrees := rfl
@[simp] theorem State.modPart_stops (s : State) (p : Nat) (f : Part → Part) : (s.modPart p f).stops = s.stops := rfl
@[simp] theorem State.modPart_pools (s : State) (p : Nat) (f : Part → Part) : (s.modPart p f).pools = s.pools := rfl
@[simp] theorem State.modPart_cmds (s : State) (p : Nat) (f : Part → Part) : (s.modPart p f).cmds = s.cmds := rfl
@[simp] theorem State.modPart_nextCmd (s : State) (p : Nat) (f : Part → Part) : (s.modPart p f).nextCmd = s.nextCmd := rfl
@[simp] theorem State.modPart_chains (s : State) (p : Nat) (f : Part → Part) : (s.modPart p f).chains = s.chains := rfl
@[simp] theorem State.modPart_drrs (s : State) (p : Nat) (f : Part → Part) : (s.modPart p f).drrs = s.drrs := rfl
@[simp] theorem State.modPart_clearing (s : State) (p : Nat) (f : Part → Part) : (s.modPart p f).clearing = s.clearing := rfl
@[simp] theorem State.modPart_turns (s : State) (p : Nat) (f : Part → Part) : (s.modPart p f).turns = s.turns := rfl
@[simp] theorem State.modPart_fcache (s : State) (p : Nat) (f : Part → Part) : (s.modPart p f).fcache = s.fcache := rfl
@[simp] theorem State.modPart_reqs (s : State) (p : Nat) (f : Part → Part) : (s.modPart p f).reqs = s.reqs := rfl
@[simp] theorem State.modPart_outbox (s : State) (p : Nat) (f : Part → Part) : (s.modPart p f).outbox = s.outbox := rfl
@[simp] theorem State.modPart_nextReq (s : State) (p : Nat) (f : Part → Part) : (s.modPart p f).nextReq = s.nextReq := rfl
@[simp] theorem State.modPart_flash (s : State) (p : Nat) (f : Part → Part) : (s.modPart p f).flash = s.flash := rfl
@[simp] theorem State.modPart_errs (s : State) (p : Nat) (f : Part → Part) : (s.modPart p f).errs = s.errs := rfl
@[simp] theorem State.modPart_boot (s : State) (p : Nat) (f : Part → Part) : (s.modPart p f).boot = s.boot := rfl
@[simp] theorem State.modPart_nextCall (s : State) (p : Nat) (f : Part → Part) : (s.modPart p f).nextCall = s.nextCall := rfl
@[simp] theorem State.modPart_nextTurn (s : State) (p : Nat) (f : Part → Part) : (s.modPart p f).nextTurn = s.nextTurn := rfl
@[simp] theorem State.modPart_now (s : State) (p : Nat) (f : Part → Part) : (s.modPart p f).now = s.now := rfl
@[simp] theorem State.modPart_rt (s : State) (p : Nat) (f : Part → Part) : (s.modPart p f).rt = s.rt := rfl
@[simp] theorem State.modPart_cur (s : State) (p : Nat) (f : Part → Part) : (s.modPart p f).cur = s.cur := rfl
@[simp] theorem State.modPart_bundle (s : State) (p : Nat) (f : Part → Part) : (s.modPart p f).bundle = s.bundle := rfl
@[simp] theorem State.modPart_latch (s : State) (p : Nat) (f : Part → Part) : (s.modPart p f).latch = s.latch := rfl
@[simp] theorem State.modPart_combined (s : State) (p : Nat) (f : Part → Part) : (s.modPart p f).combined = s.combined := rfl
@[simp] theorem State.modPart_inputs (s : State) (p : Nat) (f : Part → Part) : (s.modPart p f).inputs = s.inputs := rfl
@[simp] theorem State.modPart_free (s : State) (p : Nat) (f : Part → Part) : (s.modPart p f).free = s.free := rfl

/-! ### State.modQueue -/

@[simp] theorem State.modQueue_threads (s : State) (q : Nat) (f : Queue → Queue) : (s.modQueue q f).threads = s.threads := rfl
@[simp] theorem State.modQueue_units (s : State) (q : Nat) (f : Queue → Queue) : (s.modQueue q f).units = s.units := rfl
@[simp] theorem State.modQueue_nextUnit (s : State) (q : Nat) (f : Queue → Queue) : (s.modQueue q f).nextUnit = s.nextUnit := rfl
@[simp] theorem State.modQueue_cores (s : State) (q : Nat) (f : Queue → Queue) : (s.modQueue q f).cores = s.cores := rfl
@[simp] theorem State.modQueue_quads (s : State) (q : Nat) (f : Queue → Queue) : (s.modQueue q f).quads = s.quads := rfl
@[simp] theorem State.modQueue_cvs (s : State) (q : Nat) (f : Queue → Queue) : (s.modQueue q f).cvs = s.cvs := rfl
@[simp] theorem State.modQueue_pairs (s : State) (q : Nat) (f : Queue → Queue) : (s.modQueue q f).pairs = s.pairs := rfl
@[simp] theorem State.modQueue_accs (s : State) (q : Nat) (f : Queue → Queue) : (s.modQueue q f).accs = s.accs := rfl
@[simp] theorem State.modQueue_regions (s : State) (q : Nat) (f : Queue → Queue) : (s.modQueue q f).regions = s.regions := rfl
@[simp] theorem State.modQueue_mem (s : State) (q : Nat) (f : Queue → Queue) : (s.modQueue q f).mem = s.mem := rfl
@[simp] theorem State.modQueue_tlb (s : State) (q : Nat) (f : Queue → Queue) : (s.modQueue q f).tlb = s.tlb := rfl
@[simp] theorem State.modQueue_owners (s : State) (q : Nat) (f : Queue → Queue) : (s.modQueue q f).owners = s.owners := rfl
@[simp] theorem State.modQueue_lines (s : State) (q : Nat) (f : Queue → Queue) : (s.modQueue q f).lines = s.lines := rfl
@[simp] theorem State.modQueue_leases (s : State) (q : Nat) (f : Queue → Queue) : (s.modQueue q f).leases = s.leases := rfl
@[simp] theorem State.modQueue_l1 (s : State) (q : Nat) (f : Queue → Queue) : (s.modQueue q f).l1 = s.l1 := rfl
@[simp] theorem State.modQueue_ipath (s : State) (q : Nat) (f : Queue → Queue) : (s.modQueue q f).ipath = s.ipath := rfl
@[simp] theorem State.modQueue_faults (s : State) (q : Nat) (f : Queue → Queue) : (s.modQueue q f).faults = s.faults := rfl
@[simp] theorem State.modQueue_log (s : State) (q : Nat) (f : Queue → Queue) : (s.modQueue q f).log = s.log := rfl
@[simp] theorem State.modQueue_ms (s : State) (q : Nat) (f : Queue → Queue) : (s.modQueue q f).ms = s.ms := rfl
@[simp] theorem State.modQueue_seqs (s : State) (q : Nat) (f : Queue → Queue) : (s.modQueue q f).seqs = s.seqs := rfl
@[simp] theorem State.modQueue_msSync (s : State) (q : Nat) (f : Queue → Queue) : (s.modQueue q f).msSync = s.msSync := rfl
@[simp] theorem State.modQueue_waiters (s : State) (q : Nat) (f : Queue → Queue) : (s.modQueue q f).waiters = s.waiters := rfl
@[simp] theorem State.modQueue_due (s : State) (q : Nat) (f : Queue → Queue) : (s.modQueue q f).due = s.due := rfl
@[simp] theorem State.modQueue_shadow (s : State) (q : Nat) (f : Queue → Queue) : (s.modQueue q f).shadow = s.shadow := rfl
@[simp] theorem State.modQueue_parts (s : State) (q : Nat) (f : Queue → Queue) : (s.modQueue q f).parts = s.parts := rfl
@[simp] theorem State.modQueue_croot (s : State) (q : Nat) (f : Queue → Queue) : (s.modQueue q f).croot = s.croot := rfl
@[simp] theorem State.modQueue_cmask (s : State) (q : Nat) (f : Queue → Queue) : (s.modQueue q f).cmask = s.cmask := rfl
@[simp] theorem State.modQueue_launches (s : State) (q : Nat) (f : Queue → Queue) : (s.modQueue q f).launches = s.launches := rfl
@[simp] theorem State.modQueue_nextOrder (s : State) (q : Nat) (f : Queue → Queue) : (s.modQueue q f).nextOrder = s.nextOrder := rfl
@[simp] theorem State.modQueue_deficits (s : State) (q : Nat) (f : Queue → Queue) : (s.modQueue q f).deficits = s.deficits := rfl
@[simp] theorem State.modQueue_visits (s : State) (q : Nat) (f : Queue → Queue) : (s.modQueue q f).visits = s.visits := rfl
@[simp] theorem State.modQueue_selectors (s : State) (q : Nat) (f : Queue → Queue) : (s.modQueue q f).selectors = s.selectors := rfl
@[simp] theorem State.modQueue_phaseRuns (s : State) (q : Nat) (f : Queue → Queue) : (s.modQueue q f).phaseRuns = s.phaseRuns := rfl
@[simp] theorem State.modQueue_saved (s : State) (q : Nat) (f : Queue → Queue) : (s.modQueue q f).saved = s.saved := rfl
@[simp] theorem State.modQueue_findings (s : State) (q : Nat) (f : Queue → Queue) : (s.modQueue q f).findings = s.findings := rfl
@[simp] theorem State.modQueue_lateTrees (s : State) (q : Nat) (f : Queue → Queue) : (s.modQueue q f).lateTrees = s.lateTrees := rfl
@[simp] theorem State.modQueue_stops (s : State) (q : Nat) (f : Queue → Queue) : (s.modQueue q f).stops = s.stops := rfl
@[simp] theorem State.modQueue_pools (s : State) (q : Nat) (f : Queue → Queue) : (s.modQueue q f).pools = s.pools := rfl
@[simp] theorem State.modQueue_cmds (s : State) (q : Nat) (f : Queue → Queue) : (s.modQueue q f).cmds = s.cmds := rfl
@[simp] theorem State.modQueue_nextCmd (s : State) (q : Nat) (f : Queue → Queue) : (s.modQueue q f).nextCmd = s.nextCmd := rfl
@[simp] theorem State.modQueue_chains (s : State) (q : Nat) (f : Queue → Queue) : (s.modQueue q f).chains = s.chains := rfl
@[simp] theorem State.modQueue_drrs (s : State) (q : Nat) (f : Queue → Queue) : (s.modQueue q f).drrs = s.drrs := rfl
@[simp] theorem State.modQueue_clearing (s : State) (q : Nat) (f : Queue → Queue) : (s.modQueue q f).clearing = s.clearing := rfl
@[simp] theorem State.modQueue_turns (s : State) (q : Nat) (f : Queue → Queue) : (s.modQueue q f).turns = s.turns := rfl
@[simp] theorem State.modQueue_fcache (s : State) (q : Nat) (f : Queue → Queue) : (s.modQueue q f).fcache = s.fcache := rfl
@[simp] theorem State.modQueue_reqs (s : State) (q : Nat) (f : Queue → Queue) : (s.modQueue q f).reqs = s.reqs := rfl
@[simp] theorem State.modQueue_outbox (s : State) (q : Nat) (f : Queue → Queue) : (s.modQueue q f).outbox = s.outbox := rfl
@[simp] theorem State.modQueue_nextReq (s : State) (q : Nat) (f : Queue → Queue) : (s.modQueue q f).nextReq = s.nextReq := rfl
@[simp] theorem State.modQueue_flash (s : State) (q : Nat) (f : Queue → Queue) : (s.modQueue q f).flash = s.flash := rfl
@[simp] theorem State.modQueue_errs (s : State) (q : Nat) (f : Queue → Queue) : (s.modQueue q f).errs = s.errs := rfl
@[simp] theorem State.modQueue_boot (s : State) (q : Nat) (f : Queue → Queue) : (s.modQueue q f).boot = s.boot := rfl
@[simp] theorem State.modQueue_nextCall (s : State) (q : Nat) (f : Queue → Queue) : (s.modQueue q f).nextCall = s.nextCall := rfl
@[simp] theorem State.modQueue_nextTurn (s : State) (q : Nat) (f : Queue → Queue) : (s.modQueue q f).nextTurn = s.nextTurn := rfl
@[simp] theorem State.modQueue_now (s : State) (q : Nat) (f : Queue → Queue) : (s.modQueue q f).now = s.now := rfl
@[simp] theorem State.modQueue_rt (s : State) (q : Nat) (f : Queue → Queue) : (s.modQueue q f).rt = s.rt := rfl
@[simp] theorem State.modQueue_cur (s : State) (q : Nat) (f : Queue → Queue) : (s.modQueue q f).cur = s.cur := rfl
@[simp] theorem State.modQueue_bundle (s : State) (q : Nat) (f : Queue → Queue) : (s.modQueue q f).bundle = s.bundle := rfl
@[simp] theorem State.modQueue_latch (s : State) (q : Nat) (f : Queue → Queue) : (s.modQueue q f).latch = s.latch := rfl
@[simp] theorem State.modQueue_combined (s : State) (q : Nat) (f : Queue → Queue) : (s.modQueue q f).combined = s.combined := rfl
@[simp] theorem State.modQueue_inputs (s : State) (q : Nat) (f : Queue → Queue) : (s.modQueue q f).inputs = s.inputs := rfl
@[simp] theorem State.modQueue_free (s : State) (q : Nat) (f : Queue → Queue) : (s.modQueue q f).free = s.free := rfl

/-! ### State.modQuad -/

@[simp] theorem State.modQuad_threads (s : State) (q : Nat) (f : Quad → Quad) : (s.modQuad q f).threads = s.threads := rfl
@[simp] theorem State.modQuad_units (s : State) (q : Nat) (f : Quad → Quad) : (s.modQuad q f).units = s.units := rfl
@[simp] theorem State.modQuad_nextUnit (s : State) (q : Nat) (f : Quad → Quad) : (s.modQuad q f).nextUnit = s.nextUnit := rfl
@[simp] theorem State.modQuad_cores (s : State) (q : Nat) (f : Quad → Quad) : (s.modQuad q f).cores = s.cores := rfl
@[simp] theorem State.modQuad_cvs (s : State) (q : Nat) (f : Quad → Quad) : (s.modQuad q f).cvs = s.cvs := rfl
@[simp] theorem State.modQuad_pairs (s : State) (q : Nat) (f : Quad → Quad) : (s.modQuad q f).pairs = s.pairs := rfl
@[simp] theorem State.modQuad_accs (s : State) (q : Nat) (f : Quad → Quad) : (s.modQuad q f).accs = s.accs := rfl
@[simp] theorem State.modQuad_regions (s : State) (q : Nat) (f : Quad → Quad) : (s.modQuad q f).regions = s.regions := rfl
@[simp] theorem State.modQuad_mem (s : State) (q : Nat) (f : Quad → Quad) : (s.modQuad q f).mem = s.mem := rfl
@[simp] theorem State.modQuad_tlb (s : State) (q : Nat) (f : Quad → Quad) : (s.modQuad q f).tlb = s.tlb := rfl
@[simp] theorem State.modQuad_owners (s : State) (q : Nat) (f : Quad → Quad) : (s.modQuad q f).owners = s.owners := rfl
@[simp] theorem State.modQuad_lines (s : State) (q : Nat) (f : Quad → Quad) : (s.modQuad q f).lines = s.lines := rfl
@[simp] theorem State.modQuad_leases (s : State) (q : Nat) (f : Quad → Quad) : (s.modQuad q f).leases = s.leases := rfl
@[simp] theorem State.modQuad_l1 (s : State) (q : Nat) (f : Quad → Quad) : (s.modQuad q f).l1 = s.l1 := rfl
@[simp] theorem State.modQuad_ipath (s : State) (q : Nat) (f : Quad → Quad) : (s.modQuad q f).ipath = s.ipath := rfl
@[simp] theorem State.modQuad_faults (s : State) (q : Nat) (f : Quad → Quad) : (s.modQuad q f).faults = s.faults := rfl
@[simp] theorem State.modQuad_log (s : State) (q : Nat) (f : Quad → Quad) : (s.modQuad q f).log = s.log := rfl
@[simp] theorem State.modQuad_ms (s : State) (q : Nat) (f : Quad → Quad) : (s.modQuad q f).ms = s.ms := rfl
@[simp] theorem State.modQuad_seqs (s : State) (q : Nat) (f : Quad → Quad) : (s.modQuad q f).seqs = s.seqs := rfl
@[simp] theorem State.modQuad_msSync (s : State) (q : Nat) (f : Quad → Quad) : (s.modQuad q f).msSync = s.msSync := rfl
@[simp] theorem State.modQuad_waiters (s : State) (q : Nat) (f : Quad → Quad) : (s.modQuad q f).waiters = s.waiters := rfl
@[simp] theorem State.modQuad_due (s : State) (q : Nat) (f : Quad → Quad) : (s.modQuad q f).due = s.due := rfl
@[simp] theorem State.modQuad_shadow (s : State) (q : Nat) (f : Quad → Quad) : (s.modQuad q f).shadow = s.shadow := rfl
@[simp] theorem State.modQuad_parts (s : State) (q : Nat) (f : Quad → Quad) : (s.modQuad q f).parts = s.parts := rfl
@[simp] theorem State.modQuad_croot (s : State) (q : Nat) (f : Quad → Quad) : (s.modQuad q f).croot = s.croot := rfl
@[simp] theorem State.modQuad_cmask (s : State) (q : Nat) (f : Quad → Quad) : (s.modQuad q f).cmask = s.cmask := rfl
@[simp] theorem State.modQuad_queues (s : State) (q : Nat) (f : Quad → Quad) : (s.modQuad q f).queues = s.queues := rfl
@[simp] theorem State.modQuad_launches (s : State) (q : Nat) (f : Quad → Quad) : (s.modQuad q f).launches = s.launches := rfl
@[simp] theorem State.modQuad_nextOrder (s : State) (q : Nat) (f : Quad → Quad) : (s.modQuad q f).nextOrder = s.nextOrder := rfl
@[simp] theorem State.modQuad_deficits (s : State) (q : Nat) (f : Quad → Quad) : (s.modQuad q f).deficits = s.deficits := rfl
@[simp] theorem State.modQuad_visits (s : State) (q : Nat) (f : Quad → Quad) : (s.modQuad q f).visits = s.visits := rfl
@[simp] theorem State.modQuad_selectors (s : State) (q : Nat) (f : Quad → Quad) : (s.modQuad q f).selectors = s.selectors := rfl
@[simp] theorem State.modQuad_phaseRuns (s : State) (q : Nat) (f : Quad → Quad) : (s.modQuad q f).phaseRuns = s.phaseRuns := rfl
@[simp] theorem State.modQuad_saved (s : State) (q : Nat) (f : Quad → Quad) : (s.modQuad q f).saved = s.saved := rfl
@[simp] theorem State.modQuad_findings (s : State) (q : Nat) (f : Quad → Quad) : (s.modQuad q f).findings = s.findings := rfl
@[simp] theorem State.modQuad_lateTrees (s : State) (q : Nat) (f : Quad → Quad) : (s.modQuad q f).lateTrees = s.lateTrees := rfl
@[simp] theorem State.modQuad_stops (s : State) (q : Nat) (f : Quad → Quad) : (s.modQuad q f).stops = s.stops := rfl
@[simp] theorem State.modQuad_pools (s : State) (q : Nat) (f : Quad → Quad) : (s.modQuad q f).pools = s.pools := rfl
@[simp] theorem State.modQuad_cmds (s : State) (q : Nat) (f : Quad → Quad) : (s.modQuad q f).cmds = s.cmds := rfl
@[simp] theorem State.modQuad_nextCmd (s : State) (q : Nat) (f : Quad → Quad) : (s.modQuad q f).nextCmd = s.nextCmd := rfl
@[simp] theorem State.modQuad_chains (s : State) (q : Nat) (f : Quad → Quad) : (s.modQuad q f).chains = s.chains := rfl
@[simp] theorem State.modQuad_drrs (s : State) (q : Nat) (f : Quad → Quad) : (s.modQuad q f).drrs = s.drrs := rfl
@[simp] theorem State.modQuad_clearing (s : State) (q : Nat) (f : Quad → Quad) : (s.modQuad q f).clearing = s.clearing := rfl
@[simp] theorem State.modQuad_turns (s : State) (q : Nat) (f : Quad → Quad) : (s.modQuad q f).turns = s.turns := rfl
@[simp] theorem State.modQuad_fcache (s : State) (q : Nat) (f : Quad → Quad) : (s.modQuad q f).fcache = s.fcache := rfl
@[simp] theorem State.modQuad_reqs (s : State) (q : Nat) (f : Quad → Quad) : (s.modQuad q f).reqs = s.reqs := rfl
@[simp] theorem State.modQuad_outbox (s : State) (q : Nat) (f : Quad → Quad) : (s.modQuad q f).outbox = s.outbox := rfl
@[simp] theorem State.modQuad_nextReq (s : State) (q : Nat) (f : Quad → Quad) : (s.modQuad q f).nextReq = s.nextReq := rfl
@[simp] theorem State.modQuad_flash (s : State) (q : Nat) (f : Quad → Quad) : (s.modQuad q f).flash = s.flash := rfl
@[simp] theorem State.modQuad_errs (s : State) (q : Nat) (f : Quad → Quad) : (s.modQuad q f).errs = s.errs := rfl
@[simp] theorem State.modQuad_boot (s : State) (q : Nat) (f : Quad → Quad) : (s.modQuad q f).boot = s.boot := rfl
@[simp] theorem State.modQuad_nextCall (s : State) (q : Nat) (f : Quad → Quad) : (s.modQuad q f).nextCall = s.nextCall := rfl
@[simp] theorem State.modQuad_nextTurn (s : State) (q : Nat) (f : Quad → Quad) : (s.modQuad q f).nextTurn = s.nextTurn := rfl
@[simp] theorem State.modQuad_now (s : State) (q : Nat) (f : Quad → Quad) : (s.modQuad q f).now = s.now := rfl
@[simp] theorem State.modQuad_rt (s : State) (q : Nat) (f : Quad → Quad) : (s.modQuad q f).rt = s.rt := rfl
@[simp] theorem State.modQuad_cur (s : State) (q : Nat) (f : Quad → Quad) : (s.modQuad q f).cur = s.cur := rfl
@[simp] theorem State.modQuad_bundle (s : State) (q : Nat) (f : Quad → Quad) : (s.modQuad q f).bundle = s.bundle := rfl
@[simp] theorem State.modQuad_latch (s : State) (q : Nat) (f : Quad → Quad) : (s.modQuad q f).latch = s.latch := rfl
@[simp] theorem State.modQuad_combined (s : State) (q : Nat) (f : Quad → Quad) : (s.modQuad q f).combined = s.combined := rfl
@[simp] theorem State.modQuad_inputs (s : State) (q : Nat) (f : Quad → Quad) : (s.modQuad q f).inputs = s.inputs := rfl
@[simp] theorem State.modQuad_free (s : State) (q : Nat) (f : Quad → Quad) : (s.modQuad q f).free = s.free := rfl

/-! ### State.modCore -/

@[simp] theorem State.modCore_threads (s : State) (c : Nat) (f : CoreRec → CoreRec) : (s.modCore c f).threads = s.threads := rfl
@[simp] theorem State.modCore_units (s : State) (c : Nat) (f : CoreRec → CoreRec) : (s.modCore c f).units = s.units := rfl
@[simp] theorem State.modCore_nextUnit (s : State) (c : Nat) (f : CoreRec → CoreRec) : (s.modCore c f).nextUnit = s.nextUnit := rfl
@[simp] theorem State.modCore_quads (s : State) (c : Nat) (f : CoreRec → CoreRec) : (s.modCore c f).quads = s.quads := rfl
@[simp] theorem State.modCore_cvs (s : State) (c : Nat) (f : CoreRec → CoreRec) : (s.modCore c f).cvs = s.cvs := rfl
@[simp] theorem State.modCore_pairs (s : State) (c : Nat) (f : CoreRec → CoreRec) : (s.modCore c f).pairs = s.pairs := rfl
@[simp] theorem State.modCore_accs (s : State) (c : Nat) (f : CoreRec → CoreRec) : (s.modCore c f).accs = s.accs := rfl
@[simp] theorem State.modCore_regions (s : State) (c : Nat) (f : CoreRec → CoreRec) : (s.modCore c f).regions = s.regions := rfl
@[simp] theorem State.modCore_mem (s : State) (c : Nat) (f : CoreRec → CoreRec) : (s.modCore c f).mem = s.mem := rfl
@[simp] theorem State.modCore_tlb (s : State) (c : Nat) (f : CoreRec → CoreRec) : (s.modCore c f).tlb = s.tlb := rfl
@[simp] theorem State.modCore_owners (s : State) (c : Nat) (f : CoreRec → CoreRec) : (s.modCore c f).owners = s.owners := rfl
@[simp] theorem State.modCore_lines (s : State) (c : Nat) (f : CoreRec → CoreRec) : (s.modCore c f).lines = s.lines := rfl
@[simp] theorem State.modCore_leases (s : State) (c : Nat) (f : CoreRec → CoreRec) : (s.modCore c f).leases = s.leases := rfl
@[simp] theorem State.modCore_l1 (s : State) (c : Nat) (f : CoreRec → CoreRec) : (s.modCore c f).l1 = s.l1 := rfl
@[simp] theorem State.modCore_ipath (s : State) (c : Nat) (f : CoreRec → CoreRec) : (s.modCore c f).ipath = s.ipath := rfl
@[simp] theorem State.modCore_faults (s : State) (c : Nat) (f : CoreRec → CoreRec) : (s.modCore c f).faults = s.faults := rfl
@[simp] theorem State.modCore_log (s : State) (c : Nat) (f : CoreRec → CoreRec) : (s.modCore c f).log = s.log := rfl
@[simp] theorem State.modCore_ms (s : State) (c : Nat) (f : CoreRec → CoreRec) : (s.modCore c f).ms = s.ms := rfl
@[simp] theorem State.modCore_seqs (s : State) (c : Nat) (f : CoreRec → CoreRec) : (s.modCore c f).seqs = s.seqs := rfl
@[simp] theorem State.modCore_msSync (s : State) (c : Nat) (f : CoreRec → CoreRec) : (s.modCore c f).msSync = s.msSync := rfl
@[simp] theorem State.modCore_waiters (s : State) (c : Nat) (f : CoreRec → CoreRec) : (s.modCore c f).waiters = s.waiters := rfl
@[simp] theorem State.modCore_due (s : State) (c : Nat) (f : CoreRec → CoreRec) : (s.modCore c f).due = s.due := rfl
@[simp] theorem State.modCore_shadow (s : State) (c : Nat) (f : CoreRec → CoreRec) : (s.modCore c f).shadow = s.shadow := rfl
@[simp] theorem State.modCore_parts (s : State) (c : Nat) (f : CoreRec → CoreRec) : (s.modCore c f).parts = s.parts := rfl
@[simp] theorem State.modCore_croot (s : State) (c : Nat) (f : CoreRec → CoreRec) : (s.modCore c f).croot = s.croot := rfl
@[simp] theorem State.modCore_cmask (s : State) (c : Nat) (f : CoreRec → CoreRec) : (s.modCore c f).cmask = s.cmask := rfl
@[simp] theorem State.modCore_queues (s : State) (c : Nat) (f : CoreRec → CoreRec) : (s.modCore c f).queues = s.queues := rfl
@[simp] theorem State.modCore_launches (s : State) (c : Nat) (f : CoreRec → CoreRec) : (s.modCore c f).launches = s.launches := rfl
@[simp] theorem State.modCore_nextOrder (s : State) (c : Nat) (f : CoreRec → CoreRec) : (s.modCore c f).nextOrder = s.nextOrder := rfl
@[simp] theorem State.modCore_deficits (s : State) (c : Nat) (f : CoreRec → CoreRec) : (s.modCore c f).deficits = s.deficits := rfl
@[simp] theorem State.modCore_visits (s : State) (c : Nat) (f : CoreRec → CoreRec) : (s.modCore c f).visits = s.visits := rfl
@[simp] theorem State.modCore_selectors (s : State) (c : Nat) (f : CoreRec → CoreRec) : (s.modCore c f).selectors = s.selectors := rfl
@[simp] theorem State.modCore_phaseRuns (s : State) (c : Nat) (f : CoreRec → CoreRec) : (s.modCore c f).phaseRuns = s.phaseRuns := rfl
@[simp] theorem State.modCore_saved (s : State) (c : Nat) (f : CoreRec → CoreRec) : (s.modCore c f).saved = s.saved := rfl
@[simp] theorem State.modCore_findings (s : State) (c : Nat) (f : CoreRec → CoreRec) : (s.modCore c f).findings = s.findings := rfl
@[simp] theorem State.modCore_lateTrees (s : State) (c : Nat) (f : CoreRec → CoreRec) : (s.modCore c f).lateTrees = s.lateTrees := rfl
@[simp] theorem State.modCore_stops (s : State) (c : Nat) (f : CoreRec → CoreRec) : (s.modCore c f).stops = s.stops := rfl
@[simp] theorem State.modCore_pools (s : State) (c : Nat) (f : CoreRec → CoreRec) : (s.modCore c f).pools = s.pools := rfl
@[simp] theorem State.modCore_cmds (s : State) (c : Nat) (f : CoreRec → CoreRec) : (s.modCore c f).cmds = s.cmds := rfl
@[simp] theorem State.modCore_nextCmd (s : State) (c : Nat) (f : CoreRec → CoreRec) : (s.modCore c f).nextCmd = s.nextCmd := rfl
@[simp] theorem State.modCore_chains (s : State) (c : Nat) (f : CoreRec → CoreRec) : (s.modCore c f).chains = s.chains := rfl
@[simp] theorem State.modCore_drrs (s : State) (c : Nat) (f : CoreRec → CoreRec) : (s.modCore c f).drrs = s.drrs := rfl
@[simp] theorem State.modCore_clearing (s : State) (c : Nat) (f : CoreRec → CoreRec) : (s.modCore c f).clearing = s.clearing := rfl
@[simp] theorem State.modCore_turns (s : State) (c : Nat) (f : CoreRec → CoreRec) : (s.modCore c f).turns = s.turns := rfl
@[simp] theorem State.modCore_fcache (s : State) (c : Nat) (f : CoreRec → CoreRec) : (s.modCore c f).fcache = s.fcache := rfl
@[simp] theorem State.modCore_reqs (s : State) (c : Nat) (f : CoreRec → CoreRec) : (s.modCore c f).reqs = s.reqs := rfl
@[simp] theorem State.modCore_outbox (s : State) (c : Nat) (f : CoreRec → CoreRec) : (s.modCore c f).outbox = s.outbox := rfl
@[simp] theorem State.modCore_nextReq (s : State) (c : Nat) (f : CoreRec → CoreRec) : (s.modCore c f).nextReq = s.nextReq := rfl
@[simp] theorem State.modCore_flash (s : State) (c : Nat) (f : CoreRec → CoreRec) : (s.modCore c f).flash = s.flash := rfl
@[simp] theorem State.modCore_errs (s : State) (c : Nat) (f : CoreRec → CoreRec) : (s.modCore c f).errs = s.errs := rfl
@[simp] theorem State.modCore_boot (s : State) (c : Nat) (f : CoreRec → CoreRec) : (s.modCore c f).boot = s.boot := rfl
@[simp] theorem State.modCore_nextCall (s : State) (c : Nat) (f : CoreRec → CoreRec) : (s.modCore c f).nextCall = s.nextCall := rfl
@[simp] theorem State.modCore_nextTurn (s : State) (c : Nat) (f : CoreRec → CoreRec) : (s.modCore c f).nextTurn = s.nextTurn := rfl
@[simp] theorem State.modCore_now (s : State) (c : Nat) (f : CoreRec → CoreRec) : (s.modCore c f).now = s.now := rfl
@[simp] theorem State.modCore_rt (s : State) (c : Nat) (f : CoreRec → CoreRec) : (s.modCore c f).rt = s.rt := rfl
@[simp] theorem State.modCore_cur (s : State) (c : Nat) (f : CoreRec → CoreRec) : (s.modCore c f).cur = s.cur := rfl
@[simp] theorem State.modCore_bundle (s : State) (c : Nat) (f : CoreRec → CoreRec) : (s.modCore c f).bundle = s.bundle := rfl
@[simp] theorem State.modCore_latch (s : State) (c : Nat) (f : CoreRec → CoreRec) : (s.modCore c f).latch = s.latch := rfl
@[simp] theorem State.modCore_combined (s : State) (c : Nat) (f : CoreRec → CoreRec) : (s.modCore c f).combined = s.combined := rfl
@[simp] theorem State.modCore_inputs (s : State) (c : Nat) (f : CoreRec → CoreRec) : (s.modCore c f).inputs = s.inputs := rfl
@[simp] theorem State.modCore_free (s : State) (c : Nat) (f : CoreRec → CoreRec) : (s.modCore c f).free = s.free := rfl

/-! ### State.modUnit -/

@[simp] theorem State.modUnit_threads (s : State) (u : Nat) (f : UnitRec → UnitRec) : (s.modUnit u f).threads = s.threads := rfl
@[simp] theorem State.modUnit_nextUnit (s : State) (u : Nat) (f : UnitRec → UnitRec) : (s.modUnit u f).nextUnit = s.nextUnit := rfl
@[simp] theorem State.modUnit_cores (s : State) (u : Nat) (f : UnitRec → UnitRec) : (s.modUnit u f).cores = s.cores := rfl
@[simp] theorem State.modUnit_quads (s : State) (u : Nat) (f : UnitRec → UnitRec) : (s.modUnit u f).quads = s.quads := rfl
@[simp] theorem State.modUnit_cvs (s : State) (u : Nat) (f : UnitRec → UnitRec) : (s.modUnit u f).cvs = s.cvs := rfl
@[simp] theorem State.modUnit_pairs (s : State) (u : Nat) (f : UnitRec → UnitRec) : (s.modUnit u f).pairs = s.pairs := rfl
@[simp] theorem State.modUnit_accs (s : State) (u : Nat) (f : UnitRec → UnitRec) : (s.modUnit u f).accs = s.accs := rfl
@[simp] theorem State.modUnit_regions (s : State) (u : Nat) (f : UnitRec → UnitRec) : (s.modUnit u f).regions = s.regions := rfl
@[simp] theorem State.modUnit_mem (s : State) (u : Nat) (f : UnitRec → UnitRec) : (s.modUnit u f).mem = s.mem := rfl
@[simp] theorem State.modUnit_tlb (s : State) (u : Nat) (f : UnitRec → UnitRec) : (s.modUnit u f).tlb = s.tlb := rfl
@[simp] theorem State.modUnit_owners (s : State) (u : Nat) (f : UnitRec → UnitRec) : (s.modUnit u f).owners = s.owners := rfl
@[simp] theorem State.modUnit_lines (s : State) (u : Nat) (f : UnitRec → UnitRec) : (s.modUnit u f).lines = s.lines := rfl
@[simp] theorem State.modUnit_leases (s : State) (u : Nat) (f : UnitRec → UnitRec) : (s.modUnit u f).leases = s.leases := rfl
@[simp] theorem State.modUnit_l1 (s : State) (u : Nat) (f : UnitRec → UnitRec) : (s.modUnit u f).l1 = s.l1 := rfl
@[simp] theorem State.modUnit_ipath (s : State) (u : Nat) (f : UnitRec → UnitRec) : (s.modUnit u f).ipath = s.ipath := rfl
@[simp] theorem State.modUnit_faults (s : State) (u : Nat) (f : UnitRec → UnitRec) : (s.modUnit u f).faults = s.faults := rfl
@[simp] theorem State.modUnit_log (s : State) (u : Nat) (f : UnitRec → UnitRec) : (s.modUnit u f).log = s.log := rfl
@[simp] theorem State.modUnit_ms (s : State) (u : Nat) (f : UnitRec → UnitRec) : (s.modUnit u f).ms = s.ms := rfl
@[simp] theorem State.modUnit_seqs (s : State) (u : Nat) (f : UnitRec → UnitRec) : (s.modUnit u f).seqs = s.seqs := rfl
@[simp] theorem State.modUnit_msSync (s : State) (u : Nat) (f : UnitRec → UnitRec) : (s.modUnit u f).msSync = s.msSync := rfl
@[simp] theorem State.modUnit_waiters (s : State) (u : Nat) (f : UnitRec → UnitRec) : (s.modUnit u f).waiters = s.waiters := rfl
@[simp] theorem State.modUnit_due (s : State) (u : Nat) (f : UnitRec → UnitRec) : (s.modUnit u f).due = s.due := rfl
@[simp] theorem State.modUnit_shadow (s : State) (u : Nat) (f : UnitRec → UnitRec) : (s.modUnit u f).shadow = s.shadow := rfl
@[simp] theorem State.modUnit_parts (s : State) (u : Nat) (f : UnitRec → UnitRec) : (s.modUnit u f).parts = s.parts := rfl
@[simp] theorem State.modUnit_croot (s : State) (u : Nat) (f : UnitRec → UnitRec) : (s.modUnit u f).croot = s.croot := rfl
@[simp] theorem State.modUnit_cmask (s : State) (u : Nat) (f : UnitRec → UnitRec) : (s.modUnit u f).cmask = s.cmask := rfl
@[simp] theorem State.modUnit_queues (s : State) (u : Nat) (f : UnitRec → UnitRec) : (s.modUnit u f).queues = s.queues := rfl
@[simp] theorem State.modUnit_launches (s : State) (u : Nat) (f : UnitRec → UnitRec) : (s.modUnit u f).launches = s.launches := rfl
@[simp] theorem State.modUnit_nextOrder (s : State) (u : Nat) (f : UnitRec → UnitRec) : (s.modUnit u f).nextOrder = s.nextOrder := rfl
@[simp] theorem State.modUnit_deficits (s : State) (u : Nat) (f : UnitRec → UnitRec) : (s.modUnit u f).deficits = s.deficits := rfl
@[simp] theorem State.modUnit_visits (s : State) (u : Nat) (f : UnitRec → UnitRec) : (s.modUnit u f).visits = s.visits := rfl
@[simp] theorem State.modUnit_selectors (s : State) (u : Nat) (f : UnitRec → UnitRec) : (s.modUnit u f).selectors = s.selectors := rfl
@[simp] theorem State.modUnit_phaseRuns (s : State) (u : Nat) (f : UnitRec → UnitRec) : (s.modUnit u f).phaseRuns = s.phaseRuns := rfl
@[simp] theorem State.modUnit_saved (s : State) (u : Nat) (f : UnitRec → UnitRec) : (s.modUnit u f).saved = s.saved := rfl
@[simp] theorem State.modUnit_findings (s : State) (u : Nat) (f : UnitRec → UnitRec) : (s.modUnit u f).findings = s.findings := rfl
@[simp] theorem State.modUnit_lateTrees (s : State) (u : Nat) (f : UnitRec → UnitRec) : (s.modUnit u f).lateTrees = s.lateTrees := rfl
@[simp] theorem State.modUnit_stops (s : State) (u : Nat) (f : UnitRec → UnitRec) : (s.modUnit u f).stops = s.stops := rfl
@[simp] theorem State.modUnit_pools (s : State) (u : Nat) (f : UnitRec → UnitRec) : (s.modUnit u f).pools = s.pools := rfl
@[simp] theorem State.modUnit_cmds (s : State) (u : Nat) (f : UnitRec → UnitRec) : (s.modUnit u f).cmds = s.cmds := rfl
@[simp] theorem State.modUnit_nextCmd (s : State) (u : Nat) (f : UnitRec → UnitRec) : (s.modUnit u f).nextCmd = s.nextCmd := rfl
@[simp] theorem State.modUnit_chains (s : State) (u : Nat) (f : UnitRec → UnitRec) : (s.modUnit u f).chains = s.chains := rfl
@[simp] theorem State.modUnit_drrs (s : State) (u : Nat) (f : UnitRec → UnitRec) : (s.modUnit u f).drrs = s.drrs := rfl
@[simp] theorem State.modUnit_clearing (s : State) (u : Nat) (f : UnitRec → UnitRec) : (s.modUnit u f).clearing = s.clearing := rfl
@[simp] theorem State.modUnit_turns (s : State) (u : Nat) (f : UnitRec → UnitRec) : (s.modUnit u f).turns = s.turns := rfl
@[simp] theorem State.modUnit_fcache (s : State) (u : Nat) (f : UnitRec → UnitRec) : (s.modUnit u f).fcache = s.fcache := rfl
@[simp] theorem State.modUnit_reqs (s : State) (u : Nat) (f : UnitRec → UnitRec) : (s.modUnit u f).reqs = s.reqs := rfl
@[simp] theorem State.modUnit_outbox (s : State) (u : Nat) (f : UnitRec → UnitRec) : (s.modUnit u f).outbox = s.outbox := rfl
@[simp] theorem State.modUnit_nextReq (s : State) (u : Nat) (f : UnitRec → UnitRec) : (s.modUnit u f).nextReq = s.nextReq := rfl
@[simp] theorem State.modUnit_flash (s : State) (u : Nat) (f : UnitRec → UnitRec) : (s.modUnit u f).flash = s.flash := rfl
@[simp] theorem State.modUnit_errs (s : State) (u : Nat) (f : UnitRec → UnitRec) : (s.modUnit u f).errs = s.errs := rfl
@[simp] theorem State.modUnit_boot (s : State) (u : Nat) (f : UnitRec → UnitRec) : (s.modUnit u f).boot = s.boot := rfl
@[simp] theorem State.modUnit_nextCall (s : State) (u : Nat) (f : UnitRec → UnitRec) : (s.modUnit u f).nextCall = s.nextCall := rfl
@[simp] theorem State.modUnit_nextTurn (s : State) (u : Nat) (f : UnitRec → UnitRec) : (s.modUnit u f).nextTurn = s.nextTurn := rfl
@[simp] theorem State.modUnit_now (s : State) (u : Nat) (f : UnitRec → UnitRec) : (s.modUnit u f).now = s.now := rfl
@[simp] theorem State.modUnit_rt (s : State) (u : Nat) (f : UnitRec → UnitRec) : (s.modUnit u f).rt = s.rt := rfl
@[simp] theorem State.modUnit_cur (s : State) (u : Nat) (f : UnitRec → UnitRec) : (s.modUnit u f).cur = s.cur := rfl
@[simp] theorem State.modUnit_bundle (s : State) (u : Nat) (f : UnitRec → UnitRec) : (s.modUnit u f).bundle = s.bundle := rfl
@[simp] theorem State.modUnit_latch (s : State) (u : Nat) (f : UnitRec → UnitRec) : (s.modUnit u f).latch = s.latch := rfl
@[simp] theorem State.modUnit_combined (s : State) (u : Nat) (f : UnitRec → UnitRec) : (s.modUnit u f).combined = s.combined := rfl
@[simp] theorem State.modUnit_inputs (s : State) (u : Nat) (f : UnitRec → UnitRec) : (s.modUnit u f).inputs = s.inputs := rfl
@[simp] theorem State.modUnit_free (s : State) (u : Nat) (f : UnitRec → UnitRec) : (s.modUnit u f).free = s.free := rfl

/-! ### State.modLaunch -/

@[simp] theorem State.modLaunch_threads (s : State) (c : Nat) (f : Launch → Launch) : (s.modLaunch c f).threads = s.threads := rfl
@[simp] theorem State.modLaunch_units (s : State) (c : Nat) (f : Launch → Launch) : (s.modLaunch c f).units = s.units := rfl
@[simp] theorem State.modLaunch_nextUnit (s : State) (c : Nat) (f : Launch → Launch) : (s.modLaunch c f).nextUnit = s.nextUnit := rfl
@[simp] theorem State.modLaunch_cores (s : State) (c : Nat) (f : Launch → Launch) : (s.modLaunch c f).cores = s.cores := rfl
@[simp] theorem State.modLaunch_quads (s : State) (c : Nat) (f : Launch → Launch) : (s.modLaunch c f).quads = s.quads := rfl
@[simp] theorem State.modLaunch_cvs (s : State) (c : Nat) (f : Launch → Launch) : (s.modLaunch c f).cvs = s.cvs := rfl
@[simp] theorem State.modLaunch_pairs (s : State) (c : Nat) (f : Launch → Launch) : (s.modLaunch c f).pairs = s.pairs := rfl
@[simp] theorem State.modLaunch_accs (s : State) (c : Nat) (f : Launch → Launch) : (s.modLaunch c f).accs = s.accs := rfl
@[simp] theorem State.modLaunch_regions (s : State) (c : Nat) (f : Launch → Launch) : (s.modLaunch c f).regions = s.regions := rfl
@[simp] theorem State.modLaunch_mem (s : State) (c : Nat) (f : Launch → Launch) : (s.modLaunch c f).mem = s.mem := rfl
@[simp] theorem State.modLaunch_tlb (s : State) (c : Nat) (f : Launch → Launch) : (s.modLaunch c f).tlb = s.tlb := rfl
@[simp] theorem State.modLaunch_owners (s : State) (c : Nat) (f : Launch → Launch) : (s.modLaunch c f).owners = s.owners := rfl
@[simp] theorem State.modLaunch_lines (s : State) (c : Nat) (f : Launch → Launch) : (s.modLaunch c f).lines = s.lines := rfl
@[simp] theorem State.modLaunch_leases (s : State) (c : Nat) (f : Launch → Launch) : (s.modLaunch c f).leases = s.leases := rfl
@[simp] theorem State.modLaunch_l1 (s : State) (c : Nat) (f : Launch → Launch) : (s.modLaunch c f).l1 = s.l1 := rfl
@[simp] theorem State.modLaunch_ipath (s : State) (c : Nat) (f : Launch → Launch) : (s.modLaunch c f).ipath = s.ipath := rfl
@[simp] theorem State.modLaunch_faults (s : State) (c : Nat) (f : Launch → Launch) : (s.modLaunch c f).faults = s.faults := rfl
@[simp] theorem State.modLaunch_log (s : State) (c : Nat) (f : Launch → Launch) : (s.modLaunch c f).log = s.log := rfl
@[simp] theorem State.modLaunch_ms (s : State) (c : Nat) (f : Launch → Launch) : (s.modLaunch c f).ms = s.ms := rfl
@[simp] theorem State.modLaunch_seqs (s : State) (c : Nat) (f : Launch → Launch) : (s.modLaunch c f).seqs = s.seqs := rfl
@[simp] theorem State.modLaunch_msSync (s : State) (c : Nat) (f : Launch → Launch) : (s.modLaunch c f).msSync = s.msSync := rfl
@[simp] theorem State.modLaunch_waiters (s : State) (c : Nat) (f : Launch → Launch) : (s.modLaunch c f).waiters = s.waiters := rfl
@[simp] theorem State.modLaunch_due (s : State) (c : Nat) (f : Launch → Launch) : (s.modLaunch c f).due = s.due := rfl
@[simp] theorem State.modLaunch_shadow (s : State) (c : Nat) (f : Launch → Launch) : (s.modLaunch c f).shadow = s.shadow := rfl
@[simp] theorem State.modLaunch_parts (s : State) (c : Nat) (f : Launch → Launch) : (s.modLaunch c f).parts = s.parts := rfl
@[simp] theorem State.modLaunch_croot (s : State) (c : Nat) (f : Launch → Launch) : (s.modLaunch c f).croot = s.croot := rfl
@[simp] theorem State.modLaunch_cmask (s : State) (c : Nat) (f : Launch → Launch) : (s.modLaunch c f).cmask = s.cmask := rfl
@[simp] theorem State.modLaunch_queues (s : State) (c : Nat) (f : Launch → Launch) : (s.modLaunch c f).queues = s.queues := rfl
@[simp] theorem State.modLaunch_nextOrder (s : State) (c : Nat) (f : Launch → Launch) : (s.modLaunch c f).nextOrder = s.nextOrder := rfl
@[simp] theorem State.modLaunch_deficits (s : State) (c : Nat) (f : Launch → Launch) : (s.modLaunch c f).deficits = s.deficits := rfl
@[simp] theorem State.modLaunch_visits (s : State) (c : Nat) (f : Launch → Launch) : (s.modLaunch c f).visits = s.visits := rfl
@[simp] theorem State.modLaunch_selectors (s : State) (c : Nat) (f : Launch → Launch) : (s.modLaunch c f).selectors = s.selectors := rfl
@[simp] theorem State.modLaunch_phaseRuns (s : State) (c : Nat) (f : Launch → Launch) : (s.modLaunch c f).phaseRuns = s.phaseRuns := rfl
@[simp] theorem State.modLaunch_saved (s : State) (c : Nat) (f : Launch → Launch) : (s.modLaunch c f).saved = s.saved := rfl
@[simp] theorem State.modLaunch_findings (s : State) (c : Nat) (f : Launch → Launch) : (s.modLaunch c f).findings = s.findings := rfl
@[simp] theorem State.modLaunch_lateTrees (s : State) (c : Nat) (f : Launch → Launch) : (s.modLaunch c f).lateTrees = s.lateTrees := rfl
@[simp] theorem State.modLaunch_stops (s : State) (c : Nat) (f : Launch → Launch) : (s.modLaunch c f).stops = s.stops := rfl
@[simp] theorem State.modLaunch_pools (s : State) (c : Nat) (f : Launch → Launch) : (s.modLaunch c f).pools = s.pools := rfl
@[simp] theorem State.modLaunch_cmds (s : State) (c : Nat) (f : Launch → Launch) : (s.modLaunch c f).cmds = s.cmds := rfl
@[simp] theorem State.modLaunch_nextCmd (s : State) (c : Nat) (f : Launch → Launch) : (s.modLaunch c f).nextCmd = s.nextCmd := rfl
@[simp] theorem State.modLaunch_chains (s : State) (c : Nat) (f : Launch → Launch) : (s.modLaunch c f).chains = s.chains := rfl
@[simp] theorem State.modLaunch_drrs (s : State) (c : Nat) (f : Launch → Launch) : (s.modLaunch c f).drrs = s.drrs := rfl
@[simp] theorem State.modLaunch_clearing (s : State) (c : Nat) (f : Launch → Launch) : (s.modLaunch c f).clearing = s.clearing := rfl
@[simp] theorem State.modLaunch_turns (s : State) (c : Nat) (f : Launch → Launch) : (s.modLaunch c f).turns = s.turns := rfl
@[simp] theorem State.modLaunch_fcache (s : State) (c : Nat) (f : Launch → Launch) : (s.modLaunch c f).fcache = s.fcache := rfl
@[simp] theorem State.modLaunch_reqs (s : State) (c : Nat) (f : Launch → Launch) : (s.modLaunch c f).reqs = s.reqs := rfl
@[simp] theorem State.modLaunch_outbox (s : State) (c : Nat) (f : Launch → Launch) : (s.modLaunch c f).outbox = s.outbox := rfl
@[simp] theorem State.modLaunch_nextReq (s : State) (c : Nat) (f : Launch → Launch) : (s.modLaunch c f).nextReq = s.nextReq := rfl
@[simp] theorem State.modLaunch_flash (s : State) (c : Nat) (f : Launch → Launch) : (s.modLaunch c f).flash = s.flash := rfl
@[simp] theorem State.modLaunch_errs (s : State) (c : Nat) (f : Launch → Launch) : (s.modLaunch c f).errs = s.errs := rfl
@[simp] theorem State.modLaunch_boot (s : State) (c : Nat) (f : Launch → Launch) : (s.modLaunch c f).boot = s.boot := rfl
@[simp] theorem State.modLaunch_nextCall (s : State) (c : Nat) (f : Launch → Launch) : (s.modLaunch c f).nextCall = s.nextCall := rfl
@[simp] theorem State.modLaunch_nextTurn (s : State) (c : Nat) (f : Launch → Launch) : (s.modLaunch c f).nextTurn = s.nextTurn := rfl
@[simp] theorem State.modLaunch_now (s : State) (c : Nat) (f : Launch → Launch) : (s.modLaunch c f).now = s.now := rfl
@[simp] theorem State.modLaunch_rt (s : State) (c : Nat) (f : Launch → Launch) : (s.modLaunch c f).rt = s.rt := rfl
@[simp] theorem State.modLaunch_cur (s : State) (c : Nat) (f : Launch → Launch) : (s.modLaunch c f).cur = s.cur := rfl
@[simp] theorem State.modLaunch_bundle (s : State) (c : Nat) (f : Launch → Launch) : (s.modLaunch c f).bundle = s.bundle := rfl
@[simp] theorem State.modLaunch_latch (s : State) (c : Nat) (f : Launch → Launch) : (s.modLaunch c f).latch = s.latch := rfl
@[simp] theorem State.modLaunch_combined (s : State) (c : Nat) (f : Launch → Launch) : (s.modLaunch c f).combined = s.combined := rfl
@[simp] theorem State.modLaunch_inputs (s : State) (c : Nat) (f : Launch → Launch) : (s.modLaunch c f).inputs = s.inputs := rfl
@[simp] theorem State.modLaunch_free (s : State) (c : Nat) (f : Launch → Launch) : (s.modLaunch c f).free = s.free := rfl

/-! ### State.modCmd -/

@[simp] theorem State.modCmd_threads (s : State) (c : Nat) (f : Cmd → Cmd) : (s.modCmd c f).threads = s.threads := rfl
@[simp] theorem State.modCmd_units (s : State) (c : Nat) (f : Cmd → Cmd) : (s.modCmd c f).units = s.units := rfl
@[simp] theorem State.modCmd_nextUnit (s : State) (c : Nat) (f : Cmd → Cmd) : (s.modCmd c f).nextUnit = s.nextUnit := rfl
@[simp] theorem State.modCmd_cores (s : State) (c : Nat) (f : Cmd → Cmd) : (s.modCmd c f).cores = s.cores := rfl
@[simp] theorem State.modCmd_quads (s : State) (c : Nat) (f : Cmd → Cmd) : (s.modCmd c f).quads = s.quads := rfl
@[simp] theorem State.modCmd_cvs (s : State) (c : Nat) (f : Cmd → Cmd) : (s.modCmd c f).cvs = s.cvs := rfl
@[simp] theorem State.modCmd_pairs (s : State) (c : Nat) (f : Cmd → Cmd) : (s.modCmd c f).pairs = s.pairs := rfl
@[simp] theorem State.modCmd_accs (s : State) (c : Nat) (f : Cmd → Cmd) : (s.modCmd c f).accs = s.accs := rfl
@[simp] theorem State.modCmd_regions (s : State) (c : Nat) (f : Cmd → Cmd) : (s.modCmd c f).regions = s.regions := rfl
@[simp] theorem State.modCmd_mem (s : State) (c : Nat) (f : Cmd → Cmd) : (s.modCmd c f).mem = s.mem := rfl
@[simp] theorem State.modCmd_tlb (s : State) (c : Nat) (f : Cmd → Cmd) : (s.modCmd c f).tlb = s.tlb := rfl
@[simp] theorem State.modCmd_owners (s : State) (c : Nat) (f : Cmd → Cmd) : (s.modCmd c f).owners = s.owners := rfl
@[simp] theorem State.modCmd_lines (s : State) (c : Nat) (f : Cmd → Cmd) : (s.modCmd c f).lines = s.lines := rfl
@[simp] theorem State.modCmd_leases (s : State) (c : Nat) (f : Cmd → Cmd) : (s.modCmd c f).leases = s.leases := rfl
@[simp] theorem State.modCmd_l1 (s : State) (c : Nat) (f : Cmd → Cmd) : (s.modCmd c f).l1 = s.l1 := rfl
@[simp] theorem State.modCmd_ipath (s : State) (c : Nat) (f : Cmd → Cmd) : (s.modCmd c f).ipath = s.ipath := rfl
@[simp] theorem State.modCmd_faults (s : State) (c : Nat) (f : Cmd → Cmd) : (s.modCmd c f).faults = s.faults := rfl
@[simp] theorem State.modCmd_log (s : State) (c : Nat) (f : Cmd → Cmd) : (s.modCmd c f).log = s.log := rfl
@[simp] theorem State.modCmd_ms (s : State) (c : Nat) (f : Cmd → Cmd) : (s.modCmd c f).ms = s.ms := rfl
@[simp] theorem State.modCmd_seqs (s : State) (c : Nat) (f : Cmd → Cmd) : (s.modCmd c f).seqs = s.seqs := rfl
@[simp] theorem State.modCmd_msSync (s : State) (c : Nat) (f : Cmd → Cmd) : (s.modCmd c f).msSync = s.msSync := rfl
@[simp] theorem State.modCmd_waiters (s : State) (c : Nat) (f : Cmd → Cmd) : (s.modCmd c f).waiters = s.waiters := rfl
@[simp] theorem State.modCmd_due (s : State) (c : Nat) (f : Cmd → Cmd) : (s.modCmd c f).due = s.due := rfl
@[simp] theorem State.modCmd_shadow (s : State) (c : Nat) (f : Cmd → Cmd) : (s.modCmd c f).shadow = s.shadow := rfl
@[simp] theorem State.modCmd_parts (s : State) (c : Nat) (f : Cmd → Cmd) : (s.modCmd c f).parts = s.parts := rfl
@[simp] theorem State.modCmd_croot (s : State) (c : Nat) (f : Cmd → Cmd) : (s.modCmd c f).croot = s.croot := rfl
@[simp] theorem State.modCmd_cmask (s : State) (c : Nat) (f : Cmd → Cmd) : (s.modCmd c f).cmask = s.cmask := rfl
@[simp] theorem State.modCmd_queues (s : State) (c : Nat) (f : Cmd → Cmd) : (s.modCmd c f).queues = s.queues := rfl
@[simp] theorem State.modCmd_launches (s : State) (c : Nat) (f : Cmd → Cmd) : (s.modCmd c f).launches = s.launches := rfl
@[simp] theorem State.modCmd_nextOrder (s : State) (c : Nat) (f : Cmd → Cmd) : (s.modCmd c f).nextOrder = s.nextOrder := rfl
@[simp] theorem State.modCmd_deficits (s : State) (c : Nat) (f : Cmd → Cmd) : (s.modCmd c f).deficits = s.deficits := rfl
@[simp] theorem State.modCmd_visits (s : State) (c : Nat) (f : Cmd → Cmd) : (s.modCmd c f).visits = s.visits := rfl
@[simp] theorem State.modCmd_selectors (s : State) (c : Nat) (f : Cmd → Cmd) : (s.modCmd c f).selectors = s.selectors := rfl
@[simp] theorem State.modCmd_phaseRuns (s : State) (c : Nat) (f : Cmd → Cmd) : (s.modCmd c f).phaseRuns = s.phaseRuns := rfl
@[simp] theorem State.modCmd_saved (s : State) (c : Nat) (f : Cmd → Cmd) : (s.modCmd c f).saved = s.saved := rfl
@[simp] theorem State.modCmd_findings (s : State) (c : Nat) (f : Cmd → Cmd) : (s.modCmd c f).findings = s.findings := rfl
@[simp] theorem State.modCmd_lateTrees (s : State) (c : Nat) (f : Cmd → Cmd) : (s.modCmd c f).lateTrees = s.lateTrees := rfl
@[simp] theorem State.modCmd_stops (s : State) (c : Nat) (f : Cmd → Cmd) : (s.modCmd c f).stops = s.stops := rfl
@[simp] theorem State.modCmd_pools (s : State) (c : Nat) (f : Cmd → Cmd) : (s.modCmd c f).pools = s.pools := rfl
@[simp] theorem State.modCmd_nextCmd (s : State) (c : Nat) (f : Cmd → Cmd) : (s.modCmd c f).nextCmd = s.nextCmd := rfl
@[simp] theorem State.modCmd_chains (s : State) (c : Nat) (f : Cmd → Cmd) : (s.modCmd c f).chains = s.chains := rfl
@[simp] theorem State.modCmd_drrs (s : State) (c : Nat) (f : Cmd → Cmd) : (s.modCmd c f).drrs = s.drrs := rfl
@[simp] theorem State.modCmd_clearing (s : State) (c : Nat) (f : Cmd → Cmd) : (s.modCmd c f).clearing = s.clearing := rfl
@[simp] theorem State.modCmd_turns (s : State) (c : Nat) (f : Cmd → Cmd) : (s.modCmd c f).turns = s.turns := rfl
@[simp] theorem State.modCmd_fcache (s : State) (c : Nat) (f : Cmd → Cmd) : (s.modCmd c f).fcache = s.fcache := rfl
@[simp] theorem State.modCmd_reqs (s : State) (c : Nat) (f : Cmd → Cmd) : (s.modCmd c f).reqs = s.reqs := rfl
@[simp] theorem State.modCmd_outbox (s : State) (c : Nat) (f : Cmd → Cmd) : (s.modCmd c f).outbox = s.outbox := rfl
@[simp] theorem State.modCmd_nextReq (s : State) (c : Nat) (f : Cmd → Cmd) : (s.modCmd c f).nextReq = s.nextReq := rfl
@[simp] theorem State.modCmd_flash (s : State) (c : Nat) (f : Cmd → Cmd) : (s.modCmd c f).flash = s.flash := rfl
@[simp] theorem State.modCmd_errs (s : State) (c : Nat) (f : Cmd → Cmd) : (s.modCmd c f).errs = s.errs := rfl
@[simp] theorem State.modCmd_boot (s : State) (c : Nat) (f : Cmd → Cmd) : (s.modCmd c f).boot = s.boot := rfl
@[simp] theorem State.modCmd_nextCall (s : State) (c : Nat) (f : Cmd → Cmd) : (s.modCmd c f).nextCall = s.nextCall := rfl
@[simp] theorem State.modCmd_nextTurn (s : State) (c : Nat) (f : Cmd → Cmd) : (s.modCmd c f).nextTurn = s.nextTurn := rfl
@[simp] theorem State.modCmd_now (s : State) (c : Nat) (f : Cmd → Cmd) : (s.modCmd c f).now = s.now := rfl
@[simp] theorem State.modCmd_rt (s : State) (c : Nat) (f : Cmd → Cmd) : (s.modCmd c f).rt = s.rt := rfl
@[simp] theorem State.modCmd_cur (s : State) (c : Nat) (f : Cmd → Cmd) : (s.modCmd c f).cur = s.cur := rfl
@[simp] theorem State.modCmd_bundle (s : State) (c : Nat) (f : Cmd → Cmd) : (s.modCmd c f).bundle = s.bundle := rfl
@[simp] theorem State.modCmd_latch (s : State) (c : Nat) (f : Cmd → Cmd) : (s.modCmd c f).latch = s.latch := rfl
@[simp] theorem State.modCmd_combined (s : State) (c : Nat) (f : Cmd → Cmd) : (s.modCmd c f).combined = s.combined := rfl
@[simp] theorem State.modCmd_inputs (s : State) (c : Nat) (f : Cmd → Cmd) : (s.modCmd c f).inputs = s.inputs := rfl
@[simp] theorem State.modCmd_free (s : State) (c : Nat) (f : Cmd → Cmd) : (s.modCmd c f).free = s.free := rfl

/-! ### State.setMs -/

@[simp] theorem State.setMs_threads (s : State) (a m : Nat) : (s.setMs a m).threads = s.threads := rfl
@[simp] theorem State.setMs_units (s : State) (a m : Nat) : (s.setMs a m).units = s.units := rfl
@[simp] theorem State.setMs_nextUnit (s : State) (a m : Nat) : (s.setMs a m).nextUnit = s.nextUnit := rfl
@[simp] theorem State.setMs_cores (s : State) (a m : Nat) : (s.setMs a m).cores = s.cores := rfl
@[simp] theorem State.setMs_quads (s : State) (a m : Nat) : (s.setMs a m).quads = s.quads := rfl
@[simp] theorem State.setMs_cvs (s : State) (a m : Nat) : (s.setMs a m).cvs = s.cvs := rfl
@[simp] theorem State.setMs_pairs (s : State) (a m : Nat) : (s.setMs a m).pairs = s.pairs := rfl
@[simp] theorem State.setMs_accs (s : State) (a m : Nat) : (s.setMs a m).accs = s.accs := rfl
@[simp] theorem State.setMs_regions (s : State) (a m : Nat) : (s.setMs a m).regions = s.regions := rfl
@[simp] theorem State.setMs_mem (s : State) (a m : Nat) : (s.setMs a m).mem = s.mem := rfl
@[simp] theorem State.setMs_tlb (s : State) (a m : Nat) : (s.setMs a m).tlb = s.tlb := rfl
@[simp] theorem State.setMs_owners (s : State) (a m : Nat) : (s.setMs a m).owners = s.owners := rfl
@[simp] theorem State.setMs_lines (s : State) (a m : Nat) : (s.setMs a m).lines = s.lines := rfl
@[simp] theorem State.setMs_leases (s : State) (a m : Nat) : (s.setMs a m).leases = s.leases := rfl
@[simp] theorem State.setMs_l1 (s : State) (a m : Nat) : (s.setMs a m).l1 = s.l1 := rfl
@[simp] theorem State.setMs_ipath (s : State) (a m : Nat) : (s.setMs a m).ipath = s.ipath := rfl
@[simp] theorem State.setMs_faults (s : State) (a m : Nat) : (s.setMs a m).faults = s.faults := rfl
@[simp] theorem State.setMs_log (s : State) (a m : Nat) : (s.setMs a m).log = s.log := rfl
@[simp] theorem State.setMs_seqs (s : State) (a m : Nat) : (s.setMs a m).seqs = s.seqs := rfl
@[simp] theorem State.setMs_msSync (s : State) (a m : Nat) : (s.setMs a m).msSync = s.msSync := rfl
@[simp] theorem State.setMs_waiters (s : State) (a m : Nat) : (s.setMs a m).waiters = s.waiters := rfl
@[simp] theorem State.setMs_due (s : State) (a m : Nat) : (s.setMs a m).due = s.due := rfl
@[simp] theorem State.setMs_shadow (s : State) (a m : Nat) : (s.setMs a m).shadow = s.shadow := rfl
@[simp] theorem State.setMs_parts (s : State) (a m : Nat) : (s.setMs a m).parts = s.parts := rfl
@[simp] theorem State.setMs_croot (s : State) (a m : Nat) : (s.setMs a m).croot = s.croot := rfl
@[simp] theorem State.setMs_cmask (s : State) (a m : Nat) : (s.setMs a m).cmask = s.cmask := rfl
@[simp] theorem State.setMs_queues (s : State) (a m : Nat) : (s.setMs a m).queues = s.queues := rfl
@[simp] theorem State.setMs_launches (s : State) (a m : Nat) : (s.setMs a m).launches = s.launches := rfl
@[simp] theorem State.setMs_nextOrder (s : State) (a m : Nat) : (s.setMs a m).nextOrder = s.nextOrder := rfl
@[simp] theorem State.setMs_deficits (s : State) (a m : Nat) : (s.setMs a m).deficits = s.deficits := rfl
@[simp] theorem State.setMs_visits (s : State) (a m : Nat) : (s.setMs a m).visits = s.visits := rfl
@[simp] theorem State.setMs_selectors (s : State) (a m : Nat) : (s.setMs a m).selectors = s.selectors := rfl
@[simp] theorem State.setMs_phaseRuns (s : State) (a m : Nat) : (s.setMs a m).phaseRuns = s.phaseRuns := rfl
@[simp] theorem State.setMs_saved (s : State) (a m : Nat) : (s.setMs a m).saved = s.saved := rfl
@[simp] theorem State.setMs_findings (s : State) (a m : Nat) : (s.setMs a m).findings = s.findings := rfl
@[simp] theorem State.setMs_lateTrees (s : State) (a m : Nat) : (s.setMs a m).lateTrees = s.lateTrees := rfl
@[simp] theorem State.setMs_stops (s : State) (a m : Nat) : (s.setMs a m).stops = s.stops := rfl
@[simp] theorem State.setMs_pools (s : State) (a m : Nat) : (s.setMs a m).pools = s.pools := rfl
@[simp] theorem State.setMs_cmds (s : State) (a m : Nat) : (s.setMs a m).cmds = s.cmds := rfl
@[simp] theorem State.setMs_nextCmd (s : State) (a m : Nat) : (s.setMs a m).nextCmd = s.nextCmd := rfl
@[simp] theorem State.setMs_chains (s : State) (a m : Nat) : (s.setMs a m).chains = s.chains := rfl
@[simp] theorem State.setMs_drrs (s : State) (a m : Nat) : (s.setMs a m).drrs = s.drrs := rfl
@[simp] theorem State.setMs_clearing (s : State) (a m : Nat) : (s.setMs a m).clearing = s.clearing := rfl
@[simp] theorem State.setMs_turns (s : State) (a m : Nat) : (s.setMs a m).turns = s.turns := rfl
@[simp] theorem State.setMs_fcache (s : State) (a m : Nat) : (s.setMs a m).fcache = s.fcache := rfl
@[simp] theorem State.setMs_reqs (s : State) (a m : Nat) : (s.setMs a m).reqs = s.reqs := rfl
@[simp] theorem State.setMs_outbox (s : State) (a m : Nat) : (s.setMs a m).outbox = s.outbox := rfl
@[simp] theorem State.setMs_nextReq (s : State) (a m : Nat) : (s.setMs a m).nextReq = s.nextReq := rfl
@[simp] theorem State.setMs_flash (s : State) (a m : Nat) : (s.setMs a m).flash = s.flash := rfl
@[simp] theorem State.setMs_errs (s : State) (a m : Nat) : (s.setMs a m).errs = s.errs := rfl
@[simp] theorem State.setMs_boot (s : State) (a m : Nat) : (s.setMs a m).boot = s.boot := rfl
@[simp] theorem State.setMs_nextCall (s : State) (a m : Nat) : (s.setMs a m).nextCall = s.nextCall := rfl
@[simp] theorem State.setMs_nextTurn (s : State) (a m : Nat) : (s.setMs a m).nextTurn = s.nextTurn := rfl
@[simp] theorem State.setMs_now (s : State) (a m : Nat) : (s.setMs a m).now = s.now := rfl
@[simp] theorem State.setMs_rt (s : State) (a m : Nat) : (s.setMs a m).rt = s.rt := rfl
@[simp] theorem State.setMs_cur (s : State) (a m : Nat) : (s.setMs a m).cur = s.cur := rfl
@[simp] theorem State.setMs_bundle (s : State) (a m : Nat) : (s.setMs a m).bundle = s.bundle := rfl
@[simp] theorem State.setMs_latch (s : State) (a m : Nat) : (s.setMs a m).latch = s.latch := rfl
@[simp] theorem State.setMs_combined (s : State) (a m : Nat) : (s.setMs a m).combined = s.combined := rfl
@[simp] theorem State.setMs_inputs (s : State) (a m : Nat) : (s.setMs a m).inputs = s.inputs := rfl
@[simp] theorem State.setMs_free (s : State) (a m : Nat) : (s.setMs a m).free = s.free := rfl

/-! ### What the updated entry reads as -/

theorem State.thr_modThr (s : State) (t u : Tid) (f : Thread → Thread) :
    (s.modThr t f).thr u = if u = t then f (s.thr t) else s.thr u := by
  by_cases h : u = t
  · subst h; simp [State.thr, State.modThr]
  · simp [State.thr, State.modThr, h]
@[simp] theorem State.thr_modThr_self (s : State) (t : Tid) (f : Thread → Thread) : (s.modThr t f).thr t = f (s.thr t) := by
  simp [State.thr_modThr]
@[simp] theorem State.thr_modThr_ne (s : State) (t u : Tid) (f : Thread → Thread) (h : u ≠ t) :
    (s.modThr t f).thr u = s.thr u := by
  simp [State.thr_modThr, h]
@[simp] theorem State.me_modMe (s : State) (f : Thread → Thread) : (s.modMe f).me = f s.me := by
  simp [State.me, State.modMe]
@[simp] theorem State.cur_modMe (s : State) (f : Thread → Thread) : (s.modMe f).cur = s.cur := rfl
@[simp] theorem State.mem_modMe (s : State) (f : Thread → Thread) : (s.modMe f).mem = s.mem := rfl
@[simp] theorem State.part_modThr (s : State) (t : Tid) (f : Thread → Thread) (p : Nat) : (s.modThr t f).part p = s.part p := rfl
@[simp] theorem State.part_modMe (s : State) (f : Thread → Thread) (p : Nat) : (s.modMe f).part p = s.part p := rfl
theorem State.part_modPart (s : State) (p q : Nat) (f : Part → Part) :
    (s.modPart p f).part q = if q = p then f (s.part p) else s.part q := by
  by_cases h : q = p
  · subst h; simp [State.part, State.modPart]
  · simp [State.part, State.modPart, h]
@[simp] theorem State.part_modPart_self (s : State) (p : Nat) (f : Part → Part) : (s.modPart p f).part p = f (s.part p) := by
  simp [State.part_modPart]
@[simp] theorem State.part_modPart_ne (s : State) (p q : Nat) (f : Part → Part) (h : q ≠ p) :
    (s.modPart p f).part q = s.part q := by
  simp [State.part_modPart, h]
@[simp] theorem State.thr_modPart (s : State) (p : Nat) (f : Part → Part) (t : Tid) : (s.modPart p f).thr t = s.thr t := rfl
theorem State.queue_modQueue (s : State) (p q : Nat) (f : Queue → Queue) :
    (s.modQueue p f).queue q = if q = p then f (s.queue p) else s.queue q := by
  by_cases h : q = p
  · subst h; simp [State.queue, State.modQueue]
  · simp [State.queue, State.modQueue, h]
theorem State.quadOf_modQuad (s : State) (p q : Nat) (f : Quad → Quad) :
    (s.modQuad p f).quadOf q = if q = p then f (s.quadOf p) else s.quadOf q := by
  by_cases h : q = p
  · subst h; simp [State.quadOf, State.modQuad]
  · simp [State.quadOf, State.modQuad, h]
theorem State.coreRec_modCore (s : State) (p q : Nat) (f : CoreRec → CoreRec) :
    (s.modCore p f).coreRec q = if q = p then f (s.coreRec p) else s.coreRec q := by
  by_cases h : q = p
  · subst h; simp [State.coreRec, State.modCore]
  · simp [State.coreRec, State.modCore, h]
theorem State.find_modUnit (s : State) (u v : Nat) (f : UnitRec → UnitRec) :
    Tbl.find? (s.modUnit u f).units v = if v = u then (Tbl.find? s.units v).map f else Tbl.find? s.units v :=
  Tbl.find?_adjust ..
theorem State.find_modLaunch (s : State) (u v : Nat) (f : Launch → Launch) :
    Tbl.find? (s.modLaunch u f).launches v = if v = u then (Tbl.find? s.launches v).map f else Tbl.find? s.launches v :=
  Tbl.find?_adjust ..
theorem State.find_modCmd (s : State) (u v : Nat) (f : Cmd → Cmd) :
    Tbl.find? (s.modCmd u f).cmds v = if v = u then (Tbl.find? s.cmds v).map f else Tbl.find? s.cmds v :=
  Tbl.find?_adjust ..
theorem State.msOf_setMs (s : State) (a b m : Nat) : (s.setMs a m).msOf b = if b = a then m else s.msOf b := by
  by_cases h : b = a
  · subst h; simp [State.msOf, State.setMs]
  · simp [State.msOf, State.setMs, h]

/-! ### Thread.enterTrap -/

@[simp] theorem Thread.enterTrap_part (th : Thread) (v o : Bool) (c n : Nat) (x vec : Dword) (k : Nat) : (th.enterTrap v o c n x vec k).part = th.part := rfl
@[simp] theorem Thread.enterTrap_cid (th : Thread) (v o : Bool) (c n : Nat) (x vec : Dword) (k : Nat) : (th.enterTrap v o c n x vec k).cid = th.cid := rfl
@[simp] theorem Thread.enterTrap_asid (th : Thread) (v o : Bool) (c n : Nat) (x vec : Dword) (k : Nat) : (th.enterTrap v o c n x vec k).asid = th.asid := rfl
@[simp] theorem Thread.enterTrap_unit (th : Thread) (v o : Bool) (c n : Nat) (x vec : Dword) (k : Nat) : (th.enterTrap v o c n x vec k).unit = th.unit := rfl
@[simp] theorem Thread.enterTrap_group (th : Thread) (v o : Bool) (c n : Nat) (x vec : Dword) (k : Nat) : (th.enterTrap v o c n x vec k).group = th.group := rfl
@[simp] theorem Thread.enterTrap_nG (th : Thread) (v o : Bool) (c n : Nat) (x vec : Dword) (k : Nat) : (th.enterTrap v o c n x vec k).nG = th.nG := rfl
@[simp] theorem Thread.enterTrap_nV (th : Thread) (v o : Bool) (c n : Nat) (x vec : Dword) (k : Nat) : (th.enterTrap v o c n x vec k).nV = th.nV := rfl
@[simp] theorem Thread.enterTrap_g (th : Thread) (v o : Bool) (c n : Nat) (x vec : Dword) (k : Nat) : (th.enterTrap v o c n x vec k).g = th.g := rfl
@[simp] theorem Thread.enterTrap_v (th : Thread) (v o : Bool) (c n : Nat) (x vec : Dword) (k : Nat) : (th.enterTrap v o c n x vec k).v = th.v := rfl
@[simp] theorem Thread.enterTrap_p (th : Thread) (v o : Bool) (c n : Nat) (x vec : Dword) (k : Nat) : (th.enterTrap v o c n x vec k).p = th.p := rfl
@[simp] theorem Thread.enterTrap_h (th : Thread) (v o : Bool) (c n : Nat) (x vec : Dword) (k : Nat) : (th.enterTrap v o c n x vec k).h = th.h := rfl
@[simp] theorem Thread.enterTrap_vec (th : Thread) (v o : Bool) (c n : Nat) (x vec : Dword) (k : Nat) : (th.enterTrap v o c n x vec k).vec = th.vec := rfl
@[simp] theorem Thread.enterTrap_pend (th : Thread) (v o : Bool) (c n : Nat) (x vec : Dword) (k : Nat) : (th.enterTrap v o c n x vec k).pend = th.pend := rfl
@[simp] theorem Thread.enterTrap_rnd (th : Thread) (v o : Bool) (c n : Nat) (x vec : Dword) (k : Nat) : (th.enterTrap v o c n x vec k).rnd = th.rnd := rfl
@[simp] theorem Thread.enterTrap_passed (th : Thread) (v o : Bool) (c n : Nat) (x vec : Dword) (k : Nat) : (th.enterTrap v o c n x vec k).passed = th.passed := rfl
@[simp] theorem Thread.enterTrap_tx (th : Thread) (v o : Bool) (c n : Nat) (x vec : Dword) (k : Nat) : (th.enterTrap v o c n x vec k).tx = th.tx := rfl
@[simp] theorem Thread.enterTrap_tstat (th : Thread) (v o : Bool) (c n : Nat) (x vec : Dword) (k : Nat) : (th.enterTrap v o c n x vec k).tstat = th.tstat := rfl
@[simp] theorem Thread.enterTrap_fenceMs (th : Thread) (v o : Bool) (c n : Nat) (x vec : Dword) (k : Nat) : (th.enterTrap v o c n x vec k).fenceMs = th.fenceMs := rfl
@[simp] theorem Thread.enterTrap_stepped (th : Thread) (v o : Bool) (c n : Nat) (x vec : Dword) (k : Nat) : (th.enterTrap v o c n x vec k).stepped = th.stepped := rfl
@[simp] theorem Thread.enterTrap_unchecked (th : Thread) (v o : Bool) (c n : Nat) (x vec : Dword) (k : Nat) : (th.enterTrap v o c n x vec k).unchecked = th.unchecked := rfl

/-- Where a trap goes, and what it saves (R47). -/
theorem Thread.enterTrap_saved (th : Thread) (v o : Bool) (c n : Nat) (x vec : Dword) (k : Nat) :
    (th.enterTrap v o c n x vec k).epc = th.pc ∧ (th.enterTrap v o c n x vec k).cause = BitVec.ofNat 32 (c + n * 256) ∧
      (th.enterTrap v o c n x vec k).val = x ∧ (th.enterTrap v o c n x vec k).pc = vec := ⟨rfl, rfl, rfl, rfl⟩

/-! ### Thread.leaveTrap -/

@[simp] theorem Thread.leaveTrap_part (th : Thread) (v : Bool) (k : Nat) : (th.leaveTrap v k).part = th.part := rfl
@[simp] theorem Thread.leaveTrap_cid (th : Thread) (v : Bool) (k : Nat) : (th.leaveTrap v k).cid = th.cid := rfl
@[simp] theorem Thread.leaveTrap_asid (th : Thread) (v : Bool) (k : Nat) : (th.leaveTrap v k).asid = th.asid := rfl
@[simp] theorem Thread.leaveTrap_unit (th : Thread) (v : Bool) (k : Nat) : (th.leaveTrap v k).unit = th.unit := rfl
@[simp] theorem Thread.leaveTrap_group (th : Thread) (v : Bool) (k : Nat) : (th.leaveTrap v k).group = th.group := rfl
@[simp] theorem Thread.leaveTrap_nG (th : Thread) (v : Bool) (k : Nat) : (th.leaveTrap v k).nG = th.nG := rfl
@[simp] theorem Thread.leaveTrap_nV (th : Thread) (v : Bool) (k : Nat) : (th.leaveTrap v k).nV = th.nV := rfl
@[simp] theorem Thread.leaveTrap_g (th : Thread) (v : Bool) (k : Nat) : (th.leaveTrap v k).g = th.g := rfl
@[simp] theorem Thread.leaveTrap_v (th : Thread) (v : Bool) (k : Nat) : (th.leaveTrap v k).v = th.v := rfl
@[simp] theorem Thread.leaveTrap_p (th : Thread) (v : Bool) (k : Nat) : (th.leaveTrap v k).p = th.p := rfl
@[simp] theorem Thread.leaveTrap_h (th : Thread) (v : Bool) (k : Nat) : (th.leaveTrap v k).h = th.h := rfl
@[simp] theorem Thread.leaveTrap_epc (th : Thread) (v : Bool) (k : Nat) : (th.leaveTrap v k).epc = th.epc := rfl
@[simp] theorem Thread.leaveTrap_cause (th : Thread) (v : Bool) (k : Nat) : (th.leaveTrap v k).cause = th.cause := rfl
@[simp] theorem Thread.leaveTrap_val (th : Thread) (v : Bool) (k : Nat) : (th.leaveTrap v k).val = th.val := rfl
@[simp] theorem Thread.leaveTrap_vec (th : Thread) (v : Bool) (k : Nat) : (th.leaveTrap v k).vec = th.vec := rfl
@[simp] theorem Thread.leaveTrap_pend (th : Thread) (v : Bool) (k : Nat) : (th.leaveTrap v k).pend = th.pend := rfl
@[simp] theorem Thread.leaveTrap_rnd (th : Thread) (v : Bool) (k : Nat) : (th.leaveTrap v k).rnd = th.rnd := rfl
@[simp] theorem Thread.leaveTrap_passed (th : Thread) (v : Bool) (k : Nat) : (th.leaveTrap v k).passed = th.passed := rfl
@[simp] theorem Thread.leaveTrap_tx (th : Thread) (v : Bool) (k : Nat) : (th.leaveTrap v k).tx = th.tx := rfl
@[simp] theorem Thread.leaveTrap_tstat (th : Thread) (v : Bool) (k : Nat) : (th.leaveTrap v k).tstat = th.tstat := rfl
@[simp] theorem Thread.leaveTrap_fenceMs (th : Thread) (v : Bool) (k : Nat) : (th.leaveTrap v k).fenceMs = th.fenceMs := rfl
@[simp] theorem Thread.leaveTrap_reply (th : Thread) (v : Bool) (k : Nat) : (th.leaveTrap v k).reply = th.reply := rfl
@[simp] theorem Thread.leaveTrap_stepped (th : Thread) (v : Bool) (k : Nat) : (th.leaveTrap v k).stepped = th.stepped := rfl
@[simp] theorem Thread.leaveTrap_denied (th : Thread) (v : Bool) (k : Nat) : (th.leaveTrap v k).denied = th.denied := rfl
@[simp] theorem Thread.leaveTrap_eaten (th : Thread) (v : Bool) (k : Nat) : (th.leaveTrap v k).eaten = th.eaten := rfl
@[simp] theorem Thread.leaveTrap_logged (th : Thread) (v : Bool) (k : Nat) : (th.leaveTrap v k).logged = th.logged := rfl
@[simp] theorem Thread.leaveTrap_unchecked (th : Thread) (v : Bool) (k : Nat) : (th.leaveTrap v k).unchecked = th.unchecked := rfl

/-- Where a return goes (R50). -/
theorem Thread.leaveTrap_pc (th : Thread) (v : Bool) (k : Nat) : (th.leaveTrap v k).pc = th.epc := rfl

/-! ### The advance past an instruction -/

@[simp] theorem State.advance_units (s : State) : s.advance.units = s.units := rfl
@[simp] theorem State.advance_nextUnit (s : State) : s.advance.nextUnit = s.nextUnit := rfl
@[simp] theorem State.advance_cores (s : State) : s.advance.cores = s.cores := rfl
@[simp] theorem State.advance_quads (s : State) : s.advance.quads = s.quads := rfl
@[simp] theorem State.advance_cvs (s : State) : s.advance.cvs = s.cvs := rfl
@[simp] theorem State.advance_pairs (s : State) : s.advance.pairs = s.pairs := rfl
@[simp] theorem State.advance_accs (s : State) : s.advance.accs = s.accs := rfl
@[simp] theorem State.advance_regions (s : State) : s.advance.regions = s.regions := rfl
@[simp] theorem State.advance_mem (s : State) : s.advance.mem = s.mem := rfl
@[simp] theorem State.advance_tlb (s : State) : s.advance.tlb = s.tlb := rfl
@[simp] theorem State.advance_owners (s : State) : s.advance.owners = s.owners := rfl
@[simp] theorem State.advance_lines (s : State) : s.advance.lines = s.lines := rfl
@[simp] theorem State.advance_leases (s : State) : s.advance.leases = s.leases := rfl
@[simp] theorem State.advance_l1 (s : State) : s.advance.l1 = s.l1 := rfl
@[simp] theorem State.advance_ipath (s : State) : s.advance.ipath = s.ipath := rfl
@[simp] theorem State.advance_faults (s : State) : s.advance.faults = s.faults := rfl
@[simp] theorem State.advance_log (s : State) : s.advance.log = s.log := rfl
@[simp] theorem State.advance_ms (s : State) : s.advance.ms = s.ms := rfl
@[simp] theorem State.advance_seqs (s : State) : s.advance.seqs = s.seqs := rfl
@[simp] theorem State.advance_msSync (s : State) : s.advance.msSync = s.msSync := rfl
@[simp] theorem State.advance_waiters (s : State) : s.advance.waiters = s.waiters := rfl
@[simp] theorem State.advance_due (s : State) : s.advance.due = s.due := rfl
@[simp] theorem State.advance_shadow (s : State) : s.advance.shadow = s.shadow := rfl
@[simp] theorem State.advance_parts (s : State) : s.advance.parts = s.parts := rfl
@[simp] theorem State.advance_croot (s : State) : s.advance.croot = s.croot := rfl
@[simp] theorem State.advance_cmask (s : State) : s.advance.cmask = s.cmask := rfl
@[simp] theorem State.advance_queues (s : State) : s.advance.queues = s.queues := rfl
@[simp] theorem State.advance_launches (s : State) : s.advance.launches = s.launches := rfl
@[simp] theorem State.advance_nextOrder (s : State) : s.advance.nextOrder = s.nextOrder := rfl
@[simp] theorem State.advance_deficits (s : State) : s.advance.deficits = s.deficits := rfl
@[simp] theorem State.advance_visits (s : State) : s.advance.visits = s.visits := rfl
@[simp] theorem State.advance_selectors (s : State) : s.advance.selectors = s.selectors := rfl
@[simp] theorem State.advance_phaseRuns (s : State) : s.advance.phaseRuns = s.phaseRuns := rfl
@[simp] theorem State.advance_saved (s : State) : s.advance.saved = s.saved := rfl
@[simp] theorem State.advance_findings (s : State) : s.advance.findings = s.findings := rfl
@[simp] theorem State.advance_lateTrees (s : State) : s.advance.lateTrees = s.lateTrees := rfl
@[simp] theorem State.advance_stops (s : State) : s.advance.stops = s.stops := rfl
@[simp] theorem State.advance_pools (s : State) : s.advance.pools = s.pools := rfl
@[simp] theorem State.advance_cmds (s : State) : s.advance.cmds = s.cmds := rfl
@[simp] theorem State.advance_nextCmd (s : State) : s.advance.nextCmd = s.nextCmd := rfl
@[simp] theorem State.advance_chains (s : State) : s.advance.chains = s.chains := rfl
@[simp] theorem State.advance_drrs (s : State) : s.advance.drrs = s.drrs := rfl
@[simp] theorem State.advance_clearing (s : State) : s.advance.clearing = s.clearing := rfl
@[simp] theorem State.advance_turns (s : State) : s.advance.turns = s.turns := rfl
@[simp] theorem State.advance_fcache (s : State) : s.advance.fcache = s.fcache := rfl
@[simp] theorem State.advance_reqs (s : State) : s.advance.reqs = s.reqs := rfl
@[simp] theorem State.advance_outbox (s : State) : s.advance.outbox = s.outbox := rfl
@[simp] theorem State.advance_nextReq (s : State) : s.advance.nextReq = s.nextReq := rfl
@[simp] theorem State.advance_flash (s : State) : s.advance.flash = s.flash := rfl
@[simp] theorem State.advance_errs (s : State) : s.advance.errs = s.errs := rfl
@[simp] theorem State.advance_boot (s : State) : s.advance.boot = s.boot := rfl
@[simp] theorem State.advance_nextCall (s : State) : s.advance.nextCall = s.nextCall := rfl
@[simp] theorem State.advance_nextTurn (s : State) : s.advance.nextTurn = s.nextTurn := rfl
@[simp] theorem State.advance_now (s : State) : s.advance.now = s.now := rfl
@[simp] theorem State.advance_rt (s : State) : s.advance.rt = s.rt := rfl
@[simp] theorem State.advance_cur (s : State) : s.advance.cur = s.cur := rfl
@[simp] theorem State.advance_bundle (s : State) : s.advance.bundle = s.bundle := rfl
@[simp] theorem State.advance_latch (s : State) : s.advance.latch = s.latch := rfl
@[simp] theorem State.advance_combined (s : State) : s.advance.combined = s.combined := rfl
@[simp] theorem State.advance_inputs (s : State) : s.advance.inputs = s.inputs := rfl
@[simp] theorem State.advance_free (s : State) : s.advance.free = s.free := rfl

@[simp] theorem State.advance_me_level (s : State) : s.advance.me.level = s.me.level := by simp [State.advance]
@[simp] theorem State.advance_me_part (s : State) : s.advance.me.part = s.me.part := by simp [State.advance]
@[simp] theorem State.advance_me_cid (s : State) : s.advance.me.cid = s.me.cid := by simp [State.advance]
@[simp] theorem State.advance_me_asid (s : State) : s.advance.me.asid = s.me.asid := by simp [State.advance]
@[simp] theorem State.advance_me_unit (s : State) : s.advance.me.unit = s.me.unit := by simp [State.advance]
@[simp] theorem State.advance_me_group (s : State) : s.advance.me.group = s.me.group := by simp [State.advance]
@[simp] theorem State.advance_me_nG (s : State) : s.advance.me.nG = s.me.nG := by simp [State.advance]
@[simp] theorem State.advance_me_nV (s : State) : s.advance.me.nV = s.me.nV := by simp [State.advance]
@[simp] theorem State.advance_me_g (s : State) : s.advance.me.g = s.me.g := by simp [State.advance]
@[simp] theorem State.advance_me_v (s : State) : s.advance.me.v = s.me.v := by simp [State.advance]
@[simp] theorem State.advance_me_p (s : State) : s.advance.me.p = s.me.p := by simp [State.advance]
@[simp] theorem State.advance_me_h (s : State) : s.advance.me.h = s.me.h := by simp [State.advance]
@[simp] theorem State.advance_me_epc (s : State) : s.advance.me.epc = s.me.epc := by simp [State.advance]
@[simp] theorem State.advance_me_cause (s : State) : s.advance.me.cause = s.me.cause := by simp [State.advance]
@[simp] theorem State.advance_me_val (s : State) : s.advance.me.val = s.me.val := by simp [State.advance]
@[simp] theorem State.advance_me_vec (s : State) : s.advance.me.vec = s.me.vec := by simp [State.advance]
@[simp] theorem State.advance_me_plvl (s : State) : s.advance.me.plvl = s.me.plvl := by simp [State.advance]
@[simp] theorem State.advance_me_pend (s : State) : s.advance.me.pend = s.me.pend := by simp [State.advance]
@[simp] theorem State.advance_me_rnd (s : State) : s.advance.me.rnd = s.me.rnd := by simp [State.advance]
@[simp] theorem State.advance_me_passed (s : State) : s.advance.me.passed = s.me.passed := by simp [State.advance]
@[simp] theorem State.advance_me_tx (s : State) : s.advance.me.tx = s.me.tx := by simp [State.advance]
@[simp] theorem State.advance_me_tstat (s : State) : s.advance.me.tstat = s.me.tstat := by simp [State.advance]
@[simp] theorem State.advance_me_fenceMs (s : State) : s.advance.me.fenceMs = s.me.fenceMs := by simp [State.advance]
@[simp] theorem State.advance_me_reply (s : State) : s.advance.me.reply = s.me.reply := by simp [State.advance]
@[simp] theorem State.advance_me_stepped (s : State) : s.advance.me.stepped = s.me.stepped := by simp [State.advance]
@[simp] theorem State.advance_me_unchecked (s : State) : s.advance.me.unchecked = s.me.unchecked := by simp [State.advance]
@[simp] theorem State.advance_me_pc (s : State) : s.advance.me.pc = nextPc s.me.pc := by simp [State.advance]
@[simp] theorem State.advance_me_wait (s : State) : s.advance.me.wait = .ready := by simp [State.advance]
@[simp] theorem State.advance_part (s : State) (p : Nat) : s.advance.part p = s.part p := rfl

/-! ### Writing a register -/

@[simp] theorem State.setGOf_units (s : State) (t : Tid) (n : Nat) (v : GReg) : (s.setGOf t n v).units = s.units := by
  unfold State.setGOf; split <;> rfl
@[simp] theorem State.setGOf_nextUnit (s : State) (t : Tid) (n : Nat) (v : GReg) : (s.setGOf t n v).nextUnit = s.nextUnit := by
  unfold State.setGOf; split <;> rfl
@[simp] theorem State.setGOf_cores (s : State) (t : Tid) (n : Nat) (v : GReg) : (s.setGOf t n v).cores = s.cores := by
  unfold State.setGOf; split <;> rfl
@[simp] theorem State.setGOf_quads (s : State) (t : Tid) (n : Nat) (v : GReg) : (s.setGOf t n v).quads = s.quads := by
  unfold State.setGOf; split <;> rfl
@[simp] theorem State.setGOf_cvs (s : State) (t : Tid) (n : Nat) (v : GReg) : (s.setGOf t n v).cvs = s.cvs := by
  unfold State.setGOf; split <;> rfl
@[simp] theorem State.setGOf_pairs (s : State) (t : Tid) (n : Nat) (v : GReg) : (s.setGOf t n v).pairs = s.pairs := by
  unfold State.setGOf; split <;> rfl
@[simp] theorem State.setGOf_accs (s : State) (t : Tid) (n : Nat) (v : GReg) : (s.setGOf t n v).accs = s.accs := by
  unfold State.setGOf; split <;> rfl
@[simp] theorem State.setGOf_regions (s : State) (t : Tid) (n : Nat) (v : GReg) : (s.setGOf t n v).regions = s.regions := by
  unfold State.setGOf; split <;> rfl
@[simp] theorem State.setGOf_mem (s : State) (t : Tid) (n : Nat) (v : GReg) : (s.setGOf t n v).mem = s.mem := by
  unfold State.setGOf; split <;> rfl
@[simp] theorem State.setGOf_tlb (s : State) (t : Tid) (n : Nat) (v : GReg) : (s.setGOf t n v).tlb = s.tlb := by
  unfold State.setGOf; split <;> rfl
@[simp] theorem State.setGOf_owners (s : State) (t : Tid) (n : Nat) (v : GReg) : (s.setGOf t n v).owners = s.owners := by
  unfold State.setGOf; split <;> rfl
@[simp] theorem State.setGOf_lines (s : State) (t : Tid) (n : Nat) (v : GReg) : (s.setGOf t n v).lines = s.lines := by
  unfold State.setGOf; split <;> rfl
@[simp] theorem State.setGOf_leases (s : State) (t : Tid) (n : Nat) (v : GReg) : (s.setGOf t n v).leases = s.leases := by
  unfold State.setGOf; split <;> rfl
@[simp] theorem State.setGOf_l1 (s : State) (t : Tid) (n : Nat) (v : GReg) : (s.setGOf t n v).l1 = s.l1 := by
  unfold State.setGOf; split <;> rfl
@[simp] theorem State.setGOf_ipath (s : State) (t : Tid) (n : Nat) (v : GReg) : (s.setGOf t n v).ipath = s.ipath := by
  unfold State.setGOf; split <;> rfl
@[simp] theorem State.setGOf_faults (s : State) (t : Tid) (n : Nat) (v : GReg) : (s.setGOf t n v).faults = s.faults := by
  unfold State.setGOf; split <;> rfl
@[simp] theorem State.setGOf_log (s : State) (t : Tid) (n : Nat) (v : GReg) : (s.setGOf t n v).log = s.log := by
  unfold State.setGOf; split <;> rfl
@[simp] theorem State.setGOf_ms (s : State) (t : Tid) (n : Nat) (v : GReg) : (s.setGOf t n v).ms = s.ms := by
  unfold State.setGOf; split <;> rfl
@[simp] theorem State.setGOf_seqs (s : State) (t : Tid) (n : Nat) (v : GReg) : (s.setGOf t n v).seqs = s.seqs := by
  unfold State.setGOf; split <;> rfl
@[simp] theorem State.setGOf_msSync (s : State) (t : Tid) (n : Nat) (v : GReg) : (s.setGOf t n v).msSync = s.msSync := by
  unfold State.setGOf; split <;> rfl
@[simp] theorem State.setGOf_waiters (s : State) (t : Tid) (n : Nat) (v : GReg) : (s.setGOf t n v).waiters = s.waiters := by
  unfold State.setGOf; split <;> rfl
@[simp] theorem State.setGOf_due (s : State) (t : Tid) (n : Nat) (v : GReg) : (s.setGOf t n v).due = s.due := by
  unfold State.setGOf; split <;> rfl
@[simp] theorem State.setGOf_shadow (s : State) (t : Tid) (n : Nat) (v : GReg) : (s.setGOf t n v).shadow = s.shadow := by
  unfold State.setGOf; split <;> rfl
@[simp] theorem State.setGOf_parts (s : State) (t : Tid) (n : Nat) (v : GReg) : (s.setGOf t n v).parts = s.parts := by
  unfold State.setGOf; split <;> rfl
@[simp] theorem State.setGOf_croot (s : State) (t : Tid) (n : Nat) (v : GReg) : (s.setGOf t n v).croot = s.croot := by
  unfold State.setGOf; split <;> rfl
@[simp] theorem State.setGOf_cmask (s : State) (t : Tid) (n : Nat) (v : GReg) : (s.setGOf t n v).cmask = s.cmask := by
  unfold State.setGOf; split <;> rfl
@[simp] theorem State.setGOf_queues (s : State) (t : Tid) (n : Nat) (v : GReg) : (s.setGOf t n v).queues = s.queues := by
  unfold State.setGOf; split <;> rfl
@[simp] theorem State.setGOf_launches (s : State) (t : Tid) (n : Nat) (v : GReg) : (s.setGOf t n v).launches = s.launches := by
  unfold State.setGOf; split <;> rfl
@[simp] theorem State.setGOf_nextOrder (s : State) (t : Tid) (n : Nat) (v : GReg) : (s.setGOf t n v).nextOrder = s.nextOrder := by
  unfold State.setGOf; split <;> rfl
@[simp] theorem State.setGOf_deficits (s : State) (t : Tid) (n : Nat) (v : GReg) : (s.setGOf t n v).deficits = s.deficits := by
  unfold State.setGOf; split <;> rfl
@[simp] theorem State.setGOf_visits (s : State) (t : Tid) (n : Nat) (v : GReg) : (s.setGOf t n v).visits = s.visits := by
  unfold State.setGOf; split <;> rfl
@[simp] theorem State.setGOf_selectors (s : State) (t : Tid) (n : Nat) (v : GReg) : (s.setGOf t n v).selectors = s.selectors := by
  unfold State.setGOf; split <;> rfl
@[simp] theorem State.setGOf_phaseRuns (s : State) (t : Tid) (n : Nat) (v : GReg) : (s.setGOf t n v).phaseRuns = s.phaseRuns := by
  unfold State.setGOf; split <;> rfl
@[simp] theorem State.setGOf_saved (s : State) (t : Tid) (n : Nat) (v : GReg) : (s.setGOf t n v).saved = s.saved := by
  unfold State.setGOf; split <;> rfl
@[simp] theorem State.setGOf_findings (s : State) (t : Tid) (n : Nat) (v : GReg) : (s.setGOf t n v).findings = s.findings := by
  unfold State.setGOf; split <;> rfl
@[simp] theorem State.setGOf_lateTrees (s : State) (t : Tid) (n : Nat) (v : GReg) : (s.setGOf t n v).lateTrees = s.lateTrees := by
  unfold State.setGOf; split <;> rfl
@[simp] theorem State.setGOf_stops (s : State) (t : Tid) (n : Nat) (v : GReg) : (s.setGOf t n v).stops = s.stops := by
  unfold State.setGOf; split <;> rfl
@[simp] theorem State.setGOf_pools (s : State) (t : Tid) (n : Nat) (v : GReg) : (s.setGOf t n v).pools = s.pools := by
  unfold State.setGOf; split <;> rfl
@[simp] theorem State.setGOf_cmds (s : State) (t : Tid) (n : Nat) (v : GReg) : (s.setGOf t n v).cmds = s.cmds := by
  unfold State.setGOf; split <;> rfl
@[simp] theorem State.setGOf_nextCmd (s : State) (t : Tid) (n : Nat) (v : GReg) : (s.setGOf t n v).nextCmd = s.nextCmd := by
  unfold State.setGOf; split <;> rfl
@[simp] theorem State.setGOf_chains (s : State) (t : Tid) (n : Nat) (v : GReg) : (s.setGOf t n v).chains = s.chains := by
  unfold State.setGOf; split <;> rfl
@[simp] theorem State.setGOf_drrs (s : State) (t : Tid) (n : Nat) (v : GReg) : (s.setGOf t n v).drrs = s.drrs := by
  unfold State.setGOf; split <;> rfl
@[simp] theorem State.setGOf_clearing (s : State) (t : Tid) (n : Nat) (v : GReg) : (s.setGOf t n v).clearing = s.clearing := by
  unfold State.setGOf; split <;> rfl
@[simp] theorem State.setGOf_turns (s : State) (t : Tid) (n : Nat) (v : GReg) : (s.setGOf t n v).turns = s.turns := by
  unfold State.setGOf; split <;> rfl
@[simp] theorem State.setGOf_fcache (s : State) (t : Tid) (n : Nat) (v : GReg) : (s.setGOf t n v).fcache = s.fcache := by
  unfold State.setGOf; split <;> rfl
@[simp] theorem State.setGOf_reqs (s : State) (t : Tid) (n : Nat) (v : GReg) : (s.setGOf t n v).reqs = s.reqs := by
  unfold State.setGOf; split <;> rfl
@[simp] theorem State.setGOf_outbox (s : State) (t : Tid) (n : Nat) (v : GReg) : (s.setGOf t n v).outbox = s.outbox := by
  unfold State.setGOf; split <;> rfl
@[simp] theorem State.setGOf_nextReq (s : State) (t : Tid) (n : Nat) (v : GReg) : (s.setGOf t n v).nextReq = s.nextReq := by
  unfold State.setGOf; split <;> rfl
@[simp] theorem State.setGOf_flash (s : State) (t : Tid) (n : Nat) (v : GReg) : (s.setGOf t n v).flash = s.flash := by
  unfold State.setGOf; split <;> rfl
@[simp] theorem State.setGOf_errs (s : State) (t : Tid) (n : Nat) (v : GReg) : (s.setGOf t n v).errs = s.errs := by
  unfold State.setGOf; split <;> rfl
@[simp] theorem State.setGOf_boot (s : State) (t : Tid) (n : Nat) (v : GReg) : (s.setGOf t n v).boot = s.boot := by
  unfold State.setGOf; split <;> rfl
@[simp] theorem State.setGOf_nextCall (s : State) (t : Tid) (n : Nat) (v : GReg) : (s.setGOf t n v).nextCall = s.nextCall := by
  unfold State.setGOf; split <;> rfl
@[simp] theorem State.setGOf_nextTurn (s : State) (t : Tid) (n : Nat) (v : GReg) : (s.setGOf t n v).nextTurn = s.nextTurn := by
  unfold State.setGOf; split <;> rfl
@[simp] theorem State.setGOf_now (s : State) (t : Tid) (n : Nat) (v : GReg) : (s.setGOf t n v).now = s.now := by
  unfold State.setGOf; split <;> rfl
@[simp] theorem State.setGOf_rt (s : State) (t : Tid) (n : Nat) (v : GReg) : (s.setGOf t n v).rt = s.rt := by
  unfold State.setGOf; split <;> rfl
@[simp] theorem State.setGOf_cur (s : State) (t : Tid) (n : Nat) (v : GReg) : (s.setGOf t n v).cur = s.cur := by
  unfold State.setGOf; split <;> rfl
@[simp] theorem State.setGOf_bundle (s : State) (t : Tid) (n : Nat) (v : GReg) : (s.setGOf t n v).bundle = s.bundle := by
  unfold State.setGOf; split <;> rfl
@[simp] theorem State.setGOf_latch (s : State) (t : Tid) (n : Nat) (v : GReg) : (s.setGOf t n v).latch = s.latch := by
  unfold State.setGOf; split <;> rfl
@[simp] theorem State.setGOf_combined (s : State) (t : Tid) (n : Nat) (v : GReg) : (s.setGOf t n v).combined = s.combined := by
  unfold State.setGOf; split <;> rfl
@[simp] theorem State.setGOf_inputs (s : State) (t : Tid) (n : Nat) (v : GReg) : (s.setGOf t n v).inputs = s.inputs := by
  unfold State.setGOf; split <;> rfl
@[simp] theorem State.setGOf_free (s : State) (t : Tid) (n : Nat) (v : GReg) : (s.setGOf t n v).free = s.free := by
  unfold State.setGOf; split <;> rfl

end Sys2Proof.Machine
end

