-- ==== Sys2Proof/Laws/PerInstr.lean ====
section
/-!
SUPPORT. The opcode of every instruction names it: a well-formed instruction has a shape, and the opcode of that shape, with the
instruction's fields, names the instruction again (R197, R207). An event has no word.
-/
set_option Elab.async false
namespace Sys2Proof.Laws
open Sys2Proof.Machine

/-- The opcode and the SUB of a well-formed instruction with a word name the instruction. -/
def Opcode.Statement (i : Instr) : Prop :=
  ∀ w, fieldsOf i = some w → staticOk i = true → ∃ sh, shapeOf i = some sh ∧ instrOf sh.opc.toNat w = some i

/-- MOD that holds only SUB bits of an empty mask has SUB 0. -/
theorem Opcode.sub_zero {w : Fields} (h : modSub w 0 = true) : w.sub = 0 := by
  simp only [modSub, subIn, Bool.and_eq_true, beq_iff_eq] at h
  have h2 := h.2
  revert h2
  generalize w.sub = x
  revert x
  decide
theorem Opcode.sub_eq {w : Fields} {k : BitVec 5} (h : (w.ty == 0 && w.rm == 0 && w.sub == k) = true) : w.sub = k := by
  simp only [Bool.and_eq_true, beq_iff_eq] at h
  exact h.2

/-- Where the opcode alone names the instruction. -/
theorem Opcode.named {i : Instr} {sh : Shape} {w v : Fields} (hs : shapeOf i = some sh) (hn : instrOf sh.opc.toNat w = some i) (hw : v = w) :
    ∃ sh, shapeOf i = some sh ∧ instrOf sh.opc.toNat v = some i := by
  subst hw
  exact ⟨sh, hs, hn⟩

/-- Where SUB is part of the opcode, the shape fixes it. -/
theorem Opcode.named_of_sub {i : Instr} {mk : Fields → Instr} {sh : Shape} {w v : Fields} (k : BitVec 5)
    (hs : shapeOf i = some sh) (hv : fieldsOf i = some v) (h : staticOk i = true)
    (hk : sh.modOk = true → w.sub = k) (hn : w.sub = k → instrOf sh.opc.toNat w = some (mk w)) (hw : v = w) (hi : i = mk w) :
    ∃ sh, shapeOf i = some sh ∧ instrOf sh.opc.toNat v = some i := by
  subst hw
  refine ⟨sh, hs, ?_⟩
  have hm : sh.modOk = true := by
    simp only [staticOk, hs, hv, Shape.ok, Bool.and_eq_true] at h
    simp [h]
  rw [hn (hk hm), hi]

theorem Opcode.issueBundle (core quad : Nat) (left : BitVec 32) : Opcode.Statement (.issueBundle core quad left) := fun _ hv _ => nomatch hv
theorem Opcode.add (w : Fields) : Opcode.Statement (.add w) := fun _ hv _ => Opcode.named rfl rfl (Option.some.inj hv).symm
theorem Opcode.sub (w : Fields) : Opcode.Statement (.sub w) := fun _ hv _ => Opcode.named rfl rfl (Option.some.inj hv).symm
theorem Opcode.mul (w : Fields) : Opcode.Statement (.mul w) := fun _ hv _ => Opcode.named rfl rfl (Option.some.inj hv).symm
theorem Opcode.mulh (w : Fields) : Opcode.Statement (.mulh w) := fun _ hv _ => Opcode.named rfl rfl (Option.some.inj hv).symm
theorem Opcode.mad (w : Fields) : Opcode.Statement (.mad w) := fun _ hv _ => Opcode.named rfl rfl (Option.some.inj hv).symm
theorem Opcode.div (w : Fields) : Opcode.Statement (.div w) := fun _ hv _ => Opcode.named rfl rfl (Option.some.inj hv).symm
theorem Opcode.min (w : Fields) : Opcode.Statement (.min w) := fun _ hv _ => Opcode.named rfl rfl (Option.some.inj hv).symm
theorem Opcode.max (w : Fields) : Opcode.Statement (.max w) := fun _ hv _ => Opcode.named rfl rfl (Option.some.inj hv).symm
theorem Opcode.abs (w : Fields) : Opcode.Statement (.abs w) := fun _ hv _ => Opcode.named rfl rfl (Option.some.inj hv).symm
theorem Opcode.lop3 (w : Fields) : Opcode.Statement (.lop3 w) := fun _ hv _ => Opcode.named rfl rfl (Option.some.inj hv).symm
theorem Opcode.shl (w : Fields) : Opcode.Statement (.shl w) := fun _ hv _ => Opcode.named rfl rfl (Option.some.inj hv).symm
theorem Opcode.shr (w : Fields) : Opcode.Statement (.shr w) := fun _ hv _ => Opcode.named rfl rfl (Option.some.inj hv).symm
theorem Opcode.fsh (w : Fields) : Opcode.Statement (.fsh w) := fun _ hv _ => Opcode.named rfl rfl (Option.some.inj hv).symm
theorem Opcode.popc (w : Fields) : Opcode.Statement (.popc w) := fun _ hv _ => Opcode.named rfl rfl (Option.some.inj hv).symm
theorem Opcode.clz (w : Fields) : Opcode.Statement (.clz w) := fun _ hv _ => Opcode.named rfl rfl (Option.some.inj hv).symm
theorem Opcode.brev (w : Fields) : Opcode.Statement (.brev w) := fun _ hv _ => Opcode.named rfl rfl (Option.some.inj hv).symm
theorem Opcode.bfx (w : Fields) : Opcode.Statement (.bfx w) := fun _ hv _ => Opcode.named rfl rfl (Option.some.inj hv).symm
theorem Opcode.bfi (w : Fields) : Opcode.Statement (.bfi w) := fun _ hv _ => Opcode.named rfl rfl (Option.some.inj hv).symm
theorem Opcode.sel (w : Fields) : Opcode.Statement (.sel w) := fun _ hv _ => Opcode.named rfl rfl (Option.some.inj hv).symm
theorem Opcode.mov (w : Fields) : Opcode.Statement (.mov w) := fun _ hv _ => Opcode.named rfl rfl (Option.some.inj hv).symm
theorem Opcode.movi (w : Fields) : Opcode.Statement (.movi w) := fun _ hv _ => Opcode.named rfl rfl (Option.some.inj hv).symm
theorem Opcode.addr (w : Fields) : Opcode.Statement (.addr w) := fun _ hv _ => Opcode.named rfl rfl (Option.some.inj hv).symm
theorem Opcode.cmp (w : Fields) : Opcode.Statement (.cmp w) := fun _ hv _ => Opcode.named rfl rfl (Option.some.inj hv).symm
theorem Opcode.plop3 (w : Fields) : Opcode.Statement (.plop3 w) := fun _ hv _ => Opcode.named rfl rfl (Option.some.inj hv).symm
theorem Opcode.pmov (w : Fields) : Opcode.Statement (.pmov w) := fun _ hv h =>
 Opcode.named_of_sub (mk := .pmov) 0 rfl hv h (fun h => Opcode.sub_zero h) (fun hs => by cases w; cases hs; rfl) (Option.some.inj hv).symm rfl
theorem Opcode.pmovUnpack (w : Fields) : Opcode.Statement (.pmovUnpack w) := fun _ hv h =>
 Opcode.named_of_sub (mk := .pmovUnpack) 1 rfl hv h (fun h => Opcode.sub_eq h) (fun hs => by cases w; cases hs; rfl) (Option.some.inj hv).symm rfl
theorem Opcode.lxch (w : Fields) : Opcode.Statement (.lxch w) := fun _ hv _ => Opcode.named rfl rfl (Option.some.inj hv).symm
theorem Opcode.vote (w : Fields) : Opcode.Statement (.vote w) := fun _ hv _ => Opcode.named rfl rfl (Option.some.inj hv).symm
theorem Opcode.trap (w : Fields) : Opcode.Statement (.trap w) := fun _ hv _ => Opcode.named rfl rfl (Option.some.inj hv).symm
theorem Opcode.bkpt (w : Fields) : Opcode.Statement (.bkpt w) := fun _ hv _ => Opcode.named rfl rfl (Option.some.inj hv).symm
theorem Opcode.bra (w : Fields) : Opcode.Statement (.bra w) := fun _ hv _ => Opcode.named rfl rfl (Option.some.inj hv).symm
theorem Opcode.brx (w : Fields) : Opcode.Statement (.brx w) := fun _ hv _ => Opcode.named rfl rfl (Option.some.inj hv).symm
theorem Opcode.call (w : Fields) : Opcode.Statement (.call w) := fun _ hv _ => Opcode.named rfl rfl (Option.some.inj hv).symm
theorem Opcode.ret (w : Fields) : Opcode.Statement (.ret w) := fun _ hv _ => Opcode.named rfl rfl (Option.some.inj hv).symm
theorem Opcode.exit (w : Fields) : Opcode.Statement (.exit w) := fun _ hv _ => Opcode.named rfl rfl (Option.some.inj hv).symm
theorem Opcode.spawn (w : Fields) : Opcode.Statement (.spawn w) := fun _ hv _ => Opcode.named rfl rfl (Option.some.inj hv).symm
theorem Opcode.cancel (w : Fields) : Opcode.Statement (.cancel w) := fun _ hv _ => Opcode.named rfl rfl (Option.some.inj hv).symm
theorem Opcode.cntwait (w : Fields) : Opcode.Statement (.cntwait w) := fun _ hv _ => Opcode.named rfl rfl (Option.some.inj hv).symm
theorem Opcode.launch (w : Fields) : Opcode.Statement (.launch w) := fun _ hv _ => Opcode.named rfl rfl (Option.some.inj hv).symm
theorem Opcode.bar (w : Fields) : Opcode.Statement (.bar w) := fun _ hv _ => Opcode.named rfl rfl (Option.some.inj hv).symm
theorem Opcode.cvdecl (w : Fields) : Opcode.Statement (.cvdecl w) := fun _ hv _ => Opcode.named rfl rfl (Option.some.inj hv).symm
theorem Opcode.cvsign (w : Fields) : Opcode.Statement (.cvsign w) := fun _ hv _ => Opcode.named rfl rfl (Option.some.inj hv).symm
theorem Opcode.rowpass (w : Fields) : Opcode.Statement (.rowpass w) := fun _ hv _ => Opcode.named rfl rfl (Option.some.inj hv).symm
theorem Opcode.rowwait (w : Fields) : Opcode.Statement (.rowwait w) := fun _ hv _ => Opcode.named rfl rfl (Option.some.inj hv).symm
theorem Opcode.sleep (w : Fields) : Opcode.Statement (.sleep w) := fun _ hv _ => Opcode.named rfl rfl (Option.some.inj hv).symm
theorem Opcode.yield (w : Fields) : Opcode.Statement (.yield w) := fun _ hv _ => Opcode.named rfl rfl (Option.some.inj hv).symm
theorem Opcode.sleepExpiry (tid : Nat) : Opcode.Statement (.sleepExpiry tid) := fun _ hv _ => nomatch hv
theorem Opcode.ld (w : Fields) : Opcode.Statement (.ld w) := fun _ hv _ => Opcode.named rfl rfl (Option.some.inj hv).symm
theorem Opcode.st (w : Fields) : Opcode.Statement (.st w) := fun _ hv _ => Opcode.named rfl rfl (Option.some.inj hv).symm
theorem Opcode.ldv (w : Fields) : Opcode.Statement (.ldv w) := fun _ hv _ => Opcode.named rfl rfl (Option.some.inj hv).symm
theorem Opcode.stv (w : Fields) : Opcode.Statement (.stv w) := fun _ hv _ => Opcode.named rfl rfl (Option.some.inj hv).symm
theorem Opcode.ldc (w : Fields) : Opcode.Statement (.ldc w) := fun _ hv _ => Opcode.named rfl rfl (Option.some.inj hv).symm
theorem Opcode.pref (w : Fields) : Opcode.Statement (.pref w) := fun _ hv _ => Opcode.named rfl rfl (Option.some.inj hv).symm
theorem Opcode.tld (w : Fields) : Opcode.Statement (.tld w) := fun _ hv _ => Opcode.named rfl rfl (Option.some.inj hv).symm
theorem Opcode.tst (w : Fields) : Opcode.Statement (.tst w) := fun _ hv _ => Opcode.named rfl rfl (Option.some.inj hv).symm
theorem Opcode.tsetDef (w : Fields) : Opcode.Statement (.tsetDef w) := fun _ hv h =>
 Opcode.named_of_sub (mk := .tsetDef) 0 rfl hv h (fun h => Opcode.sub_zero h) (fun hs => by cases w; cases hs; rfl) (Option.some.inj hv).symm rfl
theorem Opcode.tsetReady (w : Fields) : Opcode.Statement (.tsetReady w) := fun _ hv h =>
 Opcode.named_of_sub (mk := .tsetReady) 1 rfl hv h (fun h => Opcode.sub_eq h) (fun hs => by cases w; cases hs; rfl) (Option.some.inj hv).symm rfl
theorem Opcode.tsetEmpty (w : Fields) : Opcode.Statement (.tsetEmpty w) := fun _ hv h =>
 Opcode.named_of_sub (mk := .tsetEmpty) 2 rfl hv h (fun h => Opcode.sub_eq h) (fun hs => by cases w; cases hs; rfl) (Option.some.inj hv).symm rfl
theorem Opcode.tqry (w : Fields) : Opcode.Statement (.tqry w) := fun _ hv _ => Opcode.named rfl rfl (Option.some.inj hv).symm
theorem Opcode.kvld (w : Fields) : Opcode.Statement (.kvld w) := fun _ hv _ => Opcode.named rfl rfl (Option.some.inj hv).symm
theorem Opcode.kvapp (w : Fields) : Opcode.Statement (.kvapp w) := fun _ hv _ => Opcode.named rfl rfl (Option.some.inj hv).symm
theorem Opcode.kvfork (w : Fields) : Opcode.Statement (.kvfork w) := fun _ hv _ => Opcode.named rfl rfl (Option.some.inj hv).symm
theorem Opcode.kvrel (w : Fields) : Opcode.Statement (.kvrel w) := fun _ hv _ => Opcode.named rfl rfl (Option.some.inj hv).symm
theorem Opcode.pfxhash (w : Fields) : Opcode.Statement (.pfxhash w) := fun _ hv _ => Opcode.named rfl rfl (Option.some.inj hv).symm
theorem Opcode.pfxfind (w : Fields) : Opcode.Statement (.pfxfind w) := fun _ hv _ => Opcode.named rfl rfl (Option.some.inj hv).symm
theorem Opcode.pfxins (w : Fields) : Opcode.Statement (.pfxins w) := fun _ hv _ => Opcode.named rfl rfl (Option.some.inj hv).symm
theorem Opcode.pin (w : Fields) : Opcode.Statement (.pin w) := fun _ hv _ => Opcode.named rfl rfl (Option.some.inj hv).symm
theorem Opcode.unpin (w : Fields) : Opcode.Statement (.unpin w) := fun _ hv _ => Opcode.named rfl rfl (Option.some.inj hv).symm
theorem Opcode.kvlink (w : Fields) : Opcode.Statement (.kvlink w) := fun _ hv _ => Opcode.named rfl rfl (Option.some.inj hv).symm
theorem Opcode.atom (w : Fields) : Opcode.Statement (.atom w) := fun _ hv _ => Opcode.named rfl rfl (Option.some.inj hv).symm
theorem Opcode.mxaadd (w : Fields) : Opcode.Statement (.mxaadd w) := fun _ hv _ => Opcode.named rfl rfl (Option.some.inj hv).symm
theorem Opcode.tbegin (w : Fields) : Opcode.Statement (.tbegin w) := fun _ hv _ => Opcode.named rfl rfl (Option.some.inj hv).symm
theorem Opcode.tend (w : Fields) : Opcode.Statement (.tend w) := fun _ hv _ => Opcode.named rfl rfl (Option.some.inj hv).symm
theorem Opcode.tabort (w : Fields) : Opcode.Statement (.tabort w) := fun _ hv _ => Opcode.named rfl rfl (Option.some.inj hv).symm
theorem Opcode.tstat (w : Fields) : Opcode.Statement (.tstat w) := fun _ hv _ => Opcode.named rfl rfl (Option.some.inj hv).symm
theorem Opcode.transactionCommit (tid : Nat) : Opcode.Statement (.transactionCommit tid) := fun _ hv _ => nomatch hv
theorem Opcode.fenceEngine (w : Fields) : Opcode.Statement (.fenceEngine w) := fun _ hv h =>
 Opcode.named_of_sub (mk := .fenceEngine) 1 rfl hv h (fun h => Opcode.sub_eq h) (fun hs => by cases w; cases hs; rfl) (Option.some.inj hv).symm rfl
theorem Opcode.fenceFabric (w : Fields) : Opcode.Statement (.fenceFabric w) := fun _ hv h =>
 Opcode.named_of_sub (mk := .fenceFabric) 2 rfl hv h (fun h => Opcode.sub_eq h) (fun hs => by cases w; cases hs; rfl) (Option.some.inj hv).symm rfl
theorem Opcode.fenceAll (w : Fields) : Opcode.Statement (.fenceAll w) := fun _ hv h =>
 Opcode.named_of_sub (mk := .fenceAll) 3 rfl hv h (fun h => Opcode.sub_eq h) (fun hs => by cases w; cases hs; rfl) (Option.some.inj hv).symm rfl
theorem Opcode.chapp (w : Fields) : Opcode.Statement (.chapp w) := fun _ hv _ => Opcode.named rfl rfl (Option.some.inj hv).symm
theorem Opcode.chwait (w : Fields) : Opcode.Statement (.chwait w) := fun _ hv _ => Opcode.named rfl rfl (Option.some.inj hv).symm
theorem Opcode.gsum (w : Fields) : Opcode.Statement (.gsum w) := fun _ hv _ => Opcode.named rfl rfl (Option.some.inj hv).symm
theorem Opcode.fadd (w : Fields) : Opcode.Statement (.fadd w) := fun _ hv _ => Opcode.named rfl rfl (Option.some.inj hv).symm
theorem Opcode.fmul (w : Fields) : Opcode.Statement (.fmul w) := fun _ hv _ => Opcode.named rfl rfl (Option.some.inj hv).symm
theorem Opcode.ffma (w : Fields) : Opcode.Statement (.ffma w) := fun _ hv _ => Opcode.named rfl rfl (Option.some.inj hv).symm
theorem Opcode.fmin (w : Fields) : Opcode.Statement (.fmin w) := fun _ hv _ => Opcode.named rfl rfl (Option.some.inj hv).symm
theorem Opcode.fmax (w : Fields) : Opcode.Statement (.fmax w) := fun _ hv _ => Opcode.named rfl rfl (Option.some.inj hv).symm
theorem Opcode.fcmp (w : Fields) : Opcode.Statement (.fcmp w) := fun _ hv _ => Opcode.named rfl rfl (Option.some.inj hv).symm
theorem Opcode.frcp (w : Fields) : Opcode.Statement (.frcp w) := fun _ hv _ => Opcode.named rfl rfl (Option.some.inj hv).symm
theorem Opcode.frsq (w : Fields) : Opcode.Statement (.frsq w) := fun _ hv _ => Opcode.named rfl rfl (Option.some.inj hv).symm
theorem Opcode.fexp2 (w : Fields) : Opcode.Statement (.fexp2 w) := fun _ hv _ => Opcode.named rfl rfl (Option.some.inj hv).symm
theorem Opcode.flog2 (w : Fields) : Opcode.Statement (.flog2 w) := fun _ hv _ => Opcode.named rfl rfl (Option.some.inj hv).symm
theorem Opcode.frnd (w : Fields) : Opcode.Statement (.frnd w) := fun _ hv _ => Opcode.named rfl rfl (Option.some.inj hv).symm
theorem Opcode.cvt (w : Fields) : Opcode.Statement (.cvt w) := fun _ hv _ => Opcode.named rfl rfl (Option.some.inj hv).symm
theorem Opcode.vadd (w : Fields) : Opcode.Statement (.vadd w) := fun _ hv _ => Opcode.named rfl rfl (Option.some.inj hv).symm
theorem Opcode.vmul (w : Fields) : Opcode.Statement (.vmul w) := fun _ hv _ => Opcode.named rfl rfl (Option.some.inj hv).symm
theorem Opcode.vfma (w : Fields) : Opcode.Statement (.vfma w) := fun _ hv _ => Opcode.named rfl rfl (Option.some.inj hv).symm
theorem Opcode.vmin (w : Fields) : Opcode.Statement (.vmin w) := fun _ hv _ => Opcode.named rfl rfl (Option.some.inj hv).symm
theorem Opcode.vmax (w : Fields) : Opcode.Statement (.vmax w) := fun _ hv _ => Opcode.named rfl rfl (Option.some.inj hv).symm
theorem Opcode.vred (w : Fields) : Opcode.Statement (.vred w) := fun _ hv _ => Opcode.named rfl rfl (Option.some.inj hv).symm
theorem Opcode.vcvt (w : Fields) : Opcode.Statement (.vcvt w) := fun _ hv _ => Opcode.named rfl rfl (Option.some.inj hv).symm
theorem Opcode.vquant (w : Fields) : Opcode.Statement (.vquant w) := fun _ hv _ => Opcode.named rfl rfl (Option.some.inj hv).symm
theorem Opcode.vsplat (w : Fields) : Opcode.Statement (.vsplat w) := fun _ hv _ => Opcode.named rfl rfl (Option.some.inj hv).symm
theorem Opcode.vext (w : Fields) : Opcode.Statement (.vext w) := fun _ hv _ => Opcode.named rfl rfl (Option.some.inj hv).symm
theorem Opcode.vins (w : Fields) : Opcode.Statement (.vins w) := fun _ hv _ => Opcode.named rfl rfl (Option.some.inj hv).symm
theorem Opcode.vsideGet (w : Fields) : Opcode.Statement (.vsideGet w) := fun _ hv h =>
 Opcode.named_of_sub (mk := .vsideGet) 0 rfl hv h (fun h => Opcode.sub_zero h) (fun hs => by cases w; cases hs; rfl) (Option.some.inj hv).symm rfl
theorem Opcode.vsideSet (w : Fields) : Opcode.Statement (.vsideSet w) := fun _ hv h =>
 Opcode.named_of_sub (mk := .vsideSet) 1 rfl hv h (fun h => Opcode.sub_eq h) (fun hs => by cases w; cases hs; rfl) (Option.some.inj hv).symm rfl
theorem Opcode.vtag (w : Fields) : Opcode.Statement (.vtag w) := fun _ hv _ => Opcode.named rfl rfl (Option.some.inj hv).symm
theorem Opcode.vdot (w : Fields) : Opcode.Statement (.vdot w) := fun _ hv _ => Opcode.named rfl rfl (Option.some.inj hv).symm
theorem Opcode.mma (w : Fields) : Opcode.Statement (.mma w) := fun _ hv _ => Opcode.named rfl rfl (Option.some.inj hv).symm
theorem Opcode.mmaPassComplete (core quad : Nat) (agree : Bool) : Opcode.Statement (.mmaPassComplete core quad agree) := fun _ hv _ => nomatch hv
theorem Opcode.aclr (w : Fields) : Opcode.Statement (.aclr w) := fun _ hv _ => Opcode.named rfl rfl (Option.some.inj hv).symm
theorem Opcode.aload (w : Fields) : Opcode.Statement (.aload w) := fun _ hv _ => Opcode.named rfl rfl (Option.some.inj hv).symm
theorem Opcode.adrain (w : Fields) : Opcode.Statement (.adrain w) := fun _ hv _ => Opcode.named rfl rfl (Option.some.inj hv).symm
theorem Opcode.softstep (w : Fields) : Opcode.Statement (.softstep w) := fun _ hv _ => Opcode.named rfl rfl (Option.some.inj hv).symm
theorem Opcode.softstepComplete (core quad : Nat) : Opcode.Statement (.softstepComplete core quad) := fun _ hv _ => nomatch hv
theorem Opcode.arescale (w : Fields) : Opcode.Statement (.arescale w) := fun _ hv _ => Opcode.named rfl rfl (Option.some.inj hv).symm
theorem Opcode.smerge (w : Fields) : Opcode.Statement (.smerge w) := fun _ hv _ => Opcode.named rfl rfl (Option.some.inj hv).symm
theorem Opcode.anorm (w : Fields) : Opcode.Statement (.anorm w) := fun _ hv _ => Opcode.named rfl rfl (Option.some.inj hv).symm
theorem Opcode.arow (w : Fields) : Opcode.Statement (.arow w) := fun _ hv _ => Opcode.named rfl rfl (Option.some.inj hv).symm
theorem Opcode.astat (w : Fields) : Opcode.Statement (.astat w) := fun _ hv _ => Opcode.named rfl rfl (Option.some.inj hv).symm
theorem Opcode.csrr (w : Fields) : Opcode.Statement (.csrr w) := fun _ hv _ => Opcode.named rfl rfl (Option.some.inj hv).symm
theorem Opcode.csrw (w : Fields) : Opcode.Statement (.csrw w) := fun _ hv _ => Opcode.named rfl rfl (Option.some.inj hv).symm
theorem Opcode.mcall (w : Fields) : Opcode.Statement (.mcall w) := fun _ hv _ => Opcode.named rfl rfl (Option.some.inj hv).symm
theorem Opcode.mret (w : Fields) : Opcode.Statement (.mret w) := fun _ hv _ => Opcode.named rfl rfl (Option.some.inj hv).symm
theorem Opcode.eret (w : Fields) : Opcode.Statement (.eret w) := fun _ hv _ => Opcode.named rfl rfl (Option.some.inj hv).symm
theorem Opcode.savectx (w : Fields) : Opcode.Statement (.savectx w) := fun _ hv _ => Opcode.named rfl rfl (Option.some.inj hv).symm
theorem Opcode.loadctx (w : Fields) : Opcode.Statement (.loadctx w) := fun _ hv _ => Opcode.named rfl rfl (Option.some.inj hv).symm
theorem Opcode.invalLine (w : Fields) : Opcode.Statement (.invalLine w) := fun _ hv h =>
 Opcode.named_of_sub (mk := .invalLine) 0 rfl hv h (fun h => Opcode.sub_zero h) (fun hs => by cases w; cases hs; rfl) (Option.some.inj hv).symm rfl
theorem Opcode.invalXlt (w : Fields) : Opcode.Statement (.invalXlt w) := fun _ hv h =>
 Opcode.named_of_sub (mk := .invalXlt) 1 rfl hv h (fun h => Opcode.sub_eq h) (fun hs => by cases w; cases hs; rfl) (Option.some.inj hv).symm rfl
theorem Opcode.invalFrame (w : Fields) : Opcode.Statement (.invalFrame w) := fun _ hv h =>
 Opcode.named_of_sub (mk := .invalFrame) 2 rfl hv h (fun h => Opcode.sub_eq h) (fun hs => by cases w; cases hs; rfl) (Option.some.inj hv).symm rfl
theorem Opcode.halt (w : Fields) : Opcode.Statement (.halt w) := fun _ hv _ => Opcode.named rfl rfl (Option.some.inj hv).symm
theorem Opcode.ipi (w : Fields) : Opcode.Statement (.ipi w) := fun _ hv _ => Opcode.named rfl rfl (Option.some.inj hv).symm
theorem Opcode.partctlCreate (w : Fields) : Opcode.Statement (.partctlCreate w) := fun _ hv h =>
 Opcode.named_of_sub (mk := .partctlCreate) 0 rfl hv h (fun h => Opcode.sub_eq h) (fun hs => by cases w; cases hs; rfl) (Option.some.inj hv).symm rfl
theorem Opcode.partctlDestroy (w : Fields) : Opcode.Statement (.partctlDestroy w) := fun _ hv h =>
 Opcode.named_of_sub (mk := .partctlDestroy) 1 rfl hv h (fun h => Opcode.sub_eq h) (fun hs => by cases w; cases hs; rfl) (Option.some.inj hv).symm rfl
theorem Opcode.partctlReset (w : Fields) : Opcode.Statement (.partctlReset w) := fun _ hv h =>
 Opcode.named_of_sub (mk := .partctlReset) 2 rfl hv h (fun h => Opcode.sub_eq h) (fun hs => by cases w; cases hs; rfl) (Option.some.inj hv).symm rfl
theorem Opcode.partctlCores (w : Fields) : Opcode.Statement (.partctlCores w) := fun _ hv h =>
 Opcode.named_of_sub (mk := .partctlCores) 3 rfl hv h (fun h => Opcode.sub_eq h) (fun hs => by cases w; cases hs; rfl) (Option.some.inj hv).symm rfl
theorem Opcode.partctlChan (w : Fields) : Opcode.Statement (.partctlChan w) := fun _ hv h =>
 Opcode.named_of_sub (mk := .partctlChan) 4 rfl hv h (fun h => Opcode.sub_eq h) (fun hs => by cases w; cases hs; rfl) (Option.some.inj hv).symm rfl
theorem Opcode.partctlQueues (w : Fields) : Opcode.Statement (.partctlQueues w) := fun _ hv h =>
 Opcode.named_of_sub (mk := .partctlQueues) 5 rfl hv h (fun h => Opcode.sub_eq h) (fun hs => by cases w; cases hs; rfl) (Option.some.inj hv).symm rfl
theorem Opcode.partctlColours (w : Fields) : Opcode.Statement (.partctlColours w) := fun _ hv h =>
 Opcode.named_of_sub (mk := .partctlColours) 6 rfl hv h (fun h => Opcode.sub_eq h) (fun hs => by cases w; cases hs; rfl) (Option.some.inj hv).symm rfl
theorem Opcode.partctlCarve (w : Fields) : Opcode.Statement (.partctlCarve w) := fun _ hv h =>
 Opcode.named_of_sub (mk := .partctlCarve) 7 rfl hv h (fun h => Opcode.sub_eq h) (fun hs => by cases w; cases hs; rfl) (Option.some.inj hv).symm rfl
theorem Opcode.partctlQuota (w : Fields) : Opcode.Statement (.partctlQuota w) := fun _ hv h =>
 Opcode.named_of_sub (mk := .partctlQuota) 8 rfl hv h (fun h => Opcode.sub_eq h) (fun hs => by cases w; cases hs; rfl) (Option.some.inj hv).symm rfl
theorem Opcode.partctlStart (w : Fields) : Opcode.Statement (.partctlStart w) := fun _ hv h =>
 Opcode.named_of_sub (mk := .partctlStart) 9 rfl hv h (fun h => Opcode.sub_eq h) (fun hs => by cases w; cases hs; rfl) (Option.some.inj hv).symm rfl
theorem Opcode.poolctlCow (w : Fields) : Opcode.Statement (.poolctlCow w) := fun _ hv h =>
 Opcode.named_of_sub (mk := .poolctlCow) 0 rfl hv h (fun h => Opcode.sub_eq h) (fun hs => by cases w; cases hs; rfl) (Option.some.inj hv).symm rfl
theorem Opcode.poolctlSeqnew (w : Fields) : Opcode.Statement (.poolctlSeqnew w) := fun _ hv h =>
 Opcode.named_of_sub (mk := .poolctlSeqnew) 1 rfl hv h (fun h => Opcode.sub_eq h) (fun hs => by cases w; cases hs; rfl) (Option.some.inj hv).symm rfl
theorem Opcode.poolctlSeqcap (w : Fields) : Opcode.Statement (.poolctlSeqcap w) := fun _ hv h =>
 Opcode.named_of_sub (mk := .poolctlSeqcap) 2 rfl hv h (fun h => Opcode.sub_eq h) (fun hs => by cases w; cases hs; rfl) (Option.some.inj hv).symm rfl
theorem Opcode.poolctlRdframe (w : Fields) : Opcode.Statement (.poolctlRdframe w) := fun _ hv h =>
 Opcode.named_of_sub (mk := .poolctlRdframe) 3 rfl hv h (fun h => Opcode.sub_eq h) (fun hs => by cases w; cases hs; rfl) (Option.some.inj hv).symm rfl
theorem Opcode.poolctlRdseq (w : Fields) : Opcode.Statement (.poolctlRdseq w) := fun _ hv h =>
 Opcode.named_of_sub (mk := .poolctlRdseq) 4 rfl hv h (fun h => Opcode.sub_eq h) (fun hs => by cases w; cases hs; rfl) (Option.some.inj hv).symm rfl
theorem Opcode.poolctlRdpfx (w : Fields) : Opcode.Statement (.poolctlRdpfx w) := fun _ hv h =>
 Opcode.named_of_sub (mk := .poolctlRdpfx) 5 rfl hv h (fun h => Opcode.sub_eq h) (fun hs => by cases w; cases hs; rfl) (Option.some.inj hv).symm rfl
theorem Opcode.queueEnableWrite (queue : Nat) (value : Dword) : Opcode.Statement (.queueEnableWrite queue value) := fun _ hv _ => nomatch hv
theorem Opcode.queueTailWrite (queue : Nat) (value : Dword) : Opcode.Statement (.queueTailWrite queue value) := fun _ hv _ => nomatch hv
theorem Opcode.faultResolveMapped (part space page : Nat) : Opcode.Statement (.faultResolveMapped part space page) := fun _ hv _ => nomatch hv
theorem Opcode.faultResolveDenied (part space page : Nat) : Opcode.Statement (.faultResolveDenied part space page) := fun _ hv _ => nomatch hv
theorem Opcode.rdetClear (part : Nat) : Opcode.Statement (.rdetClear part) := fun _ hv _ => nomatch hv
theorem Opcode.rdetEnable (part : Nat) : Opcode.Statement (.rdetEnable part) := fun _ hv _ => nomatch hv
theorem Opcode.fwstatClear (part : Nat) : Opcode.Statement (.fwstatClear part) := fun _ hv _ => nomatch hv
theorem Opcode.errCcntClear (part : Nat) : Opcode.Statement (.errCcntClear part) := fun _ hv _ => nomatch hv
theorem Opcode.slstatClear (part : Nat) : Opcode.Statement (.slstatClear part) := fun _ hv _ => nomatch hv
theorem Opcode.streamEnable (part stream : Nat) : Opcode.Statement (.streamEnable part stream) := fun _ hv _ => nomatch hv
theorem Opcode.streamDisable (part stream : Nat) : Opcode.Statement (.streamDisable part stream) := fun _ hv _ => nomatch hv
theorem Opcode.dbgHalt (part ctx : Nat) : Opcode.Statement (.dbgHalt part ctx) := fun _ hv _ => nomatch hv
theorem Opcode.dbgResume (part ctx : Nat) : Opcode.Statement (.dbgResume part ctx) := fun _ hv _ => nomatch hv
theorem Opcode.dbgStep (part ctx : Nat) : Opcode.Statement (.dbgStep part ctx) := fun _ hv _ => nomatch hv
theorem Opcode.launchValidate (queue : Nat) : Opcode.Statement (.launchValidate queue) := fun _ hv _ => nomatch hv
theorem Opcode.launchAccept (queue : Nat) : Opcode.Statement (.launchAccept queue) := fun _ hv _ => nomatch hv
theorem Opcode.unitDeal : Opcode.Statement .unitDeal := fun _ hv _ => nomatch hv
theorem Opcode.unitPlace (core : Nat) : Opcode.Statement (.unitPlace core) := fun _ hv _ => nomatch hv
theorem Opcode.balanceExchange (part : Nat) : Opcode.Statement (.balanceExchange part) := fun _ hv _ => nomatch hv
theorem Opcode.launchCompletion (cid : Nat) : Opcode.Statement (.launchCompletion cid) := fun _ hv _ => nomatch hv
theorem Opcode.preemptionStop (part : Nat) (cores : BitVec 32) (cause : StopCause) : Opcode.Statement (.preemptionStop part cores cause) := fun _ hv _ => nomatch hv
theorem Opcode.preemptionComplete (part : Nat) : Opcode.Statement (.preemptionComplete part) := fun _ hv _ => nomatch hv
theorem Opcode.collectorTimeoutReport (part : Nat) : Opcode.Statement (.collectorTimeoutReport part) := fun _ hv _ => nomatch hv
theorem Opcode.collectorTimeoutFatal (part : Nat) : Opcode.Statement (.collectorTimeoutFatal part) := fun _ hv _ => nomatch hv
theorem Opcode.timeSliceExpiry (pool : BitVec 32) : Opcode.Statement (.timeSliceExpiry pool) := fun _ hv _ => nomatch hv
theorem Opcode.stallTimeout (unit : Nat) : Opcode.Statement (.stallTimeout unit) := fun _ hv _ => nomatch hv
theorem Opcode.milestoneSync : Opcode.Statement .milestoneSync := fun _ hv _ => nomatch hv
theorem Opcode.faultRecordPost (index : Nat) : Opcode.Statement (.faultRecordPost index) := fun _ hv _ => nomatch hv
theorem Opcode.evictionMark (part : Nat) : Opcode.Statement (.evictionMark part) := fun _ hv _ => nomatch hv
theorem Opcode.evictionCommit (part handle : Nat) : Opcode.Statement (.evictionCommit part handle) := fun _ hv _ => nomatch hv
theorem Opcode.migrationComplete (part handle : Nat) : Opcode.Statement (.migrationComplete part handle) := fun _ hv _ => nomatch hv
theorem Opcode.commandIssue (engine : Nat) : Opcode.Statement (.commandIssue engine) := fun _ hv _ => nomatch hv
theorem Opcode.commandComplete (cmd : Nat) : Opcode.Statement (.commandComplete cmd) := fun _ hv _ => nomatch hv
theorem Opcode.copy (cmd : Nat) : Opcode.Statement (.copy cmd) := fun _ hv _ => nomatch hv
theorem Opcode.gather (cmd : Nat) : Opcode.Statement (.gather cmd) := fun _ hv _ => nomatch hv
theorem Opcode.scatter (cmd : Nat) : Opcode.Statement (.scatter cmd) := fun _ hv _ => nomatch hv
theorem Opcode.fill (cmd : Nat) : Opcode.Statement (.fill cmd) := fun _ hv _ => nomatch hv
theorem Opcode.tfill (cmd : Nat) : Opcode.Statement (.tfill cmd) := fun _ hv _ => nomatch hv
theorem Opcode.tfillKv (cmd : Nat) : Opcode.Statement (.tfillKv cmd) := fun _ hv _ => nomatch hv
theorem Opcode.tdrain (cmd : Nat) : Opcode.Statement (.tdrain cmd) := fun _ hv _ => nomatch hv
theorem Opcode.put (cmd : Nat) : Opcode.Statement (.put cmd) := fun _ hv _ => nomatch hv
theorem Opcode.append (cmd : Nat) (media : Bool) : Opcode.Statement (.append cmd media) := fun _ hv _ => nomatch hv
theorem Opcode.seal (cmd : Nat) : Opcode.Statement (.seal cmd) := fun _ hv _ => nomatch hv
theorem Opcode.sbar (cmd : Nat) : Opcode.Statement (.sbar cmd) := fun _ hv _ => nomatch hv
theorem Opcode.trim (cmd : Nat) : Opcode.Statement (.trim cmd) := fun _ hv _ => nomatch hv
theorem Opcode.sealDurable (cmd : Nat) (media : Bool) : Opcode.Statement (.sealDurable cmd media) := fun _ hv _ => nomatch hv
theorem Opcode.putAcknowledge (cmd : Nat) : Opcode.Statement (.putAcknowledge cmd) := fun _ hv _ => nomatch hv
theorem Opcode.fabricIngressPut (part home frame offset : Nat) (data : List SectorLit) : Opcode.Statement (.fabricIngressPut part home frame offset data) := fun _ hv _ => nomatch hv
theorem Opcode.remoteReadServe (part home frame offset : Nat) : Opcode.Statement (.remoteReadServe part home frame offset) := fun _ hv _ => nomatch hv
theorem Opcode.remoteLineReturn (request : Nat) (data : List SectorLit) : Opcode.Statement (.remoteLineReturn request data) := fun _ hv _ => nomatch hv
theorem Opcode.remoteRequestTimeout (request : Nat) : Opcode.Statement (.remoteRequestTimeout request) := fun _ hv _ => nomatch hv
theorem Opcode.transportCloseNotice (part pkg : Nat) : Opcode.Statement (.transportCloseNotice part pkg) := fun _ hv _ => nomatch hv
theorem Opcode.transportProbe (part pkg : Nat) (answered : Bool) : Opcode.Statement (.transportProbe part pkg answered) := fun _ hv _ => nomatch hv
theorem Opcode.partitionResetComplete (part : Nat) : Opcode.Statement (.partitionResetComplete part) := fun _ hv _ => nomatch hv
theorem Opcode.coreIdleEntry (core : Nat) : Opcode.Statement (.coreIdleEntry core) := fun _ hv _ => nomatch hv
theorem Opcode.channelCleared (part : Nat) : Opcode.Statement (.channelCleared part) := fun _ hv _ => nomatch hv
theorem Opcode.portFailure (lane : Nat) : Opcode.Statement (.portFailure lane) := fun _ hv _ => nomatch hv
theorem Opcode.chunkFire (unit : Nat) : Opcode.Statement (.chunkFire unit) := fun _ hv _ => nomatch hv
theorem Opcode.chunkArrival (cid chunk : Nat) (data : List SectorLit) : Opcode.Statement (.chunkArrival cid chunk data) := fun _ hv _ => nomatch hv
theorem Opcode.treeRevoke (tree : Nat) : Opcode.Statement (.treeRevoke tree) := fun _ hv _ => nomatch hv
theorem Opcode.treeGrantReply (part : Nat) (reply : TreeReply) : Opcode.Statement (.treeGrantReply part reply) := fun _ hv _ => nomatch hv
theorem Opcode.treereq (part : Nat) : Opcode.Statement (.treereq part) := fun _ hv _ => nomatch hv
theorem Opcode.treerel (part : Nat) : Opcode.Statement (.treerel part) := fun _ hv _ => nomatch hv
theorem Opcode.ibxscan (part : Nat) : Opcode.Statement (.ibxscan part) := fun _ hv _ => nomatch hv
theorem Opcode.ibxlen (part : Nat) : Opcode.Statement (.ibxlen part) := fun _ hv _ => nomatch hv
theorem Opcode.unknownCall (part : Nat) : Opcode.Statement (.unknownCall part) := fun _ hv _ => nomatch hv
theorem Opcode.flashWaitNotice (tag line : Nat) : Opcode.Statement (.flashWaitNotice tag line) := fun _ hv _ => nomatch hv
theorem Opcode.flashLineArrival (tag line : Nat) (damaged : BitVec 4) : Opcode.Statement (.flashLineArrival tag line damaged) := fun _ hv _ => nomatch hv
theorem Opcode.flashPrefetchLine (tag line : Nat) : Opcode.Statement (.flashPrefetchLine tag line) := fun _ hv _ => nomatch hv
theorem Opcode.flashWaitReport (tag line die : Nat) : Opcode.Statement (.flashWaitReport tag line die) := fun _ hv _ => nomatch hv
theorem Opcode.flashWaitTimeout (tag line die : Nat) : Opcode.Statement (.flashWaitTimeout tag line die) := fun _ hv _ => nomatch hv
theorem Opcode.ibexMaintenance (part : Nat) (event : IbexEvent) : Opcode.Statement (.ibexMaintenance part event) := fun _ hv _ => nomatch hv
theorem Opcode.suspend : Opcode.Statement .suspend := fun _ hv _ => nomatch hv
theorem Opcode.quote : Opcode.Statement .quote := fun _ hv _ => nomatch hv
theorem Opcode.retire : Opcode.Statement .retire := fun _ hv _ => nomatch hv
theorem Opcode.extend : Opcode.Statement .extend := fun _ hv _ => nomatch hv
theorem Opcode.mailboxUnknown : Opcode.Statement .mailboxUnknown := fun _ hv _ => nomatch hv
theorem Opcode.suspN : Opcode.Statement .suspN := fun _ hv _ => nomatch hv
theorem Opcode.managementSuspend : Opcode.Statement .managementSuspend := fun _ hv _ => nomatch hv
theorem Opcode.managementQuote (nonce : List Byte) : Opcode.Statement (.managementQuote nonce) := fun _ hv _ => nomatch hv
theorem Opcode.suspendSave (selfRefreshOk : Bool) : Opcode.Statement (.suspendSave selfRefreshOk) := fun _ hv _ => nomatch hv
theorem Opcode.suspendCollectorTimeout : Opcode.Statement .suspendCollectorTimeout := fun _ hv _ => nomatch hv
theorem Opcode.suspendDeadline : Opcode.Statement .suspendDeadline := fun _ hv _ => nomatch hv
theorem Opcode.wakeN (recordOk : Bool) : Opcode.Statement (.wakeN recordOk) := fun _ hv _ => nomatch hv
theorem Opcode.wakeTimerExpiry (recordOk : Bool) : Opcode.Statement (.wakeTimerExpiry recordOk) := fun _ hv _ => nomatch hv
theorem Opcode.resumeDeadline : Opcode.Statement .resumeDeadline := fun _ hv _ => nomatch hv
theorem Opcode.resumeParticipantTimeout (tree : Nat) : Opcode.Statement (.resumeParticipantTimeout tree) := fun _ hv _ => nomatch hv
theorem Opcode.coldBoot (lockstepOk : Bool) (recoverN : Bool) : Opcode.Statement (.coldBoot lockstepOk recoverN) := fun _ hv _ => nomatch hv
theorem Opcode.resetNAssert : Opcode.Statement .resetNAssert := fun _ hv _ => nomatch hv
theorem Opcode.recoveryImage (slot : BootSlot) : Opcode.Statement (.recoveryImage slot) := fun _ hv _ => nomatch hv
theorem Opcode.powerLoss : Opcode.Statement .powerLoss := fun _ hv _ => nomatch hv
theorem Opcode.clockStepDown : Opcode.Statement .clockStepDown := fun _ hv _ => nomatch hv
theorem Opcode.clockStepUp : Opcode.Statement .clockStepUp := fun _ hv _ => nomatch hv
theorem Opcode.thermalTrip (die : Nat) : Opcode.Statement (.thermalTrip die) := fun _ hv _ => nomatch hv
theorem Opcode.thermalAlert : Opcode.Statement .thermalAlert := fun _ hv _ => nomatch hv
theorem Opcode.lockstepMismatch : Opcode.Statement .lockstepMismatch := fun _ hv _ => nomatch hv
theorem Opcode.errorRecordPost : Opcode.Statement .errorRecordPost := fun _ hv _ => nomatch hv
theorem Opcode.correctedSummary (part : Nat) : Opcode.Statement (.correctedSummary part) := fun _ hv _ => nomatch hv
theorem Opcode.patrolScrub (home frame offset : Nat) (correctable : Bool) : Opcode.Statement (.patrolScrub home frame offset correctable) := fun _ hv _ => nomatch hv
theorem Opcode.milestoneAdvance (source : Nat) : Opcode.Statement (.milestoneAdvance source) := fun _ hv _ => nomatch hv
theorem Opcode.gsumLineRequest (part tree offset : Nat) : Opcode.Statement (.gsumLineRequest part tree offset) := fun _ hv _ => nomatch hv

end Sys2Proof.Laws
end

