-- ==== Sys2Proof/Laws/Run.lean ====
section
/-!
SUPPORT. How meanings run: the instruction monad, the frame of every instruction, taking a trap, and what each shared
operation on operands, registers and memory answers.
-/
namespace Sys2Proof.Machine

/-! ### The monad -/

@[simp] theorem does_pure {α : Type} (a : α) (s : State) : Does (pure a : M α) s a s := rfl
@[simp] theorem does_get (s : State) : Does (get : M State) s s s := rfl
@[simp] theorem does_set (s t : State) : Does (set t : M Unit) s () t := rfl
@[simp] theorem does_upd (f : State → State) (s : State) : Does (upd f) s () (f s) := rfl
theorem traps_trap {α : Type} (c o : Nat) (v : Dword) (s : State) : Traps (trap c o v : M α) s c o v s := rfl

/-- An operation that answers, followed by another: the second runs in the state that the first leaves. -/
theorem run_bind {α β : Type} {m : M α} {f : α → M β} {s t : State} {a : α} (h : Does m s a t) :
    (m >>= f).run s = (f a).run t := by
  show EStateM.bind m f s = f a t
  have h' : m s = .ok a t := h
  simp [EStateM.bind, h']

theorem does_bind {α β : Type} {m : M α} {f : α → M β} {s t u : State} {a : α} {b : β} (h : Does m s a t)
    (k : Does (f a) t b u) : Does (m >>= f) s b u := (run_bind h).trans k

/-- An operation that stops stops what follows. -/
theorem stops_bind {α β : Type} {m : M α} (f : α → M β) {s t : State} {e : Stop} (h : m.run s = .error e t) :
    (m >>= f).run s = .error e t := by
  show EStateM.bind m f s = .error e t
  have h' : m s = .error e t := h
  simp [EStateM.bind, h']

theorem traps_bind {α β : Type} {m : M α} (f : α → M β) {s t : State} {c o : Nat} {v : Dword} (h : Traps m s c o v t) :
    Traps (m >>= f) s c o v t := stops_bind f h

/-- What a sequence that answers has done: both parts answered. -/
theorem does_bind_inv {α β : Type} {m : M α} {f : α → M β} {s u : State} {b : β} (h : Does (m >>= f) s b u) :
    ∃ a t, Does m s a t ∧ Does (f a) t b u := by
  have h' : EStateM.bind m f s = .ok b u := h
  cases hm : m s with
  | ok a t =>
    refine ⟨a, t, hm, ?_⟩
    simp only [EStateM.bind, hm] at h'
    exact h'
  | error e t => simp [EStateM.bind, hm] at h'

theorem does_seqBody {m : M Unit} {s t : State} (h : Does m s () t) : Does (seqBody m) s .seq t := does_bind h rfl

/-! ### The frame of every instruction -/

/-- Whatever an instruction of a thread does, it answers a next state. -/
theorem runInstr_next (i : Instr) (w : Fields) (b : M Flow) (s : State) : ∃ t, runInstr i w b s = .next t := by
  unfold runInstr
  split
  · exact ⟨_, rfl⟩
  · split <;> exact ⟨_, rfl⟩

/-- Its checks passed and its guard true, its body decides. -/
theorem runInstr_runs {i : Instr} {w : Fields} {s : State} (b : M Flow) (h : Runs i w s) :
    runInstr i w b s = .next (settle (lowWord i) (b.run s)) := by
  simp [runInstr, h.1, h.2]

theorem runInstr_seq {i : Instr} {w : Fields} {s t : State} {b : M Flow} (h : Runs i w s) (hb : Does b s .seq t) :
    runInstr i w b s = .next t.advance := by
  have hb' : b.run s = .ok .seq t := hb
  rw [runInstr_runs b h, hb']; rfl

theorem runInstr_goto {i : Instr} {w : Fields} {s t : State} {b : M Flow} {pc : Dword} (h : Runs i w s)
    (hb : Does b s (.goto pc) t) : runInstr i w b s = .next (t.jump pc) := by
  have hb' : b.run s = .ok (.goto pc) t := hb
  rw [runInstr_runs b h, hb']; rfl

theorem runInstr_done {i : Instr} {w : Fields} {s t : State} {b : M Flow} (h : Runs i w s) (hb : Does b s .done t) :
    runInstr i w b s = .next t := by
  have hb' : b.run s = .ok .done t := hb
  rw [runInstr_runs b h, hb']; rfl

theorem runInstr_trap {i : Instr} {w : Fields} {s t : State} {b : M Flow} {c o : Nat} {v : Dword} (h : Runs i w s)
    (hb : Traps b s c o v t) :
    runInstr i w b s = .next (t.takeTrap c o (if c = cILLEGAL then lowWord i else v)) := by
  have hb' : b.run s = .error (.trap c o v) t := hb
  rw [runInstr_runs b h, hb']; rfl

theorem runInstr_keep {i : Instr} {w : Fields} {s t : State} {b : M Flow} (h : Runs i w s)
    (hb : b.run s = .error .keep t) : runInstr i w b s = .next t := by
  rw [runInstr_runs b h, hb]; rfl

theorem runInstr_guard {i : Instr} {w : Fields} {s : State} (b : M Flow) (h : staticPass i s = true)
    (hg : guardTrue w s.me = false) : runInstr i w b s = .next s.advance := by
  simp [runInstr, h, hg]

theorem runInstr_static {i : Instr} {w : Fields} {s : State} (b : M Flow) (h : staticPass i s = false) :
    runInstr i w b s = .next (s.takeTrap cILLEGAL 0 (lowWord i)) := by
  simp [runInstr, h]

/-- An event with power on. -/
theorem event_powered {f : State → State} {s : State} (h : s.powered = true) : event f s = .next (f s) := by
  simp [event, h]
theorem event_next (f : State → State) (s : State) : ∃ t, event f s = .next t := ⟨_, rfl⟩

/-! ### Taking a trap -/

/-- What a trap comes to, after its report: an abort, a fatal error, or the entry. -/
theorem takeTrap_cases (s : State) (c o : Nat) (v : Dword) :
    s.takeTrap c o v =
      let n := s.noted c
      if s.me.tx.isSome then n.abortTx n.cur (txCauseOf c).1 0 (txCauseOf c).2
      else if isService n.cur then
        if s.me.plvl ≠ 3 ∨ (s.me.vec = 0 ∧ (!isOryx n.cur) = true) ∨ (n.entered c o v).refusesPc n.cur n.vector = true then
          (n.meet n.src).fatalPartition s.me.part 0x07 s.me.cid 0 0 c
        else n.entered c o v
      else if 1 ≤ s.me.level ∨ (n.entered c o v).refusesPc n.cur n.vector = true then (n.meet n.src).fatalContext s.me.part 0x07 s.me.cid c
      else n.entered c o v := rfl

/-- Only consumed poison is reported by a trap (R414). -/
theorem noted_of_ne (s : State) (c : Nat) (h : c ≠ cPOISON) : s.noted c = s := by simp [State.noted, h]

/-- The registers that the entry saves, and where it goes (R47); the thread may owe the check of the line's mask (R195). -/
theorem entered_me (s : State) (c o : Nat) (v : Dword) :
    ∃ u, (s.entered c o v).me = { s.me.enterTrap (isService s.cur) (isOryx s.cur) c o v s.vector s.now with unchecked := u } := by
  unfold State.entered State.owesCheck
  split
  · exact ⟨some c, by simp [State.me, State.modMe]⟩
  · exact ⟨_, State.me_modMe s _⟩

/-- The entry touches no other thread. -/
theorem entered_thr (s : State) (c o : Nat) (v : Dword) (u : Tid) (h : u ≠ s.cur) : (s.entered c o v).thr u = s.thr u := by
  unfold State.entered State.owesCheck
  split <;> simp [State.modMe, h]

/-- The entry touches no memory. -/
@[simp] theorem entered_mem (s : State) (c o : Nat) (v : Dword) : (s.entered c o v).mem = s.mem := by
  unfold State.entered State.owesCheck
  split <;> rfl

/-! ### Operands -/

theorem readSrc_plain (opnd : Nat) {x : Spec} (ty : BitVec 4) (ext : BitVec 32) (s : State) (h : isWindow x = false) :
    Does (readSrc opnd x ty ext) s (s.srcVal x ty ext) s := by
  cases x <;> first | rfl | simp [isWindow] at h

theorem consume_clean (opnd : Nat) {v : Val} (s : State) (h : v.poison = false) : Does (consume opnd v) s v.raw s := by
  unfold Does consume; simp [h]
theorem consume_poison (opnd : Nat) {v : Val} (s : State) (h : v.poison = true) : Traps (consume opnd v) s cPOISON opnd 0 s := by
  unfold Traps consume; simp only [h, if_true]; rfl

theorem aligned_ok (code opnd : Nat) {va n : Nat} (s : State) (h : va % n = 0) : Does (aligned code opnd va n) s () s := by
  unfold Does aligned; simp [h]
theorem aligned_trap (code opnd : Nat) {va n : Nat} (s : State) (h : va % n ≠ 0) :
    Traps (aligned code opnd va n) s code opnd (BitVec.ofNat 64 va) s := by
  unfold Traps aligned; simp [h]; rfl

theorem unsupported_outside {s : State} (h : s.me.tx = none) : Does unsupportedInTx s () s := by
  have h1 : Does inTx s false s := by
    refine does_bind (does_get s) ?_
    rw [h]; rfl
  exact does_bind h1 rfl

theorem sysLevel_ok {lowest : Nat} {s : State} (hl : lowest ≤ s.me.level) (h : s.me.tx = none) : Does (sysLevel lowest) s () s := by
  refine does_bind (does_get s) ?_
  have : ¬ s.me.level < lowest := by omega
  simp only [this, if_false]
  exact unsupported_outside h
theorem sysLevel_trap {lowest : Nat} {s : State} (hl : s.me.level < lowest) : Traps (sysLevel lowest) s cPRIVILEGE 0 0 s := by
  unfold Traps sysLevel
  rw [run_bind (does_get s)]
  simp only [hl, if_true]
  rfl

theorem does_writeG (x : Spec) (v : Nat) (p : Bool) (s : State) : Does (writeG x v p) s () (s.putG x v p) := rfl
theorem does_writePair (x : Spec) (v : Nat) (p : Bool) (s : State) : Does (writePair x v p) s () (s.putPair x v p) := rfl
theorem does_writeDst (x : Spec) (ty : BitVec 4) (v : Int) (p : Bool) (s : State) :
    Does (writeDst x ty v p) s () (s.putDst x ty v p) := rfl
theorem does_writeP (x : Spec) (b : Bool) (s : State) : Does (writeP x b) s () (s.putP x b) := rfl
theorem does_writeV (x : Spec) (v : VReg) (s : State) : Does (writeV x v) s () (s.putV x v) := rfl

/-! ### Memory -/

/-- Sector writes at places keep the canonical form. -/
theorem Mem.wf_puts (ps : List (Nat × Place)) (ws : List SecWrite) (m : Mem) (h : m.wf = true) :
    (ws.foldl (fun m w => match placeOf ps w.va with
      | some p => m.apply p w
      | none => m) m).wf = true := by
  refine Mem.wf_foldl _ (fun m w hm => ?_) ws m h
  split
  · exact Mem.wf_apply _ _ _ hm
  · exact hm

/-- Looking at a waiter, and at every one, touches no memory. -/
@[simp] theorem lookAt_mem (s : State) (ms : Nat) (w : Waiter) : (s.lookAt ms w).mem = s.mem := by
  unfold State.lookAt
  split
  · rfl
  · split
    · rfl
    · split <;> rfl
@[simp] theorem wakeWaiters_mem (s : State) (ms : Nat) : (s.wakeWaiters ms).mem = s.mem := by
  have go : ∀ (l : List Waiter) (z : State), (l.foldl (fun s w => s.lookAt ms w) z).mem = z.mem := by
    intro l
    induction l with
    | nil => intro z; rfl
    | cons w r ih => intro z; rw [List.foldl_cons, ih, lookAt_mem]
  exact go s.waiters { s with waiters := [] }
/-- Nor does emptying shadow entries. -/
@[simp] theorem unshadow_mem (s : State) (src : Nat) (ps : List (Nat × Place)) (ws : List SecWrite) :
    (s.unshadow src ps ws).mem = s.mem := by
  unfold State.unshadow; split <;> rfl
@[simp] theorem refreshL1_mem (s : State) (src : Nat) (ps : List (Nat × Place)) : (s.refreshL1 src ps).mem = s.mem := by
  unfold State.refreshL1; split <;> rfl

/-- The memory that performed writes leave: the writes, and nothing else. -/
theorem performWrites_mem (s : State) (src : Nat) (ps : List (Nat × Place)) (ws : List SecWrite) :
    (s.performWrites src ps ws).mem =
      ws.foldl (fun m w => match placeOf ps w.va with
        | some p => m.apply p w
        | none => m) s.mem := by
  unfold State.performWrites State.performHere
  simp only [wakeWaiters_mem, refreshL1_mem, unshadow_mem]
  rfl

/-- Performed writes keep the canonical form. -/
theorem performWrites_wf (s : State) (src : Nat) (ps : List (Nat × Place)) (ws : List SecWrite) (h : s.mem.wf = true) :
    (s.performWrites src ps ws).mem.wf = true := by
  rw [performWrites_mem]; exact Mem.wf_puts ps ws _ h

end Sys2Proof.Machine
end

