-- ==== Sys2Proof/Tests/Slice0.lean ====
section
/-!
SUPPORT. The model's own tests: words written out from the spec's encodings decode to what they stand for, ill-formed words are
refused, single steps give the spec's values, and every statement's hypotheses are met by a concrete state.
-/
set_option maxRecDepth 100000
set_option exponentiation.threshold 5000
set_option Elab.async false
namespace Sys2Proof.Tests
open Sys2Proof Sys2Proof.Machine

/-! ### Small states -/

/-- The fields of a word, unguarded. -/
def fld (d a b c : Spec) (ty : BitVec 4 := 2) (sub : BitVec 5 := 0) (ext : BitVec 32 := 0) (fn : BitVec 8 := 0) (rm : BitVec 3 := 0) :
    Fields :=
  { gneg := false, gpred := 7, d, a, b, c, ty, rm, sub, fn, ext }

/-- A compute thread of core 0, lane 0, in unit 1 of partition 1: g4 = 5, g5 = 7, and in the pair g8 the base of its carve-out
window. -/
def thr0 : Thread :=
  { wait := .ready, part := 1, cid := 2049, asid := 2049, unit := 1
    g := [(4, { val := 5 }), (5, { val := 7 }), (9, { val := 0x07FF0000 })]
    v := [(1, { tag := 1 }), (2, { tag := 1 })] }
def group0 : Group := { cgn := 0, quad := 0, n := 1, tids := [0], acc := [0, 1] }
def unit0 : UnitRec :=
  { core := 0, part := 1, cid := 2049, asid := 2049, linear := 0, res := { threads := 1, groups := 1, tile4k := 4, bars := 1, acc := 2 }
    tileBase := 0, barBase := 0, windows := [0x07FF000000000100], groups := [(0, group0)], bars := [(0, {})] }
def part1 : Part := { present := true, cores := 1, carve := 1, queues := 1 }
/-- A machine with that thread current. -/
def st : State :=
  { threads := [(0, thr0)], units := [(1, unit0)], parts := [(0, Part.zeroReset), (1, part1)], cur := 0
    launches := [(2049, { part := 1, asid := 2049, r := {}, order := 0, acceptMs := 0 })] }
/-- The thread changed. -/
def stWith (f : Thread → Thread) : State := { st with threads := [(0, f thr0)] }
/-- The partition changed. -/
def stPart (f : Part → Part) : State := { st with parts := [(0, Part.zeroReset), (1, f part1)] }
/-- The machine at reset with the Oryx thread running: monitor level, partition 0. -/
def mon : State := { State.reset with parts := [(0, Part.zeroReset), (1, part1)] }
/-- A kernel thread of partition 1 on general core 0. -/
def ker : State := { st with threads := [(32768, { wait := .ready, part := 1, cid := 2048, asid := 2048, level := 1, plvl := 3 })], cur := 32768 }

/-- Bytes written in a carved way of die 0, at an offset. -/
def putWin (m : Mem) (way off : Nat) : Nat → Nat → Mem
  | 0, _ => m
  | n + 1, x => putWin (m.writeN (wayAddr 0 way off) 1 (x % 256)) way (off + 1) n (x / 256)

/-- The state after an outcome. -/
def after : Out → State
  | .next t => t
  | _ => {}

/-- The outcome is a next state. -/
def isNext : Out → Bool
  | .next _ => true
  | _ => false
theorem next_of {o : Out} (h : isNext o = true) : ∃ t, o = .next t := by
  cases o with
  | next t => exact ⟨t, rfl⟩
  | fault f => simp [isNext] at h
  | refused r => simp [isNext] at h

theorem runs_of {i : Instr} {w : Fields} {s : State} (h : (staticPass i s && guardTrue w s.me) = true) : Runs i w s := by
  simpa [Runs] using h

/-- Every instruction of a list runs with the same fields in a state. -/
theorem runs_all {l : List (Fields → Instr)} {w : Fields} {s : State} (h : (l.all fun mk => staticPass (mk w) s && guardTrue w s.me) = true) :
    ∀ mk ∈ l, Runs (mk w) w s := fun mk hm => runs_of ((List.all_eq_true.1 h) mk hm)

/-- The instruction, with its own fields, runs. -/
def runsHere (i : Instr) (s : State) : Bool :=
  match fieldsOf i with
  | some w => staticPass i s && guardTrue w s.me
  | none => false
/-- Every instruction of a list runs in a state. -/
theorem runs_list {l : List Instr} {s : State} (h : (l.all fun i => runsHere i s) = true) :
    ∀ i ∈ l, ∃ w, fieldsOf i = some w ∧ Runs i w s := by
  intro i hi
  have hr := List.all_eq_true.1 h i hi
  unfold runsHere at hr
  split at hr
  · exact ⟨_, ‹_›, runs_of hr⟩
  · simp at hr

/-- The operation answers. -/
def isOk {α : Type} (m : M α) (s : State) : Bool :=
  match m.run s with
  | .ok _ _ => true
  | .error _ _ => false
theorem does_of {α : Type} {m : M α} {s : State} (h : isOk m s = true) : ∃ a t, Does m s a t := by
  unfold isOk at h
  split at h
  · exact ⟨_, _, ‹_›⟩
  · simp at h
theorem does_unit {m : M Unit} {s : State} (h : isOk m s = true) : ∃ t, Does m s () t := by
  obtain ⟨_, t, ht⟩ := does_of h
  exact ⟨t, ht⟩

/-- The operation answers, and leaves the state as it is. -/
def isOkSame (m : M Unit) (s : State) : Bool :=
  match m.run s with
  | .ok _ t => decide (t = s)
  | .error _ _ => false
theorem does_same {m : M Unit} {s : State} (h : isOkSame m s = true) : Does m s () s := by
  unfold isOkSame at h
  split at h
  · rename_i a t heq
    obtain rfl := of_decide_eq_true h
    exact heq
  · simp at h

/-- The operation answers, with a test of what it answers and leaves. -/
def isOkP {α : Type} (m : M α) (s : State) (p : α → State → Bool) : Bool :=
  match m.run s with
  | .ok a t => p a t
  | .error _ _ => false
theorem does_that {α : Type} {m : M α} {s : State} {p : α → State → Bool} (h : isOkP m s p = true) :
    ∃ a t, Does m s a t ∧ p a t = true := by
  unfold isOkP at h
  split at h
  · exact ⟨_, _, ‹_›, h⟩
  · simp at h
theorem does_at {α : Type} {m : M α} {s : State} (h : isOkP m s (fun _ t => decide (t = s)) = true) : ∃ a, Does m s a s := by
  obtain ⟨a, t, hd, ht⟩ := does_that h
  obtain rfl := of_decide_eq_true ht
  exact ⟨a, hd⟩

/-! ### Decoding -/

/-- R202's word: ADD.i32 g3, g4, g5. -/
theorem test_decode_add : decode 0x0020_0FF0_5040_3700#96 = .ok (.add (fld (.g 3) (.g 4) (.g 5) .none)) := by rfl
theorem test_decode_lop3 : decode 0xE860_0060_5040_A709#96 =
    .ok (.lop3 (fld (.g 10) (.g 4) (.g 5) (.g 6) 6 0 0 0xE8)) := by rfl
theorem test_decode_mxaadd : decode 0x0000_0040_00B0_0FF8_304F_F761#96 = .ok (.mxaadd (fld .none (.g 4) (.v 3) .none 11 0 0x40)) := by rfl
theorem test_decode_vquant : decode 0x0080_2FF0_4808_8787#96 = .ok (.vquant (fld (.v 8) (.v 0) (.g 4) .none 8 2)) := by rfl
theorem test_decode_softstep : decode 0x2010_0005_0080_2B21_0A8A_9794#96 =
    .ok (.softstep (fld (.acc 1) (.acc 0) (.g 16) (.cv 2) 8 2 0x20100005)) := by rfl
theorem test_decode_mma : decode 0x0000_0006_0080_4B31_480A_9790#96 =
    .ok (.mma (fld (.acc 1) (.v 0) (.g 20) (.cv 3) 8 4 6)) := by rfl
theorem test_decode_csrw : decode 0x0000_0013_0000_0FF0_604F_F7A1#96 = .ok (.csrw (fld .none (.g 4) (.g 6) .none 0 0 0x13)) := by rfl
theorem test_decode_partctl : decode 0x0000_3FF0_4060_27A9#96 = .ok (.partctlCores (fld (.g 2) (.g 6) (.g 4) .none 0 3)) := by rfl
theorem test_decode_poolctl : decode 0x0000_0FFF_F067_E7AB#96 = .ok (.poolctlCow (fld (.g 126) (.g 6) .none .none 0 0)) := by rfl
theorem test_decode_pad : (decodeTableWord 96 0x0000_0FFF_F000_0F13).isSome = true := by decide +kernel
theorem test_decode_bra : decode 0x0000_0FFF_FFFF_F130#96 =
    .ok (.bra { fld .none .none .none .none 0 with gpred := 1 }) := by rfl
/-- R197 and R229, R233, R250, R257, R276, with the opcodes of R207: `plop3 p1, p2, p3, p4, 0xE8`; `ld.i32 g3, [g8+16]`; `st.i32 [g8], g5`;
`kvfork g3, 1, g13`; `fadd.f32 g3, g4, g5`; `trap 9`. -/
theorem test_decode_families :
    decode 0xE800_0A4A_3A2A_1720#96 = .ok (.plop3 (fld (.p 1) (.p 2) (.p 3) (.p 4) 0 0 0 0xE8)) ∧
    decode 0x0000_0010_0020_0FFF_F080_3740#96 = .ok (.ld (fld (.g 3) (.g 8) .none .none 2 0 0x10)) ∧
    decode 0x0020_0FF0_508F_F741#96 = .ok (.st (fld .none (.g 8) (.g 5) .none)) ∧
    decode 0x0000_0001_0000_0FF0_DE80_3752#96 = .ok (.kvfork (fld (.g 3) .imm (.g 13) .none 0 0 1)) ∧
    decode 0x0080_0FF0_5040_3770#96 = .ok (.fadd (fld (.g 3) (.g 4) (.g 5) .none 8)) ∧
    decode 0x0000_0009_0000_0FFF_FFFF_F72E#96 = .ok (.trap (fld .none .none .none .none 0 0 9)) :=
  ⟨rfl, rfl, rfl, rfl, rfl, rfl⟩
/-- The same ADD with operand C reserved-free but not 0xFF is refused (R202). -/
theorem test_decode_illformed : decode 0x0020_0E90_5040_3700#96 = .error .illFormed := by rfl
/-- An opcode of the 133 unallocated ones. -/
theorem test_decode_unallocated : decode 0x0020_0FF0_5040_3717#96 = .error .unallocated := by rfl
/-- A reserved operand code. -/
theorem test_decode_reserved : decode 0x0020_0FF0_5EA0_3700#96 = .error .reservedOperand := by rfl

/-! ### Each static check refuses an ill-formed term -/

/-- An odd register for a pair (R175). -/
theorem test_illformed_pair : WellFormed (.add (fld (.g 3) (.g 4) (.g 6) .none 3)) = false := by decide +kernel
/-- A class that the field does not accept (R199). -/
theorem test_illformed_class : WellFormed (.add (fld (.v 3) (.g 4) (.g 5) .none)) = false := by decide +kernel
/-- A special value above 0x19 (R200). -/
theorem test_illformed_special : WellFormed (.add (fld (.g 3) (.sv 0x1A) (.g 5) .none)) = false := by decide +kernel
/-- An odd word of a window for a 64-bit constant (R201). -/
theorem test_illformed_window : WellFormed (.add (fld (.g 2) (.k 0) (.g 6) .none 3 0 1)) = false := by decide +kernel
/-- Two operands that use EXT (R202). -/
theorem test_illformed_ext : WellFormed (.add (fld (.g 3) .imm (.k 0) .none)) = false := by decide +kernel
/-- EXT not zero with no operand to use it (R203). -/
theorem test_illformed_ext_zero : WellFormed (.add (fld (.g 3) (.g 4) (.g 5) .none 2 0 1)) = false := by decide +kernel
/-- A type that the instruction does not allocate (R204). -/
theorem test_illformed_type : WellFormed (.add (fld (.g 3) (.g 4) (.g 5) .none 8)) = false := by decide +kernel
/-- A rounding mode where none is allocated. -/
theorem test_illformed_rm : WellFormed (.add (fld (.g 3) (.g 4) (.g 5) .none 2 0 0 0 1)) = false := by decide +kernel
/-- A SUB bit without meaning. -/
theorem test_illformed_sub : WellFormed (.add (fld (.g 3) (.g 4) (.g 5) .none 2 2)) = false := by decide +kernel
/-- FN not zero where it is not used. -/
theorem test_illformed_fn : WellFormed (.add (fld (.g 3) (.g 4) (.g 5) .none 2 0 0 1)) = false := by decide +kernel
/-- A guarded convergence instruction (R198). -/
theorem test_illformed_guard :
    WellFormed (.vote (fld (.p 3) (.p 1) .none (.cv 0) 0)) = true ∧
      WellFormed (.vote { fld (.p 3) (.p 1) .none (.cv 0) 0 with gpred := 1 }) = false := by decide +kernel
/-- SAT under a float tag (R284). -/
theorem test_illformed_more :
    WellFormed (.vadd (fld (.v 3) (.v 1) (.v 2) .none 4 1)) = true ∧ WellFormed (.vadd (fld (.v 3) (.v 1) (.v 2) .none 1 1)) = false := by
  decide +kernel

/-! ### Witnesses: encoding and steps -/

theorem witness_DecodeOfEncode : fieldsOf (.add (fld (.g 3) (.g 4) (.g 5) .none)) = some (fld (.g 3) (.g 4) (.g 5) .none) ∧
    WellFormed (.add (fld (.g 3) (.g 4) (.g 5) .none)) = true := by decide +kernel
theorem witness_ReservedWordsRejected :
    (∃ k ∈ [12, 20, 28, 36], 0xEA ≤ ((0x0020_0FF0_5EA0_3700#96).extractLsb' k 8).toNat ∧
      ((0x0020_0FF0_5EA0_3700#96).extractLsb' k 8).toNat ≤ 0xFE) ∧
    (∃ k ∈ [12, 20, 28, 36], ((0x0020_0FFF_E040_3700#96).extractLsb' k 8).toNat = 0xFE) ∧
    (splitWord 0x0020_0FF0_5040_3717#96).isSome = true ∧ 0x17 ∈ unallocatedOpcodes ∧ 0xFF ∈ unallocatedOpcodes := by decide +kernel

/-- One item of a bundle, of thread 0 at PC 0: the ADD above. -/
def latched : State := { st with latch := [{ tid := 0, pc := 0, word := 0x0020_0FF0_5040_3700 }] }
/-- The same item; one whose opcode is unallocated; and one of a pair that breaks R196. -/
theorem witness_StepRunsDecoded :
    latched.powered = true ∧
    (∀ it ∈ ([{ tid := 0, pc := 0, word := 0x0020_0FF0_5040_3700 }, { tid := 0, pc := 0, word := 0x0020_0FF0_5040_3717 },
        { tid := 0, pc := 0, word := 0x0020_0FF0_5040_3700, badPair := true }] : List Item),
      ({ latched with latch := [] } : State).itemStands it = true) ∧
    decode 0x0020_0FF0_5040_3717 = .error .unallocated :=
  ⟨by decide +kernel, by decide +kernel, rfl⟩
theorem test_step_add : ((after (step latched)).thr 0).g.get {} 3 = { val := 12 } ∧ ((after (step latched)).thr 0).pc = 1 := by decide +kernel

/-- The machine at reset with NOP's word (MOV g0, g0, guarded by !p7) placed where it fetches. -/
def fetching : State := State.reset.withFetchWord 96 0x0020_0FFF_F000_0F13
theorem witness_FetchGivesSlots : ∃ secs s1, fetching.fetch oryx (lineOf (fetching.thr oryx).pc) = (.line secs, s1) ∧
    secs.any SectorLit.poison = false ∧ parityOk secs = true := ⟨_, _, rfl, by decide +kernel, by decide +kernel⟩
/-- The same line with a bit of its first slot changed, and poisoned. -/
def garbled : State := { fetching with mem := fetching.mem.writeN (lpBase + 59) 1 1 }
def tainted : State := { fetching with mem := { fetching.mem with poison := [(lpBase / 32, true)] } }
theorem witness_FetchGivesSlots_fates :
    (∃ secs s1, garbled.fetch oryx (lineOf (garbled.thr oryx).pc) = (.line secs, s1) ∧ secs.any SectorLit.poison = false ∧
      parityOk secs = false) ∧
    (∃ secs s1, tainted.fetch oryx (lineOf (tainted.thr oryx).pc) = (.line secs, s1) ∧ secs.any SectorLit.poison = true) :=
  ⟨⟨_, _, rfl, by decide +kernel, by decide +kernel⟩, ⟨_, _, rfl, by decide +kernel⟩⟩
/-- R196: slots 0 and 1 of a line whose PAIR is 0b101 go together, and so do 2 and 3. -/
theorem test_pair_template :
    let secs : List SectorLit := [{ data := 0, side := 0, poison := false }, { data := BitVec.ofNat 256 (2 ^ 224 * (5 * 2 ^ 16)), side := 0, poison := false }]
    [0, 1, 2, 3, 4].map (fun k => (slotsAt secs k).words.map Prod.fst) = [[0, 1], [1], [2, 3], [3], [4]] := by decide +kernel
/-- The same line, with the thread brought to its slot 1 by an ERET before the line could be read: its mask admits slot 0 only. -/
def misled : State := fetching.modThr oryx fun th => { th with pc := th.pc + 1, unchecked := some 0x40 }
theorem witness_FetchGivesSlots_refused : ∃ secs s1, misled.fetch oryx (lineOf (misled.thr oryx).pc) = (.line secs, s1) ∧
    secs.any SectorLit.poison = false ∧ parityOk secs = true ∧ (misled.thr oryx).unchecked = some 0x40 ∧
    btmOk (lineWord secs) ((misled.thr oryx).pc.toNat % 8) = false :=
  ⟨_, _, rfl, by decide +kernel, by decide +kernel, by decide +kernel, by decide +kernel⟩
theorem witness_EveryInstructionAnswers :
    step { State.reset with boot := { power := .off } } = .fault .off := by rfl
theorem witness_StepKeepsMemoryForm : fetching.mem.wf = true ∧ ∃ t, step fetching = .next t := ⟨by decide +kernel, next_of (by decide +kernel)⟩
theorem witness_BytesAfterWrite : ({} : Mem).dead = 0 := rfl

/-! ### Witnesses: checks and traps -/

theorem witness_FalseGuardAdvances :
    (let w := { fld (.g 3) (.g 4) (.g 5) .none with gpred := 1 }
     fieldsOf (.add w) = some w ∧ staticPass (.add w) st = true ∧ guardTrue w st.me = false) ∧
    (0x40#64).toNat % 64 = 0 := by decide +kernel
/-- An odd register for a pair, and a register beyond the thread's allocation. -/
theorem witness_StaticFailureTraps :
    (let w := fld (.g 3) (.g 4) (.g 6) .none 3
     fieldsOf (.add w) = some w ∧ (encode (.add w)).isSome = true ∧ staticPass (.add w) st = false) ∧
    staticPass (.add (fld (.g 127) (.g 4) (.g 5) .none)) (stWith fun th => { th with nG := 127 }) = false ∧
    staticPass (.add (fld (.g 126) (.g 4) (.g 5) .none)) (stWith fun th => { th with nG := 127 }) = true := by decide +kernel
/-- A vector on a page that is not present leaves its line's mask unread. -/
def vectored : State := stPart fun p => { p with excVec := 0x40, astab := 0 }
theorem witness_TrapEntryCompute :
    isService vectored.cur = false ∧ vectored.me.tx = none ∧ vectored.me.level = 0 ∧
      ((vectored.noted 6).entered 6 2 0).refusesPc vectored.cur vectored.vector = false ∧
      ((vectored.noted cPOISON).entered cPOISON 2 0).refusesPc vectored.cur vectored.vector = false := by decide +kernel
def serviceVec : State := { ker with threads := [(32768, { ker.me with plvl := 3, vec := 0x40 })] }
theorem witness_TrapEntryService :
    (isService serviceVec.cur = true ∧ serviceVec.me.tx = none ∧ serviceVec.me.plvl = 3 ∧ serviceVec.me.vec ≠ 0 ∧
      ((serviceVec.noted 6).entered 6 2 0).refusesPc serviceVec.cur serviceVec.vector = false ∧
      ((serviceVec.noted cPOISON).entered cPOISON 0 0).refusesPc serviceVec.cur serviceVec.vector = false) ∧
    (let s := mon.modMe fun th => { th with plvl := 3 }
     isOryx s.cur = true ∧ s.me.plvl = 3 ∧ ((s.noted 6).entered 6 2 0).refusesPc s.cur s.vector = false) := by decide +kernel
theorem witness_TrapsThatAreFatal :
    (let s := stWith fun th => { th with level := 1 }
     isService s.cur = false ∧ s.me.tx = none ∧ 1 ≤ s.me.level) ∧
    (isService mon.cur = true ∧ mon.me.tx = none ∧ mon.me.plvl ≠ 3 ∧ mon.me.part = 0) ∧
    (isService ker.cur = true ∧ ker.me.tx = none ∧ ker.me.vec = 0 ∧ isOryx ker.cur = false) := by decide +kernel
/-- A vector in the third slot-less place of a line, bit 2 and bit 3 set, has no form that R194 allows. -/
def misvectored : State := stPart fun p => { p with excVec := 0x4D, astab := 0 }
theorem witness_TrapsThatAreFatal_refused :
    isService misvectored.cur = false ∧ misvectored.me.tx = none ∧
      ((misvectored.noted 6).entered 6 2 0).refusesPc misvectored.cur misvectored.vector = true ∧
    (let s := { ker with threads := [(32768, { ker.me with plvl := 3, vec := 0x4D })] }
     isService s.cur = true ∧ s.me.tx = none ∧ ((s.noted 6).entered 6 2 0).refusesPc s.cur s.vector = true) := by decide +kernel
def inTx : State := stWith fun th => { th with tx := some { beginMs := 0, source := 0, seq := 0, abortPc := 0x40 } }
theorem witness_TrapInsideTransactionAborts : inTx.me.tx.isSome = true ∧ cPAGE < 256 ∧ cLOCKED < 256 ∧ cPOISON < 256 := by decide +kernel
/-- R267: TRAP with code 6 in bits 23:16. -/
theorem test_abort_status : (inTx.takeTrap 6 2 0).me.tstat = 0x0006_0000 + BitVec.ofNat 32 txTRAP := by decide +kernel

/-- R414: consumed poison is recorded with class 1, kind 8 and cause 9, to the partition and to partition 0; another trap
is not. -/
theorem test_poison_recorded :
    ((vectored.takeTrap cPOISON 2 0).errs.map fun r => (r.part, r.cls, r.kind, r.cause)) =
      vectored.errs.map (fun r => (r.part, r.cls, r.kind, r.cause)) ++ [(vectored.me.part, 1, 8, 9), (0, 1, 8, 9)] ∧
    (vectored.takeTrap 6 2 0).errs = vectored.errs := by decide +kernel
/-! ### Witnesses: registers, operands, integers, predicates -/

/-- Two g sources of 32 bits. -/
def w2 : Fields := fld (.g 3) (.g 4) (.g 5) .none
/-- One g source. -/
def w1 : Fields := fld (.g 3) (.g 4) .none .none
/-- Three g sources. -/
def w3 : Fields := fld (.g 3) (.g 4) (.g 5) (.g 6)

theorem witness_RegistersReadBack :
    (let s := stWith fun th => { th with level := 1 }
     s.handlerReg s.cur 124 = true ∧ s.handlerReg s.cur 127 = true ∧ s.handlerReg s.cur 123 = false) := by decide +kernel
theorem witness_OperandForms :
    is64 2 = false ∧ is64 3 = true ∧ is64 7 = true ∧ st.window 1 = 0 ∧ st.window 0 ≠ 0 ∧
      (∃ v p t, Does (loadBytes 2 (st.window 0 + 4 * ((0#32).toNat % 2 ^ 17)) 4) st (v, p) t) ∧
      (∃ v p t, Does (loadBytes 2 (st.window 0 + 4 * ((2#32).toNat % 2 ^ 17)) 8) st (v, p) t) :=
  ⟨by decide +kernel, by decide +kernel, by decide +kernel, by decide +kernel, by decide +kernel, ⟨_, _, _, rfl⟩, ⟨_, _, _, rfl⟩⟩

theorem witness_Src2 : ∃ a s1, Src 2 w2.a w2.ty w2.ext st a s1 ∧ ∃ b s2, Src 3 w2.b w2.ty w2.ext s1 b s2 :=
  ⟨_, _, rfl, _, _, rfl⟩
theorem witness_Src3 : ∃ a s1, Src 2 w3.a w3.ty w3.ext st a s1 ∧ ∃ b s2, Src 3 w3.b w3.ty w3.ext s1 b s2 ∧
    ∃ c s3, Src 4 w3.c w3.ty w3.ext s2 c s3 ∧ ∃ f s4, Src 4 w3.c 6 w3.ext s2 f s4 :=
  ⟨_, _, rfl, _, _, rfl, _, _, rfl, _, _, rfl⟩
theorem witness_IntegerEffects :
    (∀ mk ∈ [Instr.add, .sub, .mul, .mulh, .min, .max, .shl, .shr], Runs (mk w2) w2 st) ∧
    (∀ mk ∈ [Instr.abs, .popc, .clz, .brev, .mov], Runs (mk w1) w1 st) ∧
    Runs (.mad w3) w3 st ∧ Runs (.sel (fld (.g 3) (.g 4) (.g 5) (.p 1))) (fld (.g 3) (.g 4) (.g 5) (.p 1)) st :=
  ⟨runs_all (by decide +kernel), runs_all (by decide +kernel), runs_of (by decide +kernel), runs_of (by decide +kernel)⟩
/-- MOVI, MOVI.hi and ADDR. -/
theorem witness_IntegerMoves :
    (let w := fld (.g 2) .imm .none .none 2 0 9
     Runs (.movi w) w st ∧ w.sub.getLsbD 0 = false) ∧
    (let w := fld (.g 2) .imm .none .none 3 1 9
     Runs (.movi w) w st ∧ w.sub.getLsbD 0 = true) ∧
    (let w := fld (.g 2) (.g 8) .none .none 0 0 9
     Runs (.addr w) w st) :=
  ⟨⟨runs_of (by decide +kernel), by decide +kernel⟩, ⟨runs_of (by decide +kernel), by decide +kernel⟩, runs_of (by decide +kernel)⟩
theorem witness_DivShiftAndFieldEffects :
    (∀ mk ∈ [Instr.div, .bfx], Runs (mk w2) w2 st) ∧
    (∀ w ∈ [fld (.g 3) (.g 4) (.g 5) (.g 6) 6 0 0 0xE8], Runs (.lop3 w) w st ∧ Runs (.fsh { w with fn := 0 }) { w with fn := 0 } st ∧
      Runs (.bfi { w with fn := 0 }) { w with fn := 0 } st) := by
  refine ⟨runs_all (by decide +kernel), fun w hw => ?_⟩
  obtain rfl : w = fld (.g 3) (.g 4) (.g 5) (.g 6) 6 0 0 0xE8 := by simpa using hw
  exact ⟨runs_of (by decide +kernel), runs_of (by decide +kernel), runs_of (by decide +kernel)⟩

def wCmp : Fields := fld (.p 1) (.g 4) (.g 5) .none
/-- The same thread with a register poisoned. -/
def poisoned (n : Nat) : State := stWith fun th => { th with g := Tbl.put {} th.g n { val := 1, poison := true } }
theorem witness_CmpEffect :
    (Runs (.cmp wCmp) wCmp st ∧ st.regPoison wCmp.a (is64 wCmp.ty) = false ∧ st.regPoison wCmp.b (is64 wCmp.ty) = false) ∧
    (Runs (.cmp wCmp) wCmp (poisoned 4) ∧ (poisoned 4).regPoison wCmp.a (is64 wCmp.ty) = true) ∧
    (Runs (.cmp wCmp) wCmp (poisoned 5) ∧ (poisoned 5).regPoison wCmp.a (is64 wCmp.ty) = false ∧
      (poisoned 5).regPoison wCmp.b (is64 wCmp.ty) = true) :=
  ⟨⟨runs_of (by decide +kernel), by decide +kernel⟩, ⟨runs_of (by decide +kernel), by decide +kernel⟩,
    ⟨runs_of (by decide +kernel), by decide +kernel⟩⟩
theorem witness_WordArithmetic : ∀ mk ∈ [Instr.add, .sub, .mul, .max], Runs (mk w2) w2 st := runs_all (by decide +kernel)
theorem witness_PredicateEffects :
    (let w := fld (.p 1) (.p 2) (.p 3) (.p 4) 0 0 0 0x96
     Runs (.plop3 w) w st) ∧
    (let w := fld (.g 3) .none .none .none 0
     Runs (.pmov w) w st) ∧
    (let w := fld .none (.g 4) .imm .none 0 1 0x7F
     Runs (.pmovUnpack w) w st ∧ ∃ a s1, Src 2 w.a 6 w.ext st a s1 ∧ a.poison = false ∧ ∃ m s2, Src 3 w.b 6 w.ext s1 m s2 ∧ m.poison = false) :=
  ⟨runs_of (by decide +kernel), runs_of (by decide +kernel), runs_of (by decide +kernel), _, _, rfl, rfl, _, _, rfl, rfl⟩
theorem witness_IntegerFrame : ∃ t, integerFamily (.add w2) = true ∧ fieldsOf (.add w2) = some w2 ∧ Runs (.add w2) w2 st ∧
    exec (.add w2) st = .next t ∧ isWindow w2.a = false ∧ isWindow w2.b = false ∧ isWindow w2.c = false ∧
    ((∃ x, Instr.add w2 = .cmp x) → st.regPoison w2.a (is64 w2.ty) = false ∧ st.regPoison w2.b (is64 w2.ty) = false) :=
  ⟨_, rfl, rfl, runs_of (by decide +kernel), rfl, rfl, rfl, rfl, fun ⟨_, h⟩ => by cases h⟩
theorem witness_IntegerFrame_cmp : ∃ t, integerFamily (.cmp wCmp) = true ∧ fieldsOf (.cmp wCmp) = some wCmp ∧
    Runs (.cmp wCmp) wCmp st ∧ exec (.cmp wCmp) st = .next t ∧ isWindow wCmp.a = false ∧ isWindow wCmp.b = false ∧
    isWindow wCmp.c = false ∧ ((∃ x, Instr.cmp wCmp = .cmp x) → st.regPoison wCmp.a (is64 wCmp.ty) = false ∧
      st.regPoison wCmp.b (is64 wCmp.ty) = false) :=
  ⟨_, rfl, rfl, runs_of (by decide +kernel), rfl, rfl, rfl, rfl, fun _ => by decide +kernel⟩

/-- R224: the smallest value divided by -1 is the smallest value; a zero divisor gives all ones. -/
theorem test_div :
    (let s := stWith fun th => { th with g := [(4, { val := 0x80000000 }), (5, { val := 0xFFFFFFFF })] }
     (after (exec (.div w2) s)).gReg 3 = { val := 0x80000000 }) ∧
    (let s := stWith fun th => { th with g := [(4, { val := 5 })] }
     (after (exec (.div w2) s)).gReg 3 = { val := 0xFFFFFFFF }) := by decide +kernel
/-- R225: the majority of three under FN 0xE8. -/
theorem test_lop3 :
    (let s := stWith fun th => { th with g := [(4, { val := 0xF0 }), (5, { val := 0xCC }), (6, { val := 0xAA })] }
     (after (exec (.lop3 (fld (.g 3) (.g 4) (.g 5) (.g 6) 6 0 0 0xE8)) s)).gReg 3 = { val := 0xE8 }) := by decide +kernel
/-- R223: ADD.sat under .n8 clamps at 255; a count at the width shifts in nothing but the sign. -/
theorem test_add_sat :
    (let s := stWith fun th => { th with g := [(4, { val := 250 }), (5, { val := 9 })] }
     (after (exec (.add (fld (.g 3) (.g 4) (.g 5) .none 4 1)) s)).gReg 3 = { val := 255 }) := by decide +kernel
theorem test_shr_width :
    (let s := stWith fun th => { th with g := [(4, { val := 0x80000000 }), (5, { val := 32 })] }
     (after (exec (.shr w2) s)).gReg 3 = { val := 0xFFFFFFFF } ∧ (after (exec (.shl w2) s)).gReg 3 = {}) := by decide +kernel
/-- R219: a negative .i8 result is extended by sign to 32 bits. -/
theorem test_sub_i8 :
    (let s := stWith fun th => { th with g := [(4, { val := 3 }), (5, { val := 4 })] }
     (after (exec (.sub (fld (.g 3) (.g 4) (.g 5) .none 0)) s)).gReg 3 = { val := 0xFFFFFFFF }) := by decide +kernel
/-- R175: a 64-bit product in a pair. -/
theorem test_mul_pair :
    (let s := stWith fun th => { th with g := [(4, { val := 0xFFFFFFFF }), (6, { val := 2 })] }
     (after (exec (.mul (fld (.g 2) (.g 4) (.g 6) .none 7)) s)).pair 2 = { raw := 0x1FFFFFFFE, poison := false }) := by decide +kernel

/-! ### Witnesses: floats and vectors -/

def f2 : Fields := fld (.g 3) (.g 4) (.g 5) .none 8
def f1 : Fields := fld (.g 3) (.g 4) .none .none 8
def f3 : Fields := fld (.g 3) (.g 4) (.g 5) (.g 6) 8
theorem witness_FloatEffects :
    (∀ mk ∈ [Instr.fadd, .fmul, .fmin, .fmax], Runs (mk f2) f2 st) ∧
    (∀ mk ∈ [Instr.frcp, .frsq, .flog2, .fexp2, .frnd], Runs (mk f1) f1 st) ∧ Runs (.ffma f3) f3 st ∧
    (let w := fld (.p 1) (.g 4) (.g 5) .none 8
     Runs (.fcmp w) w st ∧ st.regPoison w.a false = false ∧ st.regPoison w.b false = false) ∧
    (let w := { f2 with rm := 4 }
     Runs (.fadd w) w st) :=
  ⟨runs_all (by decide +kernel), runs_all (by decide +kernel), runs_of (by decide +kernel),
    ⟨runs_of (by decide +kernel), by decide +kernel⟩, runs_of (by decide +kernel)⟩
/-- Integer to integer, integer to float, float to integer and float to float. -/
theorem witness_ConvertEffect :
    ∀ x ∈ [((4 : BitVec 4), (2 : BitVec 5)), (8, 2), (2, 8), (9, 8)],
      Runs (.cvt (fld (.g 3) (.g 4) .none .none x.1 x.2)) (fld (.g 3) (.g 4) .none .none x.1 x.2) st := by
  have h : ([((4 : BitVec 4), (2 : BitVec 5)), (8, 2), (2, 8), (9, 8)].all fun x =>
    staticPass (.cvt (fld (.g 3) (.g 4) .none .none x.1 x.2)) st && guardTrue (fld (.g 3) (.g 4) .none .none x.1 x.2) st.me) = true := by
    decide +kernel
  exact fun x hx => runs_of (List.all_eq_true.1 h x hx)

/-- Vectors tagged F32 in v1 and v2, I32 in v3 and v4, MXFP8 (tag 8) in v5 and v6. -/
def vst : State := stWith fun th =>
  { th with v := [(1, { tag := 1 }), (2, { tag := 1 }), (3, { tag := 4 }), (4, { tag := 4 }), (5, { tag := 8 }), (6, { tag := 8 })] }
def v2 (ty : BitVec 4) (a b : BitVec 5) : Fields := fld (.v 9) (.v a) (.v b) .none ty
def v3 (ty : BitVec 4) (a b : BitVec 5) : Fields := fld (.v 9) (.v a) (.v b) (.v a) ty
theorem witness_VectorElementwise :
    (∀ mk ∈ [Instr.vadd, .vmul, .vmin, .vmax], Runs (mk (v2 1 1 2)) (v2 1 1 2) vst) ∧
    (∀ mk ∈ [Instr.vadd, .vmul, .vmin, .vmax], Runs (mk (v2 4 3 4)) (v2 4 3 4) vst) ∧
    (∀ mk ∈ [Instr.vadd, .vmul, .vmin, .vmax], Runs (mk (v2 8 5 6)) (v2 8 5 6) vst) ∧
    (∀ mk ∈ [Instr.vfma], Runs (mk (v3 1 1 2)) (v3 1 1 2) vst) ∧ (∀ mk ∈ [Instr.vfma], Runs (mk (v3 4 3 4)) (v3 4 3 4) vst) ∧
    (∀ mk ∈ [Instr.vfma], Runs (mk (v3 8 5 6)) (v3 8 5 6) vst) ∧
    (vst.readV (.v 1) 1).tag = 1 ∧ (vst.readV (.v 4) 4).tag = 4 ∧ (vst.readV (.v 6) 8).tag = 8 :=
  ⟨runs_all (by decide +kernel), runs_all (by decide +kernel), runs_all (by decide +kernel), runs_all (by decide +kernel),
    runs_all (by decide +kernel), runs_all (by decide +kernel), by decide +kernel⟩
theorem witness_VectorReductionsAndMoves :
    (∀ x ∈ [Instr.vred (fld (.g 3) (.v 1) .none .none 1), .vred (fld (.g 3) (.v 3) .none .none 4 2),
        .vdot (fld (.g 3) (.v 1) (.v 2) (.g 4) 1), .vdot (fld (.g 3) (.v 3) (.v 4) (.g 4) 4 1),
        .vsplat (fld (.v 9) (.g 4) .none .none 1), .vext (fld (.g 3) (.v 1) (.g 4) .none 1),
        .vins (fld (.v 9) (.v 1) (.g 4) (.g 5) 1), .vsideGet (fld (.g 3) (.v 1) .none .none 0),
        .vsideSet (fld (.v 9) (.v 1) (.g 4) .none 0 1), .vtag (fld (.v 9) (.v 1) .none .none 8)],
      ∃ w, fieldsOf x = some w ∧ Runs x w vst) ∧ (vst.readV (.v 1) 1).tag = 1 := ⟨runs_list (by decide +kernel), by decide +kernel⟩
/-- VCVT F32 to BF16, widening, with B tagged BF16; and MXFP8 to MXFP8. VQUANT from BF16 to MXFP8 in its three forms. -/
def qst : State :=
  { stWith fun th => { th with
      g := Tbl.put {} th.g 6 { val := 0 }, v := [(0, { tag := 2 }), (1, { tag := 2 }), (2, { tag := 1 }), (5, { tag := 8 })] } with
    units := [(1, { unit0 with tiles := [(0, mkTile 2 4 0)] })] }
theorem witness_VectorConversionAndQuantise :
    (∀ x ∈ [Instr.vcvt (fld (.v 9) (.v 2) (.v 0) .none 2 1), .vcvt (fld (.v 9) (.v 1) .none .none 1 2),
        .vcvt (fld (.v 9) (.v 5) .none .none 9 8), .vquant (fld (.v 9) (.v 0) .none .none 8 4),
        .vquant (fld (.v 9) (.v 0) (.g 6) .imm 8 5), .vquant (fld (.v 9) (.v 0) (.g 8) .none 8 6)],
      ∃ w, fieldsOf x = some w ∧ Runs x w qst) ∧
    (∀ i ∈ [0, 1], (qst.vReg i).tag = 2) ∧ (qst.readV (.v 2) 1).tag = 1 ∧ (qst.readV (.v 5) 8).tag = 8 ∧ qst.me.tx = none ∧
    (∃ s1, Src 3 (.g 6) 6 0 qst ⟨0, false⟩ s1 ∧ ∃ s2, Src 4 .imm 6 0 s1 ⟨0, false⟩ s2 ∧ Does (tileReady 0) s2 () s2 ∧
      ∃ a, Does (foldUnitAt 3 0 0) s2 a s2) ∧
    (qst.pair 8).poison = false ∧ (∃ s1, Does (foldPkg 3 (qst.pair 8).raw 0 false) qst () s1) :=
  ⟨runs_list (by decide +kernel), by decide +kernel, by decide +kernel, by decide +kernel, by decide +kernel,
    ⟨_, rfl, _, rfl, rfl, _, rfl⟩, by decide +kernel, _, rfl⟩

/-- R276: 1.5 + 2.5 = 4 in FP32. -/
theorem test_fadd :
    (let s := stWith fun th => { th with g := [(4, { val := 0x3FC00000 }), (5, { val := 0x40200000 })] }
     (after (exec (.fadd f2) s)).gReg 3 = { val := 0x40800000 }) := by decide +kernel
/-- R282: CVT.n8.f32 clamps, and NaN gives zero. -/
theorem test_cvt :
    (let s := stWith fun th => { th with g := [(4, { val := 0x43960000 }), (5, { val := 0x7FC00000 })] }
     (after (exec (.cvt (fld (.g 3) (.g 4) .none .none 4 8)) s)).gReg 3 = { val := 255 } ∧
       (after (exec (.cvt (fld (.g 3) (.g 5) .none .none 4 8)) s)).gReg 3 = {}) := by decide +kernel
/-- R286: the sum of 8 elements of value 1 under I32. -/
theorem test_vred :
    (let s := stWith fun th => { th with v := [(3, { tag := 4, sec := 0x0000000100000001000000010000000100000001000000010000000100000001 })] }
     (after (exec (.vred (fld (.g 3) (.v 3) .none .none 4)) s)).gReg 3 = { val := 8 }) := by decide +kernel
/-- R284: a tag that is not the TYPE of the instruction traps TAG_MISMATCH. -/
theorem test_vadd_tag : (after (exec (.vadd (v2 1 1 3)) { vst with parts := vectored.parts })).me.cause.extractLsb' 0 8 = 0x04 := by
  decide +kernel

/-! ### Witnesses: memory, tiles, atomics, transactions -/

/-- An access of n bytes at the base of the carve-out window reaches the bytes. -/
theorem witness_direct (u : Use) (h : u = .load ∨ u = .store) :
    ∃ p s1, Direct st 0x07FF000000000000 4 u p s1 ∧ noL1 s1 p ∧ s1.mem.isDead (p.phys + 0x07FF000000000000 % 128) = false ∧
      p.phys % 65536 + 128 ≤ 65536 ∧ p.swm = true := by
  rcases h with rfl | rfl <;>
  exact ⟨_, _, ⟨by decide +kernel, by decide +kernel, by decide +kernel, by decide +kernel, by decide +kernel, by decide +kernel,
    by decide +kernel, by decide +kernel, rfl, rfl⟩, rfl, by decide +kernel, by decide +kernel, rfl⟩
/-- A whole sector, and the last bytes of a sector. -/
theorem witness_direct_sector :
    (∃ p s1, Direct st 0x07FF000000000060 32 .store p s1 ∧ p.swm = true) ∧
    (∃ p s1, Direct st 0x07FF00000000001C 4 .load p s1 ∧ noL1 s1 p ∧ 0x07FF00000000001C % 32 + 4 ≤ 32) :=
  ⟨⟨_, _, ⟨by decide +kernel, by decide +kernel, by decide +kernel, by decide +kernel, by decide +kernel, by decide +kernel,
    by decide +kernel, by decide +kernel, rfl, rfl⟩, rfl⟩,
   ⟨_, _, ⟨by decide +kernel, by decide +kernel, by decide +kernel, by decide +kernel, by decide +kernel, by decide +kernel,
    by decide +kernel, by decide +kernel, rfl, rfl⟩, rfl, by decide⟩⟩

def wLd : Fields := fld (.g 3) (.g 8) .none .none
def wSt : Fields := fld .none (.g 8) (.g 4) .none
def wLdv : Fields := fld (.v 3) (.g 8) .none .none 1
def wStv : Fields := fld .none (.g 8) (.v 1) .none 0
theorem witness_LoadsAndStoresRun :
    (∀ i ∈ [Instr.ld wLd, .st wSt, .ldv wLdv, .stv wStv, .ldc (fld (.g 3) (.g 6) .none .none), .pref (fld .none (.g 8) .none .none 0)],
      ∃ w, fieldsOf i = some w ∧ Runs i w st) ∧
    (formM wLd st).poison = false ∧ (formM wLd st).raw % 32 = 0 ∧ (formM (fld (.g 3) (.g 6) .none .none) st).poison = false ∧
    (∃ v s1, Does (loadBytes 2 (formM wLd st).raw 4) st v s1) ∧
    (∃ b s1, Src 3 wSt.b wSt.ty 0 st b s1 ∧ ∃ s2, Does (storeBytes 2 (formM wSt st).raw 4 b.raw b.poison) s1 () s2) ∧
    (∃ xs s1, Does (loadSectors 2 (formM wLdv st).raw 32) st xs s1 ∧ xs.length = 1) ∧
    (∃ s1, Does (storeSectors 2 (formM wStv st).raw [{ data := (st.readV wStv.b 0).sec, side := (st.readV wStv.b 0).side, poison := (st.readV wStv.b 0).poison }] true) st () s1) ∧
    (st.window 0 ≠ 0 ∧ (st.window 0 + 0) % 4 = 0 ∧ 0 + 4 ≤ 2 ^ 19 ∧ ∃ v s1, Does (loadBytes 2 (st.window 0 + 0) 4) st v s1) :=
  ⟨runs_list (by decide +kernel), by decide +kernel, by decide +kernel, by decide +kernel, does_of (by decide +kernel),
    ⟨_, _, rfl, does_unit (by decide +kernel)⟩, ⟨_, _, rfl, rfl⟩, does_unit (by decide +kernel),
    by decide +kernel, by decide +kernel, by decide, does_of (by decide +kernel)⟩
theorem witness_StoreFrame : Runs (.st wSt) wSt st ∧ is64 wSt.ty = false ∧ (formM wSt st).raw = 0x07FF000000000000 :=
  ⟨runs_of (by decide +kernel), by decide +kernel, by decide +kernel⟩
theorem witness_TranslationFrame :
    (∃ f t, st.place st.who 0x07FF000000000000 .load none = (f, t)) ∧
    (st.me.tx = none ∧ (st.part st.me.part).rdetEn = false ∧ ∃ v t, Does (readConst 2 0 0 4) st v t) :=
  ⟨⟨_, _, rfl⟩, by decide +kernel, by decide +kernel, does_of (by decide +kernel)⟩
theorem witness_OperandTraps :
    (let s := stWith fun th => { th with g := [(4, { val := 5 }), (8, { val := 1 }), (9, { val := 0x07FF0000 })] }
     (∀ i ∈ [Instr.ld wLd, .st wSt, .ldv wLdv, .stv wStv], ∃ w, fieldsOf i = some w ∧ Runs i w s) ∧ (formM wLd s).poison = false ∧
       (formM wLd s).raw % 4 = 1) ∧
    (let s := poisoned 8
     (∀ i ∈ [Instr.ld wLd, .st wSt, .ldv wLdv, .stv wStv, .ldc wLd, .pref (fld .none (.g 8) .none .none 0)],
       ∃ w, fieldsOf i = some w ∧ Runs i w s) ∧ (formM wLd s).poison = true) ∧
    ((∀ i ∈ [Instr.vadd (v2 1 3 1), .vmul (v2 1 3 1), .vmin (v2 1 3 1), .vmax (v2 1 3 1), .vfma (v3 1 3 1), .vdot (fld (.g 3) (.v 3) (.v 1) (.g 4) 1),
        .vadd (v2 1 1 3), .vmul (v2 1 1 3), .vmin (v2 1 1 3), .vmax (v2 1 1 3), .vfma (v3 1 1 3), .vdot (fld (.g 3) (.v 1) (.v 3) (.g 4) 1)],
       ∃ w, fieldsOf i = some w ∧ Runs i w vst) ∧ (vst.readV (.v 3) 1).tag ≠ 1 ∧ (vst.readV (.v 1) 1).tag = 1) :=
  ⟨⟨runs_list (by decide +kernel), by decide +kernel, by decide +kernel⟩, ⟨runs_list (by decide +kernel), by decide +kernel⟩,
    runs_list (by decide +kernel), by decide +kernel, by decide +kernel⟩

/-- A thread of partition 0, whose tables hold one page, at a register that points to another page. -/
def absentSt : State :=
  { fetching with
    threads := [(0, { thr0 with part := 0, asid := 0, cid := 1, g := [(4, { val := 5 }), (8, { val := 0x10000000 })] })]
    units := [(1, { unit0 with part := 0, asid := 0, cid := 1 })], cur := 0 }
theorem witness_StoreToAbsentPageRetires :
    Runs (.st wSt) wSt absentSt ∧ (formM wSt absentSt).raw = 0x10000000 ∧ regionOf 0x10000000 ≠ .carve ∧ absentSt.me.tx = none ∧
      absentSt.me.wait = .ready ∧ absentSt.me.denied = none ∧ (absentSt.part 0).rdetEn = false ∧ isService absentSt.cur = false ∧
      absentSt.lockedBy (tagOf 0x10000000 0 0) 0x10000000 0x10000020 true = false ∧
      (∃ k s1, absentSt.place { absentSt.who with first := 0x10000000 } (0x10000000 / 128 * 128) .store absentSt.me.reply = (.absent k, s1)) ∧
      absentSt.logCount 0 < 1024 ∧ absentSt.logHeld 0 0 < absentSt.logShare 0 :=
  ⟨runs_of (by decide +kernel), by decide +kernel, by decide +kernel, by decide +kernel, by decide +kernel, by decide +kernel, by decide +kernel, by decide +kernel, by decide +kernel, ⟨_, _, rfl⟩, by decide +kernel, by decide +kernel⟩

/-- The unit with a READY tile 0 of one 4 KiB unit, tile 1 EMPTY with a size, and tile 2 without one. -/
def tst : State := { st with units := [(1, { unit0 with tiles := [(0, mkTile 2 1 0), (1, mkTile 0 1 1)] })] }
theorem witness_TileEffects :
    (∀ i ∈ [Instr.tld (fld (.v 3) .zero .none .none 1), .tst (fld .none .zero (.v 1) .none 0),
        .tsetDef (fld .none (.g 6) (.g 4) .none 0 0 2), .tsetReady (fld .none .none .none .none 0 1 0),
        .tsetReady (fld .none .none .none .none 0 1 1), .tsetEmpty (fld .none .none .none .none 0 2 0),
        .tsetEmpty (fld .none .none .none .none 0 2 1), .tqry (fld (.g 3) .none .none .none 0)],
      ∃ w, fieldsOf i = some w ∧ Runs i w tst) ∧
    (∃ u, tst.myUnit = some u ∧ tileState (u.tile 0) = tileREADY ∧ tileState (u.tile 1) = tileEMPTY ∧ tileSize (u.tile 1) ≠ 0 ∧
      tileState (u.tile 2) = tileEMPTY ∧ u.res.tile4k = 4 ∧
      tst.lockedBy (70000 + u.core) 4064 4096 true = false ∧ tst.busyAt tst.me.unit u 4064 32 = none) ∧
    tst.tileBusy tst.me.unit 0 = false ∧ (let s1 := tst.tileSeen 0
     Does (tileOffset 2 .zero) s1 0 s1 ∧ ∃ a, Does (tileSectors 2 0 [0] false true) s1 [a] s1 ∧ Does (tileSectors 2 0 [0] false false) s1 [a] s1) ∧
    (let s := { tst with threads := [(0, { thr0 with g := [(4, { val := 1 })] })] }
     Does (tileOffset 2 (.g 6)) s 0 s ∧ Does (tileOffset 3 (.g 4)) s 1 s) :=
  ⟨runs_list (by decide +kernel), ⟨_, rfl, by decide +kernel, by decide +kernel, by decide +kernel, by decide +kernel, by decide +kernel,
    by decide +kernel, by decide +kernel⟩, by decide +kernel, ⟨rfl, _, rfl, rfl⟩, rfl, rfl⟩

theorem witness_AtomicEffects :
    (∀ i ∈ [Instr.atom (fld (.g 3) (.g 8) (.g 4) .none), .atom (fld .none (.g 8) (.g 4) (.g 5) 2 7), .atom (fld (.g 10) (.g 8) (.g 4) .none 3),
        .mxaadd (fld .none (.g 8) (.v 5) .none 0xB)], ∃ w, fieldsOf i = some w ∧ Runs i w vst) ∧ vst.me.tx = none ∧
    (formM (fld (.g 3) (.g 8) (.g 4) .none) vst).raw = 0x07FF000000000000 ∧ (vst.readV (.v 5) tagE4M3).tag = tagE4M3 ∧
    (∃ p s1, Direct vst 0x07FF000000000000 32 .store p s1 ∧ p.swm = true) ∧ (∃ p s1, Direct vst 0x07FF000000000000 4 .store p s1) :=
  ⟨runs_list (by decide +kernel), by decide +kernel, by decide +kernel, by decide +kernel,
   ⟨_, _, ⟨by decide +kernel, by decide +kernel, by decide +kernel, by decide +kernel, by decide +kernel, by decide +kernel,
    by decide +kernel, by decide +kernel, rfl, rfl⟩, rfl⟩,
   ⟨_, _, ⟨by decide +kernel, by decide +kernel, by decide +kernel, by decide +kernel, by decide +kernel, by decide +kernel,
    by decide +kernel, by decide +kernel, rfl, rfl⟩⟩⟩

/-- The first of the lanes of a bundle finds its places, and the places planned for a later one. -/
def planned : State :=
  match (atomPlaces (fld (.g 3) (.g 8) (.g 4) .none) 0x07FF000000000000).run vst with
  | .ok ps t => { t with combined := [(0, ps)] }
  | .error _ _ => vst
theorem witness_AtomicEffects_lanes :
    Tbl.find? vst.combined vst.cur = none ∧ vst.lanesLeft = [] ∧
    (∃ ps p s1, Does (atomPlaces (fld (.g 3) (.g 8) (.g 4) .none) 0x07FF000000000000) vst ps s1 ∧ foundOf ps = [(0x07FF000000000000, p)]) ∧
    ∃ ps p, Tbl.find? planned.combined planned.cur = some ps ∧ foundOf ps = [(0x07FF000000000000, p)] :=
  ⟨by decide +kernel, by decide +kernel, ⟨_, _, _, rfl, rfl⟩, _, _, rfl, rfl⟩

theorem witness_TransactionEffects :
    (∀ s ∈ [st, inTx], ∀ i ∈ [Instr.tend (fld .none .none .none .none 0), .tabort (fld .none .none .none .none 0 0 7), .tstat (fld (.g 3) .none .none .none 0)],
      ∃ w, fieldsOf i = some w ∧ Runs i w s) ∧ st.me.tx = none ∧ inTx.me.tx.isSome = true ∧
    (let w := fld .none .none .none .none 0
     Runs (.tbegin w) w fetching ∧ fetching.me.tx = none ∧ ∃ s1, Does (checkTarget (targetB fetching.me.pc w.ext)) fetching () s1) ∧
    (let w := fld .none .none .none .none 0 0 5
     Runs (.tbegin w) w st ∧ pcFormOk (targetB st.me.pc w.ext) = false) := by
  refine ⟨fun s hs => ?_, by decide +kernel, by decide +kernel, ⟨runs_of (by decide +kernel), by decide +kernel, does_unit (by decide +kernel)⟩,
    runs_of (by decide +kernel), by decide +kernel⟩
  simp only [List.mem_cons, List.not_mem_nil, or_false] at hs
  rcases hs with rfl | rfl <;> exact runs_list (by decide +kernel)
/-- A command of unit 1's partition. -/
def cmd0 : Cmd :=
  { asid := 2049, chain := 0, seqWord := 0, seq := 1, engine := 32, stream := 0, op := 1, flags := 0, tag := 0, resv := 0
    src := 0, dst := 0, len := 0, aux := 0, aux2 := 0, record := 0, poison := false, cid := 2049, part := 1, unit := none, tid := 0
    after := 0, phase := .issued }
/-- A thread at TEND, with nothing written, and with a write to a range that a command has locked. -/
def committing (writes : Tbl TxWrite) (locks : List Lock) : State :=
  { stWith fun th => { th with wait := .commit, tx := some { beginMs := 0, source := 0, seq := 0, abortPc := 0x40, writes } } with
    cmds := [(1, { cmd0 with locks })] }
theorem witness_TransactionCommit :
    ((committing [] []).powered = true ∧ ((committing [] []).thr 0).wait = .commit ∧ ((committing [] []).thr 0).tx.isSome = true) ∧
    (let s := committing [(0, { va := 0x1000, phys := 0 })] [{ tag := 2049, lo := 0x1000, hi := 0x1020, full := false }]
     s.lockedBy (tagOf 0x1000 (s.thr 0).asid (s.thr 0).part) 0x1000 (0x1000 + 32) true = true) ∧ (st.thr 0).wait ≠ .commit := by
  decide +kernel

/-- A thread at TEND that has written one sector and read another with a value. -/
def validating (wva : Nat) (val : SectorLit) : State :=
  stWith fun th => { th with
    wait := .commit
    tx := some { beginMs := 0, source := 0, seq := 0, abortPc := 0x40, writes := [(0, { va := wva, phys := 0 })],
                 reads := [(0, { va := 0x07FF000000000080, phys := 0, val })] } }
def allOk (fs : List (Nat × Found)) : Bool := fs.all fun e => match e.2 with
  | .ok _ => true
  | _ => false
theorem ok_of {fs : List (Nat × Found)} (h : allOk fs = true) : ∀ e ∈ fs, ∃ p, e.2 = .ok p := by
  intro e he
  have := (List.all_eq_true.1 h) e he
  split at this
  · exact ⟨_, ‹_›⟩
  · simp at this
/-- A commit's places, written and read, and the state after both are asked for. -/
def asked (s : State) (x : Tx) : List (Nat × Found) × List (Nat × Found) × State :=
  let c : State := { s with cur := 0 }
  let f := c.places c.who .store none (lineSet (x.writes.vals.map TxWrite.va))
  let r := f.2.places f.2.who .load none (lineSet (x.reads.vals.map TxRead.va))
  (f.1, r.1, r.2)
theorem commits_of {s : State} {x : Tx} (h : (s.powered && decide ((s.thr 0).wait = .commit) && decide ((s.thr 0).tx = some x) &&
    (x.writes.vals.all fun r => !s.lockedBy (tagOf r.va (s.thr 0).asid (s.thr 0).part) r.va (r.va + 32) true) &&
    (x.reads.vals.all fun r => !s.lockedBy (tagOf r.va (s.thr 0).asid (s.thr 0).part) r.va (r.va + 32) false)) = true) :
    Commits s 0 x (asked s x).1 (asked s x).2.1 (asked s x).2.2 := by
  simp only [Bool.and_eq_true, decide_eq_true_eq, List.all_eq_true, Bool.not_eq_true'] at h
  obtain ⟨⟨⟨⟨h1, h2⟩, h3⟩, h4⟩, h5⟩ := h
  exact ⟨h1, h2, h3, h4, h5, _, rfl, rfl⟩
def valid (val : SectorLit) : State := validating 0x07FF000000000000 val
def txOf (s : State) : Tx := (s.thr 0).tx.getD { beginMs := 0, source := 0, seq := 0, abortPc := 0 }
/-- Every place found and the value unchanged; the value changed; and a line of no page. -/
theorem witness_TransactionCommit_found :
    (let s := valid { data := 0, side := 0, poison := false }
     let a := asked s (txOf s)
     Commits s 0 (txOf s) a.1 a.2.1 a.2.2 ∧ (∀ e ∈ a.1 ++ a.2.1, ∃ p, e.2 = .ok p) ∧
       (∀ r ∈ (txOf s).reads.vals, a.2.2.readHolds (okPlaces a.2.1) r = true) ∧ (a.2.2.part (a.2.2.thr 0).part).rdetEn = false) ∧
    (let s := valid { data := 1, side := 0, poison := false }
     let a := asked s (txOf s)
     Commits s 0 (txOf s) a.1 a.2.1 a.2.2 ∧ (∀ e ∈ a.1 ++ a.2.1, ∃ p, e.2 = .ok p) ∧
       ∃ r ∈ (txOf s).reads.vals, a.2.2.readHolds (okPlaces a.2.1) r = false) ∧
    (let s := validating 0x07FF0000F0000000 { data := 0, side := 0, poison := false }
     let a := asked s (txOf s)
     Commits s 0 (txOf s) a.1 a.2.1 a.2.2 ∧ ∃ e ∈ a.1 ++ a.2.1, e.2 = .denied ∨ ∃ r, e.2 = .absent r) :=
  ⟨⟨commits_of (by decide +kernel), ok_of (by decide +kernel), by decide +kernel, by decide +kernel⟩,
    ⟨commits_of (by decide +kernel), ok_of (by decide +kernel), by decide +kernel⟩,
    commits_of (by decide +kernel), (0x07FF0000F0000000, .denied), by decide +kernel, .inl rfl⟩

/-- R248: ST writes the low byte first. -/
theorem test_store :
    (let t := after (exec (.st wSt) (stWith fun th => { th with g := Tbl.put {} th.g 4 { val := 0x11223344 } }))
     t.mem.readN (carveBase + 0) 4 = 0x11223344 ∧ t.mem.byte carveBase = 0x44 ∧ t.me.pc = 1) := by decide +kernel
/-- R263: ATOM.min signed keeps the smaller, and D takes the old value. -/
theorem test_atom :
    (let s := { st with mem := st.mem.writeN carveBase 4 0xFFFFFFFE }
     let t := after (exec (.atom (fld (.g 3) (.g 8) (.g 4) .none 2 1)) s)
     t.mem.readN carveBase 4 = 0xFFFFFFFE ∧ t.gReg 3 = { val := 0xFFFFFFFE }) := by decide +kernel
/-- R255: TSET.def of a tile that is not EMPTY holds the thread or traps; of an EMPTY one it sets size and base. -/
theorem test_tsetDef :
    (let s := { tst with threads := [(0, { thr0 with g := [(4, { val := 1 }), (6, { val := 2 })] })] }
     let t := after (exec (.tsetDef (fld .none (.g 6) (.g 4) .none 0 0 2)) s)
     (Tbl.find? t.units 1).map (fun u => u.tile 2) = some 0x00010002) := by decide +kernel

/-! ### Witnesses: control, waits, convergence -/

/-- The Oryx thread at the placed line, with the line's address in the pair g4 and its slot 1, outside the mask, in the pair g6. -/
def target0 : State := fetching.modMe fun th => { th with g := [(4, { val := 0x03C00000 }), (6, { val := 0x03C00001 })] }
def w0 : Fields := fld .none .none .none .none 0
/-- Two live threads of one group, and no barrier. -/
def twoSt : State :=
  { st with
    threads := [(0, thr0), (8, thr0)]
    units := [(1, { unit0 with bars := [], groups := [(0, { group0 with n := 2, tids := [0, 8] })] })] }
theorem witness_TransferEffects :
    (∀ i ∈ [Instr.bra w0, .brx (fld .none (.g 4) .none .none 0), .ret (fld .none (.g 4) .none .none 0), .call (fld (.g 8) .none .none .none 0),
        .trap { w0 with ext := 9 }, .bkpt { w0 with ext := 9 }, .exit w0], ∃ w, fieldsOf i = some w ∧ Runs i w target0) ∧
    (target0.pair 4).poison = false ∧ (∃ s1, Does (checkTarget (targetB target0.me.pc 0)) target0 () s1) ∧
    (∃ s1, Does (checkTarget (BitVec.ofNat 64 (target0.pair 4).raw)) target0 () s1) ∧
    pcFormOk 5 = false ∧ pcFormOk (2 ^ 60) = false ∧
    (pcFormOk 0x03C00001 = true ∧ ∃ secs s1, target0.fetch target0.cur (lineOf 0x03C00001) = (.line secs, s1) ∧
      secs.any SectorLit.poison = false ∧ (lineWord secs).getLsbD (19 + 0) = true ∧ (lineWord secs).getLsbD (19 + 1) = false) ∧
    (target0.me.tx = none ∧ isService target0.cur = true) ∧
    (Runs (.exit w0) w0 twoSt ∧ twoSt.me.tx = none ∧ isService twoSt.cur = false ∧
      (∃ u g, Tbl.find? twoSt.units twoSt.me.unit = some u ∧ u.group twoSt.me.group = some g ∧ u.bars = [] ∧ 8 ∈ g.tids) ∧
      twoSt.cvs = [] ∧ twoSt.pairs = [] ∧ (8 : Nat) ≠ twoSt.cur ∧ (twoSt.thr 8).live = true) :=
  ⟨runs_list (by decide +kernel), by decide +kernel, does_unit (by decide +kernel), does_unit (by decide +kernel), by decide +kernel,
    by decide +kernel, ⟨by decide +kernel, _, _, rfl, by decide +kernel, by decide +kernel, by decide +kernel⟩, by decide +kernel,
    runs_of (by decide +kernel), by decide +kernel, by decide +kernel, ⟨_, _, rfl, rfl, rfl, by decide +kernel⟩, rfl, rfl, by decide +kernel,
    by decide +kernel⟩

/-- The same two threads with a convergence register, a barrier, a pair, and the second thread waiting. -/
def leaving (cvs : Tbl CvReg) (bars : Tbl Barrier) (wait : Wait) : State :=
  { twoSt with
    threads := [(0, thr0), (8, { thr0 with wait })], cvs
    units := [(1, { unit0 with bars, groups := [(0, { group0 with n := 2, tids := [0, 8] })] })] }
/-- EXIT of one of two threads: bits of a register cleared, its round completed, and a barrier recounted without and with its
completion. -/
theorem witness_TransferEffects_exit :
    (let s := leaving [(0, { decl := 3, declared := true, unit := 1 })] [] .ready
     Runs (.exit w0) w0 s ∧ ∃ u g, Tbl.find? s.units s.me.unit = some u ∧ u.group s.me.group = some g ∧ u.bars = [] ∧ s.pairs = [] ∧ 8 ∈ g.tids ∧
       (s.thr 8).live = true ∧ ∀ n, n < 16 → (let r := s.cv (cvKey s.cur n)
         (r.declared && r.unit == s.me.unit && r.cgn == BitVec.ofNat 10 g.cgn && r.decl.getLsbD 0) = decide (n = 0) ∧
         ({ r with decl := setBit r.decl 0 false } : CvReg).complete = false)) ∧
    (let s := leaving [(0, { decl := 3, signed := 2, declared := true, unit := 1, instr := some (.cvsign (fld .none .none .none (.cv 0) 0)) })] [] (.signed 0)
     Runs (.exit w0) w0 s ∧ ∃ u g, Tbl.find? s.units s.me.unit = some u ∧ u.group s.me.group = some g ∧ u.bars = [] ∧ s.pairs = [] ∧ 8 ∈ g.tids ∧
       (s.thr 8).live = true ∧ (let r := s.cv (cvKey s.cur 0)
       let issued := ((s.modMe fun th => { th with wait := .exited }).setCv (cvKey s.cur 0) { r with decl := setBit r.decl 0 false }).tryIssue (cvKey s.cur 0)
       ({ r with decl := setBit r.decl 0 false } : CvReg).complete = true ∧ setBit r.decl 0 false ≠ 0 ∧ (issued.thr 8).wait = .ready ∧ issued.pairs = [])) ∧
    (∀ b ∈ [({ target := 2, live := true, count := 1 } : Barrier), { target := 2, live := false, count := 1 }, {}],
      (let s := leaving [] [(0, b)] (.barrier 0)
       Runs (.exit w0) w0 s ∧ ∃ u g, Tbl.find? s.units s.me.unit = some u ∧ u.group s.me.group = some g ∧ u.bars = [(0, b)] ∧ s.cvs = [] ∧ s.pairs = [] ∧
         8 ∈ g.tids ∧ (s.thr 8).live = true ∧ (s.thr 8).wait = .barrier 0 ∧ (s.thr 8).unit = s.me.unit ∧
         (s.modMe fun th => { th with wait := .exited }).unitLive u = 1)) := by
  refine ⟨⟨runs_of (by decide +kernel), _, _, rfl, rfl, rfl, rfl, by decide +kernel, by decide +kernel, by decide +kernel⟩,
    ⟨runs_of (by decide +kernel), _, _, rfl, rfl, rfl, rfl, by decide +kernel, by decide +kernel, by decide +kernel⟩, fun b hb => ?_⟩
  simp only [List.mem_cons, List.not_mem_nil, or_false] at hb
  rcases hb with rfl | rfl | rfl <;>
    exact ⟨runs_of (by decide +kernel), _, _, rfl, rfl, rfl, rfl, rfl, by decide +kernel, by decide +kernel, by decide +kernel, by decide +kernel, by decide +kernel⟩
/-- The last thread of a group of two, of which one forms a pair with the other, and the last of a unit of a plain launch and of a
collective one. -/
def lastOf (pairs : List Pair) (l : Launch) (groups : Tbl Group) : State :=
  { st with
    threads := [(0, thr0), (8, { thr0 with group := 1, wait := .token })], pairs, launches := [(2049, l)]
    units := [(1, { unit0 with bars := [], groups })] }
def plainLaunch : Launch := { part := 1, asid := 2049, r := {}, order := 0, acceptMs := 0 }
theorem witness_TransferEffects_last :
    (∀ pairs ∈ [[], [({ core := 0, quad := 0, unit := 1, a := 0, b := 1, holder := 0 } : Pair)]],
      (let s := lastOf pairs plainLaunch [(0, group0), (1, { group0 with tids := [8] })]
       Runs (.exit w0) w0 s ∧ ∃ u g g', Tbl.find? s.units s.me.unit = some u ∧ u.group s.me.group = some g ∧ s.cvs = [] ∧ u.bars = [] ∧
         (∀ o ∈ g.tids, o ≠ s.cur → (s.thr o).live = false) ∧ 1 ≠ s.me.group ∧ u.group 1 = some g' ∧
         (List.find? (fun (p : Pair) => p.has u.core g.quad s.me.unit s.me.group) s.pairs).isSome = !pairs.isEmpty ∧
         (s.thr 8).wait = .token ∧ (s.thr 8).group = 1)) ∧
    (∀ l ∈ [plainLaunch, { plainLaunch with r := { coll := true, nchunk := 1, gx := 1, gy := 1, gz := 1 } }],
      (let s := lastOf [] l [(0, group0)]
       Runs (.exit w0) w0 s ∧ ∃ u g, Tbl.find? s.units s.me.unit = some u ∧ u.groups = [(s.me.group, g)] ∧ s.cvs = [] ∧ u.bars = [] ∧
         (∀ o ∈ g.tids, o ≠ s.cur → (s.thr o).live = false) ∧ Tbl.find? s.launches u.cid = some l ∧
         (l.r.coll && !u.reduce && !l.complete && !l.collfail && !l.r.mismatch) = l.r.coll)) := by
  refine ⟨fun pairs h => ?_, fun l h => ?_⟩ <;> simp only [List.mem_cons, List.not_mem_nil, or_false] at h
  · rcases h with rfl | rfl <;>
      exact ⟨runs_of (by decide +kernel), _, _, _, rfl, rfl, rfl, rfl, by decide +kernel, by decide +kernel, rfl, by decide +kernel, by decide +kernel,
        by decide +kernel⟩
  · rcases h with rfl | rfl <;>
      exact ⟨runs_of (by decide +kernel), _, _, rfl, rfl, rfl, rfl, by decide +kernel, rfl, by decide +kernel⟩

/-- A compute thread at handler level in partition 0, whose tables hold the placed line; and one whose quadrants are full. -/
def spawning (pc : Dword) : State :=
  { absentSt with threads := [(0, { absentSt.me with level := 1, pc })], parts := fetching.parts }
def wSpawn (n : BitVec 5) : Fields := fld (.p 1) (.g 10) .none .none 0 n
theorem witness_SpawnEffects :
    Runs (.spawn (wSpawn 0)) (wSpawn 0) (spawning 0x03C00000) ∧ (spawning 0x03C00000).me.tx = none ∧
      (∃ s1, Does (checkTarget (targetB (spawning 0x03C00000).me.pc 0)) (spawning 0x03C00000) () s1 ∧
        (∃ s2, s1.spawn 10 1 (targetB (spawning 0x03C00000).me.pc 0) = some s2)) ∧
      (∃ u, (spawning 0x03C00000).myUnit = some u ∧ tidCore (spawning 0x03C00000).cur = u.core ∧
        (spawning 0x03C00000).spawnSlots u.core (tidQuad (spawning 0x03C00000).cur) 32 u.res.gregs u.res.vregs ≠ none) ∧
      ((spawning 0x03C00000).spawn 10 32 0x40).isSome = true ∧
    (let s := { spawning 0x03C00000 with units := [] }
     s.spawn 10 1 (targetB s.me.pc 0) = none) :=
  ⟨runs_of (by decide +kernel), by decide +kernel, ⟨_, rfl, _, rfl⟩, ⟨_, rfl, rfl, by decide +kernel⟩,
    by decide +kernel, rfl⟩
/-- The kernel thread with a live launch's identifier in the pair g4, and none's in g6; and a user thread of the service die. -/
def cancelling : State := ker.modMe fun th => { th with g := [(4, { val := 2049 }), (6, { val := 2050 })] }
theorem witness_CancelEffects :
    (∀ i ∈ [Instr.cancel (fld (.g 2) (.g 4) .none .none 0 1), .cancel (fld (.g 2) (.g 6) .none .none 0 1)], ∃ w, fieldsOf i = some w ∧ Runs i w cancelling) ∧
    (isService cancelling.cur = true ∧ 1 ≤ cancelling.me.level ∧ cancelling.me.tx = none ∧ (cancelling.pair 4).poison = false ∧
      (cancelling.pair 4).raw = 2049) ∧
    (∃ l, Tbl.find? cancelling.launches 2049 = some l ∧ l.part = cancelling.me.part ∧ l.complete = false) ∧
    Tbl.find? cancelling.launches ((cancelling.pair 6).raw % 65536) = none ∧
    (let s := cancelling.modMe fun th => { th with level := 0 }
     Runs (.cancel (fld (.g 2) (.g 4) .none .none 0 1)) (fld (.g 2) (.g 4) .none .none 0 1) s ∧ s.me.level = 0) ∧
    (Runs (.cancel { w0 with sub := 1 }) { w0 with sub := 1 } st ∧ ∃ l, Tbl.find? st.launches st.me.cid = some l) :=
  ⟨runs_list (by decide +kernel), by decide +kernel, ⟨_, rfl, by decide +kernel, by decide +kernel⟩, by decide +kernel,
    ⟨runs_of (by decide +kernel), by decide +kernel⟩, runs_of (by decide +kernel), _, rfl⟩
/-- A launch record in memory, and queue 0 of the partition: absent, disabled, full, and with room. -/
def launching (q : Queue) : State := { st with queues := [(0, q)] }
def wLaunch : Fields := fld (.g 3) (.g 8) (.g 6) .none 0
def ring0 : Queue := { en := true, base := 0x07FF000000001000 }
theorem witness_LaunchEffects :
    (∀ q ∈ [({} : Queue), { ring0 with tail := 16 }, ring0], Runs (.launch wLaunch) wLaunch (launching q) ∧ (launching q).physQueue 1 0 = some 0) ∧
    (formM wLaunch st).poison = false ∧ (formM wLaunch st).raw % 256 = 0 ∧ Src 3 (.g 6) 6 0 st { raw := 0, poison := false } st ∧
    st.physQueue 1 1 = none ∧ (∃ pr src s1, Does (loadWithin 2 (formM wLaunch (launching ring0)).raw 256) (launching ring0) (pr, src) s1 ∧
      s1.physQueue s1.me.part 0 = some 0 ∧ (s1.queue 0) = ring0 ∧ ∃ ps s2, Does (storeChecks { s1.who with asid := 2048 } 0 0x07FF000000001000 256 false true) s1 ps s2 ∧
        ∃ s3, Does (storeClaim { s1.who with asid := 2048 } 0x07FF000000001000 256 true ps) s2 () s3) ∧
    2 ^ ring0.size ≤ ((16 : Word) - 0).toNat := by
  refine ⟨fun q hq => ?_, by decide +kernel, by decide +kernel, rfl, by decide +kernel, ?_, by decide +kernel⟩
  case refine_2 =>
    obtain ⟨⟨pr, src⟩, s1, h, hp⟩ := does_that (m := loadWithin 2 (formM wLaunch (launching ring0)).raw 256) (s := launching ring0)
      (p := fun _ s1 => decide (s1.physQueue s1.me.part 0 = some 0 ∧ s1.queue 0 = ring0) && isOkP (storeChecks { s1.who with asid := 2048 } 0 0x07FF000000001000 256 false true) s1 fun ps s2 =>
        isOk (storeClaim { s1.who with asid := 2048 } 0x07FF000000001000 256 true ps) s2) (by decide +kernel)
    obtain ⟨hq, hp⟩ := Bool.and_eq_true_iff.1 hp
    obtain ⟨ps, s2, h2, h3⟩ := does_that hp
    exact ⟨pr, src, s1, h, (of_decide_eq_true hq).1, (of_decide_eq_true hq).2, ps, s2, h2, does_unit h3⟩
  simp only [List.mem_cons, List.not_mem_nil, or_false] at hq
  rcases hq with rfl | rfl | rfl <;> exact ⟨runs_of (by decide +kernel), by decide +kernel⟩

def wCnt : Fields := fld .none (.g 8) (.g 6) .none 0
/-- The word of memory equals the bound 0; and exceeds it. -/
def counting : State := { st with mem := st.mem.writeN carveBase 8 3 }
theorem witness_CntwaitEffects :
    (∀ s ∈ [st, counting], Runs (.cntwait wCnt) wCnt s ∧ (formM wCnt s).raw = 0x07FF000000000000 ∧ Does (readPair wCnt.b) s { raw := 0, poison := false } s ∧ s.me.eaten = false ∧
      (s.translate s.who 0x07FF000000000000).1 = .denied ∧
      ∃ p s1, Direct s 0x07FF000000000000 8 .load p s1 ∧ noL1 s1 p ∧ s1.mem.pois p.phys = false ∧ p.phys % 128 = 0) ∧
    st.mem.readN carveBase 8 = 0 ∧ counting.mem.readN carveBase 8 = 3 := by
  refine ⟨fun s hs => ?_, by decide +kernel, by decide +kernel⟩
  simp only [List.mem_cons, List.not_mem_nil, or_false] at hs
  rcases hs with rfl | rfl <;>
    exact ⟨runs_of (by decide +kernel), by decide +kernel, rfl, by decide +kernel, rfl, _, _,
      ⟨by decide +kernel, by decide +kernel, by decide +kernel, by decide +kernel, by decide +kernel, by decide +kernel,
        by decide +kernel, by decide +kernel, rfl, rfl⟩, rfl, by decide +kernel, by decide +kernel⟩
/-- A thread that waits for a word to be at most a bound, which it is, and is not. -/
def awaiting (bound : Dword) : State :=
  { counting with
    threads := [(0, { thr0 with wait := .counter })], waiters := [{ tid := 0, phys := carveBase, bound, atLeast := false }] }
theorem witness_WaitEffects_words :
    ∀ b ∈ [((3 : Dword), true), (2, false)], ∃ x ∈ (awaiting b.1).waiters, (∀ y ∈ (awaiting b.1).waiters, y.tid = x.tid → y = x) ∧
      ((awaiting b.1).thr x.tid).wait = .counter ∧ ((awaiting b.1).performWrites 3 [] []).mem.pois x.phys = false ∧
      x.met ((awaiting b.1).performWrites 3 [] []).mem = b.2 := by
  intro b hb
  simp only [List.mem_cons, List.not_mem_nil, or_false] at hb
  rcases hb with rfl | rfl <;>
    exact ⟨_, List.mem_singleton_self _, fun y hy _ => List.mem_singleton.1 hy, by decide +kernel, by decide +kernel, by decide +kernel⟩
/-- A barrier at which another thread waits: the thread's arrival reaches the target. -/
theorem witness_WaitEffects_release :
    (let s := leaving [] [(0, { target := 2, count := 1 })] (.barrier 0)
     Runs (.bar (fld .none (.g 4) .none .none 0)) (fld .none (.g 4) .none .none 0) s ∧ s.me.tx = none ∧ isService s.cur = false ∧ s.me.wait = .ready ∧
       Src 2 (.g 4) 6 0 s { raw := 5, poison := false } s ∧
       (∃ u, Tbl.find? s.units s.me.unit = some u ∧ 0 < u.res.bars ∧ (u.bars.get {} 0).count = 1 ∧ (u.bars.get {} 0).target = 2) ∧
       isService 8 = false ∧ (8 : Nat) ≠ s.cur ∧ (s.thr 8).unit = s.me.unit ∧ (s.thr 8).wait = .barrier 0) :=
  ⟨runs_of (by decide +kernel), by decide +kernel, by decide +kernel, by decide +kernel, rfl, ⟨_, rfl, by decide +kernel, by decide +kernel, by decide +kernel⟩,
    by decide +kernel, by decide +kernel, by decide +kernel, by decide +kernel⟩
/-- A pair of groups 0 and 1 of the unit, of which the thread's holds the token. -/
def paired : State := { st with pairs := [{ core := 0, quad := 0, unit := 1, a := 0, b := 1, holder := 0 }] }
theorem witness_WaitEffects :
    (∀ i ∈ [Instr.bar (fld .none .zero .none .none 0), .bar (fld .none (.g 4) .none .none 0), .bar (fld .none (.g 4) .none .none 0 1),
        .rowpass (fld .none .imm .none .none 0 0 1), .rowwait (fld .none .imm .none .none 0 0 1), .sleep (fld .none .zero .none .none 0),
        .sleep (fld .none (.g 4) .none .none 0), .yield w0], ∃ w, fieldsOf i = some w ∧ Runs i w st) ∧
    (st.me.tx = none ∧ isService st.cur = false ∧ st.me.wait = .ready ∧ (∃ u, Tbl.find? st.units st.me.unit = some u ∧ 0 < u.res.bars ∧
      u.bars.get {} 0 = {} ∧ st.unitLive u = 1)) ∧
    Src 2 (.g 4) 6 0 st { raw := 5, poison := false } st ∧ Src 2 .zero 6 0 st { raw := 0, poison := false } st ∧
    Src 2 .imm 6 1 st { raw := 1, poison := false } st ∧ (∃ s1, Does (partner 1) st none s1) ∧
    (Runs (.rowpass (fld .none .imm .none .none 0 0 1)) (fld .none .imm .none .none 0 0 1) paired ∧
      Runs (.rowwait (fld .none .imm .none .none 0 0 1)) (fld .none .imm .none .none 0 0 1) paired ∧
      ∃ p s1, Does (partner 1) paired (some p) s1 ∧ p.holder = s1.me.group ∧ s1.me.passed = false) ∧
    (let s := stWith fun th => { th with wait := .sleep 7 }
     s.powered = true ∧ (s.thr 0).wait = .sleep 7 ∧ s.counts 0 = true) ∧
    ({ st with units := [(1, { unit0 with stopping := some .slice })] } : State).counts 0 = false :=
  ⟨runs_list (by decide +kernel), ⟨by decide +kernel, by decide +kernel, by decide +kernel, _, rfl, by decide +kernel, by decide +kernel, by decide +kernel⟩,
    rfl, rfl, rfl, ⟨_, rfl⟩, ⟨runs_of (by decide +kernel), runs_of (by decide +kernel), _, _, rfl, rfl, rfl⟩, by decide +kernel, by decide +kernel⟩

/-- Register cv0 declared for one lane, for two, and for two of which the other has signed. -/
def declared (decl signed : BitVec 32) : State :=
  { tst with cvs := [(0, { decl, signed, declared := true, unit := 1, instr := if signed = 0 then none else some (.cvsign (fld .none .none .none (.cv 0) 0)) })] }
def wMma : Fields := fld (.acc 0) (.v 0) .zero (.cv 0) 8
def wSoft : Fields := fld (.acc 1) (.acc 0) .none (.cv 0) 8
theorem witness_ConvergenceEffects :
    (Runs (.cvdecl (fld .none .imm .none (.cv 0) 0 0 1)) (fld .none .imm .none (.cv 0) 0 0 1) st ∧ st.me.tx = none ∧
      Src 2 .imm 6 1 st { raw := 1, poison := false } st ∧ (∃ u g, st.myGroup = some (u, g) ∧ 1 % 2 ^ 32 / 2 ^ g.n = 0) ∧
      (st.cv (cvKey st.cur 0)).declared = false) ∧
    (∀ s ∈ [declared 1 0, declared 3 0, declared 3 2], (∀ i ∈ [Instr.cvsign (fld .none .none .none (.cv 0) 0), .lxch (fld (.g 3) (.g 4) .zero (.cv 0) 6),
        .vote (fld (.p 3) (.p 1) .none (.cv 0) 0), .mma wMma, .softstep wSoft], ∃ w, fieldsOf i = some w ∧ Runs i w s) ∧
      (∃ u g, s.myGroup = some (u, g) ∧ (u.group s.me.group).isSome = true ∧ g.acc.length = 2 ∧ tileState (u.tile 0) = tileREADY)) ∧
    (∀ i ∈ [Instr.cvsign (fld .none .none .none (.cv 0) 0), .lxch (fld (.g 3) (.g 4) .zero (.cv 0) 6), .vote (fld (.p 3) (.p 1) .none (.cv 0) 0)],
      ∃ s2, issueOf 0 { decl := 1, signed := 1, declared := true, unit := 1, instr := some i } 0 group0 [0] (declared 1 0) = .done s2) ∧
    List.Pairwise (fun a b => tidLane a ≠ tidLane b) [0, 8] ∧ [0, 8].Nodup := by
  refine ⟨⟨runs_of (by decide +kernel), by decide +kernel, rfl, ⟨_, _, rfl, by decide +kernel⟩, by decide +kernel⟩, fun s hs => ?_, fun i hi => ?_, by decide +kernel, by decide +kernel⟩
  · simp only [List.mem_cons, List.not_mem_nil, or_false] at hs
    rcases hs with rfl | rfl | rfl <;> exact ⟨runs_list (by decide +kernel), _, _, rfl, by decide +kernel, by decide +kernel, by decide +kernel⟩
  · simp only [List.mem_cons, List.not_mem_nil, or_false] at hi
    rcases hi with rfl | rfl | rfl <;> exact ⟨_, rfl⟩

/-- CVDECL of a register declared for another mask of the same group, for the same one, for another group, and while signed; a
mask with a lane the group never had, and one without a live lane. -/
theorem witness_ConvergenceEffects_declare :
    (∀ x ∈ [(1, ({ decl := 3, declared := true, unit := 1 } : CvReg)), (1, { decl := 1, declared := true, unit := 1 }),
        (1, { decl := 1, declared := true, unit := 1, cgn := 5 }), (1, { decl := 3, signed := 2, declared := true, unit := 1 }), (4, {}), (0, {})],
      let s := { st with cvs := [(0, x.2)] }
      let w := fld .none .imm .none (.cv 0) 0 0 (BitVec.ofNat 32 x.1)
      Runs (.cvdecl w) w s ∧ s.me.tx = none ∧ Src 2 .imm 6 w.ext s { raw := x.1, poison := false } s ∧ (∃ u g, s.myGroup = some (u, g) ∧ g.n = 1) ∧
        s.cv (cvKey s.cur 0) = x.2) := by
  intro x hx
  simp only [List.mem_cons, List.not_mem_nil, or_false] at hx
  rcases hx with rfl | rfl | rfl | rfl | rfl | rfl <;>
    exact ⟨runs_of (by decide +kernel), by decide +kernel, rfl, ⟨_, _, rfl, by decide +kernel⟩, by decide +kernel⟩
/-- Signatures that trap: an undeclared register, one of another group, a lane outside DECL, a second one, and another PC. -/
theorem witness_ConvergenceEffects_refuse :
    ∀ r ∈ [({} : CvReg), { decl := 1, declared := true, unit := 1, cgn := 5 }, { decl := 2, declared := true, unit := 1 },
        { decl := 3, signed := 1, declared := true, unit := 1 }, { decl := 3, signed := 2, declared := true, unit := 1, pc := 0x40 }],
      let s := { tst with cvs := [(0, r)] }
      (∃ w, fieldsOf (.cvsign (fld .none .none .none (.cv 0) 0)) = some w ∧ Runs (.cvsign (fld .none .none .none (.cv 0) 0)) w s) ∧
        s.cv (cvKey s.cur 0) = r ∧ s.me.pc = 0 := by
  intro r hr
  simp only [List.mem_cons, List.not_mem_nil, or_false] at hr
  rcases hr with rfl | rfl | rfl | rfl | rfl <;>
    exact ⟨⟨_, rfl, runs_of (by decide +kernel)⟩, by decide +kernel, by decide +kernel⟩
/-- A round of one lane issues: nothing holds its tile, no earlier round waits. -/
theorem witness_ConvergenceEffects_round :
    let s := declared 1 0
    let i : Instr := .cvsign (fld .none .none .none (.cv 0) 0)
    let r2 : CvReg := { (s.cv 0) with signed := 1, op := cvOp i, pc := s.me.pc, instr := some i, claim := s.nextTurn + 1 }
    let s1 := (({ s with nextTurn := s.nextTurn + 1 } : State).setCv 0 r2).modMe fun th => { th with wait := .signed 0 }
    ∃ u g gn' g' s3, s.myGroup = some (u, g) ∧ u.stopping = none ∧
      List.find? (fun (e : Nat × Group) => BitVec.ofNat 10 e.2.cgn == (s.cv 0).cgn) u.groups = some (gn', g') ∧
      s1.tileAwaited u r2 ((g'.tids.filter fun t => (s.cv 0).decl.getLsbD (tidLane t)).headD 0) = false ∧
      (s1.takeTurn 0 r2).2.roundBefore 0 (s1.takeTurn 0 r2).1 = false ∧
      issueOf (0 % 16) (s1.takeTurn 0 r2).1 gn' g' (g'.tids.filter fun t => (s.cv 0).decl.getLsbD (tidLane t)) (s1.takeTurn 0 r2).2 = .done s3 :=
  ⟨_, _, _, _, _, rfl, rfl, rfl, by decide +kernel, by decide +kernel, rfl⟩

/-- R236: the only thread of a unit exits: the unit is gone. -/
theorem test_exit : Tbl.find? (after (exec (.exit w0) st)).units 1 = none := by decide +kernel
/-- R232: VOTE.ballot of one lane whose p1 is set. -/
theorem test_vote :
    (let s := { declared 1 0 with threads := [(0, { thr0 with p := 2 })] }
     (after (exec (.vote (fld (.g 3) (.p 1) .none (.cv 0) 0 2)) s)).gReg 3 = { val := 1 }) := by decide +kernel

/-! ### Witnesses: matrix and softmax -/

/-- Tile 0 READY at the unit's region, which holds 4 units of 4 KiB; tile 2 READY too, for folds. -/
def rowSt : State := { st with units := [(1, { unit0 with tiles := [(0, mkTile 2 1 0), (2, mkTile 2 1 1)] })] }
theorem witness_RowEffects :
    (∀ i ∈ [Instr.aclr (fld (.acc 0) .none .none .none 1), .aload (fld (.acc 0) .zero .none .none 1), .aload (fld (.acc 0) (.g 8) .none .none 1 3),
        .arescale (fld (.acc 0) (.g 4) .none .none 1), .smerge (fld (.acc 0) (.acc 1) .none .none 1), .anorm (fld (.acc 0) .none .none .none 1),
        .arow (fld (.g 4) (.acc 0) .none .none 1), .arow (fld (.g 3) (.acc 0) .none .none 1 3), .astat (fld (.g 3) .none .none .none 1),
        .astat (fld (.g 3) .none .none .none 1 1)], ∃ w, fieldsOf i = some w ∧ Runs i w rowSt) ∧
    rowSt.me.tx = none ∧ Does (useAcc 0) rowSt 0 rowSt ∧ Does (useAcc 1) rowSt 1 rowSt ∧ Does (tileReady 0) rowSt () rowSt ∧
    (∃ x s1, Does (loadSpan (fld (.acc 0) .zero .none .none 1) 2 .zero 32) rowSt x s1) ∧
    (∃ x s1, Does (loadSpan (fld (.acc 0) (.g 8) .none .none 1 3) 2 (.g 8) 34) rowSt x s1) ∧
    (∃ u g, rowSt.myUnit = some u ∧ u.group rowSt.me.group = some g ∧ g.acc[1]? = some 1) ∧
    (rowSt.quadOf 0).mma = none ∧ (rowSt.quadOf 0).soft = none :=
  ⟨runs_list (by decide +kernel), by decide +kernel, rfl, rfl, rfl, does_of (by decide +kernel), does_of (by decide +kernel),
    ⟨_, _, rfl, rfl, by decide +kernel⟩, by decide +kernel, by decide +kernel⟩
/-- ADRAIN to a tile, without and with each fold, and to memory. -/
theorem witness_DrainEffect :
    (∀ i ∈ [Instr.adrain (fld .none (.acc 0) .zero .none 1), .adrain (fld .none (.acc 0) .zero .zero 1 4 0x200),
        .adrain (fld .none (.acc 0) (.g 8) .none 1 1), .adrain (fld .none (.acc 0) .zero (.g 8) 1 8), .adrain { fld .none (.acc 0) .zero .none 8 2 with rm := 4 }],
      ∃ w, fieldsOf i = some w ∧ Runs i w rowSt) ∧
    rowSt.me.tx = none ∧ Does (useAcc 0) rowSt 0 rowSt ∧ Does (tileReady 0) rowSt () rowSt ∧ Does (tileReady 2) rowSt () rowSt ∧
    Does (tileOffset 3 .zero) rowSt 0 rowSt ∧ Src 4 .zero 6 0 rowSt { raw := 0, poison := false } rowSt ∧
    (∃ x s1, Does (tileSectors 3 0 ((List.range 32).map fun i => rowSt.spanAt 0 32 + 32 * i) false true) rowSt x s1) ∧
    (∃ a s1, Does (foldUnitAt 4 2 0) rowSt a s1) ∧
    ((rowSt.pair 8).poison = false ∧ (rowSt.pair 8).raw % 32 = 0 ∧
      let va := rowSt.spanAt (rowSt.pair 8).raw 32 % 2 ^ 64
      ∃ ps s1, Does (storeChecks rowSt.who 3 va (32 * 32) true true) rowSt ps s1 ∧ (!ps.isEmpty && ps.all fun e => e.2.isSome) = true ∧
        ∃ s2, Does (storeClaim rowSt.who va (32 * 32) true ps) (s1.pastLeases s1.src (leaseLines (foundOf ps))) () s2) :=
  ⟨runs_list (by decide +kernel), by decide +kernel, rfl, rfl, rfl, rfl, rfl, does_of (by decide +kernel), does_of (by decide +kernel),
    ⟨by decide +kernel, by decide +kernel, by
      obtain ⟨ps, s1, h1, hp⟩ := does_that (m := storeChecks rowSt.who 3 (rowSt.spanAt (rowSt.pair 8).raw 32 % 2 ^ 64) (32 * 32) true true)
        (s := rowSt) (p := fun ps s1 => (!ps.isEmpty && ps.all fun e => e.2.isSome) &&
          isOk (storeClaim rowSt.who (rowSt.spanAt (rowSt.pair 8).raw 32 % 2 ^ 64) (32 * 32) true ps)
            (s1.pastLeases s1.src (leaseLines (foundOf ps)))) (by decide +kernel)
      obtain ⟨hp, h2⟩ := Bool.and_eq_true_iff.1 hp
      exact ⟨ps, s1, h1, hp, does_unit h2⟩⟩⟩

/-- ADRAIN to a tile with a fold to memory, and to memory with each fold. -/
theorem witness_DrainFolds :
    (∀ i ∈ [Instr.adrain (fld .none (.acc 0) (.g 8) .zero 1 5 0x200), .adrain (fld .none (.acc 0) (.g 8) (.g 8) 1 9)],
      ∃ w, fieldsOf i = some w ∧ Runs i w rowSt) ∧ (rowSt.pair 8).raw % 4 = 0 ∧
    (∃ q s1, Does (foldPkgPlaces 4 (rowSt.pair 8).raw) rowSt q s1 ∧ (foundOf q).isEmpty = false ∧
      ∃ s2, Does (storeClaim rowSt.who (rowSt.pair 8).raw 4 false q) (s1.pastLeases s1.src []) () s2) ∧
    (let va := rowSt.spanAt (rowSt.pair 8).raw 32 % 2 ^ 64
     let vc := (rowSt.pair 8).raw
     Does (checkRange 4 vc 4) rowSt () rowSt ∧ Does (checkLocks 4 vc 4 true) rowSt () rowSt ∧
       ∃ ps s1, Does (storeChecks rowSt.who 3 va (32 * 32) true false) rowSt ps s1 ∧ (!ps.isEmpty && ps.all fun e => e.2.isSome) = true ∧
         ∃ q s2, Does (foldPkgPlaces 4 vc) s1 q s2 ∧ (foundOf q).isEmpty = false ∧
           Does (raceTrap (tagOf va rowSt.me.asid rowSt.me.part) (presentSecs ps va (32 * 32))) s2 () s2 ∧
           ∃ s3, Does (storeClaim rowSt.who va (32 * 32) true ps) (s2.pastLeases s2.src (leaseLines (foundOf ps))) () s3 ∧ ∃ s4, Does (storeClaim rowSt.who vc 4 false q) s3 () s4) := by
  refine ⟨runs_list (by decide +kernel), by decide +kernel, ?_, does_same (by decide +kernel), does_same (by decide +kernel), ?_⟩
  · obtain ⟨q, s1, h, hp⟩ := does_that (m := foldPkgPlaces 4 (rowSt.pair 8).raw) (s := rowSt)
      (p := fun q s1 => !(foundOf q).isEmpty && isOk (storeClaim rowSt.who (rowSt.pair 8).raw 4 false q) (s1.pastLeases s1.src [])) (by decide +kernel)
    simp only [Bool.and_eq_true, Bool.not_eq_true'] at hp
    exact ⟨q, s1, h, hp.1, does_unit hp.2⟩
  · obtain ⟨ps, s1, h1, hp⟩ := does_that (m := storeChecks rowSt.who 3 (rowSt.spanAt (rowSt.pair 8).raw 32 % 2 ^ 64) (32 * 32) true false)
      (s := rowSt) (p := fun ps s1 => (!ps.isEmpty && ps.all fun e => e.2.isSome) &&
        isOkP (foldPkgPlaces 4 (rowSt.pair 8).raw) s1 fun q s2 => !(foundOf q).isEmpty &&
          (isOkSame (raceTrap (tagOf (rowSt.spanAt (rowSt.pair 8).raw 32 % 2 ^ 64) rowSt.me.asid rowSt.me.part)
            (presentSecs ps (rowSt.spanAt (rowSt.pair 8).raw 32 % 2 ^ 64) (32 * 32))) s2 &&
          isOkP (storeClaim rowSt.who (rowSt.spanAt (rowSt.pair 8).raw 32 % 2 ^ 64) (32 * 32) true ps) (s2.pastLeases s2.src (leaseLines (foundOf ps))) fun _ s3 =>
            isOk (storeClaim rowSt.who (rowSt.pair 8).raw 4 false q) s3)) (by decide +kernel)
    rw [Bool.and_eq_true] at hp
    obtain ⟨q, s2, h2, hq⟩ := does_that hp.2
    rw [Bool.and_eq_true, Bool.and_eq_true, Bool.not_eq_true'] at hq
    obtain ⟨_, s3, h3, h4⟩ := does_that hq.2.2
    exact ⟨ps, s1, h1, hp.1, q, s2, h2, hq.1, does_same hq.2.1, s3, h3, does_unit h4⟩

/-- A full group: 32 threads, one in each lane, v0 to v7 tagged MXFP8; tile 0 READY with 16 KiB; window 0 at the carve-out. -/
def lanes : List Tid := (List.range 32).map fun i => 8 * i
def fullGroup : Group := { cgn := 0, quad := 0, n := 32, tids := lanes, acc := [0, 1] }
def fullSt : State :=
  { st with
    threads := lanes.map fun t => (t, { thr0 with g := [(12, { val := 0xFFF00000 })], v := (List.range 8).map fun i => (i, { tag := 8 }) })
    units := [(1, { unit0 with groups := [(0, fullGroup)], res := { unit0.res with threads := 32 }, tiles := [(0, mkTile 2 4 0)] })] }
def fullCv (i : Instr) : CvReg := { decl := BitVec.allOnes 32, signed := BitVec.allOnes 32, declared := true, unit := 1, instr := some i }
/-- The round is performed. -/
def isDone : Round → Bool
  | .done _ => true
  | _ => false
theorem done_of {r : Round} (h : isDone r = true) : ∃ s, r = .done s := by
  cases r with
  | done s => exact ⟨s, rfl⟩
  | fail c o v s => simp [isDone] at h
  | wait s => simp [isDone] at h
/-- SOFTSTEP under a causal mask whose positions g12 and g13 close every column. -/
def wCausal : Fields := fld (.acc 1) (.acc 0) (.g 12) (.cv 0) 8 1
theorem witness_issue :
    (∃ s1, issueMma wMma 0 (fullCv (.mma wMma)) 0 fullGroup lanes fullSt = .done s1) ∧
    (∃ s1, issueSoft wCausal 0 (fullCv (.softstep wCausal)) 0 fullGroup lanes fullSt = .done s1) ∧ lanes = 0 :: lanes.tail :=
  ⟨done_of (by decide +kernel), done_of (by decide +kernel), by decide +kernel⟩
/-- The tile of the MMA is read, and the P rows and the scale of the SOFTSTEP are there. -/
theorem witness_issue_operands :
    WellFormed (.mma wMma) = true ∧ List.Pairwise (fun x y => tidLane x ≠ tidLane y) lanes ∧
    (List.range 32).all (fun i => lanes.any fun x => tidLane x == i) = true ∧
    (∃ at_, Does (tileAddrs 3 (wMma.ext.toNat % 256) ((List.range 512).map fun i => (fullSt.valOf 0 wMma.b 0).raw + 32 * i) (wMma.sub.getLsbD 0) false)
      { fullSt with cur := 0 } at_ { fullSt with cur := 0 }) ∧
    (∃ at_, Does (checkP (wCausal.ext.toNat % 256) (if wCausal.ty = tagBF16 then 16384 else 8192)) { fullSt with cur := 0 } at_ { fullSt with cur := 0 }) ∧
    ∃ scale s2, Does (readConst 0 (wCausal.ext.toNat / 2 ^ 29) (wCausal.ext.toNat / 2 ^ 16 % 8192) 4) { fullSt with cur := 0 } scale s2 :=
  ⟨by decide +kernel, by decide +kernel, by decide +kernel, does_at (by decide +kernel), does_at (by decide +kernel), does_of (by decide +kernel)⟩
/-- Rows of each case of R304, R310, R311 and R312. -/
theorem witness_rows :
    (let one : AccRow := { m := 0x3F800000, l := 0x3F800000, st := 1 }
     let nan : AccRow := { m := 0x7FC00000, l := 0x7FC00000 }
     let no : Mask := { kind := 1, qbase := 0, kbase := 1000, lo := 0, hi := 0 }
     let all : Mask := { kind := 0, qbase := 0, kbase := 0, lo := 0, hi := 0 }
     (f32 nan.m.toNat).isNan = true ∧ (f32 one.m.toNat).isNan = false ∧ (f32 ({} : AccRow).m.toNat).isNan = false ∧
     max32 ({} : AccRow).m.toNat 0xFF800000 = 0xFF800000 ∧ max32 one.m.toNat 0 ≠ 0xFF800000 ∧ (f32 0).isNan = false ∧ (f32 0xFF800000).isNan = false ∧
     (f32 nan.l.toNat).isNan = true ∧ (f32 ({} : AccRow).l.toNat).isZero = true ∧ (f32 one.l.toNat).isNan = false ∧ (f32 one.l.toNat).isZero = false ∧
     (softRow all 0x3F800000 0 {} nan).1.st = 1 ∧ (softRow no 0x3F800000 0 {} {}).1.st = 2 ∧ (softRow all 0x3F800000 0 {} {}).1.st = 1 ∧
     (softRow all 0x3F800000 0 {} {}).2.length = 128) := by decide +kernel
/-- The full group, of which only lane 0 is still to sign. -/
def lastLane (i : Instr) : State := { fullSt with cvs := [(0, { fullCv i with signed := BitVec.allOnes 32 - 1 })] }
/-- The last signature of a round of register cv0 makes the round issue: nothing awaited holds its tile, and no round is before it. -/
def lastIssues (i : Instr) (s : State) : Bool :=
  let r := s.cv 0
  let first := r.signed == 0
  let r1 : CvReg := { r with signed := setBit r.signed (tidLane s.cur) true }
  let r2 : CvReg := if first then { r1 with op := cvOp i, pc := s.me.pc, instr := some i, claim := s.nextTurn + 1 } else r1
  let s0 := match instrTile (some i) with
    | some h => s.tileSeen h
    | none => s
  let s1 := ((if first then { s0 with nextTurn := s.nextTurn + 1 } else s0).setCv 0 r2).modMe fun th => { th with wait := .signed 0 }
  let x := s1.takeTurn 0 r2
  match s.myGroup with
  | none => false
  | some (u, g) =>
    let signers := g.tids.filter fun t => r.decl.getLsbD (tidLane t)
    r1.signed == r.decl && u.stopping.isNone && !s1.tileAwaited u r2 (signers.headD 0) && !x.2.roundBefore 0 x.1 &&
      isDone (issueOf 0 x.1 0 g signers x.2)
theorem witness_LastSignature :
    (∀ i ∈ [Instr.cvsign (fld .none .none .none (.cv 0) 0), .lxch (fld (.g 3) (.g 4) .zero (.cv 0) 6), .vote (fld (.p 3) (.p 1) .none (.cv 0) 0)],
      lastIssues i (declared 1 0) = true) ∧
    ∀ i ∈ [Instr.mma wMma, .softstep wCausal], (∃ w, fieldsOf i = some w ∧ Runs i w (lastLane i)) ∧ lastIssues i (lastLane i) = true := by
  refine ⟨by decide +kernel, fun i hi => ?_⟩
  simp only [List.mem_cons, List.not_mem_nil, or_false] at hi
  rcases hi with rfl | rfl <;> exact ⟨⟨_, rfl, runs_of (by decide +kernel)⟩, by decide +kernel⟩
/-- An engine that runs its first or its second pass for group 0 of unit 1. -/
def running (second : Bool) (now : Nat := 64) : State :=
  { st with quads := [(0, { mma := some { unit := 1, group := 0, acc := 0, tile := [(0, {})], accB := 0, handle := 0, startAt := 0, second, part := 1, cid := 2049 },
                            soft := some { unit := 1, group := 0, acc := 1, tile := [(0, {})], accB := 1, handle := 0, startAt := 0 } })]
            now }
theorem witness_EngineEffects :
    (∀ b ∈ [false, true], (running b).powered = true ∧ ((running b).quadOf (0 * 4 + 0)).mma.isSome = true ∧
      ((running b).quadOf (0 * 4 + 0)).mma.map EngineRun.second = some b ∧ ((running b).quadOf (0 * 4 + 0)).soft.isSome = true) ∧
    (∃ u g, Tbl.find? (running true).units 1 = some u ∧ u.group 0 = some g ∧ g.acc.contains 0 = true ∧ g.acc.contains 1 = true ∧
      u.core * 4 + g.quad = 0) ∧
    ((running true).quadOf 0).mma.map (fun r => decide (r.cid % 2048 ≠ 0)) = some true ∧
    (∀ r, ((running true).quadOf 0).mma = some r → stands (running true) 0 r = true) ∧
    (let s := { running true with units := [] }
     ((s.quadOf 0).mma.isSome = true ∧ Tbl.find? s.units 1 = none) ∧ ∀ r, (s.quadOf 0).mma = some r → stands s 0 r = false) ∧
    (st.quadOf 0).mma = none ∧ (st.quadOf 0).soft = none ∧
    (∀ now ∈ [0, 64], ∀ run, (((running false now).quadOf 0).mma = some run ∨ ((running false now).quadOf 0).soft = some run) →
      ((running false now).now < run.startAt + 64 ↔ now = 0)) ∧
    ∃ l, Tbl.find? (running true).launches 2049 = some l ∧ l.complete = false :=
  ⟨by decide +kernel, ⟨_, _, rfl, rfl, by decide +kernel, by decide +kernel, by decide +kernel⟩, by decide +kernel,
    fun r h => by obtain rfl := Option.some.inj h; decide +kernel,
    ⟨by decide +kernel, fun r h => by obtain rfl := Option.some.inj h; decide +kernel⟩, by decide +kernel, by decide +kernel, by
      intro now hn run h
      simp only [List.mem_cons, List.not_mem_nil, or_false] at hn
      rcases hn with rfl | rfl <;> rcases h with h | h <;> obtain rfl := Option.some.inj h <;> decide +kernel,
    _, rfl, by decide +kernel⟩
/-- R308: after ACLR a row reads as fresh. -/
theorem test_aclr :
    (let s := { rowSt with accs := [(0, [(0, { m := 5 })])] }
     ((after (exec (.aclr (fld (.acc 0) .none .none .none 1)) s)).accTile 0).row 0 = {}) := by decide +kernel

/-! ### Witnesses: the KV pool -/

/-- A pool of three HBM4E frames: handle 1 full of tokens zero, handle 2 with three; sequence 1 holds both, 2 is free with room for
four pages, 3 is live and empty, 4 holds handle 1. -/
def pool0 : KvPool :=
  { frames := [(1, { ref := 2, fill := 16, frame := 0, tokens := List.replicate 16 0 }), (2, { ref := 1, pin := 1, fill := 3, frame := 1, tokens := [0, 0, 0] })]
    seqs := [(1, { len := 19, cap := 4, live := true, pages := [1, 2] }), (2, { cap := 4 }), (3, { cap := 2, live := true }),
             (4, { len := 16, cap := 4, live := true, pages := [1] })]
    pfx := [(0, { hash := 5, depth := 5, age := 0, handle := 1 })] }
def kvPart : Part := { part1 with chans := 1, res := 3, pool := pool0 }
def kvSt : State := { stWith fun th => { th with g := [(4, { val := 5 }), (9, { val := 0x07FF0000 }), (12, { val := 1 }), (13, { val := 2 }), (14, { val := 4 })] } with
  parts := [(0, Part.zeroReset), (1, kvPart)] }
theorem witness_KvEffects :
    (∀ i ∈ [Instr.kvld (fld (.v 3) .imm .zero (.g 3) 0xB 0 1), .kvld (fld .none .imm .zero .none 0xB 2 1), .kvapp (fld (.g 3) .imm (.g 8) .none 0 0 1),
        .kvapp (fld (.g 3) .imm (.g 8) .none 0 0 2), .kvapp (fld (.g 3) .imm (.g 8) .none 0 0 3), .kvfork (fld (.g 3) .imm (.g 13) .none 0 0 1),
        .kvrel (fld (.g 3) .imm .none .none 0 0 1), .kvlink (fld (.g 3) (.g 14) (.g 12) .none 0), .pin (fld (.g 3) .imm .none .none 0 0 1),
        .unpin (fld (.g 3) .imm .none .none 0 0 2)], ∃ w, fieldsOf i = some w ∧ Runs i w kvSt) ∧
    kvSt.me.tx = none ∧ Src 2 .imm 6 1 kvSt { raw := 1, poison := false } kvSt ∧ Src 3 .zero 6 1 kvSt { raw := 0, poison := false } kvSt ∧
    ((kvSt.kvSeq 1 1).live = true ∧ 18 < (kvSt.kvSeq 1 1).len ∧
      ∃ f base, kvSt.kvFrameOf 1 ((kvSt.kvSeq 1 1).pages.getD (18 / 16) 0) = some f ∧ kvSt.kvBase 1 f = some base ∧ f.psn = false ∧
        f.st = frRESIDENT ∧ (kvSt.mem.sector (base + 32768 + 15 * 2048 + 18 % 16 * 128 + 32 * 3)).poison = false) ∧
    ((kvSt.pair 8).poison = false ∧ (kvSt.pair 8).raw % 256 = 0 ∧ Does (checkRange 3 (kvSt.pair 8).raw (256 + 1 * 4096)) kvSt () kvSt ∧
      Does (refuseRemote 3 (kvSt.pair 8).raw (256 + 1 * 4096)) kvSt () kvSt ∧
      ∃ secs s1, Does (loadSectors 3 (kvSt.pair 8).raw (256 + 1 * 4096)) kvSt secs s1) ∧
    ((kvSt.kvSeq 1 2).live = false ∧ (kvSt.kvSeq 1 3).pages = [] ∧ (kvSt.kvSeq 1 3).live = true ∧ 1 ≤ (kvSt.kvSeq 1 3).cap ∧
      ∃ fr h s3 s4, kvSt.kvAlloc 1 65 = (.ok fr, s3) ∧ s3.freeHandle 1 = (h, s4)) ∧
    ((∃ f, kvSt.kvFrameOf 1 2 = some f ∧ f.ref ≤ 1 ∧ 1 ≤ 16 - f.fill ∧ 0 < f.pin) ∧ (kvSt.kvSeq 1 1).pages.getLastD 0 = 2) ∧
    ((kvSt.kvSeq 1 1).pages.length ≤ (kvSt.kvSeq 1 2).cap ∧ (kvSt.kvSeq 1 4).pages.length + 1 ≤ (kvSt.kvSeq 1 4).cap ∧
      (kvSt.kvSeq 1 4).len % 16 = 0 ∧ ∃ f, kvSt.kvFrameOf 1 1 = some f ∧ f.ref < 65535 ∧ f.pin < 65535) :=
  ⟨runs_list (by decide +kernel), by decide +kernel, rfl, rfl,
    ⟨by decide +kernel, by decide +kernel, _, _, rfl, rfl, rfl, rfl, by decide +kernel⟩,
    ⟨by decide +kernel, by decide +kernel, does_same (by decide +kernel), does_same (by decide +kernel), does_of (by decide +kernel)⟩,
    ⟨by decide +kernel, by decide +kernel, by decide +kernel, by decide +kernel, _, _, _, _, rfl, rfl⟩,
    ⟨⟨_, rfl, by decide +kernel, by decide +kernel, by decide +kernel⟩, by decide +kernel⟩,
    by decide +kernel, by decide +kernel, by decide +kernel, _, rfl, by decide +kernel, by decide +kernel⟩
def kvKer : State := { kvSt with threads := [(32768, { wait := .ready, part := 1, cid := 2048, asid := 2048, level := 1, plvl := 3, g := kvSt.me.g })], cur := 32768 }
def cowSt : State := kvSt.modMe fun th => { th with level := 1 }
theorem witness_PoolAndPrefixEffects :
    (∀ i ∈ [Instr.pfxhash (fld (.g 3) .imm (.g 8) .none 0 0 5), .pfxfind (fld (.g 3) .imm (.g 4) (.g 8) 0 0 5),
        .pfxfind (fld (.g 3) .imm (.g 14) (.g 8) 0 0 5), .pfxins (fld (.g 3) .imm (.g 4) (.g 12) 0 0 5)],
      ∃ w, fieldsOf i = some w ∧ Runs i w kvSt) ∧
    (∃ ids s1, Does (readTokens 3 (.g 8)) kvSt (ids, false) s1) ∧
    (∃ s1 f, Does (readTokens 4 (.g 8)) kvSt (List.replicate 16 0, false) s1 ∧
      (s1.kvFrameOf 1 1).map Frame.tokens = some (List.replicate 16 0) ∧ s1.kvFrameOf 1 1 = some f ∧ f.psn = false ∧ 0 < f.ref ∧ f.fill = 16) ∧
    (∀ i ∈ [Instr.poolctlSeqnew (fld (.g 3) (.g 13) .imm .none 0 1 2), .poolctlSeqcap (fld (.g 3) (.g 13) .imm .none 0 2 2),
        .poolctlRdframe (fld (.g 3) (.g 12) (.g 8) .none 0 3), .poolctlRdseq (fld (.g 3) (.g 12) (.g 8) .none 0 4),
        .poolctlRdpfx (fld (.g 3) .none (.g 8) .none 0 5)], ∃ w, fieldsOf i = some w ∧ Runs i w kvKer) ∧
    ((kvKer.kvSeq 1 2).live = false ∧ 2 ≤ kvKer.listRoom 1 2) ∧
    (Runs (.poolctlCow (fld (.g 3) (.g 14) .none .none 0)) (fld (.g 3) (.g 14) .none .none 0) cowSt ∧ 1 ≤ cowSt.me.level ∧
      cowSt.poolMs.kvFrameOf 1 ((cowSt.poolMs.kvSeq 1 4).pages.getLastD 0) = some { ref := 2, fill := 16, frame := 0, tokens := List.replicate 16 0 } ∧
      ∃ fr h s3 s4, cowSt.poolMs.kvAlloc 1 65 = (.ok fr, s3) ∧ s3.freeHandle 1 = (h, s4)) ∧
    (∀ n ∈ [128, 40, 1024], ∃ ps s1, Does (storePlaces 3 (kvKer.pair 8).raw n false true) kvKer ps s1 ∧ (∀ e ∈ ps, e.2.isSome = true) ∧ ps ≠ [] ∧
      s1.me.tx = none) := by
  refine ⟨runs_list (by decide +kernel), ⟨_, _, rfl⟩, ⟨_, _, rfl, by decide +kernel, rfl, by decide +kernel, by decide +kernel, by decide +kernel⟩,
    runs_list (by decide +kernel), by decide +kernel, ⟨runs_of (by decide +kernel), by decide +kernel, by decide +kernel, _, _, _, _, rfl, rfl⟩,
    fun n hn => ?_⟩
  simp only [List.mem_cons, List.not_mem_nil, or_false] at hn
  rcases hn with rfl | rfl | rfl <;> exact ⟨_, _, rfl, by decide +kernel, by decide +kernel, by decide +kernel⟩
/-- The pool with frame 2 unpinned and frame 1 of other tokens. -/
def kvOther : State := kvSt.modPool 1 fun k => { k with
  frames := [(1, { ref := 2, fill := 16, frame := 0, tokens := List.replicate 16 1 }), (2, { ref := 1, fill := 3, frame := 1, tokens := [0, 0, 0] })] }
/-- KVAPP of sixteen tokens to a tail with room for thirteen. -/
def wOver : Fields := fld (.g 3) .imm (.g 8) .none 0 0 0xF0001
theorem witness_KvEffects_overflow :
    (∃ w, fieldsOf (.kvapp wOver) = some w ∧ Runs (.kvapp wOver) w kvSt) ∧ Src 2 .imm 6 0xF0001 kvSt { raw := 0xF0001, poison := false } kvSt ∧
    isOkP (loadSectors 3 (kvSt.pair 8).raw (256 + 16 * 4096)) kvSt (fun secs s1 =>
      let s2 := s1.poolMs
      !(secs.take 2).any SectorLit.poison && s2.me.part == 1 && (s2.kvSeq 1 1).live && (s2.kvSeq 1 1).pages.length == 2 && (s2.kvSeq 1 1).cap == 4 &&
        (s2.kvFrameOf 1 2).any (fun f => decide (16 - f.fill < 16 ∧ f.ref ≤ 1 ∧ f.st = frRESIDENT)) &&
        match s2.kvAlloc 1 65 with
        | (.ok _, _) => true
        | _ => false) = true ∧
    Does (checkRange 3 (kvSt.pair 8).raw (256 + 16 * 4096)) kvSt () kvSt ∧ Does (refuseRemote 3 (kvSt.pair 8).raw (256 + 16 * 4096)) kvSt () kvSt :=
  ⟨⟨_, rfl, runs_of (by decide +kernel)⟩, rfl, by decide +kernel, does_same (by decide +kernel), does_same (by decide +kernel)⟩
/-- A resident frame for the prefetch and none; a frame to fill; a frame that its last list leaves. -/
theorem witness_KvEffects_frames :
    (∃ f, kvSt.kvFrameOf 1 (kvSt.resolve 1 1 0 0 0 [0]).handle = some f ∧ f.st = frRESIDENT) ∧
    kvSt.kvFrameOf 1 (kvSt.resolve 1 2 0 0 0 [0]).handle = none ∧
    (∃ f base, kvSt.kvFrameOf 1 2 = some f ∧ kvSt.kvBase 1 f = some base ∧ kvSt.mem.isDead base = false ∧ f.fill + 1 ≤ 16) ∧ kvSt.src < 160 ∧
    ((kvOther.kvSeq 1 1).live = true ∧ (kvOther.kvSeq 1 1).pages.count 2 = 1 ∧ ∃ f, kvOther.kvFrameOf 1 2 = some f ∧ f.ref ≤ 1 ∧ f.pin = 0) ∧
    ((kvSt.kvSeq 1 1).pages.count 1 = 1 ∧ ∃ f, kvSt.kvFrameOf 1 1 = some f ∧ 1 < f.ref) :=
  ⟨⟨_, rfl, by decide +kernel⟩, by decide +kernel, ⟨_, _, rfl, rfl, by decide +kernel, by decide +kernel⟩, by decide +kernel,
    ⟨by decide +kernel, by decide +kernel, _, rfl, by decide +kernel, by decide +kernel⟩, by decide +kernel, _, rfl, by decide +kernel⟩
/-- A prefix whose frame holds the tokens read, and one whose frame holds others; the page a copy is written to. -/
theorem witness_PoolAndPrefixEffects_cases :
    (∀ s ∈ [kvSt, kvOther], isOkP (readTokens 4 (.g 8)) s (fun x s1 => !x.2 &&
      (s1.pool s1.me.part).pfx.any (fun e => e.2.hash == 5 && e.2.depth == 5 && e.2.handle == 1 &&
        (s1.kvFrameOf s1.me.part 1).any fun f => (f.tokens == x.1) == decide (s = kvSt))) = true) ∧
    (let s2 := cowSt.poolMs
     let x := s2.kvAlloc 1 65
     let y := x.2.freeHandle 1
     (match x.1 with
      | .ok fr => x.2.kvFrameOf 1 y.1 == none && (s2.kvFrameOf 1 1).any (fun f =>
          let copy : Frame := { ref := 1, owner := cowSt.me.cid, frame := fr, fill := f.fill, tokens := f.tokens, written := true }
          match s2.kvBase 1 f, s2.kvBase 1 copy with
          | some a, some b => a != b && !cowSt.mem.isDead a && !cowSt.mem.isDead b && decide (f.fill ≤ 16)
          | _, _ => false)
      | _ => false) = true) ∧ cowSt.mem.wf = true :=
  ⟨by decide +kernel, by decide +kernel, by decide +kernel⟩
/-- R118: KVLINK adds the frame to the list. -/
theorem test_kvlink : ((after (exec (.kvlink (fld (.g 3) (.g 14) (.g 12) .none 0)) kvSt)).kvSeq 1 4).pages = [1, 1] := by decide +kernel

/-! ### Witnesses: fences, chains, system -/

/-- A PUT of the thread is on its way. -/
def putting : State := { st with cmds := [(1, { cmd0 with op := 7, unit := some 1 })] }
/-- A well-formed engine chain at the window's base with its word at 0x200 and the entry's address in the pair g14; and none. -/
def chainThr : Thread := { thr0 with g := [(9, { val := 0x07FF0000 }), (14, { val := 0x40 }), (15, { val := 0x07FF0000 })] }
def unchained : State := { st with threads := [(0, chainThr)] }
def chainWith (bound kind tail seq : Nat) : State :=
  let m := (st.mem.writeN carveBase 8 (2 ^ 63 + 2 ^ 40 * bound + kind)).writeN (carveBase + 8) 8 tail
  { unchained with mem := (m.writeN (carveBase + 16) 8 seq).writeN (carveBase + 24) 8 0x07FF000000000200 }
def chained : State := chainWith 0 0 0 1
/-- Stream 0 of the partition enabled. -/
def withStream (s : State) : State := s.modPart s.me.part fun p => { p with streams := [(0, { en := true })] }
/-- What CHAPP reads of a chain's descriptor at the window's base. -/
def descOf (s : State) : ChainDesc :=
  parseDesc (bytesOf ((sectorsOf 0x07FF000000000000 64).map fun a => s.sectorAt ⟨0, carveBase, 4, true, none⟩ (a % 128 / 32)) 0x07FF000000000000 64)
/-- The same chain, broken by a failed command. -/
def brokenChain : State := { chained with chains := [{ asid := tagOf 0x07FF000000000000 2049 1, desc := 0x07FF000000000000, broken := true, engine := 32 }] }
def wChapp : Fields := fld (.g 2) (.g 8) (.g 14) .none 0
/-- A summed line that has arrived. -/
def gsumLine : Reply := { key := gsumKey 0 7 (0x03C00000 / 128 * 16 + 8), data := List.replicate 4 { data := 1, side := 0, poison := false } }
/-- A page of HBM4E in a tree's replicated region, and the summed line of it. -/
def gsumSt : State :=
  { fetching with
    mem := fetching.mem.writeN (tableAddr 1 (tableFirst 0x3C0 1 0) + 8 * 0x3C0) 8 (imagePte 0 - 2 ^ 61)
    parts := [(0, { fetching.part 0 with chans := 1, trees := [{ id := 7, space := 0, rb := 0, gb := 0x03C00000, gs := 65536 }] })]
    threads := [(0, { thr0 with part := 0, asid := 0, cid := 1, g := [(8, { val := 0x03C00000 })], reply := some gsumLine })]
    units := [(1, { unit0 with part := 0, asid := 0, cid := 1 })], cur := 0 }
def wGsum : Fields := fld (.g 3) (.g 8) .none .none 8
theorem witness_FenceAndChainEffects :
    (∀ s ∈ [st, putting], ∀ i ∈ [Instr.fenceEngine { w0 with sub := 1 }, .fenceFabric { w0 with sub := 2 }, .fenceAll { w0 with sub := 3 }],
      ∃ w, fieldsOf i = some w ∧ Runs i w s) ∧
    st.putsPending st.cur = false ∧ putting.putsPending putting.cur = true ∧ st.me.tx = none ∧
    (∀ s ∈ [brokenChain, chained, chainWith 33 0 0 1, chainWith 33 0 0 5, chainWith 0 1 0 1, withStream (chainWith 0 1 0 1),
        chainWith 0 0 0x07FF000000000100 1, chainWith 0 0 0 4097, unchained], Runs (.chapp wChapp) wChapp s ∧
      ∃ pd s1, Does (storeChecks s.who 2 0x07FF000000000000 64 false true) s pd s1 ∧
        isOkP (loadWithin 3 (s.pair 14).raw 64) s1 (fun _ s1' => isOkP (readSlice (foundOf pd) 0x07FF000000000000 64) s1' fun dsecs s2 =>
          let tag := tagOf 0x07FF000000000000 s2.me.asid s2.me.part
          !dsecs.any SectorLit.poison && parseDesc (bytesOf dsecs 0x07FF000000000000 64) == descOf s &&
          isOk (raceNote tag (presentSecs pd 0x07FF000000000000 64) false (leaseLines (foundOf pd))) s2 &&
          isOkP (readSeqWord 0x07FF000000000200) s2 fun x s3 => x.2 == 0 && isOk (storeClaim s.who 0x07FF000000000000 64 true pd) s3 &&
            isOkP (readSeqWord 0x07FF000000000200) s3 fun y _ => y.2 == 0 &&
            isOkP (storePlaces 0 0x07FF000000000108 8 false true) s3 fun _ s4 =>
              isOkP (storeClaim s.who 0x07FF000000000000 64 true pd) s4 fun _ s5 =>
                ((s5.chainOf tag 0x07FF000000000000).any ChainRec.broken == decide (s = brokenChain)) &&
                  decide (s5.lastSeq tag 0x07FF000000000000 = 0)) = true) ∧
    (descOf unchained).malformed = true ∧
    (∀ s ∈ [chained, chainWith 33 0 0 1, chainWith 0 1 0 1, chainWith 0 0 0x07FF000000000100 1, chainWith 0 0 0 4097],
      (descOf s).malformed = false ∧ (descOf s).seqWord = 0x07FF000000000200) ∧
    (((descOf chained).kind, (descOf chained).bound, (descOf chained).tail, (descOf chained).nextSeq) = (0, 0, 0, 1) ∧
      ((descOf (chainWith 33 0 0 5)).bound, (descOf (chainWith 33 0 0 5)).nextSeq) = (33, 5) ∧ (descOf (chainWith 33 0 0 1)).bound = 33 ∧
      (descOf (chainWith 0 0 0x07FF000000000100 1)).tail = 0x07FF000000000100 ∧ (descOf (chainWith 0 0 0 4097)).nextSeq = 4097 ∧
      (descOf (chainWith 0 1 0 1)).kind = 1 ∧ (((chainWith 0 1 0 1).part 1).streams.get {} 0).en = false ∧
      (((withStream (chainWith 0 1 0 1)).part 1).streams.get {} 0).en = true ∧
      (((withStream (chainWith 0 1 0 1)).part 1).streams.get {} 0).chain = none) ∧
    (let w := fld .none (.g 8) (.g 6) .none 0
     ∀ s ∈ [st, counting], Runs (.chwait w) w s ∧ s.me.eaten = false ∧ Does (readPair w.b) s { raw := 0, poison := false } s) ∧
    (let w := fld .none (.g 8) (.g 4) .none 0
     Runs (.chwait w) w st ∧ st.mem.readN carveBase 8 < (st.pair 4).raw ∧ (st.pair 4).poison = false) ∧
    (Runs (.gsum wGsum) wGsum gsumSt ∧ (formM wGsum gsumSt).raw = 0x03C00000 ∧ (gsumSt.treeAt 0 0 0x03C00000).map Tree.id = some 7 ∧
      ∃ ps s1, Does (locate 2 0x03C00000 4 .load false) gsumSt ps s1 ∧ (∀ e ∈ foundOf ps, e.2.home = 0) ∧ (foundOf ps).length = 1 ∧
        gsumSt.me.reply.map Reply.key = some (gsumKey 0 7 (0x03C00000 / 128 * 16 + 8))) := by
  refine ⟨fun s hs => ?_, by decide +kernel, by decide +kernel, by decide +kernel, fun s hs => ?_, by decide +kernel, fun s hs => ?_,
    by decide +kernel, fun s hs => ?_, ⟨runs_of (by decide +kernel), by decide +kernel, by decide +kernel⟩,
    runs_of (by decide +kernel), by decide +kernel, by decide +kernel, _, _, rfl, by decide +kernel, by decide +kernel, by decide +kernel⟩ <;>
  · simp only [List.mem_cons, List.not_mem_nil, or_false] at hs
    rcases hs with rfl | rfl | rfl | rfl | rfl | rfl | rfl | rfl | rfl <;>
      first
      | exact runs_list (by decide +kernel)
      | exact ⟨runs_of (by decide +kernel), does_that (by decide +kernel)⟩
      | exact ⟨runs_of (by decide +kernel), by decide +kernel, rfl⟩
      | decide +kernel

/-- A compute thread at handler level. -/
def handler : State := stWith fun th => { th with level := 1, epc := 0x40 }
def withG (s : State) : State := s.modMe fun th => { th with g := thr0.g }
def ringPart : Part := { part1 with mc0 := { base := 0x07FF000000002006 }, mc1 := { base := 0x07FF000000003006 }, svc := some 96 }
def ring (s : State) : State := { s with parts := [(0, Part.zeroReset), (1, ringPart)] }
theorem witness_CsrEffects :
    (∀ s ∈ [handler, ker], Runs (.csrr (fld (.g 2) .none .none .none 0)) (fld (.g 2) .none .none .none 0) s ∧ Does (csrCheck 0 false) s () s ∧
      Does (csrCheck 0 true) s () s ∧ Runs (.csrw (fld .none (.g 4) .none .none 0)) (fld .none (.g 4) .none .none 0) s ∧ csrOwn 0 = true) ∧
    (Runs (.csrr (fld (.g 2) .none .none .none 0 0 9)) (fld (.g 2) .none .none .none 0 0 9) ker ∧ Does (csrCheck 9 false) ker () ker ∧
      Does (csrCheck 9 true) ker () ker ∧ Runs (.csrw (fld .none (.g 4) .zero .zero 0 0 9)) (fld .none (.g 4) .zero .zero 0 0 9) ker ∧
      csrOwn 9 = false ∧ csrHasIndex 9 = false ∧ ((csrScalar 9).bind CsrLevels.write).isSome = true ∧ ker.me.level < 2 ∧
      (ker.syncReader.part ker.me.part).present = true ∧ (ker.part ker.me.part).present = true) ∧
    (let w := fld (.g 2) .zero .zero .none 0 0 0x10
     Runs (.csrr w) w ker ∧ Does (csrCheck 0x10 false) ker () ker ∧ Does (csrIndex 2 .zero) ker 0 ker ∧ Does (csrIndex 3 .zero) ker 0 ker ∧
       csrOwn 0x10 = false ∧ csrHasIndex 0x10 = true) ∧
    (let w := fld .none (.g 4) .zero .zero 0 0 0x40
     Runs (.csrw w) w ker ∧ Does (csrCheck 0x40 true) ker () ker ∧ csrOwn 0x40 = false ∧ ((csrScalar 0x40).bind CsrLevels.write).isSome = false) ∧
    ((mon.part 2).present = false ∧ mon.me.level = 2) ∧
    -- a partition operand below monitor level
    (let s := withG ker
     Runs (.csrr (fld (.g 2) .zero (.g 4) .none 0 0 9)) (fld (.g 2) .zero (.g 4) .none 0 0 9) s ∧
       Runs (.csrw (fld .none (.g 4) .zero (.g 4) 0 0 9)) (fld .none (.g 4) .zero (.g 4) 0 0 9) s ∧ s.me.tx = none ∧ s.me.level ≠ 2 ∧
       Does (csrCheck 9 false) s () s ∧ Does (csrCheck 9 true) s () s ∧ (s.srcVal (.g 4) 6 0).poison = false ∧ (s.srcVal (.g 4) 6 0).raw ≠ 0) := by
  refine ⟨fun s hs => ?_, ⟨runs_of (by decide +kernel), rfl, rfl, runs_of (by decide +kernel), by decide +kernel⟩,
    ⟨runs_of (by decide +kernel), rfl, rfl, rfl, by decide +kernel⟩, ⟨runs_of (by decide +kernel), rfl, by decide +kernel⟩, by decide +kernel,
    runs_of (by decide +kernel), runs_of (by decide +kernel), by decide +kernel, by decide +kernel, rfl, rfl, by decide +kernel, by decide +kernel⟩
  simp only [List.mem_cons, List.not_mem_nil, or_false] at hs
  rcases hs with rfl | rfl <;> exact ⟨runs_of (by decide +kernel), rfl, rfl, runs_of (by decide +kernel), rfl⟩
theorem witness_CallEffects :
    (∀ s ∈ [ring st, ring (withG ker)], Runs (.mcall (fld (.g 2) (.g 4) (.g 6) .none 0 0 5)) (fld (.g 2) (.g 4) (.g 6) .none 0 0 5) s ∧ s.me.level < 2 ∧
      (s.part s.me.part).mc0.full = false ∧ (s.part s.me.part).mc1.full = false ∧
      (∃ ps s1, s.blockPlaces (blockWho s.src s.me.part) .store ((s.part s.me.part).mc0.addr 32) 32 = (.ok ps, s1)) ∧
      (∃ ps s1, s.blockPlaces (blockWho s.src s.me.part) .store ((s.part s.me.part).mc1.addr 32) 32 = (.ok ps, s1))) ∧
    (∀ s ∈ [withG mon, withG ker], Runs (.mret (fld (.g 3) (.g 4) (.g 6) .none 0)) (fld (.g 3) (.g 4) (.g 6) .none 0) s ∧ 1 ≤ s.me.level) := by
  refine ⟨fun s hs => ?_, fun s hs => ?_⟩ <;> simp only [List.mem_cons, List.not_mem_nil, or_false] at hs
  · rcases hs with rfl | rfl <;>
      exact ⟨runs_of (by decide +kernel), by decide +kernel, by decide +kernel, by decide +kernel, ⟨_, _, rfl⟩, ⟨_, _, rfl⟩⟩
  · rcases hs with rfl | rfl <;> exact ⟨runs_of (by decide +kernel), by decide +kernel⟩
theorem witness_ReturnEffects :
    (Runs (.eret w0) w0 handler ∧ isService handler.cur = false ∧ 1 ≤ handler.me.level ∧ handler.refusesPc handler.cur handler.me.epc = false) ∧
    (let s := ker.modMe fun th => { th with plvl := 0, epc := 0x40 }
     Runs (.eret w0) w0 s ∧ s.me.plvl ≠ 3 ∧ s.refusesPc s.cur s.me.epc = false) ∧ (Runs (.eret w0) w0 ker ∧ ker.me.plvl = 3) ∧
    (let s := ker.modMe fun th => { th with plvl := 2 }
     Runs (.eret w0) w0 s ∧ s.me.plvl = 2 ∧ isOryx s.cur = false) ∧
    (let s := mon.modMe fun th => { th with plvl := 2, epc := 0x40 }
     Runs (.eret w0) w0 s ∧ s.me.plvl = 2 ∧ isOryx s.cur = true ∧ s.refusesPc s.cur s.me.epc = false) ∧
    (let s := ker.modMe fun th => { th with level := 0 }
     ∀ i ∈ [Instr.eret w0, .savectx (fld .none (.g 8) .none .none 0), .loadctx (fld (.g 3) (.g 8) .none .none 0), .mret (fld (.g 3) (.g 4) (.g 6) .none 0),
       .halt w0, .ipi (fld .none (.g 4) .none .none 0)], ∃ w, fieldsOf i = some w ∧ Runs i w s) :=
  ⟨⟨runs_of (by decide +kernel), by decide +kernel⟩, ⟨runs_of (by decide +kernel), by decide +kernel⟩, ⟨runs_of (by decide +kernel), by decide +kernel⟩,
    ⟨runs_of (by decide +kernel), by decide +kernel⟩, ⟨runs_of (by decide +kernel), by decide +kernel⟩, runs_list (by decide +kernel)⟩
/-- Images of zeros; with a reserved byte set; and with a reserved tag. -/
def saving : State := withG ker
def reservedImage : State := { saving with mem := saving.mem.writeN (carveBase + 0x19) 1 1 }
def badTagImage : State := { saving with mem := saving.mem.writeN (carveBase + 0x70) 1 6 }
theorem witness_ContextEffects :
    (∀ i ∈ [Instr.savectx (fld .none (.g 8) .none .none 0), .loadctx (fld (.g 3) (.g 8) .none .none 0)], ∃ w, fieldsOf i = some w ∧ Runs i w saving) ∧
    (∃ w, fieldsOf (.loadctx (fld (.g 3) (.g 8) .none .none 0)) = some w ∧ Runs (.loadctx (fld (.g 3) (.g 8) .none .none 0)) w reservedImage) ∧
    (∃ ps s1, Does (storePlacesIf 2 0x07FF000000000000 2048 false true (needSides 2 0x07FF000000000000)) saving ps s1 ∧
      (!ps.isEmpty && ps.all (fun e => (e.2.map Place.swm) == some true) && s1.me.tx.isNone) = true) ∧
    (∃ l s1, Does (loadSectors 2 0x07FF000000000000 2048) saving l s1 ∧
      (!(l.take 4).any SectorLit.poison && !imageReserved (imageNat l) && !imageTagBad (imageNat l) && !(imageNat l).testBit 127) = true) ∧
    (∃ l s1, Does (loadSectors 2 0x07FF000000000000 2048) reservedImage l s1 ∧
      (!(l.take 4).any SectorLit.poison && imageReserved (imageNat l)) = true) ∧
    (∃ l s1, Does (loadSectors 2 0x07FF000000000000 2048) badTagImage l s1 ∧
      (!(l.take 4).any SectorLit.poison && imageTagBad (imageNat l)) = true) :=
  ⟨runs_list (by decide +kernel), ⟨_, rfl, runs_of (by decide +kernel)⟩, does_that (by decide +kernel), does_that (by decide +kernel),
    does_that (by decide +kernel), does_that (by decide +kernel)⟩
theorem witness_InvalEffects :
    (Runs (.invalLine (fld .none (.g 8) (.g 4) .none 0)) (fld .none (.g 8) (.g 4) .none 0) st ∧ (st.pair 4).raw ≠ 0 ∧
      (formM (fld .none (.g 8) (.g 4) .none 0) st).raw + (st.pair 4).raw ≤ 2 ^ 60) ∧
    (∃ k, keyIn 2049 1 0x1000 256 128 53 k = true) ∧
    (let s := ker.modMe fun th => { th with g := [(12, { val := 1 })] }
     Runs (.invalXlt (fld .none (.g 10) (.g 12) (.g 10) 0 1)) (fld .none (.g 10) (.g 12) (.g 10) 0 1) s ∧ (s.pair 12).raw = 1 ∧
       Runs (.invalFrame (fld .none (.g 10) (.g 12) .none 0 2)) (fld .none (.g 10) (.g 12) .none 0 2) s) ∧
    (let s := ker.modMe fun th => { th with g := [(11, { val := 0x10000000 }), (12, { val := 1 })] }
     Runs (.invalFrame (fld .none (.g 10) (.g 12) .none 0 2)) (fld .none (.g 10) (.g 12) .none 0 2) s ∧
       (formM (fld .none (.g 10) (.g 12) .none 0 2) s).raw = 2 ^ 60 ∧ (s.pair 12).raw ≠ 0) ∧
    (∀ p : Bool, Runs (.halt w0) w0 (ker.modMe fun th => { th with pend := p })) ∧
    (let s := mon.modMe fun th => { th with g := [(4, { val := 192 })] }
     Runs (.ipi (fld .none (.g 4) .none .none 0)) (fld .none (.g 4) .none .none 0) s ∧ s.me.level = 2 ∧ (s.thr (32768 + 192)).live = true) ∧
    (let s := ring (ker.modMe fun th => { th with g := [(4, { val := 192 })] })
     let s := { s with threads := Tbl.ins s.threads oryx Thread.oryxReset }
     Runs (.ipi (fld .none (.g 4) .none .none 0)) (fld .none (.g 4) .none .none 0) s ∧ (s.part s.me.part).svc = some (192 / 2)) :=
  ⟨⟨runs_of (by decide +kernel), by decide +kernel⟩, ⟨2049 * 2 ^ 53 + 0x20, by decide +kernel⟩,
    ⟨runs_of (by decide +kernel), by decide +kernel, runs_of (by decide +kernel)⟩,
    ⟨runs_of (by decide +kernel), by decide +kernel⟩, fun p => by cases p <;> exact runs_of (by decide +kernel),
    ⟨runs_of (by decide +kernel), by decide +kernel⟩, runs_of (by decide +kernel), by decide +kernel⟩
/-- R331: HALT with PEND clear waits past the instruction. -/
theorem test_halt : (after (exec (.halt w0) ker)).me.wait = .halted ∧ (after (exec (.halt w0) ker)).me.pc = 1 := by decide +kernel
/-- R50, R325: ERET to user level at EXC_EPC. -/
theorem test_eret : (after (exec (.eret w0) handler)).me.pc = 0x40 ∧ (after (exec (.eret w0) handler)).me.level = 0 := by decide +kernel
/-- R320: CSRW of EXC_EPC clears the bits beside LINE and SLOT. -/
theorem test_csrw : (after (exec (.csrw (fld .none (.g 8) .none .none 0)) handler)).me.epc = 0x07FF000000000000 := by decide +kernel

/-! ### Witnesses: partitions -/

/-- The monitor with a window of its own (way 1), partition number in g4, and the address of a block in the pair g8. -/
def ctl (a : Nat) (bytes : List (Nat × Nat × Nat)) (f : State → State := id) : State :=
  f { mon with
    threads := [(oryx, { Thread.oryxReset with g := [(4, { val := BitVec.ofNat 32 a }), (9, { val := 0x07FF0000 })] })]
    parts := [(0, { Part.zeroReset with carve := 2 }), (1, { part1 with svc := some 5 })]
    mem := bytes.foldl (fun m e => putWin m 1 e.1 e.2.1 e.2.2) {} }
def wCtl (k : BitVec 5) : Fields := fld (.g 3) (.g 4) (.g 8) .none 0 k
/-- The block is read, unpoisoned, and passes a test. -/
def reads (s : State) (p : PartBlock → State → Bool) : Bool :=
  isOkP (loadSectors 3 (s.pair 8).raw 320) s fun secs s1 =>
    !secs.any SectorLit.poison && isOryx s1.cur && s1.me.wait == .ready && p (imageNat secs) s1
theorem ctl_block {mk : Fields → Instr} {k : BitVec 5} {s : State} {a : Nat} {p : PartBlock → State → Bool}
    (hr : Runs (mk (wCtl k)) (wCtl k) s) (hl : s.me.level = 2 ∧ s.me.tx = none ∧ (s.pair 8).poison = false ∧ (s.pair 8).raw % 64 = 0)
    (hn : s.srcVal (.g 4) 6 0 = { raw := a, poison := false }) (hb : reads s p = true) :
    ∃ b s1, CtlBlock (mk (wCtl k)) (wCtl k) s a b s1 ∧ p b s1 = true := by
  obtain ⟨secs, s1, hd, hp⟩ := does_that hb
  simp only [Bool.and_eq_true, Bool.not_eq_true', beq_iff_eq] at hp
  refine ⟨imageNat secs, s1, ⟨hr, hl.1, hl.2.1, hp.1.1.2, hp.1.2, ?_, 8, rfl, hl.2.2.1, hl.2.2.2, secs, hd, hp.1.1.1, rfl⟩, hp.2⟩
  show Does (readSrc 2 (.g 4) 6 0) s _ s
  exact hn ▸ readSrc_plain 2 (x := .g 4) 6 0 s rfl
/-- The checks of every operation. -/
def admits (op a : Nat) (b : PartBlock) (s : State) : Bool :=
  decide (a < 32) && !b.reserved op && (decide (¬(op ≤ 2 ∨ op = 9)) || a != 0) && (op == 0 || (s.part a).present) && !(s.part a).resetting

theorem witness_PartctlEffects :
    (∃ b s1, CtlBlock (.partctlCreate (wCtl 0)) (wCtl 0) (ctl 2 []) 2 b s1 ∧ (admits 0 2 b s1 && !(s1.part 2).present && decide (b.svc ≤ 95) &&
      !s1.boot.retGcores.getLsbD b.svc && s1.parts.all fun e => e.1 == 2 || !e.2.present || (e.2.svc != some b.svc && !e.2.gcores.getLsbD b.svc)) = true) ∧
    (∃ b s1, CtlBlock (.partctlDestroy (wCtl 1)) (wCtl 1) (ctl 1 []) 1 b s1 ∧ (admits 1 1 b s1 && s1.units.isEmpty && s1.saved.isEmpty &&
      s1.cores.isEmpty && s1.launches.isEmpty && (s1.part 1).streams.isEmpty && (s1.part 1).trees.isEmpty && !s1.callWaits 1) = true) ∧
    (∃ b s1, CtlBlock (.partctlReset (wCtl 2)) (wCtl 2) (ctl 1 []) 1 b s1 ∧ admits 2 1 b s1 = true) ∧
    (∃ b s1, CtlBlock (.partctlCores (wCtl 3)) (wCtl 3) (ctl 1 [(0, 4, 3), (0x108, 1, 1)]) 1 b s1 ∧ (admits 3 1 b s1 && !b.gcores.getLsbD 5 &&
      b.cores == 3 && b.gcores == 1 && s1.parts.all (fun e => e.1 == 1 || (e.2.gcores == 0 && e.2.cores == 0)) &&
      !s1.unitsHeld 1 ((s1.part 1).cores &&& ~~~b.cores)) = true) ∧
    (∃ b s1, CtlBlock (.partctlChan (wCtl 4)) (wCtl 4) (ctl 1 [(0x10, 1, 1)]) 1 b s1 ∧ (admits 4 1 b s1 && b.chan == 1 &&
      s1.parts.all (fun e => e.1 == 1 || e.2.chans == 0) && s1.clearing.isEmpty && (bitsOf ((s1.part 1).chans &&& ~~~b.chan)).isEmpty) = true) ∧
    (∃ b s1, CtlBlock (.partctlQueues (wCtl 5)) (wCtl 5) (ctl 1 [(0x30, 1, 2)]) 1 b s1 ∧ (admits 5 1 b s1 && b.queues == 2 &&
      s1.parts.all (fun e => e.1 == 1 || e.2.queues == 0) && bitsOf ((s1.part 1).queues &&& ~~~b.queues) == [0] && !(s1.queue 0).en) = true) ∧
    (∃ b s1, CtlBlock (.partctlColours (wCtl 6)) (wCtl 6) (ctl 0 [(0x50, 1, 1), (8, 1, 2)]) 0 b s1 ∧ (admits 6 0 b s1 && b.commons &&
      s1.parts.all fun e => e.2.colours == 0) = true) ∧
    (∃ b s1, CtlBlock (.partctlColours (wCtl 6)) (wCtl 6) (ctl 1 [(0x50, 1, 1)]) 1 b s1 ∧ (admits 6 1 b s1 && !b.commons &&
      s1.parts.all (fun e => e.2.colours == 0) && s1.cmask &&& b.colours == 0) = true) := by
  refine ⟨?_, ?_, ?_, ?_, ?_, ?_, ?_, ?_⟩ <;>
    exact ctl_block (runs_of (by decide +kernel)) (by decide +kernel) (by decide +kernel) (by decide +kernel)
/-- Carve, Quota and Start; and the refusals: number 32, a reserved bit, an absent partition, partition 0. -/
theorem witness_PartctlMore :
    (∃ b s1, CtlBlock (.partctlCarve (wCtl 7)) (wCtl 7) (ctl 1 [(0xD0, 1, 5)]) 1 b s1 ∧ (admits 7 1 b s1 && bitsOf b.carve == [0, 2] &&
      (List.range 4).all (fun d =>
        decide (((bitsOf ((s1.others 1).foldl (fun c e => c ||| e.2.carve) 0 ||| b.carve)).filter fun i => i / 24 == d).length ≤ 16)) &&
      (bitsOf (s1.part 1).carve).isPrefixOf (bitsOf b.carve) && s1.parts.all (fun e => e.1 == 1 || e.2.carve &&& b.carve == 0)) = true) ∧
    (∃ b s1, CtlBlock (.partctlQuota (wCtl 8)) (wCtl 8) (ctl 1 [(0xEC, 1, 1)]) 1 b s1 ∧ (admits 8 1 b s1 && b.nstr == 1 && b.spill == 0 && b.lframes == 0 &&
      b.res == 0 && decide ((s1.others 1).foldl (fun n e => n + e.2.lpages) b.lpages ≤ s1.flashBound) && !(s1.part 1).poolBeyond b.res b.spill &&
      (s1.part 1).streams.isEmpty && !s1.framesOwned 1 0 (s1.part 1).res b.res && !s1.framesOwned 1 1 (s1.part 1).spill b.spill) = true) ∧
    (let s := ctl 1 [(0xF8, 8, 0x40), (0x100, 1, 1)] fun s => { s with threads := (32768 + 10, { wait := .stopped }) :: (32768 + 11, { wait := .stopped }) :: s.threads }
     ∃ b s1, CtlBlock (.partctlStart (wCtl 9)) (wCtl 9) s 1 b s1 ∧ (admits 9 1 b s1 && (s1.part 1).svc == some 5 && !(s1.part 1).fatal &&
      (coreTids 5).all (fun k => (s1.thr k).wait == .stopped) && b.astab.getLsbD 0 && pcFormOk b.entry) = true) ∧
    (∃ b s1, CtlBlock (.partctlQuota (wCtl 8)) (wCtl 8) (ctl 1 [(0xF0, 4, 3)]) 1 b s1 ∧ (admits 8 1 b s1 && b.lframes == 3 &&
      decide ((s1.part 1).lframes < b.lframes) &&
      (takeRuns (s1.lpddrTaken.length + 2) s1.lpddrTaken (b.lframes - (s1.part 1).lframes)).isSome) = true) ∧
    (let s := ctl 1 [(0, 4, 3)] fun s => { s.modPart 1 fun p => { p with pooled := true } with pools := [{ cores := 1, holder := 1, till := 100 }] }
     ∃ b s1, CtlBlock (.partctlCores (wCtl 3)) (wCtl 3) s 1 b s1 ∧ (admits 3 1 b s1 && b.cores == 3 && !b.pooled && s1.turnRuns 1 &&
      !s1.unitsHeld 1 ((s1.part 1).cores &&& ~~~b.cores) && s1.parts.all fun e => e.1 == 1 || (e.2.cores == 0 && e.2.leaving.isNone)) = true) ∧
    (∃ b s1, CtlBlock (.partctlReset (wCtl 2)) (wCtl 2) (ctl 32 []) 32 b s1 ∧ decide (32 ≤ 32) = true) ∧
    (∃ b s1, CtlBlock (.partctlReset (wCtl 2)) (wCtl 2) (ctl 1 [(0x118, 1, 1)]) 1 b s1 ∧ b.reserved 2 = true) ∧
    (∃ b s1, CtlBlock (.partctlReset (wCtl 2)) (wCtl 2) (ctl 3 []) 3 b s1 ∧ (!b.reserved 2 && !(s1.part 3).present) = true) ∧
    (∃ b s1, CtlBlock (.partctlReset (wCtl 2)) (wCtl 2) (ctl 0 []) 0 b s1 ∧ (!b.reserved 2) = true) := by
  refine ⟨?_, ?_, ?_, ?_, ?_, ?_, ?_, ?_, ?_⟩ <;>
    exact ctl_block (runs_of (by decide +kernel)) (by decide +kernel) (by decide +kernel) (by decide +kernel)
/-- An operation is refused: its block is read, and the condition of the refusal holds. -/
def Refusal (mk : Fields → Instr) (op : Nat) (a : Nat) (s : State) (p : PartBlock → State → Bool) : Prop :=
  ∃ b s1, CtlBlock (mk (wCtl (BitVec.ofNat 5 op))) (wCtl (BitVec.ofNat 5 op)) s a b s1 ∧ (admits op a b s1 && p b s1) = true
theorem refusal {mk : Fields → Instr} {op a : Nat} {s : State} {p : PartBlock → State → Bool}
    (h : (staticPass (mk (wCtl (BitVec.ofNat 5 op))) s && guardTrue (wCtl (BitVec.ofNat 5 op)) s.me && decide (s.me.level = 2 ∧ s.me.tx = none ∧ (s.pair 8).poison = false ∧ (s.pair 8).raw % 64 = 0) &&
      decide (s.srcVal (.g 4) 6 0 = { raw := a, poison := false }) && reads s fun b s1 => admits op a b s1 && p b s1) = true) : Refusal mk op a s p := by
  simp only [Bool.and_eq_true, decide_eq_true_eq] at h
  exact ctl_block (runs_of (by simpa using h.1.1.1)) h.1.1.2 h.1.2 h.2
/-- Partition 2 exists beside partition 1 and has a holding. -/
def beside (f : Part → Part) (s : State) : State := { s with parts := s.parts ++ [(2, f { Part.zeroReset with present := true })] }
theorem witness_PartctlRefusals :
    Refusal .partctlCreate 0 1 (ctl 1 []) (fun _ s => (s.part 1).present) ∧
    Refusal .partctlCreate 0 2 (ctl 2 [(0xF4, 1, 96)]) (fun b s => !(s.part 2).present && decide (95 < b.svc)) ∧
    Refusal .partctlCreate 0 2 (ctl 2 [(0xF4, 1, 9)] fun s => { s with boot := { s.boot with retGcores := 512 } }) (fun b s =>
      !(s.part 2).present && s.boot.retGcores.getLsbD b.svc) ∧
    Refusal .partctlCreate 0 2 (ctl 2 [(0xF4, 1, 5)]) (fun b s => !(s.part 2).present && (s.part 1).svc == some b.svc && !s.boot.retGcores.getLsbD b.svc) ∧
    Refusal .partctlDestroy 1 1 (ctl 1 [] fun s => { s with units := [(1, unit0)] }) (fun _ s => s.units.any fun e => e.2.part == 1) ∧
    Refusal .partctlCores 3 1 (ctl 1 [(0x108, 1, 32)]) (fun b s => (s.part 1).svc == some 5 && b.gcores.getLsbD 5) ∧
    Refusal .partctlCores 3 1 (ctl 1 [(0, 4, 3)] fun s => { s with boot := { s.boot with retCores := 1 } }) (fun b s => b.cores &&& s.boot.retCores != 0 && b.gcores == 0) ∧
    Refusal .partctlCores 3 1 (ctl 1 [(0, 4, 3)] (beside fun p => { p with cores := 2 })) (fun b s =>
      b.cores == 3 && (s.part 2).cores == 2 && !b.pooled && b.gcores == 0 && s.boot.retCores == 0 && s.boot.retGcores == 0) ∧
    Refusal .partctlChan 4 1 (ctl 1 [(0x10, 1, 1)] fun s => { s with boot := { s.boot with retChans := 1 } }) (fun b s => b.chan &&& s.boot.retChans != 0) ∧
    Refusal .partctlChan 4 1 (ctl 1 [(0x10, 1, 1)] (beside fun p => { p with chans := 1 })) (fun b s => b.chan == 1 && (s.part 2).chans == 1 && s.boot.retChans == 0) ∧
    Refusal .partctlQueues 5 1 (ctl 1 [(0x30, 1, 2)] (beside fun p => { p with queues := 2 })) (fun b s => b.queues == 2 && (s.part 2).queues == 2) := by
  refine ⟨?_, ?_, ?_, ?_, ?_, ?_, ?_, ?_, ?_, ?_, ?_⟩ <;> exact refusal (by decide +kernel)
theorem witness_PartctlRefusals_more :
    Refusal .partctlColours 6 1 (ctl 1 [(0x50, 1, 1)] (beside fun p => { p with colours := 1 })) (fun b s => b.colours == 1 && (s.part 2).colours == 1) ∧
    Refusal .partctlColours 6 1 (ctl 1 [(0x50, 1, 1), (8, 1, 2)]) (fun b s => b.commons && s.parts.all fun e => e.2.colours == 0) ∧
    Refusal .partctlCarve 7 1 (ctl 1 [(0xD0, 3, 0xFFFFFF)]) (fun b s =>
      decide (16 < ((bitsOf ((s.others 1).foldl (fun c e => c ||| e.2.carve) 0 ||| b.carve)).filter fun i => i / 24 == 0).length)) ∧
    Refusal .partctlCarve 7 1 (ctl 1 [(0xD0, 1, 1)] (beside fun p => { p with carve := 1 })) (fun b s => b.carve == 1 && (s.part 2).carve == 1) ∧
    Refusal .partctlQuota 8 1 (ctl 1 [(0xEC, 1, 17)]) (fun b _ => decide (16 < b.nstr)) ∧
    Refusal .partctlQuota 8 1 (ctl 1 [(0xE0, 1, 5)]) (fun b s => decide (b.nstr = 0 ∧ b.spill = 0 ∧ (s.part 1).hbmFrames < b.res)) ∧
    Refusal .partctlQuota 8 1 (ctl 1 [] fun s => s.modPart 1 fun p => { p with streams := [(0, { en := true, npages := 1 })] }) (fun b s =>
      decide (b.nstr = 0 ∧ b.res = 0 ∧ b.lframes = 0) && (s.stream 1 0).en) ∧
    Refusal .partctlStart 9 1 (ctl 1 [] fun s => s.modPart 1 fun p => { p with svc := none }) (fun _ s => (s.part 1).svc == none) ∧
    Refusal .partctlStart 9 1 (ctl 1 []) (fun _ s => (s.part 1).svc == some 5 && (s.thr 32778).wait != .stopped) ∧
    Refusal .partctlStart 9 1 (ctl 1 [] fun s => { s with threads := (32778, { wait := .stopped }) :: (32779, { wait := .stopped }) :: s.threads })
      (fun b s => (s.part 1).svc == some 5 && !(s.part 1).fatal && (coreTids 5).all (fun k => (s.thr k).wait == .stopped) && !b.astab.getLsbD 0) ∧
    ∃ b s1, CtlBlock (.partctlReset (wCtl 2)) (wCtl 2) (ctl 1 [] fun s => s.modPart 1 fun p => { p with resetting := true }) 1 b s1 ∧
      (!b.reserved 2 && (s1.part 1).present && (s1.part 1).resetting) = true := by
  refine ⟨?_, ?_, ?_, ?_, ?_, ?_, ?_, ?_, ?_, ?_, ?_⟩
  all_goals first
    | exact refusal (by decide +kernel)
    | exact ctl_block (runs_of (by decide +kernel)) (by decide +kernel) (by decide +kernel) (by decide +kernel)
/-- R356: Create answers 0 and the partition exists with its service core. -/
theorem test_create :
    (let t := after (exec (.partctlCreate (wCtl 0)) (ctl 2 [(0xF4, 1, 9)]))
     t.gReg 3 = {} ∧ (t.part 2).present = true ∧ (t.part 2).svc = some 9 ∧ (t.thr (32768 + 18)).wait = .stopped) := by decide +kernel

/-! ### Witnesses: registers, faults, milestones, debug -/

/-- A fault on the mapped page of partition 0, with a thread, a command and a scheduler access that wait for it or not. -/
def faulting (page : Nat) : State :=
  { fetching with
    faults := [{ tag := 0, page, va := page * 65536, asid := 0, access := 0, kind := 0, core := 0, cid := 0, part := 0, posted := true }]
    threads := [(0, { thr0 with part := 0, asid := 0, wait := .page [pageKey 0 (page * 65536)] })] }
/-- The fault is known, and what the tables hold for its page. -/
def walkedAs (s : State) (page : Nat) : Option (FaultRec × Tr × State) := (s.faultNamed 0 0 page).map fun f => (f, s.walkPage f.who (f.page * 65536))
theorem witness_FaultEvents :
    (∀ page ∈ [0x3C0, 0x3C1], (faulting page).powered = true ∧ (faulting page).log = [] ∧ (faulting page).due = [] ∧ (faulting page).cmds = []) ∧
    (match walkedAs (faulting 0x3C0) 0x3C0 with
      | some (_, .ok x, _) => x.home != 2
      | _ => false) = true ∧
    (match walkedAs (faulting 0x3C1) 0x3C1 with
      | some (f, .absent _, s1) => s1.faults.contains f
      | _ => false) = true := by decide +kernel
/-- A record that is not posted, in a partition whose fault queue has a base; and one whose queue is full. -/
def posting (tail : Word) : State :=
  { st with
    faults := [{ tag := 2049, page := 1, va := 65536, asid := 2049, access := 0, kind := 0, core := 0, cid := 2049, part := 1, posted := false }]
    parts := [(0, Part.zeroReset), (1, { part1 with fq := { base := 0x07FF000000002006, tail } })] }
theorem witness_RegisterAndFaultEvents :
    st.powered = true ∧ (part1.rdetEn = false) ∧
    (∃ f s1, (posting 0).faults[0]? = some f ∧ f.posted = false ∧
      (posting 0).postRing (agentOf f.va) f.part Part.fq (fun p r => { p with fq := r }) 32 f.bytes = (.done, s1)) ∧
    (∃ f, (posting 64).faults[0]? = some f ∧ ((posting 64).part f.part).fq.full = true) ∧
    (let s := stPart fun p => { p with nstr := 2, lpages := 8, streams := [(0, { base := 65536, npages := 4 }), (1, { base := 65536, lpbase := 4, npages := 4, en := true })] }
     (s.stream 1 0).en = false ∧ 0 < (s.part 1).nstr ∧ (s.stream 1 0).lpbase + (s.stream 1 0).npages ≤ 4 ∧ (s.stream 1 1).en = true ∧
       (s.stream 1 1).groups = [] ∧ (s.stream 1 0).base.toNat + (s.stream 1 0).npages * 65536 ≤ carveWindow) ∧
    (let s := stPart fun p => { p with streams := [(0, { en := true, groups := [{ tag := 1, extents := [] }] })] }
     (s.stream 1 0).groups ≠ []) := by
  refine ⟨by decide +kernel, by decide +kernel, ⟨_, _, rfl, rfl, rfl⟩, ⟨_, rfl, by decide +kernel⟩, by decide +kernel, by decide +kernel⟩
/-- A partition with a save area in its window. -/
def withArea (p : Part) : Part := { p with ctxSave := 0x0000400000000000 }
theorem witness_DebugEvents :
    (let s := { stPart withArea with units := [] }
     s.liveCtx 1 1 = true ∧ (s.part 1).dbgState = 0 ∧ s.dbgFits 1 1 = true) ∧
    (let s := stPart fun p => { p with dbgState := 2, dbgCtx := 1 }
     s.liveCtx 1 1 = true ∧ (s.part 1).dbgState = 2 ∧ (s.part 1).dbgCtx = 1) ∧ st.liveCtx 1 2 = false ∧
    (st.liveCtx 1 1 = true ∧ (st.part 1).dbgState ≠ 2) ∧
    (let s := stPart fun p => { p with dbgState := 2, dbgCtx := 5 }
     s.liveCtx 1 1 = true ∧ (s.part 1).dbgState ≠ 0 ∧ (s.part 1).dbgCtx ≠ 1) ∧
    (st.liveCtx 1 1 = true ∧ (st.part 1).dbgState = 0 ∧ st.dbgFits 1 1 = false) := by decide +kernel
/-! ### Witnesses: issue and the scheduler -/

/-- A thread of core 0 of partition 0 at the placed line. -/
def issuing : State := { absentSt with threads := [(0, { absentSt.me with pc := 0x03C00000 })] }
theorem witness_IssueEvent :
    issuing.powered = true ∧ issuing.issuable.contains 0 = true ∧ (issuing.leader 0).map Prod.snd = some (issuing.thr 0) ∧
    (match (issuing.modQuad 0 fun q => { q with lastIssue := issuing.now, issued := true }).fetchFor 0 with
      | .ready x _ => !x.words.isEmpty
      | .over _ => false) = true := by decide +kernel

/-- A launch record: one unit of one thread, entry at the placed line, counter at the base of the carve-out window. -/
def record (threads : Nat) : Nat :=
  0x03C00000 + 2 ^ (8 * 8) * 1 + 2 ^ (8 * 10) * 1 + 2 ^ (8 * 12) * 1 + 2 ^ (8 * 16) * (threads + 2 ^ 6 * 1 + 2 ^ 12 * 16) +
    2 ^ (8 * 0x78) * 0x07FF000000000800
/-- Queue 0 of partition 0 with that record at HEAD. -/
def queued (threads : Nat) (q : Queue := { en := true, base := 0x07FF000000001000, tail := 1 }) : State :=
  { fetching with
    parts := [(0, { fetching.part 0 with carve := 1, cores := 3, queues := 1 })]
    queues := [(0, q)]
    mem := putWin fetching.mem 0 0x1000 256 (record threads) }
/-- The scheduler reads the record at HEAD, and judges it. -/
def judged (s : State) : Option (Bool × Verdict) :=
  match s.schedLook (schedWho 0 0) ((s.queue 0).slotAddr (s.queue 0).head) .load 0 none with
  | (.ok _, s1) =>
    match s1.blockRead (schedWho 0 0) ((s.queue 0).slotAddr (s.queue 0).head) 256 0 with
    | (.ok _, x, poison, s2) => some (poison, (s2.judge 0 0 x (parseLaunch x) none).1)
    | _ => none
  | _ => none
def poisonedRecord : State := { queued 1 with mem := (queued 1).mem.setPois (wayAddr 0 0 0x1000) true }
theorem witness_LaunchValidate :
    (∀ s ∈ [queued 1, queued 33, poisonedRecord], s.powered = true ∧ (s.queue 0).owner = 0 ∧ (s.queue 0).en = true ∧ (s.queue 0).valid = false ∧ (s.queue 0).hold = none ∧
      (s.queue 0).head ≠ (s.queue 0).tail ∧ s.partRuns 0 = true) ∧
    judged (queued 1) = some (false, .good) ∧ judged (queued 33) = some (false, .refuse 2) ∧ (judged poisonedRecord).map Prod.fst = some true := by decide +kernel
/-- A refused record whose status word is in the window. -/
def refusedStatus : State :=
  { queued 33 with mem := putWin (queued 33).mem 0 0x1000 256 (record 33 + 2 ^ (8 * 0xE0) * 0x07FF000000000900) }
theorem witness_LaunchRefusal :
    judged refusedStatus = some (false, .refuse 2) ∧ (record 33 / 2 ^ (8 * 0xE0)) % 2 ^ 64 = 0 ∧
    (let r := parseLaunch (record 33 + 2 ^ (8 * 0xE0) * 0x07FF000000000900)
     r.status ≠ 0 ∧ r.status.toNat % 8 = 0) ∧
    (match refusedStatus.blockPlaces (schedWho 0 0 0) .store 0x07FF000000000900 8 with
      | (.ok _, _) => true
      | _ => false) = true := by decide +kernel
/-- The words of a launch in the window: zero, and not. -/
theorem witness_LaunchWords :
    ∀ e ∈ [(0x07FF000000000800, true), (0x07FF000000001000, false)],
      (match (queued 1).blockPlaces (schedWho 0 0 1) .store e.1 8 with
        | (.ok ps, s1) => (match placeOf ps e.1 with
            | some p => s1.mem.readN (p.phys + e.1 % 128) 8 == 0
            | none => true) == e.2
        | _ => false) = true := by decide +kernel
/-- The record validated, without a dependence, and with one that exceeds its threshold. -/
def accepting (dep : Dword) : State :=
  let s := queued 1 { en := true, base := 0x07FF000000001000, tail := 1, valid := true, head_ := { parseLaunch (record 1) with dep } }
  { s with mem := s.mem.writeN carveBase 8 7 }
theorem witness_LaunchAccept :
    (∀ s ∈ [accepting 0, accepting 0x07FF000000000000], s.powered = true ∧ (s.queue 0).en = true ∧ (s.queue 0).valid = true ∧ (s.queue 0).hold = none ∧
      s.partRuns 0 = true) ∧
    (let s := accepting 0
     s.eligible (schedWho 0 0) (s.queue 0).head_ none = (.yes, s) ∧ s.freeCtx 0 ≠ [] ∧ (s.queue 0).head_.status = 0 ∧
       (∃ p, s.schedLook (schedWho 0 0) 0x07FF000000000800 .store 1 none = (.ok p, s))) ∧
    (∃ s1, (accepting 0x07FF000000000000).eligible (schedWho 0 0) ((accepting 0x07FF000000000000).queue 0).head_ none = (.no, s1)) :=
  ⟨by decide +kernel, ⟨rfl, by decide +kernel, rfl, _, rfl⟩, _, rfl⟩

/-- A launch of one unit, its unit not dealt, or in the queue of core 0. -/
def dealing (queue : List QEntry) : State :=
  { State.reset with
    parts := [(0, { Part.zeroReset with cores := 3 })], cores := [(0, { queue })]
    launches := [(1, { part := 0, asid := 0, r := parseLaunch (record 1), order := 0, acceptMs := 0 })] }
def entries (n : Nat) : List QEntry := (List.range n).map fun i => { cid := 1, linear := i, prio := 0, order := i }
theorem witness_UnitEvents :
    ((dealing []).powered = true ∧ ∃ prio, prio ≤ 7 ∧ ∃ p ∈ (dealing []).parts.keys, ((dealing []).dealable prio p).isSome = true) ∧
    (let s := dealing (entries 1)
     s.powered = true ∧ s.servedBy 0 = some 0 ∧ s.savedOf 0 = [] ∧ s.queueOf 0 0 = entries 1 ∧
       ((s.launches.find? 1).bind fun l => (s.modCore 0 fun c => { c with queue := [] }).placeLinear 0 1 l 0).isSome = true) ∧
    (bitsOf (st.part 1).cores).length < 2 ∧
    (let s := dealing (entries 12)
     bitsOf (s.part 0).cores = [0, 1] ∧ ((s.coreRec 0).queue.map QEntry.order).Nodup ∧ (s.part 0).bal < s.depth 0 0 - s.depth 1 0 ∧ min 16 ((s.depth 0 0 - s.depth 1 0) / 2) ≤ s.queueRoom 1) :=
  ⟨⟨by decide +kernel, 0, by decide +kernel, 0, by decide +kernel, by decide +kernel⟩, by decide +kernel, by decide +kernel, by decide +kernel⟩
/-- Launch 1 complete, or not, with its edge counter in the carve-out window. -/
def ending (complete : Bool) : State :=
  { queued 1 with launches := [(1, { part := 0, asid := 0, r := { edge0 := 0x07FF000000000800 }, order := 0, acceptMs := 0, complete })] }
theorem witness_LaunchCompletion :
    (∀ b : Bool, (ending b).powered = true ∧ ((ending b).launches.find? 1).map Launch.complete = some b) ∧ (ending true).due = [] ∧
      (∀ l, (ending true).launches.find? 1 = some l → l.closing = none) ∧
      ∃ p, (ending true).schedLook (schedWho 0 0 1) 0x07FF000000000800 .store 1 none = (.ok p, ending true) :=
  ⟨by decide +kernel, by decide +kernel, fun l h => by obtain rfl := Option.some.inj h; rfl, _, rfl⟩
/-! ### Witnesses: stops, time slices, stalls, resets -/

/-- The unit stops under a pre-emption, its matrix engine at work or not, and its partition has a save area. -/
def stopping (busy : Bool) (startAt rt : Nat) : State :=
  { stPart withArea with
    units := [(1, { unit0 with stopping := some .slice })]
    quads := [(0, { mma := if busy then some { unit := 1, group := 0, acc := 0, tile := [], accB := 0, handle := 0, startAt := 0 } else none })]
    stops := [{ part := 1, reqs := [(.slice, 1)], units := [1], startAt }], rt }
/-- A save area has room for an image. -/
theorem saveRoom_some {s : State} {part size : Nat} (h : ((s.saveGaps part).map (gapSlots size)).foldl (· + ·) 0 ≠ 0) :
    ∃ off s1, s.saveRoom part size = some (off, s1) := by
  unfold State.saveRoom
  simp only [if_neg h]
  exact ⟨_, _, rfl⟩
/-- Two units stop for a debug halt of their launch. -/
def halting (units : Tbl UnitRec) : State :=
  { stPart (fun p => { withArea p with dbgState := 1, dbgCtx := 1 }) with
    units := units.map fun e => (e.1, { e.2 with stopping := some .debug })
    stops := [{ part := 1, reqs := [(.debug, 1)], units := units.keys, startAt := 0 }] }
theorem witness_StopEvents :
    (st.powered = true ∧ ∃ r, st.units.find? 1 = some r ∧ r.part = 1 ∧ (1 : BitVec 32).getLsbD r.core = true ∧ r.groups ≠ [] ∧ r.stopping = none ∧
      (StopCause.slice = .debug → r.cid = 1 * 2048 + (st.part 1).dbgCtx)) ∧
    (let s := stopping false 0 0
     s.powered = true ∧ (∃ x ∈ s.stops, x.part = 1) ∧ (∀ x ∈ s.stops, x.part = 1 → x.has .debug = false) ∧ s.collecting 1 = false ∧ s.stoppingOf 1 = [1] ∧
       ∃ r, s.units.find? 1 = some r ∧ ∃ off s1, s.saveRoom r.part (s.capture 1 r).size = some (off, s1)) ∧
    (let s := stopping true 0 (10 * 10 ^ 12)
     s.powered = true ∧ s.collecting 1 = true ∧
       ∃ x ∈ s.stops, x.part = 1 ∧ x.has .suspend = false ∧ x.reported = false ∧ s.awaits x = true ∧ x.startAt + 10 * 10 ^ 12 ≤ s.rt) :=
  ⟨⟨by decide +kernel, _, rfl, rfl, by decide +kernel, by decide +kernel, rfl, by decide +kernel⟩,
    ⟨by decide +kernel, by decide +kernel, by decide +kernel, by decide +kernel, by decide +kernel, _, rfl, saveRoom_some (by decide +kernel)⟩,
    by decide +kernel, by decide +kernel, by decide +kernel⟩
def image0 : SavedUnit := { uid := 1, unit := unit0, threads := [], cvs := [], pairs := [], accs := [], offset := 0, size := 256, cause := .slice }
/-- A halt of two units; of a launch whose unit is saved, with room for the directory; one image; no save area. -/
theorem witness_StopEvents_debug :
    (let s := halting [(1, unit0), (2, { unit0 with linear := 1, groups := [] })]
     s.powered = true ∧ (∃ x ∈ s.stops, x.part = 1 ∧ x.has .debug = true) ∧ s.collecting 1 = false ∧ s.stoppingOf 1 = [1, 2]) ∧
    (let s := { halting [] with saved := [image0] }
     let saved := (s.stoppingOf 1).foldl State.saveUnit s
     s.collecting 1 = false ∧ (∃ x ∈ s.stops, x.part = 1 ∧ x.has .debug = true) ∧ (saved.part 1).dbgState = 1 ∧ (saved.part 1).dbgCtx = 1 ∧
       (let mine := saved.saved.filter fun x => x.unit.part == 1 && x.unit.cid == 2049
        let others := saved.saved.filter fun x => x.unit.part == 1 && x.unit.cid != 2049
        mine.length = 1 ∧ (mine.map SavedUnit.size).foldl (· + ·) 0 + (16 * mine.length + 255) / 256 * 256 + (others.map SavedUnit.size).foldl (· + ·) 0 ≤
          saved.saveSize 1)) ∧
    (([image0]).filter fun x => x.unit.cid == 2049) = [image0] ∧
    (let s := stopping true 0 0
     (s.part 1).present = true ∧ (st.saveRoom 1 (st.capture 1 unit0).size).isNone = true) ∧
    ((∀ x ∈ (halting [(1, unit0)]).stops, x.part = 1 → x.has .debug = true)) := by decide +kernel

/-- Partition 1 of a pool of core 0 holds it; partition 2 has work, or not. -/
def pooled (work : Bool) : State :=
  let member : Part := { present := true, cores := 1, pooled := true }
  let mine (part : Nat) : Launch := { part, asid := part * 2048 + 1, r := { gx := 1, gy := 1, gz := 1 }, order := 0, acceptMs := 0 }
  { st with
    parts := [(0, Part.zeroReset), (1, member), (2, member)], pools := [{ cores := 1, holder := 1, till := 5 }], now := 9
    launches := (2049, mine 1) :: if work then [(4097, mine 2)] else [] }
theorem witness_SliceAndStall :
    (∀ b : Bool, let s := pooled b
      s.powered = true ∧ s.hasWork 1 = true ∧ s.nextHolder { cores := 1, holder := 1, till := 5 } = (if b then some 2 else none) ∧ (s.part 1).leaving = none ∧
        (s.members 1).contains 1 = true ∧ s.onCores 1 1 = true ∧ s.changers 1 = []) ∧
    -- a partition that is to join the pool, no other of whose changes waits
    (let s := (pooled false).modPart 2 fun p => { p with pooled := false, cores := 2, leaving := some (1, true) }
     s.changers 1 = [2] ∧ (s.part 2).leaving = some (1, true) ∧ ∀ t ∈ s.pools, t.till = 0 ∨ t.cores = 1) ∧
    (let s := { stWith fun th => { th with wait := .token } with units := [(1, { unit0 with stall := some 0 })], now := 2 ^ 20 }
     s.powered = true ∧ (∃ u l, s.units.find? 1 = some u ∧ u.stall = some 0 ∧ s.stalled 1 u = true ∧ 0 + 2 ^ 20 ≤ s.now ∧ u.cid % 2048 ≠ 0 ∧
       s.launches.find? u.cid = some l ∧ l.complete = false)) :=
  ⟨by decide +kernel, by decide +kernel, by decide +kernel, _, _, rfl, rfl, by decide +kernel, by decide +kernel, by decide +kernel, rfl, rfl⟩
/-- A partition being reset, with no command that has issued; channel 3 waits to be cleared. -/
theorem witness_ResetEvents :
    (let s := { stPart fun p => { p with resetting := true, svc := some 5 } with units := [], launches := [] }
     s.powered = true ∧ (s.part 1).resetting = true ∧ s.resetReady 1 = true ∧ (s.part 1).svc = some 5 ∧
       ∃ k, k < 144 ∧ Tbl.find? (s.part 1).closed k ≠ some false) ∧
    (let s := { st with clearing := [(1, 8, [(0, 1)])] }
     s.powered = true ∧ ∃ e ∈ s.clearing, e.1 = 1 ∧ (∃ x, x < lpBase ∧ e.2.1.getLsbD (x / 65536 % 256) = true) ∧
       ∃ x, lpBase ≤ x ∧ x < carveBase ∧ ∃ r ∈ e.2.2, r.1 ≤ (x - lpBase) / 65536 ∧ (x - lpBase) / 65536 < r.1 + r.2) :=
  ⟨by decide +kernel, by decide +kernel, (1, 8, [(0, 1)]), by decide +kernel, rfl, ⟨3 * 65536, by decide +kernel⟩, lpBase, by decide +kernel⟩

/-! ### Witnesses: engine commands and the eviction engine -/

/-- A pool of one HBM4E frame and one of LPDDR-6, its handle 1 as given. -/
def evicting (f : Frame) : State :=
  stPart fun p => { p with chans := 1, res := 2, spill := 1, lframes := 1, lruns := [(0, 1)], pool := { lowat := 3, frames := [(1, f)] } }
theorem witness_EvictionEvents :
    (let s := evicting { ref := 1 }
     s.powered = true ∧ ((s.pool 1).frames.find? 1).isSome = true ∧ (∀ x ∈ (s.pool 1).frames, x.2.st = frRESIDENT ∧ x.2.pin = 0) ∧ (s.part 1).freeFrames true ≠ [] ∧
       ((s.part 1).freeFrames false).length < (s.pool 1).lowat) ∧
    (∀ f ∈ [({ ref := 1, st := frMARKED, dest := some 0 } : Frame), { ref := 1, pin := 1, st := frMARKED, dest := some 0 }],
      (evicting f).powered = true ∧ (evicting f).kvFrameOf 1 1 = some f ∧ ((evicting f).kvBase 1 f).isSome = true ∧ ((evicting f).frameAddr 1 1 0).isSome = true) ∧
    (let f : Frame := { ref := 1, st := frMIGRATING, spilled := true, dest := some 1 }
     (evicting f).powered = true ∧ (evicting f).kvFrameOf 1 1 = some f ∧ ((evicting f).kvBase 1 f).isSome = true ∧ ((evicting f).frameAddr 1 0 1).isSome = true) := by
  decide +kernel

/-- Command 1 of the unit, in tile 0 of the state given, with its chain. -/
def commanding (c : Cmd) (tile : Word := mkTile 2 1 0) : State :=
  { st with units := [(1, { unit0 with tiles := [(0, tile)] })], cmds := [(1, c)], chains := [{ asid := c.tagN, desc := 0x07FF000000000000, engine := 32 }] }
/-- A copy of 64 bytes within the carve-out window. -/
def copying : Cmd :=
  { cmd0 with chain := 0x07FF000000000000, seqWord := 0x07FF000000000200, src := 0x07FF000000001000, dst := 0x07FF000000002000, len := 64, unit := some 1 }
/-- The command that the engine takes next, and whether its locks are free at its milestone. -/
def takes (c : Cmd) (tile : Word := mkTile 2 1 0) : Option (Nat × Cmd × Bool) :=
  ((commanding c tile).nextCommand 32).map fun (k, x, s1) =>
    let s2 := s1.setMs x.engine (max (max (s1.msOf x.engine) x.after) (s1.tileChanged x) + 1)
    (k, x, s2.locksFree k x (s2.issueLocks x []) && (s1.cmds.find? k).isSome)
def tileCmd (op : BitVec 8) : Cmd := 
  { copying with op, src := if op = 6 then 0 else copying.src, dst := if op = 6 then copying.dst else 0, len := 128, aux := 64, aux2 := 64, phase := .queued }
theorem witness_CommandIssue :
    takes { copying with phase := .queued } = some (1, { copying with phase := .queued }, true) ∧ copying.early = 0 ∧
    ((takes { copying with phase := .queued, len := 16 }).isSome = true ∧ ({ copying with phase := .queued, len := 16 } : Cmd).early ≠ 0) ∧
    (takes (tileCmd 5) (mkTile 0 1 0) = some (1, tileCmd 5, true) ∧ (tileCmd 5).early = 0 ∧ (tileCmd 5).onTile = true ∧
      (commanding (tileCmd 5) (mkTile 0 1 0)).tileStart (tileCmd 5) = .ok 0 0 4096 (mkTile 0 1 0)) ∧
    takes (tileCmd 6) = some (1, tileCmd 6, true) ∧ takes copying = none := by decide +kernel

/-- A command's next piece can be moved. -/
def pieceMoves (s : State) (c : Cmd) (src dst : List (Nat × Nat)) : Bool :=
  match s.scan 1 c (onSide .load src ++ onSide .store dst) with
  | (true, s0) => match s0.cmdAccess 1 c .load (secRanges (c.piece (allSecs src))) with
    | (.ok ps, s1) => match (s1.leaseLoad c.engine (leaseLines ps)).cmdAccess 1 c .store (secRanges (c.piece (allSecs dst))) with
      | (.ok _, s2) => decide (s2.cmds.find? 1 = some c)
      | _ => false
    | _ => false
  | _ => false
theorem moves_of {s : State} {c : Cmd} {src dst : List (Nat × Nat)} (h : pieceMoves s c src dst = true) :
    ∃ ps pd s0 s1 s2, MovesPiece s 1 c src dst ps pd s0 s1 s2 := by
  unfold pieceMoves at h
  split at h
  · split at h
    · split at h
      · exact ⟨_, _, _, _, _, ‹_›, ‹_›, ‹_›, of_decide_eq_true h⟩
      · simp at h
    · simp at h
  · simp at h
/-- An issued command whose partition's commands do not stand still. -/
def issuedAs (s : State) (c : Cmd) (op : Nat) : Bool :=
  s.powered && decide (s.cmds.find? 1 = some c) && decide (c.phase = .issued) && decide (c.opN = op) && !s.cmdStill c
theorem issued_of {s : State} {c : Cmd} {op : Nat} (h : issuedAs s c op = true) : Issued s 1 c op := by
  simp only [issuedAs, Bool.and_eq_true, decide_eq_true_eq, Bool.not_eq_true'] at h
  exact ⟨h.1.1.1.1, h.1.1.1.2, h.1.1.2, h.1.2, h.2⟩
/-- What the pages of a command's ranges say, the command still as it was. -/
def fates (s : State) (c : Cmd) (rs : List (Side × Nat × Nat)) : Option (List PageFate) :=
  let (fs, s1) := s.pageFates c (sidePages rs)
  if rs.all (fun r => !badSpan r.2) ∧ s1.cmds.find? 1 = some c then some (fs.map Prod.snd) else none
/-- The command can read, or write, its next piece. -/
def pieceFound (s : State) (c : Cmd) (u : Use) (rs : List (Nat × Nat)) : Bool :=
  match s.scan 1 c (onSide (match u with | .load => .load | _ => .store) rs) with
  | (true, s0) => match s0.cmdAccess 1 c u (secRanges (c.piece (allSecs rs))) with
    | (.ok _, s1) => decide (s1.cmds.find? 1 = some c)
    | _ => false
  | _ => false
/-- COPY moves; one that leaves its region, and one to a way that is not carved. FILL writes. -/
theorem witness_Transfers :
    (∃ ps pd s0 s1 s2, Issued (commanding copying) 1 copying 1 ∧
      MovesPiece (commanding copying) 1 copying [(0x07FF000000001000, 64)] [(0x07FF000000002000, 64)] ps pd s0 s1 s2) ∧
    (let c := { copying with src := 0x07FFFFFFFFFFFFE0 }
     Issued (commanding c) 1 c 1 ∧ badSpan (c.src.toNat, c.len.toNat) = true) ∧
    (let c := { copying with dst := 0x07FF000001000000 }
     Issued (commanding c) 1 c 1 ∧
       (fates (commanding c) c (onSide .load [(c.src.toNat, 64)] ++ onSide .store [(c.dst.toNat, 64)])).map (·.contains .denied) = some true) ∧
    (let c := { copying with op := 4 }
     Issued (commanding c) 1 c 4 ∧ pieceFound (commanding c) c .store [(0x07FF000000002000, 64)] = true) := by
  refine ⟨?_, ?_, ?_, ?_⟩
  · obtain ⟨ps, pd, s0, s1, s2, h⟩ :=
      moves_of (s := commanding copying) (c := copying) (src := [(0x07FF000000001000, 64)]) (dst := [(0x07FF000000002000, 64)]) (by decide +kernel)
    exact ⟨ps, pd, s0, s1, s2, issued_of (by decide +kernel), h⟩
  all_goals exact ⟨issued_of (by decide +kernel), by decide +kernel⟩
/-- A list of one element, aligned or not. -/
def listing (op : BitVec 8) : Cmd := { copying with op, len := 1, aux := 0 }
def listed (c : Cmd) (a : Nat := 0x07FF000000003000) : State :=
  { commanding c with mem := putWin (commanding c).mem 0 (if c.op = 2 then 0x1000 else 0x2000) 8 a }
def listFound (c : Cmd) (a : Nat) (p : State → Bool) : Bool :=
  match (listed c a).listOf 1 c with
  | (some [x], s0) => x == a && p s0
  | _ => false
theorem witness_Lists :
    (Issued (listed (listing 2)) 1 (listing 2) 2 ∧ listFound (listing 2) 0x07FF000000003000 (fun s0 =>
      pieceMoves s0 (listing 2) [(0x07FF000000003000, 32)] [(listing 2).packed]) = true) ∧
    (Issued (listed (listing 3)) 1 (listing 3) 3 ∧ listFound (listing 3) 0x07FF000000003000 (fun s0 =>
      pieceMoves s0 (listing 3) [(listing 3).packed] [(0x07FF000000003000, 32)]) = true) ∧
    (∀ op ∈ [(2 : BitVec 8), 3], Issued (listed (listing op) 0x07FF000000003008) 1 (listing op) op.toNat ∧
      listFound (listing op) 0x07FF000000003008 (fun s0 => (s0.cmds.find? 1).isSome) = true) := by
  refine ⟨⟨issued_of (by decide +kernel), by decide +kernel⟩, ⟨issued_of (by decide +kernel), by decide +kernel⟩, fun op h => ?_⟩
  simp only [List.mem_cons, List.not_mem_nil, or_false] at h
  rcases h with rfl | rfl <;> exact ⟨issued_of (by decide +kernel), by decide +kernel⟩
/-- A tile command under way, over the first 4 KiB of core 0's tile store. -/
def onTile (op : BitVec 8) : Cmd := { tileCmd op with phase := .issued, region := some (0, 0, 4096), tileTaken := true }
/-- TFILL of one line of the pool's sequence 1, whose position 18 is held and 19 is not. -/
def kvFill (p : Nat) : Cmd := { onTile 5 with flags := 4, src := BitVec.ofNat 64 (p * 2 ^ 32 + 1), len := 1 }
def kvFilling (p : Nat) : State := { commanding (kvFill p) with parts := [(0, Part.zeroReset), (1, kvPart)] }
/-- The unit of a tile command is saved. -/
def savedTile (op : BitVec 8) : State :=
  { commanding { onTile op with region := none } with
    units := [], saved := [{ uid := 1, unit := unit0, threads := [], cvs := [], pairs := [], accs := [], offset := 0, size := 256, cause := .slice }] }
theorem witness_TileTransfers :
    (Issued (commanding (onTile 5)) 1 (onTile 5) 5 ∧ (onTile 5).kv = false ∧ (onTile 5).region = some (0, 0, 4096) ∧
      pieceFound (commanding (onTile 5)) (onTile 5) .load (onTile 5).rowRanges = true) ∧
    (Issued (commanding (onTile 6)) 1 (onTile 6) 6 ∧ pieceFound (commanding (onTile 6)) (onTile 6) .store (onTile 6).rowRanges = true) ∧
    (∀ op ∈ [(5 : BitVec 8), 6], Issued (savedTile op) 1 { onTile op with region := none } op.toNat ∧ ∃ x ∈ (savedTile op).saved, (onTile op).unit = some x.uid) ∧
    (∀ p ∈ [18, 19], Issued (kvFilling p) 1 (kvFill p) 5 ∧ (kvFill p).kv = true ∧ (kvFill p).len = 1 ∧ (kvFill p).progress = 0 ∧
      (kvFill p).kvCounts = [] ∧ (kvFill p).kvFirst = 0xFFFFFFFF) ∧
    ((kvFilling 18).resolve 1 1 0 18 0 [0, 1, 2, 3]).status = 0 ∧ ((kvFilling 19).resolve 1 1 0 19 0 [0, 1, 2, 3]).status ≠ 0 := by
  refine ⟨⟨issued_of (by decide +kernel), by decide +kernel, rfl, by decide +kernel⟩, ⟨issued_of (by decide +kernel), by decide +kernel⟩, fun op h => ?_,
    fun p hp => ?_, by decide +kernel, by decide +kernel⟩
  · simp only [List.mem_cons, List.not_mem_nil, or_false] at h
    rcases h with rfl | rfl <;> exact ⟨issued_of (by decide +kernel), by decide +kernel⟩
  · simp only [List.mem_cons, List.not_mem_nil, or_false] at hp
    rcases hp with rfl | rfl <;> exact ⟨issued_of (by decide +kernel), by decide +kernel⟩
/-- A PUT of partition 0 from its carve-out window to a page of package 1, over an open or a closed context; its engine is free of
core 0's stops. -/
def putOf : Cmd := { copying with op := 7, asid := 0, part := 0, cid := 1, dst := 0x03C00000 }
def sending (closed : Tbl Bool) (c : Cmd := putOf) : State :=
  { fetching with
    mem := fetching.mem.writeN (tableAddr 1 (tableFirst 0x3C0 1 0) + 8 * 0x3C0) 8 (imagePte (2 ^ 28) + 2 ^ 62)
    parts := [(0, { fetching.part 0 with carve := 1, cores := 1, closed })], cmds := [(1, c)] }
def sends (closed : Tbl Bool) : Bool :=
  let c := putOf
  match (sending closed).scan 1 c (onSide .load [(c.src.toNat, 64)] ++ onSide .put [(c.dst.toNat, 64)]) with
  | (true, s0) => match s0.cmdAccess 1 c .load (secRanges (c.piece (allSecs [(c.src.toNat, 64)]))) with
    | (.ok _, s1) => decide (s1.cmds.find? 1 = some c)
    | _ => false
  | _ => false
theorem witness_Put :
    (∀ l ∈ [[], [(1, true)]], Issued (sending l) 1 putOf 7 ∧ sends l = true) ∧ putOf.unacked = false ∧
    putOf.dst.toNat / 65536 = (putOf.dst.toNat + putOf.len.toNat - 1) / 65536 ∧ putOf.piece (allSecs [(putOf.dst.toNat, 64)]) ≠ [] ∧
    fates (sending [(1, false)]) putOf (onSide .load [(putOf.src.toNat, 64)] ++ onSide .put [(putOf.dst.toNat, 64)]) = some [.ok, .closed] ∧
    (let c := { putOf with op := 1, src := 0x03C10000, dst := 0x07FF000000002000 }
     issuedAs (sending [] c) c 1 = true ∧
       fates (sending [] c) c (onSide .load [(c.src.toNat, 64)] ++ onSide .store [(c.dst.toNat, 64)]) = some [.absent false, .ok]) ∧
    (let c := { putOf with unacked := true }
     (commanding c).powered = true ∧ (commanding c).cmds.find? 1 = some c ∧ c.phase = .issued ∧ c.unacked = true) := by
  refine ⟨fun l hl => ?_, rfl, by decide +kernel, by decide +kernel, by decide +kernel, by decide +kernel, by decide +kernel⟩
  simp only [List.mem_cons, List.not_mem_nil, or_false] at hl
  rcases hl with rfl | rfl <;> exact ⟨issued_of (by decide +kernel), by decide +kernel⟩
/-- A command whose effects have ended: its chain's next, or a later one. -/
theorem witness_CommandComplete :
    ∀ seq ∈ [1, 2], let c := { copying with phase := .effected, seq }
      let s := commanding c
      s.powered = true ∧ s.cmds.find? 1 = some c ∧ c.waiting = none ∧ s.cmdStill c = false ∧ (s.part c.part).resetting = false ∧
      (s.chainOf c.tagN c.chain).map (fun r => (r.upTo, r.ahead, r.broken)) = some (0, [], false) ∧ c.record = 0 ∧ c.status = 0 ∧
      (match (s.setMs c.engine (s.msOf c.engine + 1)).cmdAccess 1 c .store [(c.seqWord.toNat, 8)] with
        | (.ok _, _) => true
        | _ => false) = true := by decide +kernel
/-! ### Witnesses: append streams and flash -/

/-- An append command of partition 1 under way on stream 0. -/
def appendOf (op : BitVec 8) : Cmd :=
  { copying with op, engine := 161, tag := 5, src := if op = 0x10 then 0x07FF000000001000 else 0, dst := 0, len := if op = 0x10 then 64 else 0 }
/-- An extent of group 5, at the stream's first page. -/
def extent0 : Extent := { stream := 0, tag := 5, va := 65536, lpage := 0, length := 64 }
def stream0 : Stream := { base := 65536, npages := 4, en := true, wptr := 1 }
/-- The partition's stream 0 with groups, and its published pages. -/
def streaming (c : Cmd) (groups : List OpenGroup) (published : Tbl Nat := []) : State :=
  { commanding c with
    parts := [(0, Part.zeroReset), (1, { part1 with nstr := 1, lpages := 8, published, streams := [(0, { stream0 with groups })] })] }
def queuedAppend : Cmd := { appendOf 0x10 with phase := .queued }
theorem witness_AppendEvents :
    (match (streaming queuedAppend []).nextCommand 161 with
      | some (1, c, s1) =>
        let s2 := s1.setMs 161 (max (max (s1.msOf 161) c.after) (s1.tileChanged c) + 1)
        c == queuedAppend && (s1.cmds.find? 1).isSome && c.early == 0 && c.engine == 161 && s2.locksFree 1 c (s2.issueLocks c []) && (s1.stream 1 0).en &&
          (s1.stream 1 0).groups.length == 0 && (s1.part 1).placement (s1.stream 1 0) (pagesFor c.len.toNat) == some (1, 2)
      | _ => false) = true ∧
    (let c := appendOf 0x10
     let s := streaming c [{ tag := 5, extents := [extent0] }]
     Issued s 1 c 0x10 ∧ (match s.cmdAccess 1 c .load [(c.src.toNat, c.len.toNat)] with
        | (.ok _, s1) => (pagesOf c.src.toNat c.len.toNat).all (fun va => !s.remoteAt c va) && (s1.cmds.find? 1).isSome
        | _ => false) = true ∧ ((s.stream c.part c.stream).group c.tag.toNat).isSome = true) ∧
    (let c := { putOf with op := 0x10, engine := 161, src := 0x03C00000 }
     Issued (sending [] c) 1 c 0x10 ∧ (pagesOf c.src.toNat c.len.toNat).any ((sending [] c).remoteAt c) = true) := by
  refine ⟨by decide +kernel, ⟨issued_of (by decide +kernel), by decide +kernel⟩, issued_of (by decide +kernel), by decide +kernel⟩
/-- A SEAL of a group that has failed, is durable, or neither; with the discard flag or not. -/
theorem witness_SealEvents :
    (∀ discard failed durable : Bool, let c := { appendOf 0x11 with flags := if discard then 8 else 0 }
      let s := streaming c [{ tag := 5, extents := [extent0], failed, durable }]
      (s.powered = true ∧ s.cmds.find? 1 = some c ∧ c.phase = .issued ∧ c.opN = 0x11 ∧ s.cmdStill c = false) ∧ ((s.stream c.part c.stream).group c.tag.toNat).map (fun g => (g.failed, g.durable)) = some (failed, durable) ∧
        c.flags.getLsbD 3 = discard) ∧
    (let c := { appendOf 0x12 with aux := 1 }
     let s := streaming c []
     (s.powered = true ∧ s.cmds.find? 1 = some c ∧ c.phase = .issued ∧ c.opN = 0x12 ∧ s.cmdStill c = false) ∧ ∀ i, i < 16 → c.aux.getLsbD i = true → (s.stream c.part i).en = true) ∧
    (let c := { appendOf 0x13 with dst := 65536, len := 2 }
     let s := streaming c [] [(0, 0), (1, 0)]
     let x := s.stream c.part c.stream
     (s.powered = true ∧ s.cmds.find? 1 = some c ∧ c.phase = .issued ∧ c.opN = 0x13 ∧ s.cmdStill c = false) ∧ c.dst.toNat % 65536 = 0 ∧ x.base.toNat ≤ c.dst.toNat ∧
       (c.dst.toNat - x.base.toNat) / 65536 + 2 ≤ x.npages ∧ ∀ i, i < 2 → x.lpbase + (c.dst.toNat - x.base.toNat) / 65536 + i ∉ (s.part c.part).openPages) := by
  decide +kernel
/-- A line of published page 1 of partition 1, space 1, that a thread waits for. -/
def reading (notice : Option Nat) (rt : Nat) : State :=
  { streaming (appendOf 0x12) [] [(1, 0)] with
    threads := [(0, { thr0 with wait := .line (2049 * 2 ^ 53 + 0x400) })], rt
    flash := [{ key := 2049 * 2 ^ 53 + 0x400, part := 1, page := 1, swm := false, notice }] }
theorem witness_FlashEvents :
    (let s := reading none 0
     s.powered = true ∧ ∃ f, s.flashOf (2049 * 2 ^ 53 + 0x400) = some f ∧ f.notice = none ∧ s.stillPublished f = true) ∧
    (∀ rt ∈ [0, 2 * 10 ^ 12, 100 * 10 ^ 12], (reading (some 0) rt).powered = true ∧
      ((reading (some 0) rt).flashOf (2049 * 2 ^ 53 + 0x400)).map (fun f => (f.notice, f.reported, (reading (some 0) rt).stillPublished f)) = some (some 0, false, true)) ∧
    (let s := { reading none 0 with
        flash := [], lines := [(2049 * 2 ^ 53 + 0x401, {})]
        parts := [(0, Part.zeroReset), (1, { part1 with published := [(1, 0)], colours := 0xFFFFFFFF })]
        tlb := [(pageKey 2049 0x20000, xlateOf (BitVec.ofNat 64 (imagePte 1 + 2 ^ 61)) 0)] }
     s.powered = true ∧ ∃ x, s.cached (pageKey 2049 (0x400 * 128)) = some x ∧ x.home = 2 ∧ (2049 : Nat) ≠ 65537 + 1 ∧
       (∃ e ∈ s.lines, e.1 / 512 = (2049 * 2 ^ 53 + 0x400) / 512) ∧ s.lines.find? (2049 * 2 ^ 53 + 0x400) = none ∧
       s.flashOf (2049 * 2 ^ 53 + 0x400) = none ∧ (Tbl.find? (s.part 1).published x.frame).isSome = true ∧ s.colourOk (0x400 * 128) 2049 1 = true) ∧
    (let s := reading none 0
     s.powered = true ∧ (s.part 1).present = true ∧ ((s.part 1).published.find? 1).isSome = true) := by
  refine ⟨⟨by decide +kernel, _, rfl, rfl, by decide +kernel⟩, by decide +kernel, ⟨by decide +kernel, _, rfl, by decide +kernel⟩, by decide +kernel⟩
/-- A command waits for the line; its page was published anew meanwhile; the wait has passed 2 ms. -/
theorem witness_FlashArrival :
    (let f : FlashRead := { key := 2049 * 2 ^ 53 + 0x400, part := 1, page := 1, swm := false, notice := some 0, cmds := [1] }
     let s := { reading (some 0) (3 * 10 ^ 12) with flash := [f] }
     s.flashOf f.key = some f ∧ s.stillPublished f = true ∧ (s.cmds.find? 1).isSome = true ∧ s.waitedLong f = true) ∧
    (let f : FlashRead := { key := 2049 * 2 ^ 53 + 0x400, part := 1, page := 1, swm := false, notice := some 0, pub := 9 }
     let s := { reading (some 0) 0 with flash := [f] }
     s.flashOf f.key = some f ∧ s.stillPublished f = false ∧ s.waitedLong f = false) := by decide +kernel
/-! ### Witnesses: the fabric and collectives -/

/-- A partition that holds HBM4E frames, with a tree, a closed context, and a request under way at a time. -/
def remote (r : RemoteReq) (rt : Nat) : State :=
  { commanding copying with
    parts := [(0, Part.zeroReset), (1, { part1 with chans := 1, trees := [{ id := 7, space := 0, rb := 0, gb := 0x03C00000, gs := 128 }], closed := [(3, false)] })]
    reqs := [(5, r)], rt }
def req0 : RemoteReq := { part := 1, pkg := 2, frame := 0, offset := 0, gsum := false }
theorem witness_RemoteEvents :
    (∀ r ∈ [req0, { req0 with gsum := true }, { req0 with cmd := some 1 }], ∀ rt ∈ [0, 10 ^ 14], (remote r rt).powered = true ∧ (remote r rt).reqs.find? 5 = some r ∧
      r.sentAt = 0 ∧ ((remote r rt).cmds.find? 1).isSome = true) ∧
    (let s := remote req0 0
     (s.remoteFrame 1 0 0 32).isSome = true ∧ (s.remoteFrame 1 0 0 0).isSome = true ∧ s.mem.dead = 0 ∧ s.remoteFrame 1 0 (2 ^ 35) 0 = none ∧
       (s.part 1).trees.find? (fun t => t.id == BitVec.ofNat 32 7) = some { id := 7, space := 0, rb := 0, gb := 0x03C00000, gs := 128 } ∧ (s.part 1).present = true ∧
       ((s.part 1).closed.find? 3).isSome = true) := by decide +kernel

/-- A PUT unacknowledged past 100 ms; a closed context's other requests; a chunk for a launch that is complete, or has failed. -/
theorem witness_RemoteEvents_more :
    (let c := { putOf with unacked := true }
     let s := { commanding c with rt := 10 ^ 14 }
     s.powered = true ∧ s.cmds.find? 1 = some c ∧ c.unacked = true ∧ c.sentAt + 10 ^ 14 ≤ s.rt) ∧
    (let s := remote req0 0
     (s.part 1).closed.find? 2 ≠ some false ∧ s.reqs.find? 5 = some req0 ∧ req0.part = 1 ∧ req0.gsum = false ∧ req0.pkg = 2 ∧ req0.cmd = none) ∧ (5 : Nat) < 2 ^ 91 := by
  decide +kernel
/-- A launch of two units that binds tree 7: its unit has ended, with its result in a READY tile of 4 KiB. -/
def collRec (shift : Nat) : LaunchRec := { gx := 2, gy := 1, gz := 1, coll := true, tree := 7, shift, nchunk := 2, res := unit0.res }
def collective (l : Launch) : State :=
  { st with
    parts := [(0, Part.zeroReset), (1, { part1 with trees := [{ id := 7, space := 0, rb := 0x07FF000000004000, gb := 0, gs := 0 }] })]
    units := [(1, { unit0 with groups := [], tiles := [(0, mkTile 2 1 0)] })], launches := [(2049, l)] }
def coll0 (shift : Nat) : Launch := { part := 1, asid := 2049, r := collRec shift, order := 0, acceptMs := 0 }
/-- A chunk that the tree sends back, for a launch that has sent it. -/
def arriving : Launch := { coll0 0 with chunkBytes := 64, fired := [(0, [])], arrivals := 2 }
theorem witness_CollectiveEvents :
    (∀ shift ∈ [0, 1], let s := collective (coll0 shift)
      s.powered = true ∧ ∃ u l, s.units.find? 1 = some u ∧ u.groups = [] ∧ s.launches.find? u.cid = some l ∧ l.r.coll = true ∧ l.complete = false ∧ l.collfail = false ∧
        tileState (u.tile l.r.restile) = tileREADY ∧ tileSize (u.tile l.r.restile) = 1 ∧ l.chunkBytes = 0 ∧ l.contributions = [] ∧
        l.r.chunkUnits (u.linear / 2 ^ l.r.shift) = 2 ^ shift) ∧
    (let s := collective arriving
     s.powered = true ∧ s.launches.find? 2049 = some arriving ∧ arriving.r.coll = true ∧ arriving.complete = false ∧ arriving.collfail = false ∧ 0 < arriving.r.nchunk ∧
       (arriving.fired.find? 0).isSome = true ∧ arriving.arrived.find? 0 = none ∧ arriving.inbox.find? 0 = none ∧ 1 < arriving.arrivals) ∧
    (let s := collective arriving
     let w : Who := { source := 162, part := 1, asid := 2048, priv := false, cid := 2049 }
     match (s.modLaunch 2049 fun x => { x with inbox := Tbl.ins x.inbox 0 [zeroLit] }).blockPlaces w .store 0x07FF000000004000 64 with
       | (.ok _, _) => true
       | _ => false) = true ∧ arriving.reduced = false := by
  refine ⟨fun shift hs => ?_, by decide +kernel, by decide +kernel, rfl⟩
  simp only [List.mem_cons, List.not_mem_nil, or_false] at hs
  rcases hs with rfl | rfl <;> exact ⟨by decide +kernel, _, _, rfl, by decide +kernel, rfl, by decide +kernel⟩

/-! ### Witnesses: calls of the service processors -/

/-- A record of ring 1 of partition 0: call, two arguments and tag 9; the kernel's caller waits for tag 9. -/
def callBytes (call arg0 arg1 : Nat) : Nat := call + 2 ^ 64 * arg0 + 2 ^ 128 * arg1 + 2 ^ 192 * 9
/-- A request block for two packages with RB in the mapped page. -/
def treeBlock (npkg : Nat) : Nat := 2 ^ 64 * npkg + 2 ^ 128 * 0x03C00000
def calling (call arg0 arg1 npkg : Nat) (launches : Tbl Launch := []) : State :=
  { gsumSt with
    mem := (putWin gsumSt.mem 0 0x3000 32 (callBytes call arg0 arg1)).writeN carveBase 64 (treeBlock npkg)
    threads := [(32768, { wait := .call 9 4, level := 1, plvl := 3 })], cur := 32768, launches
    parts := [(0, { gsumSt.part 0 with
      carve := 1, chans := 1, nstr := 1, mc1 := { base := 0x07FF000000003006, tail := 1 }
      trees := [{ id := 7, space := 0, rb := 0, gb := 0x03C00000, gs := 65536 }]
      treeReqs := [{ tag := 9, key := 5, tree := { id := 0, space := 0, rb := 0x03C00000, gb := 0, gs := 0 } }]
      extents := [{ stream := 0, tag := 5, va := 65536, lpage := 0, length := 64, serial := 1 }] })] }
/-- The record at the head is the call, unpoisoned, in the partition's slot, and its caller waits. -/
def servesAt (s : State) (server call : Nat) : Bool :=
  s.powered && s.boot.power == .running && (match s.pendingCall server 0 with
    | .call r => r.call == call && !r.poison && r.tag == 9
    | _ => false) && (match s.serveSlot server (s.pendingParts server) with
    | some (p, _) => p == 0
    | none => false)
theorem serves_of {s : State} {server call : Nat} (h : servesAt s server call = true) :
    ∃ r slot, Serves s server 0 r slot ∧ r.call = call ∧ r.tag = 9 := by
  simp only [servesAt, Bool.and_eq_true] at h
  obtain ⟨⟨⟨_, hp⟩, hc⟩, ht⟩ := h
  split at hc
  · rename_i r hr
    split at ht
    · rename_i p slot hs
      simp only [Bool.and_eq_true, beq_iff_eq, Bool.not_eq_true'] at hc
      obtain rfl : p = 0 := by simpa using ht
      exact ⟨r, slot, ⟨by simpa using hp, hr, hc.1.2, hs⟩, hc.1.1, hc.2⟩
    · simp at ht
  · simp at hc
theorem caller_of (call a b n : Nat) (ls : Tbl Launch) : Caller (calling call a b n ls) 0 9 32768 4 := ⟨_, rfl, rfl⟩
theorem calls_served :
    (∀ c ∈ [(1, 0x07FF000000000000), (2, 7), (2, 8), (3, 0)], servesAt (calling c.1 c.2 0 2) 0 c.1 = true) ∧
    (∀ c ∈ [(0x100, 0x07FF000000000000, 0), (0x100, 0, 1), (0x101, 0, 0), (0x101, 1, 0), (0x102, 0, 0)], servesAt (calling c.1 c.2.1 c.2.2 2) 1 c.1 = true) := by
  decide +kernel
theorem witness_Calls :
    (∀ c ∈ [(1, 0x07FF000000000000), (2, 7), (2, 8), (3, 0)], ∃ r slot, Serves (calling c.1 c.2 0 2) 0 0 r slot ∧ r.call = c.1 ∧ r.tag = 9 ∧
      Caller (calling c.1 c.2 0 2) 0 9 32768 4) ∧
    (∀ c ∈ [(0x100, 0x07FF000000000000, 0), (0x100, 0, 1), (0x101, 0, 0), (0x101, 1, 0), (0x102, 0, 0)], ∃ r slot,
      Serves (calling c.1 c.2.1 c.2.2 2) 1 0 r slot ∧ r.call = c.1 ∧ r.tag = 9 ∧ Caller (calling c.1 c.2.1 c.2.2 2) 0 9 32768 4) ∧
    (calling 0x102 0 0 2).pendingCall 0 0 = .empty := by
  refine ⟨fun c hc => ?_, fun c hc => ?_, by decide +kernel⟩
  · obtain ⟨r, slot, h, hcall, ht⟩ := serves_of (calls_served.1 c hc)
    exact ⟨r, slot, h, hcall, ht, caller_of _ _ _ _ _⟩
  · obtain ⟨r, slot, h, hcall, ht⟩ := serves_of (calls_served.2 c hc)
    exact ⟨r, slot, h, hcall, ht, caller_of _ _ _ _ _⟩
/-- The request block is read; it names a tree, or a package count out of range. -/
def wanted (s : State) : Option Bool :=
  match s.argBlock 0 0 0x07FF000000000000 64 with
  | (.ok _, s1) => match s1.blockRead (blockWho 160 0) 0x07FF000000000000 64 0 with
    | (.ok _, v, false, s2) => some (s2.treeWanted 0 v).isSome
    | _ => none
  | _ => none
/-- A line of the tree's region is read for the tree. -/
theorem witness_GsumLine :
    (let s := calling 1 0 0 2
     let w : Who := { source := 170, part := 0, asid := 0, priv := true, cid := 0 }
     match (s.setMs 170 (s.msOf 170 + 1)).blockPlaces w .load ((0x03C00000 + 0) / 128 * 128) 128 with
       | (.ok _, _) => (s.part 0).trees.any fun t => t.id == BitVec.ofNat 32 7 && t.gb == 0x03C00000 && t.gs != 0 && t.space == 0
       | _ => false) = true := by decide +kernel
theorem witness_CallOperands :
    wanted (calling 1 0x07FF000000000000 0 2) = some true ∧ wanted (calling 1 0x07FF000000000000 0 1) = some false ∧
    ((calling 1 0 0 2).powered = true ∧ ∃ r, ((calling 1 0 0 2).part 0).treeReqs.find? (fun x => x.key == 5) = some r ∧ r.dead = false ∧ r.tag = 9) ∧
    (∃ r, ((calling 1 0 0 2).part 0).afterReset.treeReqs.find? (fun x => x.key == 5) = some r ∧ r.dead = true) ∧
    (∀ x ∈ ((calling 1 0 0 2).part 0).treeReqs, x.key ≠ 6) ∧
    (∃ x ∈ ((calling 2 7 0 2).part 0).trees, x.id.toNat = 7) ∧ (∀ x ∈ ((calling 2 8 0 2).part 0).trees, x.id.toNat ≠ 8) ∧
    (let s := calling 2 7 0 2 [(1, { coll0 0 with part := 0 })]
     servesAt s 0 2 = true ∧ ∃ e ∈ s.launches, e.2.part = 0 ∧ e.2.r.coll = true ∧ e.2.r.tree.toNat = 7) ∧
    (let s := calling 0x100 0x07FF000000000000 0 2
     (s.part 0).nstr = 1 ∧ s.waiters = [] ∧ (s.extentsFrom 0 0 0).length = 1 ∧ (match s.argBlock 1 0 0x07FF000000000000 32 with
       | (.ok _, _) => true
       | _ => false) = true) :=
  ⟨by decide +kernel, by decide +kernel, ⟨by decide +kernel, _, rfl, rfl, rfl⟩, ⟨_, rfl, rfl⟩, by decide +kernel, by decide +kernel, by decide +kernel, by decide +kernel, by decide +kernel⟩
/-- A launch that takes no more chunks; a request whose block may not be read; a grant for a partition that is gone. -/
theorem witness_LateArrivals :
    (∀ l ∈ [{ arriving with complete := true }, { arriving with collfail := true }], (collective l).launches.find? 2049 = some l ∧ (l.complete = true ∨ l.collfail = true)) ∧
    (servesAt (calling 1 0x07FF000001000000 0 2) 0 1 = true ∧ (match (calling 1 0x07FF000001000000 0 2).argBlock 0 0 0x07FF000001000000 64 with
      | (.denied, s1) => (s1.thr 32768).wait == .call 9 4
      | _ => false) = true) ∧
    (let s := { calling 1 0 0 2 with lateTrees := [(0, 5)] }
     s.powered = true ∧ (0, 5) ∈ s.lateTrees) := by decide +kernel
/-! ### Witnesses: suspend, resume, the mailbox, boot and errors -/

/-- What a suspend has saved. -/
def resume0 : Resume := { ms := 7, clock := 0, marked := [], side := [] }
/-- A machine in a power state, at a time. -/
def inPower (power : Power) (rt : Nat) : State := { st with boot := { power }, rt }
theorem witness_SuspendEvents :
    (st.boot.power = .running ∧ ∃ u r, st.units.find? u = some r ∧ (st.part r.part).present = true ∧ r.part ∈ st.parts.keys ∧
      (st.part r.part).cores.getLsbD r.core = true ∧ r.groups ≠ []) ∧
    (∀ rt ∈ [0, 3 * 10 ^ 15 / 2, 2 * 10 ^ 15], let s := inPower .suspending rt
      s.boot.power = .suspending ∧ s.powered = true ∧ (∀ r ∈ s.stops, r.has .suspend = false) ∧ s.log = [] ∧ s.boot.wakePending = false ∧ s.boot.cmdAt = 0) ∧
    (let s := { stopping true 0 0 with boot := { power := .suspending }, stops := [{ part := 1, reqs := [(.suspend, 1)], units := [1], startAt := 0 }], rt := 3 * 10 ^ 15 / 2 }
     s.boot.power = .suspending ∧ (∃ r ∈ s.stops, r.has .suspend = true) ∧ 1 ∈ s.parts.keys ∧ s.collecting 1 = true ∧ s.boot.cmdAt + 3 * 10 ^ 15 / 2 ≤ s.rt) ∧
    (let s := { inPower .retention 0 with boot := { power := .retention, resume := some resume0, wakeAt := some 3 } }
     s.boot.power = .retention ∧ s.boot.resume = some resume0 ∧ s.boot.wakeAt.isSome = true) ∧
    (∀ rt ∈ [0, 5 * 10 ^ 15 / 2], (inPower .resuming rt).boot.power = .resuming ∧ (inPower .resuming rt).boot.cmdAt = 0) ∧
    (∀ rt ∈ [0, 10 * 10 ^ 15], let s := { collective (coll0 0) with boot := { resumedAt := some 0 }, rt }
      s.powered = true ∧ s.boot.resumedAt = some 0 ∧ ∃ l, s.launches.find? 2049 = some l ∧ l.r.coll = true ∧ l.r.tree = BitVec.ofNat 32 7 ∧ l.complete = false ∧
        l.reduced = false) := by
  refine ⟨⟨by decide +kernel, 1, _, rfl, by decide +kernel⟩, by decide +kernel, by decide +kernel, by decide +kernel, by decide +kernel, fun rt hr => ?_⟩
  exact ⟨rfl, rfl, _, rfl, rfl, rfl, rfl, rfl⟩

/-- A request in the mailbox of partition 0, whose control block is at the base of its window. -/
def mailing (op addr arg1 : Nat) : State :=
  { mon with
    parts := [(0, { Part.zeroReset with carve := 1 })], boot := { mboxBase := 0x07FF000000000000, mboxSize := 4 }
    mem := (mon.mem.writeN (carveBase + 8) 1 1).writeN (carveBase + 64) 64 (op + 2 ^ 64 * addr + 2 ^ 128 * arg1) }
/-- The next request: its OP, and its two words; and whether a block is read. -/
def request (s : State) : Option (Nat × Nat × Nat) :=
  match s.mboxNext with
  | some (0, v, false) => some (v % 256, v / 2 ^ 64 % 2 ^ 64, v / 2 ^ 128 % 2 ^ 64)
  | _ => none
def readsBlock (s : State) (va n : Nat) (p : State → Bool) : Bool :=
  match s.mboxRead va n with
  | (.ok _ false, s1) => p s1
  | _ => false
theorem witness_MailboxEvents :
    (∀ c ∈ [(1, 0, 0), (2, 0x07FF000000001000, 0x07FF000000002000), (3, 1 * 2 ^ 56 + 3, 0), (3, 2 * 2 ^ 56 + 3, 0), (3, 1 * 2 ^ 56 + 32, 0),
        (4, 0x07FF000000001000, 64 * 2 ^ 32 + 4), (4, 0, 64 * 2 ^ 32 + 3), (0, 0, 0), (5, 0, 0)],
      (mailing c.1 c.2.1 c.2.2).powered = true ∧ (mailing c.1 c.2.1 c.2.2).boot.power = .running ∧ request (mailing c.1 c.2.1 c.2.2) = some c) ∧
    readsBlock (mailing 4 0x07FF000000001000 (64 * 2 ^ 32 + 4)) 0x07FF000000001000 64 (fun s1 => (s1.boot.measures[4]?).isSome) = true ∧
    (let s := mailing 3 (2 * 2 ^ 56 + 3) 0
     (2, 3) ∉ s.boot.retList ∧ 3 < unitsOfKind 2 ∧ 3 < unitsOfKind 1 ∧ unitsOfKind 1 ≤ 32) := by decide +kernel
/-- A quotation can be written where the request asks. -/
theorem witness_Quote :
    (let s := mailing 2 0x07FF000000001000 0x07FF000000002000
     readsBlock s 0x07FF000000001000 64 (fun s1 => match ((s1.setMs 169 (s1.msOf 169 + 1)).blockPlaces mboxWho .store 0x07FF000000002000 1024).1 with
       | .ok _ => true
       | _ => false)) = true := by decide +kernel

theorem witness_PowerEvents :
    (let s := { inPower .recovery 0 with boot := { power := .recovery, ports := 1 } }
     s.boot.ports.getLsbD s.boot.mgmtPort.toNat = true) ∧
    (let s := { mailing 3 3 0 with boot := { mboxReply := [0] } }
     s.boot.mboxReply ≠ []) ∧
    (inPower .off 0).boot.power = .off ∧ (inPower .recovery 0).boot.power = .recovery ∧ st.boot.power ≠ .off ∧ st.powered = true ∧
    (∀ at_ ∈ [0, 1], let s := { st with boot := { clocks := [2700, 2000], clockAt := at_ } }
      s.powered = true ∧ decide (s.boot.clockAt + 1 < s.boot.clocks.length) = (at_ == 0)) ∧
    (∀ core ∈ [0, 1], let s := { st with now := 4096 }
      s.powered = true ∧ s.coreQuiet core = (core == 1) ∧ (s.coreRec core).idleSince + 4096 ≤ s.now) := by decide +kernel
def err0 : ErrRec := { part := 1, ms := 0, cls := 0, kind := 5, cid := 2048, unit := 3, charged := 1 }
/-- An error record of partition 1 that waits to be posted, to a ring with a base and room; and a full one. -/
def reporting (tail : Word) : State :=
  { st with
    errs := [err0]
    parts := [(0, Part.zeroReset), (1, { part1 with eq := { base := 0x07FF000000002006, tail }, corr := [{ kind := 1, ukind := 1, unit := 2, count := 4 }] })] }
/-- The state just before the record is posted. -/
def posting0 : State :=
  (({ reporting 0 with errs := [] } : State).modPart 1 fun p => { p with eqSeq := p.eqSeq + 1 }).setMs 169 (max ((reporting 0).msOf 169) 0 + 1)
theorem witness_ErrorEvents :
    (∀ full : Bool, let s := reporting (if full then 64 else 0)
      s.powered = true ∧ s.errs = [err0] ∧ (s.part 1).eq.full = full) ∧
    ∃ s1, posting0.postRing 169 1 Part.eq (fun p x => { p with eq := x }) 64 (err0.bytes 1) = (.done, s1) :=
  ⟨by decide +kernel, _, rfl⟩
theorem witness_ScrubEvents :
    st.powered = true ∧ 0 < Config.hbmChannels * Config.framesPerChannel ∧ 5 < Config.lpddrFrames ∧ (st.thr st.cur).live = true ∧
    (st.thr st.cur).level = 0 ∧ (st.units.find? 1).isSome = true ∧
    (let e : LogEntry := { core := 0, tag := 2049, va := 0, writes := [], ms := 1, source := 0, seq := 1, cid := 2049, part := 1, asid := 2049, priv := false }
     ({ st with log := [e] } : State).log[0]? = some e) := by decide +kernel

/-- A boot slot: version 2, an image of 64 KiB for address 0 with entry 0, and at the image's first byte a clock record (one
frequency, 2,700 MHz) and a memory record. -/
def recordBytes (type : Nat) (body : List Byte) : List Byte :=
  bytesLE 2 type ++ bytesLE 2 0 ++ bytesLE 4 body.length ++ List.replicate 8 0 ++ body ++ List.replicate 132 0
def slotHead : List Byte :=
  bytesLE 4 1 ++ bytesLE 4 2 ++ bytesLE 8 65536 ++ bytesLE 8 0 ++ bytesLE 8 0 ++ bytesLE 8 256 ++ bytesLE 4 309 ++ List.replicate 212 0
def slotRecords : List Byte := recordBytes 2 (bytesLE 4 2700) ++ recordBytes 4 (bytesLE 8 0 ++ bytesLE 1 4)
def slotPrefix : List Byte := slotHead ++ slotRecords
def bootSlot : BootSlot := slotPrefix ++ List.replicate 65536 0
def slotKept : List ConfigRec := (parseRecords 310 slotRecords).getD []
/-- Where signatures verify, the slot is accepted; the verification itself is not the model's (the entry on signatures). -/
theorem witness_BootSlot (h : ∀ d x, Config.slotVerifies d x = true) (h' : ∀ i d x, Config.recordVerifies i d x = true) :
    BootSlot.accepted bootSlot 0 = some slotKept := by
  have hl : bootSlot.length = 565 + 65536 := by
    simp only [bootSlot, List.length_append, List.length_replicate]
    rfl
  have hr : BootSlot.records bootSlot = some slotKept := by rfl
  have hk : slotKept.all (ConfigRec.ok (BootSlot.image bootSlot)) = true := by
    rw [List.all_eq_true]
    intro r
    simp only [ConfigRec.ok, ConfigRec.signed, h', Bool.true_and]
    revert r
    decide +kernel
  unfold BootSlot.accepted
  simp only [hr, hl, BootSlot.signed, h, hk]
  decide +kernel
end Sys2Proof.Tests
end

section
/-!
PROOFS. What each write that a block acts on, each resolution of a page fault, each posting of a fault record, each
synchronisation of milestones and each debug command leaves: a lemma for the change of each event, and O52 from them.
-/
namespace Sys2Proof.RegisterEvents
open Machine

/-! ### Events, tables and folds -/

/-- With power on an event answers the state that its change leaves. -/
theorem answers_of_event {i : Instr} {f : State → State} {s : State} {P : State → Prop} (he : exec i s = event f s)
    (hs : s.powered = true) (h : P (f s)) : Answers i s P :=
  ⟨f s, he.trans (event_powered hs), h⟩

theorem get_mapVals {α : Type} {d : α} {f : α → α} (hd : f d = d) (t : Tbl α) (k : Nat) :
    Tbl.get d (t.mapVals f) k = f (Tbl.get d t k) := by
  unfold Tbl.get Tbl.mapVals
  rw [Tbl.find?_map t fun _ => f]
  cases t.find? k <;> simp [hd]

/-- What each step of a fold keeps, the fold keeps. -/
theorem foldl_keeps {β γ : Type} (g : State → γ) {f : State → β → State} (h : ∀ s b, g (f s b) = g s) (l : List β) (s : State) :
    g (l.foldl f s) = g s := by
  induction l generalizing s with
  | nil => rfl
  | cons b r ih => rw [List.foldl_cons, ih, h]

/-- Changing listed threads changes no other. -/
theorem thr_foldl_modThr (g : Thread → Thread) {u : Tid} (l : List Tid) (h : u ∉ l) (s : State) :
    (l.foldl (fun s t => s.modThr t g) s).thr u = s.thr u := by
  induction l generalizing s with
  | nil => rfl
  | cons t r ih =>
    rw [List.mem_cons, not_or] at h
    rw [List.foldl_cons, ih h.2, State.thr_modThr_ne _ _ _ _ h.1]

/-! ### Queue registers -/

/-- The capacity exponent after a write of SCHED_QCTL: an enabled queue keeps its own (R55). -/
def ctlSize (q : Queue) (v : Dword) : Nat :=
  if q.en then q.size else if 4 ≤ v.toNat / 2 ^ 16 % 32 ∧ v.toNat / 2 ^ 16 % 32 ≤ 16 then v.toNat / 2 ^ 16 % 32 else 4

section Queues
variable {s : State} {k : Nat} {v : Dword}

theorem queue_queueCtlWrite_ne {j : Nat} (h : j ≠ k) : (queueCtlWrite k v s).queue j = s.queue j :=
  (State.queue_modQueue ..).trans (if_neg h)

/-- A write of SCHED_QCTL stops the queue, clears its error, refuses a queue beyond its capacity, or enables it (R55, R56). -/
theorem queue_queueCtlWrite_self :
    (queueCtlWrite k v s).queue k =
      if v.getLsbD 0 = false then
        { s.queue k with size := ctlSize (s.queue k) v, en := false, valid := false, hold := none, denied := none }
      else if (s.queue k).en then { s.queue k with err := 0 }
      else if 2 ^ ctlSize (s.queue k) v < ((s.queue k).tail - (s.queue k).head).toNat then
        { s.queue k with size := ctlSize (s.queue k) v, err := 1 }
      else { s.queue k with size := ctlSize (s.queue k) v, en := true, err := 0, valid := false, hold := none, denied := none } := by
  refine ((State.queue_modQueue ..).trans (if_pos rfl)).trans ?_
  unfold ctlSize
  cases hen : (s.queue k).en <;> cases v.getLsbD 0 <;> simp [hen]

theorem queue_queueTailWrite_ne {j : Nat} (h : j ≠ k) : (queueTailWrite k v s).queue j = s.queue j :=
  (State.queue_modQueue ..).trans (if_neg h)

/-- A write of SCHED_QTAIL beyond capacity stops an enabled queue (R56). -/
theorem queue_queueTailWrite_self :
    (queueTailWrite k v s).queue k =
      if (s.queue k).en && decide (2 ^ (s.queue k).size < (v.extractLsb' 0 32 - (s.queue k).head).toNat) then
        { s.queue k with tail := v.extractLsb' 0 32, en := false, err := 1, valid := false, hold := none, denied := none }
      else { s.queue k with tail := v.extractLsb' 0 32 } := by
  refine ((State.queue_modQueue ..).trans (if_pos rfl)).trans ?_
  simp only [Bool.and_eq_true, decide_eq_true_eq]
  rfl

end Queues

/-- What a write of SCHED_QCTL leaves (R55, R56). -/
theorem queueCtlWrite_leaves (s : State) (k : Nat) (v : Dword) :
    let q := s.queue k
    let n := v.toNat / 2 ^ 16 % 32
    let size := if q.en then q.size else if 4 ≤ n ∧ n ≤ 16 then n else 4
    let t := queueCtlWrite k v s
    (t.queue k).size = size ∧ (t.queue k).head = q.head ∧ (t.queue k).tail = q.tail ∧ (∀ j, j ≠ k → t.queue j = s.queue j) ∧
    (v.getLsbD 0 = false → (t.queue k).en = false ∧ (t.queue k).valid = false) ∧
    (v.getLsbD 0 = true → q.en = true ∨ (q.tail - q.head).toNat ≤ 2 ^ size → (t.queue k).en = true ∧ (t.queue k).err = 0) ∧
    (v.getLsbD 0 = true → q.en = false → 2 ^ size < (q.tail - q.head).toNat → (t.queue k).en = false ∧ (t.queue k).err = 1) := by
  intro q n size t
  have hother : ∀ j, j ≠ k → t.queue j = s.queue j := fun j => queue_queueCtlWrite_ne
  have hself : t.queue k = if v.getLsbD 0 = false then { q with size, en := false, valid := false, hold := none, denied := none }
      else if q.en then { q with err := 0 }
      else if 2 ^ size < (q.tail - q.head).toNat then { q with size, err := 1 }
      else { q with size, en := true, err := 0, valid := false, hold := none, denied := none } := queue_queueCtlWrite_self
  rw [hself]
  cases hb : v.getLsbD 0 with
  | false => exact ⟨rfl, rfl, rfl, hother, fun _ => ⟨rfl, rfl⟩, nofun, nofun⟩
  | true =>
    rw [if_neg (by decide)]
    by_cases hen : q.en = true
    · rw [if_pos hen]
      exact ⟨(if_pos hen).symm, rfl, rfl, hother, nofun, fun _ _ => ⟨hen, rfl⟩, fun _ h => absurd hen (by simp [h])⟩
    · rw [if_neg hen]
      by_cases hover : 2 ^ size < (q.tail - q.head).toNat
      · rw [if_pos hover]
        exact ⟨rfl, rfl, rfl, hother, nofun, fun _ h => absurd hover (by simpa [hen] using h), fun _ h _ => ⟨h, rfl⟩⟩
      · rw [if_neg hover]
        exact ⟨rfl, rfl, rfl, hother, nofun, fun _ _ => ⟨rfl, rfl⟩, fun _ _ h => absurd h hover⟩

/-- What a write of SCHED_QTAIL leaves (R56). -/
theorem queueTailWrite_leaves (s : State) (k : Nat) (v : Dword) :
    let q := s.queue k
    let past := q.en && decide (2 ^ q.size < (v.extractLsb' 0 32 - q.head).toNat)
    let t := queueTailWrite k v s
    (t.queue k).tail = v.extractLsb' 0 32 ∧ (t.queue k).head = q.head ∧ (t.queue k).en = (q.en && !past) ∧
      (t.queue k).err = (if past then 1 else q.err) ∧ ∀ j, j ≠ k → t.queue j = s.queue j := by
  intro q past t
  have hother : ∀ j, j ≠ k → t.queue j = s.queue j := fun j => queue_queueTailWrite_ne
  have hself : t.queue k = if past then
      { q with tail := v.extractLsb' 0 32, en := false, err := 1, valid := false, hold := none, denied := none }
      else { q with tail := v.extractLsb' 0 32 } := queue_queueTailWrite_self
  rw [hself]
  cases hp : past with
  | true => exact ⟨rfl, rfl, (Bool.and_false _).symm, rfl, hother⟩
  | false => exact ⟨rfl, rfl, (Bool.and_true _).symm, rfl, hother⟩

/-! ### Threads that wait for a page -/

/-- Waking takes the threads that the test accepts, where it does not accept one that is not listed. -/
theorem thr_wakeIf (s : State) {f : Tid → Thread → Bool} {u : Tid} (hf : f u {} = false) :
    (s.wakeIf f).thr u = if f u (s.thr u) then (s.thr u).wake s.now else s.thr u := by
  unfold State.thr State.wakeIf Tbl.get
  dsimp only
  have hfind := Tbl.find?_map s.threads (fun k th => if f k th then th.wake s.now else th) u
  have hmap : (s.threads.map fun e => if f e.1 e.2 then (e.1, e.2.wake s.now) else e) =
      s.threads.map fun e => (e.1, if f e.1 e.2 then e.2.wake s.now else e.2) :=
    List.map_congr_left fun e _ => by split <;> rfl
  rw [hmap, hfind]
  cases Tbl.find? s.threads u with
  | none => exact (if_neg (by rw [Option.getD_none, hf]; decide)).symm
  | some th => rfl

theorem onPage_of_mem {keys : List Nat} {key : Nat} (h : key ∈ keys) : (Wait.page keys).onPage key = true :=
  List.contains_iff_mem.2 h

section WakePage
variable (s : State) (key part : Nat)

@[simp] theorem wakePage_faults : (s.wakePage key part).faults = s.faults := rfl
@[simp] theorem wakePage_due : (s.wakePage key part).due = s.due := rfl
@[simp] theorem wakePage_mem : (s.wakePage key part).mem = s.mem := rfl

/-- A thread that waits for the page issues its instruction again (R111). -/
theorem thr_wakePage {u : Tid} {keys : List Nat} (hw : (s.thr u).wait = .page keys) (hk : key ∈ keys) :
    (s.wakePage key part).thr u = (s.thr u).wake s.now := by
  have hon : (s.thr u).wait.onPage key = true := hw ▸ onPage_of_mem hk
  refine (thr_wakeIf s (f := fun _ th => th.wait.onPage key || th.wait == .logFull || (th.wait == .ring && th.part == part)) rfl).trans ?_
  rw [hon, Bool.true_or, Bool.true_or, if_pos rfl]

theorem waiting_wakePage : ∀ c ∈ (s.wakePage key part).cmds, c.2.waiting ≠ some key := by
  intro c hc
  obtain ⟨x, -, rfl⟩ := List.mem_map.1 hc
  dsimp only
  split
  · simp
  · assumption

end WakePage

/-! ### The stages of a page's resolution -/

/-- The page of a fault record, as its accesses name it. -/
def faultKey (f : FaultRec) : Nat := pageKey f.tag (f.page * 65536)
/-- The side-log entries of a page, in retirement order. -/
def entriesAt (s : State) (key : Nat) : List LogEntry := sortLog (s.log.filter fun e => e.pageAt == key)
/-- A scheduler access is to a page. -/
def dueAt (key : Nat) (d : Due) : Bool := pageKey (tagOf d.va.toNat d.asid d.part) d.va.toNat == key

/-- The record is resolved and its page's entries leave the side log. -/
def withoutFault (f : FaultRec) (s : State) : State :=
  { s.keepLog fun e => e.pageAt != faultKey f with faults := s.faults.filter (· != f) }
/-- The record is resolved. -/
def dropFault (f : FaultRec) (s : State) : State := { s with faults := s.faults.filter (· != f) }
/-- Accesses through the translation that the walk has cached follow the present milestone. -/
def followPresent (f : FaultRec) (s : State) : State :=
  { s with tlb := Tbl.adjust s.tlb (faultKey f) fun x => { x with since := s.msOf (agentOf (f.page * 65536)) } }

/-- Threads held on a page have its denial. -/
def denyThreads (key : Nat) (s : State) : State :=
  { s with threads := s.threads.mapVals fun th => if th.wait.onPage key then { th with denied := some key } else th }
/-- Queues held on a page have its denial. -/
def denyQueues (key : Nat) (s : State) : State :=
  { s with queues := s.queues.mapVals fun q => if q.hold = some key then { q with denied := some key } else q }
/-- Commands held on a page end. -/
def endCommands (key : Nat) (s : State) : State :=
  (s.cmds.filter fun (c : Nat × Cmd) => c.2.waiting == some key).foldl (fun (s : State) (c : Nat × Cmd) =>
    if c.2.phase = CmdPhase.effected then s.breakChain c.1 c.2
    else if c.2.opN = opAPPEND ∧ c.2.engine = 161 then s.failAppend c.1 c.2 apSOURCE
    else s.endCmd c.1 stDENIED) s
/-- Status words of refusals on a page are reported instead of written. -/
def reportDue (key : Nat) (s : State) : State :=
  (s.due.filter fun d => dueAt key d && d.refusal).foldl (fun s d => s.reportRefusal d.part d.cid) s
/-- Scheduler accesses to a page are dropped. -/
def dropDue (key : Nat) (s : State) : State := { s with due := s.due.filter fun d => !dueAt key d }
/-- Call arguments held on a page have its denial. -/
def denyArgs (key : Nat) (s : State) : State :=
  { s with parts := s.parts.mapVals fun p =>
      { p with argHeld := p.argHeld.map fun e => if e.2.1 = key then (e.1, key, true) else e } }
/-- A thread has signed a round that waits for a page. -/
def signsOn (key : Nat) (s : State) (t : Tid) : Bool :=
  match (s.thr t).wait with
  | .signed n => (s.cv (cvKey t n)).held.contains key
  | _ => false
/-- The signers of a round that waits for a page have its denial. -/
def denySigners (key : Nat) (s : State) : State :=
  (s.threads.keys.filter (signsOn key s)).foldl (fun (s : State) t => s.modThr t fun th => { th with denied := some key }) s
/-- What the denial of a page leaves before its entries are discarded and its waiters wake. -/
def pageDenied (key : Nat) (s : State) : State :=
  denySigners key <| denyArgs key <| dropDue key <| reportDue key <| endCommands key <| denyQueues key <| denyThreads key s

theorem makePresent_eq (s : State) (f : FaultRec) :
    s.makePresent f =
      (((followPresent f ((withoutFault f s).present (entriesAt s (faultKey f)))).settleEntries (entriesAt s (faultKey f))).wakePage
        (faultKey f) f.part).retryDue (faultKey f) := rfl

theorem denyPage_eq (s : State) (f : FaultRec) :
    s.denyPage f =
      ((pageDenied (faultKey f) (withoutFault f s)).discardEntries (entriesAt s (faultKey f))).wakePage (faultKey f) f.part := rfl

/-! ### A page on which nothing is held but threads -/

section NothingHeld
variable {s : State} {key : Nat} {f : FaultRec}

theorem entriesAt_eq_nil (h : ∀ e ∈ s.log, e.pageAt ≠ key) : entriesAt s key = [] := by
  have hnone : s.log.filter (fun e => e.pageAt == key) = [] := by simpa using h
  rw [entriesAt, hnone]
  rfl

theorem withoutFault_eq (h : ∀ e ∈ s.log, e.pageAt ≠ faultKey f) : withoutFault f s = dropFault f s := by
  have hkeep : (s.keepLog fun e => e.pageAt != faultKey f) = s := if_pos (by simpa using h)
  rw [withoutFault, hkeep, dropFault]

theorem retryDue_eq_self (h : ∀ d ∈ s.due, dueAt key d = false) : s.retryDue key = s := by
  have hnow : s.due.filter (dueAt key) = [] := by simpa using h
  have hrest : s.due.filter (fun d => !dueAt key d) = s.due := by simpa using h
  change (s.due.filter (dueAt key)).foldl _ { s with due := s.due.filter fun d => !dueAt key d } = s
  rw [hnow, hrest]
  rfl

theorem endCommands_eq_self (h : ∀ c ∈ s.cmds, c.2.waiting ≠ some key) : endCommands key s = s := by
  have hnone : s.cmds.filter (fun (c : Nat × Cmd) => c.2.waiting == some key) = [] := by simpa using h
  rw [endCommands, hnone]
  rfl

end NothingHeld

theorem not_mem_dropFault (f : FaultRec) (s : State) : f ∉ (dropFault f s).faults := by simp [dropFault]

theorem settleEntries_nil (s : State) : s.settleEntries [] = s := rfl
theorem discardEntries_nil (s : State) : s.discardEntries [] = s := rfl

section Stages
variable (s : State) (key : Nat)

/-- What a milestone does not touch, a page that becomes present does not. -/
theorem present_keeps {γ : Type} (g : State → γ) (h : ∀ s a m, g (State.setMs s a m) = g s) (es : List LogEntry) :
    g (s.present es) = g s :=
  foldl_keeps g (fun s a => h s a _) _ s

/-- What a report does not touch, the reports of refusals do not. -/
theorem reportDue_keeps {γ : Type} (g : State → γ) (h : ∀ s part cid, g (State.reportRefusal s part cid) = g s) :
    g (reportDue key s) = g s :=
  foldl_keeps g (fun s _ => h s _ _) _ s

/-- What a change of a thread does not touch, the denial of signers does not. -/
theorem denySigners_keeps {γ : Type} (g : State → γ) (h : ∀ s t f, g (State.modThr s t f) = g s) : g (denySigners key s) = g s :=
  foldl_keeps g (fun s t => h s t _) _ s

theorem presented_leaves (f : FaultRec) :
    let z := followPresent f (s.present [])
    z.threads = s.threads ∧ z.faults = s.faults ∧ z.due = s.due ∧ z.mem = s.mem :=
  ⟨present_keeps s State.threads (fun _ _ _ => rfl) [], present_keeps s State.faults (fun _ _ _ => rfl) [],
    present_keeps s State.due (fun _ _ _ => rfl) [], present_keeps s State.mem (fun _ _ _ => rfl) []⟩

theorem reportRefusal_leaves (part cid : Nat) :
    let z := s.reportRefusal part cid
    z.threads = s.threads ∧ z.faults = s.faults ∧ z.mem = s.mem := by
  unfold State.reportRefusal State.report State.meet
  exact ⟨rfl, rfl, rfl⟩

/-- A thread that waits for pages has signed no round. -/
theorem thr_denySigners {u : Tid} {keys : List Nat} (hw : (s.thr u).wait = .page keys) : (denySigners key s).thr u = s.thr u := by
  have hnot : signsOn key s u = false := by rw [signsOn, hw]
  exact thr_foldl_modThr _ _ (fun hu => by simp [hnot] at hu) s

theorem thr_denyThreads {u : Tid} {keys : List Nat} (hw : (s.thr u).wait = .page keys) (hk : key ∈ keys) :
    (denyThreads key s).thr u = { s.thr u with denied := some key } := by
  have hget := get_mapVals (d := ({} : Thread)) (f := fun th => if th.wait.onPage key then { th with denied := some key } else th)
    rfl s.threads u
  refine hget.trans (if_pos ?_)
  exact (congrArg (Wait.onPage · key) hw).trans (onPage_of_mem hk)

end Stages

theorem part_eq_of_parts {s z : State} (h : z.parts = s.parts) (k : Nat) : z.part k = s.part k := by
  rw [State.part, h, State.part]
theorem thr_eq_of_threads {s z : State} (h : z.threads = s.threads) (u : Tid) : z.thr u = s.thr u := by
  rw [State.thr, h, State.thr]

section Denied
variable {s : State} {key : Nat} (hcmds : ∀ c ∈ s.cmds, c.2.waiting ≠ some key)
include hcmds

/-- With no command on the page, the denial reaches the threads, queues, reports, calls and signers. -/
theorem pageDenied_eq : pageDenied key s = denySigners key (denyArgs key (dropDue key (reportDue key (denyQueues key (denyThreads key s))))) := by
  rw [pageDenied, endCommands_eq_self (s := denyQueues key (denyThreads key s)) hcmds]

theorem pageDenied_faults : (pageDenied key s).faults = s.faults := by
  rw [pageDenied_eq hcmds, denySigners_keeps _ _ State.faults fun _ _ _ => rfl]
  exact reportDue_keeps _ _ State.faults fun s p c => (reportRefusal_leaves s p c).2.1
theorem pageDenied_mem : (pageDenied key s).mem = s.mem := by
  rw [pageDenied_eq hcmds, denySigners_keeps _ _ State.mem fun _ _ _ => rfl]
  exact reportDue_keeps _ _ State.mem fun s p c => (reportRefusal_leaves s p c).2.2
theorem pageDenied_due : ∀ d ∈ (pageDenied key s).due, dueAt key d = false := by
  rw [pageDenied_eq hcmds, denySigners_keeps _ _ State.due fun _ _ _ => rfl]
  intro d hd
  simpa using (List.mem_filter.1 hd).2

theorem thr_pageDenied {u : Tid} {keys : List Nat} (hw : (s.thr u).wait = .page keys) (hk : key ∈ keys) :
    (pageDenied key s).thr u = { s.thr u with denied := some key } := by
  have hold : (denyArgs key (dropDue key (reportDue key (denyQueues key (denyThreads key s))))).thr u =
      { s.thr u with denied := some key } :=
    (thr_eq_of_threads (reportDue_keeps _ _ State.threads fun s p c => (reportRefusal_leaves s p c).1) u).trans
      (thr_denyThreads s key hw hk)
  rw [pageDenied_eq hcmds, thr_denySigners _ _ (keys := keys) (by rw [hold, hw]), hold]

end Denied

/-- With no entry and no scheduler access on it, a page becomes present for the threads and commands that wait. -/
theorem makePresent_alone {s : State} {f : FaultRec} (hlog : ∀ e ∈ s.log, e.pageAt ≠ faultKey f)
    (hdue : ∀ d ∈ s.due, pageKey (tagOf d.va.toNat d.asid d.part) d.va.toNat ≠ faultKey f) :
    s.makePresent f = (followPresent f ((dropFault f s).present [])).wakePage (faultKey f) f.part := by
  obtain ⟨-, -, hkept, -⟩ := presented_leaves (dropFault f s) f
  rw [makePresent_eq, entriesAt_eq_nil hlog, settleEntries_nil, withoutFault_eq hlog, retryDue_eq_self]
  rw [wakePage_due, hkept]
  exact fun d hd => beq_false_of_ne (hdue d hd)

/-- A page that becomes present: its record is gone, and its threads and commands look again (R110, R111). -/
theorem makePresent_leaves {s : State} {f : FaultRec} (hlog : ∀ e ∈ s.log, e.pageAt ≠ faultKey f)
    (hdue : ∀ d ∈ s.due, pageKey (tagOf d.va.toNat d.asid d.part) d.va.toNat ≠ faultKey f) :
    let t := s.makePresent f
    f ∉ t.faults ∧
      (∀ u keys, (s.thr u).wait = .page keys → faultKey f ∈ keys → (t.thr u).wait = .ready ∧ (t.thr u).pc = (s.thr u).pc) ∧
      (∀ c ∈ t.cmds, c.2.waiting ≠ some (faultKey f)) ∧ t.mem = s.mem := by
  rw [makePresent_alone hlog hdue]
  obtain ⟨hthreads, hfaults, -, hmem⟩ := presented_leaves (dropFault f s) f
  refine ⟨?_, fun u keys hw hk => ?_, waiting_wakePage _ _ _, hmem⟩
  · rw [wakePage_faults, hfaults]
    exact not_mem_dropFault f s
  · have hthr := thr_eq_of_threads (s := s) hthreads u
    rw [thr_wakePage _ _ _ ((congrArg Thread.wait hthr).trans hw) hk]
    exact ⟨rfl, by rw [hthr]; rfl⟩

/-- A page that ends denied (R110). -/
theorem denyPage_leaves {s : State} {f : FaultRec} (hlog : ∀ e ∈ s.log, e.pageAt ≠ faultKey f)
    (hcmds : ∀ c ∈ s.cmds, c.2.waiting ≠ some (faultKey f)) :
    let t := s.denyPage f
    f ∉ t.faults ∧
      (∀ u keys, (s.thr u).wait = .page keys → faultKey f ∈ keys → (t.thr u).wait = .ready ∧ (t.thr u).denied = some (faultKey f)) ∧
      (∀ d ∈ t.due, pageKey (tagOf d.va.toNat d.asid d.part) d.va.toNat ≠ faultKey f) ∧ t.mem = s.mem := by
  rw [denyPage_eq, entriesAt_eq_nil hlog, discardEntries_nil, withoutFault_eq hlog]
  have hz : ∀ c ∈ (dropFault f s).cmds, c.2.waiting ≠ some (faultKey f) := hcmds
  refine ⟨?_, fun u keys hw hk => ?_, fun d hd => ?_, pageDenied_mem hz⟩
  · rw [wakePage_faults, pageDenied_faults hz]
    exact not_mem_dropFault f s
  · have hthr := thr_pageDenied hz hw hk
    rw [thr_wakePage _ _ _ ((congrArg Thread.wait hthr).trans hw) hk]
    exact ⟨rfl, by rw [hthr]; rfl⟩
  · simpa [dueAt] using pageDenied_due hz d hd

/-- What the agent makes of its second walk of a fault's page (R110, R151). -/
def walkedAgain (f : FaultRec) : Tr × State → State
  | (.absent r, s) =>
    { s with faults := s.faults.map fun g => if g = f then { g with posted := false, kind := if r then 7 else g.access } else g }
  | (.denied, s) => s.makePresent f
  | (.ok x, s) =>
    if x.home = 2 ∧ (Tbl.find? (s.part f.part).published x.frame).isNone then s.denyPage f else s.makePresent f

theorem faultResolveMapped_eq {s : State} {part space page : Nat} {f : FaultRec} (hf : s.faultNamed part space page = some f) :
    faultResolveMapped part space page s = walkedAgain f (s.walkPage f.who (f.page * 65536)) := by
  rw [faultResolveMapped, hf]
  rfl

theorem walkedAgain_present {f : FaultRec} {r : Tr} {s : State} (hr : r = .denied ∨ ∃ x, r = .ok x ∧ x.home ≠ 2) :
    walkedAgain f (r, s) = s.makePresent f := by
  rcases hr with rfl | ⟨x, rfl, hx⟩
  · rfl
  · exact if_neg fun h => hx h.1

/-- A page that is still absent has its record posted anew (R110). -/
theorem walkedAgain_absent {f : FaultRec} {r : Bool} {s : State} (hf : f ∈ s.faults) :
    let t := walkedAgain f (.absent r, s)
    (∃ g ∈ t.faults, g.tag = f.tag ∧ g.page = f.page ∧ g.posted = false) ∧ t.threads = s.threads ∧ t.log = s.log ∧ t.mem = s.mem :=
  ⟨⟨_, List.mem_map_of_mem hf, by simp⟩, rfl, rfl, rfl⟩

theorem faultResolveDenied_eq {s : State} {part space page : Nat} {f : FaultRec} (hf : s.faultNamed part space page = some f) :
    faultResolveDenied part space page s = s.denyPage f := by
  rw [faultResolveDenied, hf]

/-! ### Posting fault records -/

theorem faultRecordPost_done {s s1 : State} {i : Nat} {f : FaultRec} (hf : s.faults[i]? = some f) (hp : f.posted = false)
    (hpost : s.postRing (agentOf f.va) f.part Part.fq (fun p r => { p with fq := r }) 32 f.bytes = (.done, s1)) :
    faultRecordPost i s = s1.faultSettled f := by
  rw [faultRecordPost, hf]
  simp only [hp, hpost]
  rfl

theorem not_mem_faultSettled {s : State} {f : FaultRec} (hp : f.posted = false) : f ∉ (s.faultSettled f).faults := by
  intro h
  obtain ⟨g, -, hg⟩ := List.mem_map.1 h
  split at hg
  · simp [← hg] at hp
  · contradiction

theorem postRing_full {s : State} {source part : Nat} {ring : Part → Ring} (setRing : Part → Ring → Part) (n val : Nat)
    (h : (ring (s.part part)).full = true) : s.postRing source part ring setRing n val = (.full, s) := by
  simp [State.postRing, h]

theorem faultRecordPost_full {s : State} {i : Nat} {f : FaultRec} (hf : s.faults[i]? = some f) (h : (s.part f.part).fq.full = true) :
    faultRecordPost i s = s := by
  rw [faultRecordPost, hf]
  simp only [postRing_full _ _ _ h, ite_self]

/-! ### Milestones -/

theorem msOf_foldl_atLeastMs (l : List Nat) (s : State) (k : Nat) :
    (l.foldl (fun s k => s.atLeastMs k s.msSync) s).msOf k = if k ∈ l then max (s.msOf k) s.msSync else s.msOf k := by
  induction l generalizing s with
  | nil => rfl
  | cons a r ih =>
    rw [List.foldl_cons, ih, State.atLeastMs, State.setMs_msSync, State.msOf_setMs]
    by_cases hk : k = a
    · subst hk
      simp
    · simp [hk]

theorem msOf_withSync (s : State) (m k : Nat) : ({ s with msSync := m } : State).msOf k = s.msOf k := rfl

theorem msOf_milestoneSync (s : State) (k : Nat) :
    (milestoneSync s).msOf k = if k ≤ 170 then max (s.msOf k) s.msSync else s.msOf k := by
  have hmem : k ∈ List.range 171 ↔ k ≤ 170 := by rw [List.mem_range]; omega
  rw [milestoneSync, msOf_withSync, msOf_foldl_atLeastMs]
  simp only [hmem]

theorem le_foldl_max {α : Type} (g : α → Nat) (l : List α) (m : Nat) :
    m ≤ l.foldl (fun m e => max m (g e)) m ∧ ∀ e ∈ l, g e ≤ l.foldl (fun m e => max m (g e)) m := by
  induction l generalizing m with
  | nil => simp
  | cons a r ih =>
    obtain ⟨hm, hr⟩ := ih (max m (g a))
    rw [List.foldl_cons]
    refine ⟨by omega, fun e he => ?_⟩
    rcases List.mem_cons.1 he with rfl | he
    · omega
    · exact hr e he

/-! ### The race detector -/

theorem part_ne_of_mem_rdetClear {s : State} {part : Nat} : ∀ e ∈ (rdetClear part s).shadow, e.2.part ≠ part :=
  fun _ he => by simpa using (List.mem_filter.1 he).2
theorem part_rdetClear (s : State) (part k : Nat) : (rdetClear part s).part k = s.part k := rfl

/-! ### Streams -/

theorem stream_modStream (s : State) (part n : Nat) (f : Stream → Stream) :
    (s.modStream part n f).stream part n = f (s.stream part n) := by
  simp [State.stream, State.modStream]

/-- A stream whose registers are valid is enabled (R159). -/
theorem streamEnable_eq {s : State} {part n : Nat} (hen : (s.stream part n).en = false) (hn : n < (s.part part).nstr)
    (hpages : 1 ≤ (s.stream part n).npages) (hring : (s.stream part n).lpbase + (s.stream part n).npages ≤ (s.part part).lpages)
    (hwin : (s.stream part n).base.toNat + (s.stream part n).npages * 65536 ≤ carveWindow)
    (hdisj : ∀ e ∈ (s.part part).streams, e.1 ≠ n → e.2.en = true →
      e.2.lpbase + e.2.npages ≤ (s.stream part n).lpbase ∨ (s.stream part n).lpbase + (s.stream part n).npages ≤ e.2.lpbase) :
    streamEnable part n s = s.modStream part n fun x => { x with en := true } := by
  unfold streamEnable
  dsimp only
  rw [if_neg (by simp [hen, hn]), if_pos]
  refine ⟨hpages, hring, hwin, ?_⟩
  rw [Bool.not_eq_true', List.any_eq_false]
  intro e he hover
  simp only [Bool.and_eq_true, bne_iff_ne, ne_eq, decide_eq_true_eq] at hover
  obtain ⟨⟨hne, hon⟩, hlo, hhi⟩ := hover
  have := hdisj e he hne hon
  omega

/-! ### Stops -/

/-- What the stop of units and of their threads leaves as it was. -/
def besidesUnits (s : State) : Tbl Part × Tbl Launch × Mem × List StopRec := (s.parts, s.launches, s.mem, s.stops)

theorem stopThread_besides (s : State) (t : Tid) : besidesUnits (s.stopThread t) = besidesUnits s := by
  unfold State.stopThread
  dsimp only
  split <;> rfl

theorem stopUnit_besides (s : State) (uid : Nat) (cause : StopCause) : besidesUnits (s.stopUnit uid cause) = besidesUnits s := by
  unfold State.stopUnit
  split
  · rfl
  · rename_i u _
    have hthreads := foldl_keeps besidesUnits stopThread_besides (s.unitTids u) s
    dsimp only
    cases u.stopping with
    | none => exact hthreads
    | some old => rfl

theorem stopUnits_besides (cause : StopCause) (us : List Nat) (s : State) :
    besidesUnits (us.foldl (fun s u => s.stopUnit u cause) s) = besidesUnits s :=
  foldl_keeps besidesUnits (fun s u => stopUnit_besides s u cause) us s

theorem has_of_contains {r : StopRec} {cause : StopCause} {cores : BitVec 32} (h : r.reqs.contains (cause, cores) = true) :
    r.has cause = true :=
  List.any_eq_true.2 ⟨_, List.contains_iff_mem.1 h, beq_self_eq_true cause⟩

/-- A stop touches no partition, no launch and no memory, and a pre-emption of its partition has its cause (R75, R77). -/
theorem preemptionStop_leaves (part : Nat) (cores : BitVec 32) (cause : StopCause) (s : State) :
    let t := preemptionStop part cores cause s
    t.parts = s.parts ∧ t.launches = s.launches ∧ t.mem = s.mem ∧ ∃ r ∈ t.stops, r.part = part ∧ r.has cause = true := by
  unfold preemptionStop
  dsimp only
  have hkeep := stopUnits_besides cause (s.stoppable part cores cause) s
  simp only [besidesUnits, Prod.mk.injEq] at hkeep
  obtain ⟨hparts, hlaunches, hmem, -⟩ := hkeep
  split
  · rename_i h
    obtain ⟨r, hr, hj⟩ := List.any_eq_true.1 h.2
    refine ⟨hparts, hlaunches, hmem, _, List.mem_map_of_mem hr, ?_⟩
    have hpart : r.part = part := by simpa using (Bool.and_eq_true_iff.1 hj).1
    simp only [hj, Bool.true_and]
    split
    · exact ⟨hpart, has_of_contains (cores := cores) (by simp)⟩
    · rename_i hc
      exact ⟨hpart, has_of_contains (cores := cores) (by simpa using hc)⟩
  · exact ⟨hparts, hlaunches, hmem, _, List.mem_append_right _ List.mem_cons_self, rfl, by simp [StopRec.has]⟩

/-! ### Debug commands -/

section Debug
variable {s : State} {part ctx : Nat}

/-- A refused command leaves its result and nothing else of what a debugger sees (R426). -/
theorem dbgResultIs_leaves (s : State) (part : Nat) (r : BitVec 8) :
    let t := s.dbgResultIs part r
    (t.part part).dbgResult = r ∧ (t.part part).dbgState = (s.part part).dbgState ∧ t.launches = s.launches ∧ t.saved = s.saved := by
  simp [State.dbgResultIs]

theorem dbgHalt_noctx (h : s.liveCtx part ctx = false) : dbgHalt part ctx s = s.dbgResultIs part dbgNOCTX := by
  simp [dbgHalt, h]
theorem dbgGo_noctx (step : Bool) (h : s.liveCtx part ctx = false) : dbgGo step part ctx s = s.dbgResultIs part dbgNOCTX := by
  simp [dbgGo, h]
theorem dbgGo_state (step : Bool) (h : s.liveCtx part ctx = true) (hst : (s.part part).dbgState ≠ 2 ∨ (s.part part).dbgCtx ≠ ctx) :
    dbgGo step part ctx s = s.dbgResultIs part dbgSTATE := by
  rw [dbgGo, h, if_neg (by decide), if_pos hst]
theorem dbgHalt_busy (h : s.liveCtx part ctx = true) (hst : (s.part part).dbgState ≠ 0) :
    dbgHalt part ctx s = s.dbgResultIs part (if (s.part part).dbgCtx = ctx then dbgSTATE else dbgBUSY) := by
  rw [dbgHalt, h, if_neg (by decide)]
  split
  · rename_i hc
    rw [if_pos hc.2]
  · rename_i hc
    have hother : (s.part part).dbgCtx ≠ ctx := fun hc' => hc ⟨hst, hc'⟩
    have hbusy : s.dbgBusy part ctx = true := by simpa [State.dbgBusy, hother] using hst
    rw [if_pos hbusy, if_neg hother]

theorem liveCtx_launch (h : s.liveCtx part ctx = true) : ∃ l, s.launches.find? (part * 2048 + ctx) = some l := by
  unfold State.liveCtx at h
  split at h
  · exact ⟨_, ‹_›⟩
  · cases h

/-- What an accepted halt marks before its stop. -/
def haltMarked (part ctx : Nat) (s : State) : State :=
  (s.modPart part fun p => { p with dbgCtx := ctx, dbgResult := 0, dbgState := 1, dbgCount := 0 }).modLaunch (part * 2048 + ctx)
    fun l => { l with halted := true }
/-- What an accepted resume marks. -/
def resumeMarked (part ctx : Nat) (s : State) : State :=
  (s.modPart part fun p => { p with dbgResult := 0, dbgState := 3, dbgCount := 0 }).modLaunch (part * 2048 + ctx)
    fun l => { l with halted := false }

/-- What an accepted step marks. -/
def stepMarked (part ctx : Nat) (s : State) : State :=
  let s := s.modPart part fun p => { p with dbgResult := 0, dbgState := 3, dbgCount := 0 }
  { s with saved := s.saved.map fun x =>
      if x.unit.cid = part * 2048 + ctx then { x with unit := { x.unit with stepping := true } } else x }

theorem part_modLaunch (s : State) (c : Nat) (f : Launch → Launch) (p : Nat) : (s.modLaunch c f).part p = s.part p := rfl

theorem part_haltMarked (s : State) (part ctx : Nat) :
    (haltMarked part ctx s).part part = { s.part part with dbgCtx := ctx, dbgResult := 0, dbgState := 1, dbgCount := 0 } := by
  rw [haltMarked, part_modLaunch, State.part_modPart_self]
theorem part_resumeMarked (s : State) (part ctx : Nat) :
    (resumeMarked part ctx s).part part = { s.part part with dbgResult := 0, dbgState := 3, dbgCount := 0 } := by
  rw [resumeMarked, part_modLaunch, State.part_modPart_self]
theorem launch_haltMarked (h : s.liveCtx part ctx = true) :
    ∃ l, (haltMarked part ctx s).launches.find? (part * 2048 + ctx) = some l ∧ l.halted = true := by
  obtain ⟨l, hl⟩ := liveCtx_launch h
  refine ⟨{ l with halted := true }, ?_, rfl⟩
  rw [haltMarked, State.find_modLaunch, if_pos rfl, State.modPart_launches, hl, Option.map_some]
theorem launch_resumeMarked (h : s.liveCtx part ctx = true) :
    ∃ l, (resumeMarked part ctx s).launches.find? (part * 2048 + ctx) = some l ∧ l.halted = false := by
  obtain ⟨l, hl⟩ := liveCtx_launch h
  refine ⟨{ l with halted := false }, ?_, rfl⟩
  rw [resumeMarked, State.find_modLaunch, if_pos rfl, State.modPart_launches, hl, Option.map_some]
theorem part_stepMarked (s : State) (part ctx : Nat) :
    (stepMarked part ctx s).part part = { s.part part with dbgResult := 0, dbgState := 3, dbgCount := 0 } := by
  change State.part (s.modPart part fun p => { p with dbgResult := 0, dbgState := 3, dbgCount := 0 }) part = _
  rw [State.part_modPart_self]
theorem saved_stepMarked (s : State) (part ctx : Nat) :
    ∀ x ∈ (stepMarked part ctx s).saved, x.unit.cid = part * 2048 + ctx → x.unit.stepping = true := by
  intro x hx hcid
  obtain ⟨y, -, rfl⟩ := List.mem_map.1 hx
  split
  · rfl
  · rename_i h
    rw [if_neg h] at hcid
    exact absurd hcid h

theorem dbgHalt_idle (h : s.liveCtx part ctx = true) (hst : (s.part part).dbgState = 0) :
    dbgHalt part ctx s =
      if s.dbgFits part ctx then preemptionStop part (BitVec.allOnes 32) .debug (haltMarked part ctx s)
      else s.dbgResultIs part dbgSPACE := by
  rw [dbgHalt, h, if_neg (by decide), if_neg (by simp [hst]), if_neg (by simp [State.dbgBusy, hst])]
  cases s.dbgFits part ctx <;> rfl

/-- A resumed launch is resuming while a unit of it is to be placed, and idle then (R428). -/
theorem resumed_leaves (s : State) (part : Nat) :
    let t := s.resumed part
    (t.part part).dbgResult = (s.part part).dbgResult ∧
      ((t.part part).dbgState = (s.part part).dbgState ∨ (t.part part).dbgState = 0) ∧ t.launches = s.launches ∧ t.saved = s.saved := by
  unfold State.resumed
  dsimp only
  split
  · simp
  · exact ⟨rfl, .inl rfl, rfl, rfl⟩

/-- A halt that is accepted (R427). -/
theorem dbgHalt_leaves {s : State} {part ctx : Nat} (hlive : s.liveCtx part ctx = true) (hst : (s.part part).dbgState = 0)
    (hfits : s.dbgFits part ctx = true) :
    let t := dbgHalt part ctx s
    (t.part part).dbgState = 1 ∧ (t.part part).dbgResult = 0 ∧ (t.part part).dbgCtx = ctx ∧
      (∃ l, t.launches.find? (part * 2048 + ctx) = some l ∧ l.halted = true) ∧
      (∃ r ∈ t.stops, r.part = part ∧ r.has .debug = true) ∧ t.mem = s.mem := by
  rw [dbgHalt_idle hlive hst, if_pos hfits]
  obtain ⟨hparts, hlaunches, hmem, hstop⟩ := preemptionStop_leaves part (BitVec.allOnes 32) .debug (haltMarked part ctx s)
  have hpart := (part_eq_of_parts hparts part).trans (part_haltMarked s part ctx)
  exact ⟨by rw [hpart], by rw [hpart], by rw [hpart],
    by rw [hlaunches]; exact launch_haltMarked hlive, hstop, hmem⟩

theorem dbgResume_halted {s : State} {part ctx : Nat} (hlive : s.liveCtx part ctx = true) (hst : (s.part part).dbgState = 2)
    (hctx : (s.part part).dbgCtx = ctx) : dbgGo false part ctx s = (resumeMarked part ctx s).resumed part := by
  rw [dbgGo, hlive, if_neg (by decide), if_neg (by simp [hst, hctx])]
  rfl

/-- A resume that is accepted (R428). -/
theorem dbgResume_leaves {s : State} {part ctx : Nat} (hlive : s.liveCtx part ctx = true) (hst : (s.part part).dbgState = 2)
    (hctx : (s.part part).dbgCtx = ctx) :
    let t := dbgGo false part ctx s
    (t.part part).dbgResult = 0 ∧ ((t.part part).dbgState = 3 ∨ (t.part part).dbgState = 0) ∧
      (∃ l, t.launches.find? (part * 2048 + ctx) = some l ∧ l.halted = false) ∧ t.saved = s.saved := by
  rw [dbgResume_halted hlive hst hctx]
  have hpart := part_resumeMarked s part ctx
  obtain ⟨hresult, hstate, hlaunches, hsaved⟩ := resumed_leaves (resumeMarked part ctx s) part
  rw [hpart] at hresult hstate
  exact ⟨hresult, hstate, by rw [hlaunches]; exact launch_resumeMarked hlive, hsaved⟩

theorem dbgStep_halted {s : State} {part ctx : Nat} (hlive : s.liveCtx part ctx = true) (hst : (s.part part).dbgState = 2)
    (hctx : (s.part part).dbgCtx = ctx) : dbgGo true part ctx s = stepMarked part ctx s := by
  rw [dbgGo, hlive, if_neg (by decide), if_neg (by simp [hst, hctx]), if_pos rfl]
  rfl

/-- A step that is accepted (R429). -/
theorem dbgStep_leaves {s : State} {part ctx : Nat} (hlive : s.liveCtx part ctx = true) (hst : (s.part part).dbgState = 2)
    (hctx : (s.part part).dbgCtx = ctx) :
    let t := dbgGo true part ctx s
    (t.part part).dbgResult = 0 ∧ (t.part part).dbgState = 3 ∧
      (∀ x ∈ t.saved, x.unit.cid = part * 2048 + ctx → x.unit.stepping = true) ∧ t.launches = s.launches := by
  rw [dbgStep_halted hlive hst hctx]
  have hpart := part_stepMarked s part ctx
  exact ⟨by rw [hpart], by rw [hpart], saved_stepMarked s part ctx, rfl⟩

end Debug

end Sys2Proof.RegisterEvents
end

section
open Sys2Proof Sys2Proof.Machine Sys2Proof.RegisterEvents

/-- Settles O52: each event runs its own change of the state, and the lemmas above say what that change leaves. -/
theorem registerAndFaultEvents : Obligations.RegisterAndFaultEvents := by
  unfold Obligations.RegisterAndFaultEvents
  refine ⟨?queueEnable, ?queueTail, ?mapped, ?absent, ?denied, ?rdetClear, ?rdetEnable, ?fwstat, ?errCcnt, ?slstat, ?streamEnable,
    ?streamDisable, ?streamBusy, ?post, ?postFull, ?sync, ?advance, ?halt, ?go, ?noctx, ?wrongState, ?haltBusy, ?haltSpace⟩
  case queueEnable =>
    intro s k v hs
    exact answers_of_event rfl hs (queueCtlWrite_leaves s k v)
  case queueTail =>
    intro s k v hs
    exact answers_of_event rfl hs (queueTailWrite_leaves s k v)
  case mapped =>
    intro s part space page f r s1 hs hf hwalk hr key hlog hdue
    refine answers_of_event rfl hs ?_
    rw [faultResolveMapped_eq hf, hwalk, walkedAgain_present hr]
    exact makePresent_leaves hlog hdue
  case absent =>
    intro s part space page f r s1 hs hf hwalk hmem
    refine answers_of_event rfl hs ?_
    rw [faultResolveMapped_eq hf, hwalk]
    exact walkedAgain_absent hmem
  case denied =>
    intro s part space page f hs hf key hlog hcmds
    refine answers_of_event rfl hs ?_
    rw [faultResolveDenied_eq hf]
    exact denyPage_leaves hlog hcmds
  case rdetClear =>
    intro s part hs
    exact answers_of_event rfl hs ⟨part_ne_of_mem_rdetClear, fun e he hp => List.mem_filter.2 ⟨he, by simpa using hp⟩, rfl, rfl⟩
  case rdetEnable =>
    intro s part hs hen
    refine answers_of_event rfl hs ?_
    rw [rdetEnable, hen, if_neg (by decide)]
    exact ⟨by rw [part_rdetClear, State.part_modPart_self], part_ne_of_mem_rdetClear⟩
  case fwstat =>
    intro s part hs
    exact answers_of_event rfl hs ⟨by simp [fwstatClear], by simp [fwstatClear], fun j hj => State.part_modPart_ne _ _ _ _ hj⟩
  case errCcnt =>
    intro s part hs
    exact answers_of_event rfl hs ⟨by simp [errCcntClear], fun j hj => State.part_modPart_ne _ _ _ _ hj⟩
  case slstat =>
    intro s part hs
    exact answers_of_event rfl hs ⟨by simp [slstatClear], by simp [slstatClear], rfl, fun j hj => State.part_modPart_ne _ _ _ _ hj⟩
  case streamEnable =>
    intro s part n hs hen hn x hpages hring hwin hdisj
    refine answers_of_event rfl hs ?_
    rw [streamEnable_eq hen hn hpages hring hwin hdisj]
    exact stream_modStream s part n _
  case streamDisable =>
    intro s part n hs hen hg
    refine answers_of_event rfl hs ?_
    simp [streamDisable, hen, hg, stream_modStream]
  case streamBusy =>
    intro s part n hs hg
    refine answers_of_event rfl hs ?_
    simp [streamDisable, hg]
  case post =>
    intro s i f s1 hs hf hp hpost
    refine answers_of_event rfl hs ?_
    rw [faultRecordPost_done hf hp hpost]
    exact ⟨fun g hg hgf => not_mem_faultSettled hp (hgf ▸ hg), rfl, rfl⟩
  case postFull =>
    intro s i f hs hf hfull
    exact answers_of_event rfl hs (faultRecordPost_full hf hfull)
  case sync =>
    intro s hs
    refine answers_of_event rfl hs ⟨fun k hk => ?_, fun k => ?_, (le_foldl_max Prod.snd s.ms 0).2⟩
    · rw [msOf_milestoneSync, if_pos hk]
    · rw [msOf_milestoneSync]
      split <;> omega
  case advance =>
    intro s k hs hk
    refine answers_of_event rfl hs ?_
    rw [milestoneAdvance, if_pos hk]
    exact ⟨by simp [State.msOf_setMs], fun j hj => by simp [State.msOf_setMs, hj]⟩
  case halt =>
    intro s part ctx hs hlive hst hfits
    exact answers_of_event rfl hs (dbgHalt_leaves hlive hst hfits)
  case go =>
    intro s part ctx hs hlive hst hctx
    exact ⟨answers_of_event rfl hs (dbgResume_leaves hlive hst hctx), answers_of_event rfl hs (dbgStep_leaves hlive hst hctx)⟩
  case noctx =>
    intro mk hmk s part ctx hs hlive
    simp only [List.mem_cons, List.not_mem_nil, or_false] at hmk
    rcases hmk with rfl | rfl | rfl
    · exact answers_of_event rfl hs (dbgHalt_noctx hlive ▸ dbgResultIs_leaves s part dbgNOCTX)
    · exact answers_of_event rfl hs (dbgGo_noctx false hlive ▸ dbgResultIs_leaves s part dbgNOCTX)
    · exact answers_of_event rfl hs (dbgGo_noctx true hlive ▸ dbgResultIs_leaves s part dbgNOCTX)
  case wrongState =>
    intro mk hmk s part ctx hs hlive hst
    simp only [List.mem_cons, List.not_mem_nil, or_false] at hmk
    rcases hmk with rfl | rfl
    · exact answers_of_event rfl hs (dbgGo_state false hlive hst ▸ dbgResultIs_leaves s part dbgSTATE)
    · exact answers_of_event rfl hs (dbgGo_state true hlive hst ▸ dbgResultIs_leaves s part dbgSTATE)
  case haltBusy =>
    intro s part ctx hs hlive hst
    refine answers_of_event rfl hs ?_
    rw [dbgHalt_busy hlive hst]
    exact dbgResultIs_leaves s part _
  case haltSpace =>
    intro s part ctx hs hlive hst hfits
    refine answers_of_event rfl hs ?_
    rw [dbgHalt_idle hlive hst, hfits, if_neg (by decide)]
    simpa [hst] using dbgResultIs_leaves s part dbgSPACE

end

section
/-!
PROOFS. What each register and predicate reads as after a write of one, and O18 from them.
-/
namespace Sys2Proof.RegisterFile
open Machine

/-! ### The registers of a thread -/

/-- A write of a g register leaves which registers stand for the handler's. -/
theorem handlerReg_setG (s : State) (n m : Nat) (x : GReg) : (s.setG n x).handlerReg s.cur m = s.handlerReg s.cur m := by
  have hlevel : ((s.setG n x).thr s.cur).level = (s.thr s.cur).level := by
    unfold State.setG State.setGOf
    split <;> simp
  rw [State.handlerReg, State.handlerReg, hlevel]

@[simp] theorem setG_cur (s : State) (n : Nat) (x : GReg) : (s.setG n x).cur = s.cur := State.setGOf_cur ..

/-- A write of a handler register (R48). -/
theorem me_setG_handler {s : State} {n : Nat} (h : s.handlerReg s.cur n = true) (x : GReg) :
    (s.setG n x).me = { s.me with h := Tbl.put {} s.me.h (n - 124) x } := by
  rw [State.setG, State.setGOf, if_pos h]
  exact State.me_modMe ..

/-- A write of the thread's own g register. -/
theorem me_setG_own {s : State} {n : Nat} (h : s.handlerReg s.cur n = false) (x : GReg) :
    (s.setG n x).me = { s.me with g := Tbl.put {} s.me.g n x } := by
  rw [State.setG, State.setGOf, if_neg (by simp [h])]
  exact State.me_modMe ..

/-- What a g register reads as after a write of one. -/
theorem gReg_setG (s : State) (n m : Nat) (x : GReg) : (s.setG n x).gReg m = if m = n then x else s.gReg m := by
  have hle : ∀ k, s.handlerReg s.cur k = true → 124 ≤ k := fun k hk => by
    simp only [State.handlerReg, Bool.and_eq_true, decide_eq_true_eq] at hk
    exact hk.1.1
  rw [State.gReg, setG_cur, handlerReg_setG, State.gReg]
  cases hn : s.handlerReg s.cur n with
  | true =>
    rw [me_setG_handler hn]
    cases hm : s.handlerReg s.cur m with
    | true =>
      have hn' := hle n hn
      have hm' := hle m hm
      by_cases h : m = n
      · simp [h]
      · simp [h, show m - 124 ≠ n - 124 by omega]
    | false =>
      have h : m ≠ n := fun h => by simp [h, hn] at hm
      simp [h]
  | false =>
    rw [me_setG_own hn]
    cases hm : s.handlerReg s.cur m with
    | true =>
      have h : m ≠ n := fun h => by simp [h, hn] at hm
      simp [h]
    | false => by_cases h : m = n <;> simp [h]

theorem thr_setG_ne (s : State) (n : Nat) (x : GReg) {t : Tid} (h : t ≠ s.cur) : (s.setG n x).thr t = s.thr t := by
  unfold State.setG State.setGOf
  split <;> exact State.thr_modThr_ne _ _ _ _ h

/-- What a v register reads as after a write of one. -/
theorem vReg_setV (s : State) (n m : Nat) (x : VReg) : (s.setV n x).vReg m = if m = n then x else s.vReg m := by
  rw [State.vReg, State.setV, State.me_modMe, State.vReg]
  by_cases h : m = n <;> simp [h]

/-! ### Predicates -/

theorem getLsbD_setBit {w : Nat} (x : BitVec w) {n m : Nat} (b : Bool) (hm : m < w) :
    (setBit x n b).getLsbD m = if m = n then b else x.getLsbD m := by
  have hbit : (BitVec.ofNat w (2 ^ n)).getLsbD m = decide (m = n) := by
    simp only [BitVec.getLsbD_ofNat, hm, decide_true, Bool.true_and, Nat.testBit_two_pow, eq_comm]
  cases b with
  | true =>
    rw [setBit, if_pos rfl, BitVec.getLsbD_or, hbit]
    by_cases h : m = n <;> simp [h]
  | false =>
    rw [setBit, if_neg (by decide), BitVec.getLsbD_and, BitVec.getLsbD_not, hbit]
    by_cases h : m = n <;> simp [h, hm]

theorem me_setP (s : State) (n : Nat) (b : Bool) : (s.setP n b).me = s.me.setPred n b := State.me_modMe ..

theorem pred_of_lt {n : Nat} (h : n < 7) (th : Thread) : th.pred n = th.p.getLsbD n := if_neg (Nat.ne_of_lt h)

/-- What a predicate reads as after a write of one; p7 is no predicate that holds a value (R80). -/
theorem pReg_setP (s : State) {n m : Nat} (b : Bool) (hn : n < 7) (hm : m < 7) :
    (s.setP n b).pReg m = if m = n then b else s.pReg m := by
  rw [State.pReg, me_setP, Thread.setPred, if_neg (Nat.ne_of_lt hn), pred_of_lt hm, State.pReg, pred_of_lt hm]
  exact getLsbD_setBit s.me.p b hm

theorem me_setP_registers (s : State) (n : Nat) (b : Bool) : (s.setP n b).me.g = s.me.g ∧ (s.setP n b).me.v = s.me.v := by
  rw [me_setP, Thread.setPred]
  split <;> exact ⟨rfl, rfl⟩

end Sys2Proof.RegisterFile
end

section
open Sys2Proof Sys2Proof.Machine Sys2Proof.RegisterFile

/-- Settles O18, from what a g register, a v register and a predicate read as after a write of one. -/
theorem registersReadBack : Obligations.RegistersReadBack := by
  unfold Obligations.RegistersReadBack
  refine ⟨⟨?own, ?other, ?thread, ?handler, ?vown, ?vother⟩, fun _ => rfl, ?p7, ?pown, ?pother, ?pframe⟩
  case own => intro s n x; rw [gReg_setG, if_pos rfl]
  case other => intro s n m x h; rw [gReg_setG, if_neg h.symm]
  case thread => intro s n x t h; exact thr_setG_ne s n x h
  case handler => intro s n x h; rw [me_setG_handler h]
  case vown => intro s n x; rw [vReg_setV, if_pos rfl]
  case vother => intro s n m x h; rw [vReg_setV, if_neg h.symm]
  case p7 => intro s b; exact me_setP s 7 b
  case pown => intro s n b hn; rw [pReg_setP s b hn hn, if_pos rfl]
  case pother => intro s n m b hn hm h; rw [pReg_setP s b hn hm, if_neg h.symm]
  case pframe =>
    intro s n b
    obtain ⟨hg, hv⟩ := me_setP_registers s n b
    exact ⟨hg, hv, rfl⟩

end

section
/-!
PROOFS. What stands at a PC of a line, and what the fetch of a line comes to: a lemma for each outcome, and O6 from them.
-/
namespace Sys2Proof.FetchedSlots
open Machine

/-- The first slots of the pairs that each value of PAIR marks (R193, R196). -/
def pairTable : List (List Nat) := [[], [0], [1], [2], [3], [0, 2], [0, 3], [1, 3]]

theorem pairFirsts_eq_getD : ∀ n < 8, pairFirsts n = pairTable.getD n [] := by decide

/-- PAIR marks a slot of a line as the first of a pair. -/
def marksPair (secs : List SectorLit) (k : Nat) : Bool := (pairTable.getD ((lineWord secs).extractLsb' 16 3).toNat []).contains k

theorem pairFirsts_contains (secs : List SectorLit) (k : Nat) :
    (pairFirsts ((lineWord secs).extractLsb' 16 3).toNat).contains k = marksPair secs k := by
  rw [marksPair, pairFirsts_eq_getD _ (BitVec.isLt _)]

section
variable (secs : List SectorLit) (pc : Dword)

/-- The words at a PC: its slot's, and the next slot's where the two are a pair. -/
theorem slotsAt_words :
    (slotsAt secs pc).words = (pc, slotWord secs (pc.toNat % 8)) ::
      (if marksPair secs (pc.toNat % 8) then [(pc + 1, slotWord secs (pc.toNat % 8 + 1))] else []) := by
  unfold slotsAt
  dsimp only
  rw [pairFirsts_contains]
  split <;> rfl

/-- The words trap as illegal for reserved bits of the line, or for a pair that breaks a condition. -/
theorem slotsAt_bad :
    (slotsAt secs pc).bad = (decide ((lineWord secs).extractLsb' 0 16 ≠ 0) ||
      (marksPair secs (pc.toNat % 8) && pairBroken (slotWord secs (pc.toNat % 8)) (slotWord secs (pc.toNat % 8 + 1)))) := by
  have hreserved : ((lineWord secs).extractLsb' 0 16 != 0) = decide ((lineWord secs).extractLsb' 0 16 ≠ 0) := by
    simp [bne, Bool.beq_eq_decide_eq]
  unfold slotsAt
  dsimp only
  rw [pairFirsts_contains, hreserved]
  cases marksPair secs (pc.toNat % 8) with
  | true => rw [if_pos rfl, Bool.true_and]
  | false => rw [if_neg (by decide), Bool.false_and, Bool.or_false]

theorem slotsAt_entry : (slotsAt secs pc).entry = btmOk (lineWord secs) (pc.toNat % 8) := by
  unfold slotsAt
  dsimp only
  split <;> rfl

end

/-! ### What the fetch of a line comes to -/

section
variable {s s1 : State} {t : Tid} {secs : List SectorLit} (hfetch : s.fetch t (lineOf (s.thr t).pc) = (.line secs, s1))
include hfetch

/-- A poisoned line is fatal to the context (R414). -/
theorem fetchFor_poisoned (hp : secs.any SectorLit.poison = true) :
    s.fetchFor t = .over
      ((({ s1 with cur := t } : State).meet (tidSource t)).fatalContext (s.thr t).part 0x14 (s.thr t).cid 0) := by
  unfold State.fetchFor
  dsimp only
  rw [hfetch]
  exact if_pos hp

section
variable (hp : secs.any SectorLit.poison = false)
include hp

/-- A line of wrong parity is fatal to the context (R50, R193). -/
theorem fetchFor_misread (hq : parityOk secs = false) :
    s.fetchFor t = .over
      ((({ s1 with cur := t } : State).meet (tidSource t)).fatalContext (s.thr t).part 0x0B (s.thr t).cid 0) := by
  unfold State.fetchFor
  dsimp only
  rw [hfetch]
  simp only [hp, hq]
  rfl

variable (hq : parityOk secs = true)
include hq

/-- A line that reads well gives the slots at the PC, where a check of the mask that is still owed passes (R194, R195). -/
theorem fetchFor_ready (hentry : (s.thr t).unchecked = none ∨ btmOk (lineWord secs) ((s.thr t).pc.toNat % 8) = true) :
    ∃ s2, s.fetchFor t = .ready (slotsAt secs (s.thr t).pc) s2 := by
  rw [← slotsAt_entry] at hentry
  unfold State.fetchFor
  dsimp only
  rw [hfetch]
  simp only [hp, hq]
  cases hu : (s.thr t).unchecked with
  | none => exact ⟨_, rfl⟩
  | some c =>
    have hok : (slotsAt secs (s.thr t).pc).entry = true := by simpa [hu] using hentry
    simp only [hok]
    exact ⟨_, rfl⟩

/-- An entry outside the mask is fatal to the context, or to a service core's partition (R195). -/
theorem fetchFor_refused {c : Nat} (hu : (s.thr t).unchecked = some c)
    (hentry : btmOk (lineWord secs) ((s.thr t).pc.toNat % 8) = false) :
    s.fetchFor t = .over (
      let here := ({ s1 with cur := t } : State).meet (tidSource t)
      if isService t then here.fatalPartition (s.thr t).part 0x07 (s.thr t).cid 0 0 c
      else here.fatalContext (s.thr t).part 0x07 (s.thr t).cid c) := by
  rw [← slotsAt_entry] at hentry
  unfold State.fetchFor
  dsimp only
  rw [hfetch]
  simp only [hp, hq, hu, hentry]
  cases isService t <;> rfl

end
end

end Sys2Proof.FetchedSlots
end

section
open Sys2Proof Sys2Proof.Machine Sys2Proof.FetchedSlots

/-- Settles O6, by the four things that the fetch of a line comes to: the slots at the PC, a refused entry, and the two faults of
the line itself. -/
theorem fetchGivesSlots : Obligations.FetchGivesSlots := by
  unfold Obligations.FetchGivesSlots
  intro s t secs s1 hfetch
  dsimp only
  refine ⟨fun hp hq => ⟨fun hentry => ?ready, fun c hu hentry => fetchFor_refused hfetch hp hq hu hentry⟩,
    fetchFor_poisoned hfetch, fetchFor_misread hfetch⟩
  case ready =>
    obtain ⟨s2, hready⟩ := fetchFor_ready hfetch hp hq hentry
    exact ⟨_, s2, hready, slotsAt_words .., slotsAt_bad ..⟩

end

section
/-!
PROOFS. What each operation of a tile access answers, what each tile instruction does with them and what a change of a tile
leaves, and O37 from them.
-/
namespace Sys2Proof.TileStore
open Machine RegisterEvents

/-- The byte of its core's store at an offset of a tile (R84). -/
def tileByte (u : UnitRec) (h x : Nat) : Nat := (u.tileBase + tileBaseOf (u.tile h)) * 4096 + x

/-! ### The check of alignment -/

theorem lowestBad_singleton {off : Nat} {bad : Nat → Bool} (hb : bad off = false) : lowestBad [off] bad = none := by
  simp [lowestBad, hb]

theorem does_tileAligned (o h : Nat) {off : Nat} {s : State} (ha : off % 32 = 0) : Does (tileAligned o h [off]) s () s := by
  unfold tileAligned
  rw [lowestBad_singleton (by simp [ha])]
  rfl

/-! ### What a tile's last change leaves -/

/-- Going on after a tile's last change sets the thread's milestone, and nothing else. -/
theorem tileSeen_eq {s : State} {u : UnitRec} (hu : s.myUnit = some u) (h : Nat) :
    s.tileSeen h = s.setMs s.src (max (s.msOf s.src) (u.tileLast h)) := by
  rw [State.tileSeen, hu]
  rfl

section
variable {s : State} {u : UnitRec} {h : Nat} (hu : s.myUnit = some u)
include hu

theorem tileSeen_mem : (s.tileSeen h).mem = s.mem := by rw [tileSeen_eq hu, State.setMs_mem]
theorem tileSeen_readV (x : Spec) (tag : BitVec 4) : (s.tileSeen h).readV x tag = s.readV x tag := by rw [tileSeen_eq hu]; rfl

/-! ### The operations of a tile access -/

theorem does_tileReady (hr : tileState (u.tile h) = tileREADY) : Does (tileReady h) s () (s.tileSeen h) := by
  refine does_bind (does_get s) ?_
  rw [hu]
  simp only [hr]
  exact does_upd _ s

/-- An offset inside the tile, wrapped where WRAP asks for it (R84, R254). -/
theorem does_tileInside (o : Nat) {off x : Nat} (wrap : Bool)
    (hx : (if wrap then off % (tileSize (u.tile h) * 4096) else off) = x)
    (hlt : x < tileSize (u.tile h) * 4096) : Does (tileInside o h [off] wrap) s [x] s := by
  have hoffs : (if wrap then [off].map (· % (tileSize (u.tile h) * 4096)) else [off]) = [x] := by
    rw [← hx]
    cases wrap <;> rfl
  refine does_bind (does_get s) ?_
  rw [hu]
  dsimp only
  rw [hoffs, lowestBad_singleton (by simpa using hlt)]
  rfl

/-- The place of an offset in a tile that no command locks (R84, R137). -/
theorem does_tileUnlocked (o : Nat) {x : Nat} {store : Bool}
    (hl : s.lockedBy (70000 + u.core) (tileByte u h x) (tileByte u h x + 32) store = false) :
    Does (tileUnlocked o h [x] store) s [tileAddr u.core (tileByte u h x)] s := by
  unfold tileByte at hl
  refine does_bind (does_get s) ?_
  rw [hu]
  dsimp only
  rw [lowestBad_singleton hl]
  rfl

/-- Bytes that no operation holds busy are not waited for (R296). -/
theorem does_waitBusy {at_ : Nat} (hb : s.busyAt s.me.unit u at_ 32 = none) : Does (waitBusy [tileAddr u.core at_]) s () s := by
  have hoff : tileAddr u.core at_ - tileAddr u.core 0 = at_ := by
    unfold tileAddr
    omega
  refine does_bind (does_get s) ?_
  rw [hu]
  simp only [List.findSome?_cons, List.findSome?_nil, hoff, hb]
  rfl

theorem does_tileSectors (o : Nat) {off x : Nat} (wrap : Bool) {store : Bool} (ha : off % 32 = 0)
    (hx : (if wrap then off % (tileSize (u.tile h) * 4096) else off) = x) (hlt : x < tileSize (u.tile h) * 4096)
    (hl : s.lockedBy (70000 + u.core) (tileByte u h x) (tileByte u h x + 32) store = false)
    (hb : s.busyAt s.me.unit u (tileByte u h x) 32 = none) :
    Does (tileSectors o h [off] wrap store) s [tileAddr u.core (tileByte u h x)] s := by
  have haddrs : Does (tileAddrs o h [off] wrap store) s [tileAddr u.core (tileByte u h x)] s :=
    does_bind (does_tileAligned o h ha) (does_bind (does_tileInside hu o wrap hx hlt) (does_tileUnlocked hu o hl))
  exact does_bind haddrs (does_bind (does_waitBusy hu hb) rfl)

/-! ### The bodies of the tile instructions -/

section
variable {w : Fields} (hh : w.ext.toNat % 256 = h) (htx : s.me.tx = none)
include hh htx

theorem does_tldBody {off a : Nat} (hr : tileState (u.tile h) = tileREADY)
    (hoff : Does (tileOffset 2 w.a) (s.tileSeen h) off (s.tileSeen h))
    (hsec : Does (tileSectors 2 h [off] (w.sub.getLsbD 0) false) (s.tileSeen h) [a] (s.tileSeen h)) :
    Does (tldBody w) s () ((s.tileSeen h).putV w.d
      { sec := (s.mem.sector a).data, side := (s.mem.sector a).side, tag := w.ty, poison := (s.mem.sector a).poison }) := by
  subst hh
  refine does_bind (unsupported_outside htx) (does_bind (does_tileReady hu hr) (does_bind hoff (does_bind hsec ?_)))
  rw [← tileSeen_mem hu]
  rfl

theorem does_tstBody {off a : Nat} (hr : tileState (u.tile h) = tileREADY)
    (hoff : Does (tileOffset 2 w.a) (s.tileSeen h) off (s.tileSeen h))
    (hsec : Does (tileSectors 2 h [off] (w.sub.getLsbD 0) true) (s.tileSeen h) [a] (s.tileSeen h)) :
    let b := s.readV w.b 0
    Does (tstBody w) s ()
      { s.tileSeen h with mem := s.mem.setSector a { data := b.sec, side := b.side, poison := b.poison } } := by
  intro b
  have hb : (s.tileSeen h).readV w.b 0 = b := tileSeen_readV hu w.b 0
  subst hh
  refine does_bind (unsupported_outside htx) (does_bind (does_tileReady hu hr) (does_bind hoff ?_))
  refine does_bind (does_get _) (does_bind hsec ?_)
  rw [← tileSeen_mem hu, ← hb]
  rfl

theorem does_tsetDefBody {base size : Nat} (hbase : Does (tileOffset 2 w.a) s base s) (hsize : Does (tileOffset 3 w.b) s size s)
    (hpos : size ≠ 0) (hfits : base + size ≤ u.res.tile4k) (he : tileState (u.tile h) = tileEMPTY) :
    Does (tsetDefBody w) s () (s.tsetTile h (mkTile tileEMPTY size base)) := by
  subst hh
  have hok : ¬ (size = 0 ∨ u.res.tile4k < base + size) := by omega
  refine does_bind (unsupported_outside htx) (does_bind hbase (does_bind hsize (does_bind (does_get s) ?_)))
  rw [hu]
  simp only [hok, he]
  exact does_upd _ s

theorem does_tsetReadyBody_ready (hr : tileState (u.tile h) = tileREADY) : Does (tsetReadyBody w) s () s := by
  subst hh
  refine does_bind (unsupported_outside htx) (does_bind (does_get s) ?_)
  rw [hu]
  simp only [hr]
  rfl

theorem does_tsetReadyBody_empty (he : tileState (u.tile h) = tileEMPTY) (hpos : tileSize (u.tile h) ≠ 0) :
    Does (tsetReadyBody w) s () (s.tsetTile h (setTileState (u.tile h) tileREADY)) := by
  subst hh
  refine does_bind (unsupported_outside htx) (does_bind (does_get s) ?_)
  rw [hu]
  simp only [he, hpos]
  exact does_upd _ s

theorem does_tsetEmptyBody_empty (he : tileState (u.tile h) = tileEMPTY) : Does (tsetEmptyBody w) s () s := by
  subst hh
  refine does_bind (unsupported_outside htx) (does_bind (does_get s) ?_)
  rw [hu]
  simp only [he]
  rfl

theorem does_tsetEmptyBody_ready (hr : tileState (u.tile h) = tileREADY) (hfree : s.tileBusy s.me.unit h = false) :
    Does (tsetEmptyBody w) s () (s.tsetTile h (setTileState (u.tile h) tileEMPTY)) := by
  subst hh
  refine does_bind (unsupported_outside htx) (does_bind (does_get s) ?_)
  rw [hu]
  simp only [hr, hfree]
  exact does_upd _ s

theorem does_tqryBody : Does (tqryBody w) s () ((s.tileSeen h).putG w.d (u.tile h).toNat false) := by
  subst hh
  refine does_bind (unsupported_outside htx) (does_bind (does_get s) ?_)
  rw [hu]
  exact does_bind (does_upd _ s) (does_writeG ..)

end
end

/-! ### A change of a tile -/

theorem tileMs_le_tileLast (u : UnitRec) (h : Nat) : u.tileMs.get 0 h ≤ u.tileLast h := by
  have hif : ∀ (c : Bool) (m x : Nat), (if c then max m x else m) = max m (if c then x else 0) := by
    intro c m x
    cases c <;> simp
  unfold Tbl.get
  cases hf : Tbl.find? u.tileMs h with
  | none => exact Nat.zero_le _
  | some m =>
    unfold UnitRec.tileLast
    simp only [hif]
    refine Nat.le_trans ?_ ((le_foldl_max _ u.tileMs 0).2 _ (Tbl.find?_mem hf))
    simp

/-- Waking threads for a tile wakes no thread beside those that wait for it. -/
theorem thr_setTile (s : State) (ms uid h : Nat) (e : Word) (x : Tid) :
    (s.setTile ms uid h e).thr x = if waitsTile uid h x (s.thr x) then (s.thr x).wake s.now else s.thr x := by
  have hfree : waitsTile uid h x {} = false := by simp [waitsTile]
  exact thr_wakeIf (s.modUnit uid _) hfree

/-- The unit after a change of one of its tiles. -/
theorem find_setTile {s : State} {uid : Nat} {u : UnitRec} (hf : s.units.find? uid = some u) (ms h : Nat) (e : Word) :
    (s.setTile ms uid h e).units.find? uid =
      some { u with tiles := Tbl.put 0 u.tiles h e, tileMs := Tbl.put 0 u.tileMs h ms } := by
  refine (State.find_modUnit s uid uid _).trans ?_
  rw [if_pos rfl, hf]
  rfl

theorem units_of_myUnit {s : State} {u : UnitRec} (hu : s.myUnit = some u) : s.units.find? s.me.unit = some u := by
  unfold State.myUnit at hu
  split at hu
  · cases hu
  · exact hu

section
variable {s : State} {u : UnitRec} (hu : s.myUnit = some u) (h : Nat) (e : Word)
include hu

theorem tsetTile_eq :
    s.tsetTile h e =
      let m := max (s.msOf s.src) (u.tileLast h)
      (s.setMs s.src m).setTile m s.me.unit h e := by
  have hms : (s.setMs s.src (max (s.msOf s.src) (u.tileLast h))).msOf s.src = max (s.msOf s.src) (u.tileLast h) := by
    rw [State.msOf_setMs, if_pos rfl]
  rw [State.tsetTile]
  dsimp only
  rw [tileSeen_eq hu]
  exact congrArg (State.setTile _ · s.me.unit h e) hms

theorem msOf_tsetTile : (s.tsetTile h e).msOf s.src = max (s.msOf s.src) (u.tileLast h) := by
  rw [tsetTile_eq hu]
  exact (State.msOf_setMs ..).trans (if_pos rfl)

theorem thr_tsetTile (x : Tid) :
    (s.tsetTile h e).thr x = if waitsTile s.me.unit h x (s.thr x) then (s.thr x).wake s.now else s.thr x := by
  rw [tsetTile_eq hu]
  exact thr_setTile ..

theorem tsetTile_mem : (s.tsetTile h e).mem = s.mem := by
  rw [tsetTile_eq hu]
  rfl

theorem tsetTile_regsKept : RegsKept s (s.tsetTile h e) := by
  intro x
  rw [thr_tsetTile hu]
  split <;> exact ⟨rfl, rfl, rfl, rfl⟩

theorem tsetTile_unit :
    ∃ v, (s.tsetTile h e).units.find? s.me.unit = some v ∧ v.tile h = e ∧ (∀ j, j ≠ h → v.tile j = u.tile j) ∧
      v.tileMs.get 0 h = (s.tsetTile h e).msOf s.src := by
  rw [msOf_tsetTile hu, tsetTile_eq hu]
  exact ⟨_, find_setTile (units_of_myUnit hu) .., Tbl.get_put_self .., fun j hj => Tbl.get_put_ne _ _ _ _ _ hj,
    Tbl.get_put_self ..⟩

end

end Sys2Proof.TileStore
end

section
open Sys2Proof Sys2Proof.Machine Sys2Proof.TileStore

/-- Settles O37, from what the body of each tile instruction does, what a change of a tile leaves, and the checks that a tile
access passes. -/
theorem tileEffects : Obligations.TileEffects := by
  unfold Obligations.TileEffects
  refine ⟨⟨?tld, ?tst, ?def_, ?ready, ?empty, ?change, ?tqry⟩, ?place⟩
  case tld =>
    intro w s off u hi htx hu hr s1 hoff a hsec
    exact runInstr_seq hi (does_seqBody (does_tldBody hu rfl htx hr hoff hsec))
  case tst =>
    intro w s off u hi htx hu hr s1 hoff a hsec b
    exact runInstr_seq hi (does_seqBody (does_tstBody hu rfl htx hr hoff hsec))
  case def_ =>
    intro w s base size u hi htx hbase hsize hu hpos hfits he
    exact runInstr_seq hi (does_seqBody (does_tsetDefBody hu rfl htx hbase hsize hpos hfits he))
  case ready =>
    intro w s u hi htx hu
    exact ⟨fun hr => runInstr_seq hi (does_seqBody (does_tsetReadyBody_ready hu rfl htx hr)),
      fun he hpos => runInstr_seq hi (does_seqBody (does_tsetReadyBody_empty hu rfl htx he hpos))⟩
  case empty =>
    intro w s u hi htx hu
    exact ⟨fun he => runInstr_seq hi (does_seqBody (does_tsetEmptyBody_empty hu rfl htx he)),
      fun hr hfree => runInstr_seq hi (does_seqBody (does_tsetEmptyBody_ready hu rfl htx hr hfree))⟩
  case change =>
    intro s u h e hu t
    have hms : t.msOf s.src = max (s.msOf s.src) (u.tileLast h) := msOf_tsetTile hu h e
    obtain ⟨v, hv, hself, hother, hlast⟩ := tsetTile_unit hu h e
    have hbefore := tileMs_le_tileLast u h
    refine ⟨⟨v, hv, hself, hother, hlast, by omega⟩, tsetTile_mem hu h e, tsetTile_regsKept hu h e, by omega, ?_⟩
    intro x hx
    exact (thr_tsetTile hu h e x).trans (if_neg (by simp [hx]))
  case tqry =>
    intro w s u hi htx hu
    exact runInstr_seq hi (does_seqBody (does_tqryBody hu rfl htx))
  case place =>
    intro o h off wrap store s u hu ha size x hlt at_ hl hb
    exact does_tileSectors hu o wrap ha rfl hlt hl hb

end
